-- ==== Sys2Proof/Word.lean ====
section
/-! DEFINITION. The word types of LCDC (00_scope.md R9, 10_state.md R20): bytes, I/O register addresses,
host-memory addresses, bit indices and operation words. -/

namespace Sys2Proof

/-- `UInt8` of R9: an I/O register's content, a host-memory byte, a display byte. -/
abbrev Byte := BitVec 8

/-- A 7-bit I/O register address (R60, R65). -/
abbrev IoAddr := BitVec 7

/-- A 16-bit host-memory byte address (R60); sums wrap modulo 2^16 (R63). -/
abbrev MemAddr := BitVec 16

/-- A bit index or pin number 0..7 (R65, R93). -/
abbrev BitIdx := BitVec 3

/-- A 32-bit operation word, bit 31 the most significant (R90). -/
abbrev OpWord := BitVec 32

end Sys2Proof
end

