-- ==== Sys2Proof/Syntax.lean ====
section
/-! DEFINITION. The operations of LCDC-OP1 (00_scope.md R3): one constructor per row of
spec/opcode_table.json, with the operand fields of 30_encoding.md R93 to R96. -/

namespace Sys2Proof

/-- The value operand V of SETPINDIR (R94): V = 1 is OUTPUT, V = 0 is INPUT. -/
inductive PinDir where
  | input
  | output
  deriving DecidableEq, Repr

/-- The value operand V of SETPINSTATE (R94): V = 1 is HIGH, V = 0 is LOW. -/
inductive PinState where
  | low
  | high
  deriving DecidableEq, Repr

/-- The 16 operations. Operand types have exactly the ranges of the encoding's fields, so a bit index, slot or
address out of range cannot be written (R93). -/
inductive Instr where
  /-- R125 -/
  | nop
  /-- R141 -/
  | setbit (reg : IoAddr) (bit : BitIdx)
  /-- R142 -/
  | resetbit (reg : IoAddr) (bit : BitIdx)
  /-- R143 -/
  | togglebit (reg : IoAddr) (bit : BitIdx)
  /-- R144 -/
  | setpindir (reg : IoAddr) (bit : BitIdx) (v : PinDir)
  /-- R145 -/
  | setpinstate (reg : IoAddr) (bit : BitIdx) (v : PinState)
  /-- R146 -/
  | getpinstate (reg : IoAddr) (bit : BitIdx)
  /-- R171 -/
  | btninit (slot : BitVec 3) (dirreg outreg inreg : IoAddr) (pin : BitIdx)
  /-- R172 -/
  | btnget (slot : BitVec 3)
  /-- R241 -/
  | lcdinit
  /-- R242 -/
  | lcdcmd (byte : Byte)
  /-- R243 -/
  | lcdchar (byte : Byte)
  /-- R244 -/
  | lcdstr (maddr : MemAddr)
  /-- R245 -/
  | lcdstrat (row : BitVec 2) (col : BitVec 6) (maddr : MemAddr)
  /-- R246 -/
  | lcdclear
  /-- R247 -/
  | lcdglyph (gslot : BitVec 3) (maddr : MemAddr)
  deriving DecidableEq, Repr

end Sys2Proof
end

