-- ==== Sys2Proof/Decode.lean ====
section
/-! DEFINITION. Decoding and encoding of operation words (30_encoding.md R90 to R101), the opcode map R92 as data,
and `decodeTableWord`, the host's view of the decoder. -/

namespace Sys2Proof

/-- What a word is (R99): an operation, or ILLEGAL. -/
inductive Decoded where
  | op (i : Instr)
  /-- no row of R92 matches the word (R98): executing it raises the block fault ILLEGAL -/
  | illegal
  deriving DecidableEq, Repr

/-- The field `w[lo+len-1 : lo]` (R9). -/
def field (w : OpWord) (lo len : Nat) : BitVec len := w.extractLsb' lo len

/-- V of SETPINDIR (R94). -/
def pinDirOf (v : BitVec 1) : PinDir := if v = 1#1 then .output else .input

/-- V of SETPINSTATE (R94). -/
def pinStateOf (v : BitVec 1) : PinState := if v = 1#1 then .high else .low

/-- The bit V of a direction (R94). -/
def pinDirBit (v : PinDir) : BitVec 1 :=
  match v with
  | .output => 1#1
  | .input => 0#1

/-- The bit V of a state (R94). -/
def pinStateBit (v : PinState) : BitVec 1 :=
  match v with
  | .high => 1#1
  | .low => 0#1

/-- The word decodes to `i` if its reserved bits are zero, and is ILLEGAL otherwise (R98). -/
def reservedZero (ok : Bool) (i : Instr) : Decoded := if ok then .op i else .illegal

/-- Format G without V (R91, R93): `w[27]` and `w[23:7]` are reserved. -/
def zeroG (w : OpWord) : Bool := field w 27 1 == 0#1 && field w 7 17 == 0#17

/-- Format G with V: `w[23:7]` is reserved. -/
def zeroGV (w : OpWord) : Bool := field w 7 17 == 0#17

/-- Total decoding of a word (R99), by its opcode `w[31:28]` and the reserved bits of the opcode's format (R91). -/
def decode (w : OpWord) : Decoded :=
  match (field w 28 4).toNat with
  | 0x0 => reservedZero (field w 0 28 == 0#28) .nop
  | 0x1 => reservedZero (zeroG w) (.setbit (field w 0 7) (field w 24 3))
  | 0x2 => reservedZero (zeroG w) (.resetbit (field w 0 7) (field w 24 3))
  | 0x3 => reservedZero (zeroG w) (.togglebit (field w 0 7) (field w 24 3))
  | 0x4 => reservedZero (zeroGV w) (.setpindir (field w 0 7) (field w 24 3) (pinDirOf (field w 27 1)))
  | 0x5 => reservedZero (zeroGV w) (.setpinstate (field w 0 7) (field w 24 3) (pinStateOf (field w 27 1)))
  | 0x6 => reservedZero (zeroG w) (.getpinstate (field w 0 7) (field w 24 3))
  | 0x7 => reservedZero (field w 27 1 == 0#1)
      (.btninit (field w 21 3) (field w 14 7) (field w 7 7) (field w 0 7) (field w 24 3))
  | 0x8 => reservedZero (field w 24 4 == 0#4 && field w 0 21 == 0#21) (.btnget (field w 21 3))
  | 0x9 => reservedZero (field w 0 28 == 0#28) .lcdinit
  | 0xA => reservedZero (field w 8 20 == 0#20) (.lcdcmd (field w 0 8))
  | 0xB => reservedZero (field w 8 20 == 0#20) (.lcdchar (field w 0 8))
  | 0xC => reservedZero (field w 16 12 == 0#12) (.lcdstr (field w 0 16))
  | 0xD => reservedZero (field w 16 4 == 0#4) (.lcdstrat (field w 26 2) (field w 20 6) (field w 0 16))
  | 0xE => reservedZero (field w 0 28 == 0#28) .lcdclear
  | _ => reservedZero (field w 27 1 == 0#1 && field w 16 8 == 0#8) (.lcdglyph (field w 24 3) (field w 0 16))

/-- Format G (R91). -/
def wordG (opc : BitVec 4) (v : BitVec 1) (bit : BitIdx) (reg : IoAddr) : OpWord :=
  opc ++ v ++ bit ++ 0#17 ++ reg

/-- The word of an operation (R91 to R96). -/
def encode (i : Instr) : OpWord :=
  match i with
  | .nop => 0x0#4 ++ 0#28
  | .setbit reg bit => wordG 0x1#4 0#1 bit reg
  | .resetbit reg bit => wordG 0x2#4 0#1 bit reg
  | .togglebit reg bit => wordG 0x3#4 0#1 bit reg
  | .setpindir reg bit v => wordG 0x4#4 (pinDirBit v) bit reg
  | .setpinstate reg bit v => wordG 0x5#4 (pinStateBit v) bit reg
  | .getpinstate reg bit => wordG 0x6#4 0#1 bit reg
  | .btninit slot dirreg outreg inreg pin => 0x7#4 ++ 0#1 ++ pin ++ slot ++ dirreg ++ outreg ++ inreg
  | .btnget slot => 0x8#4 ++ 0#4 ++ slot ++ 0#21
  | .lcdinit => 0x9#4 ++ 0#28
  | .lcdcmd byte => 0xA#4 ++ 0#20 ++ byte
  | .lcdchar byte => 0xB#4 ++ 0#20 ++ byte
  | .lcdstr maddr => 0xC#4 ++ 0#12 ++ maddr
  | .lcdstrat row col maddr => 0xD#4 ++ row ++ col ++ 0#4 ++ maddr
  | .lcdclear => 0xE#4 ++ 0#28
  | .lcdglyph gslot maddr => 0xF#4 ++ 0#1 ++ gslot ++ 0#8 ++ maddr

/-- A row of the opcode map (R92): a word is the row's operation exactly when `w & mask = value`. -/
structure OpRow where
  mnemonic : String
  value    : OpWord
  mask     : OpWord
  deriving DecidableEq, Repr

/-- The opcode map R92, in its order: row k has OPC = k. -/
def opcodeMap : List OpRow :=
  [ ⟨"NOP",         0x00000000#32, 0xFFFFFFFF#32⟩,
    ⟨"SETBIT",      0x10000000#32, 0xF8FFFF80#32⟩,
    ⟨"RESETBIT",    0x20000000#32, 0xF8FFFF80#32⟩,
    ⟨"TOGGLEBIT",   0x30000000#32, 0xF8FFFF80#32⟩,
    ⟨"SETPINDIR",   0x40000000#32, 0xF0FFFF80#32⟩,
    ⟨"SETPINSTATE", 0x50000000#32, 0xF0FFFF80#32⟩,
    ⟨"GETPINSTATE", 0x60000000#32, 0xF8FFFF80#32⟩,
    ⟨"BTNINIT",     0x70000000#32, 0xF8000000#32⟩ ] ++
  [ ⟨"BTNGET",      0x80000000#32, 0xFF1FFFFF#32⟩,
    ⟨"LCDINIT",     0x90000000#32, 0xFFFFFFFF#32⟩,
    ⟨"LCDCMD",      0xA0000000#32, 0xFFFFFF00#32⟩,
    ⟨"LCDCHAR",     0xB0000000#32, 0xFFFFFF00#32⟩,
    ⟨"LCDSTR",      0xC0000000#32, 0xFFFF0000#32⟩,
    ⟨"LCDSTRAT",    0xD0000000#32, 0xF00F0000#32⟩,
    ⟨"LCDCLEAR",    0xE0000000#32, 0xFFFFFFFF#32⟩,
    ⟨"LCDGLYPH",    0xF0000000#32, 0xF8FF0000#32⟩ ]

/-- `OPC` of an operation (R92). -/
def opcOf (i : Instr) : BitVec 4 :=
  match i with
  | .nop => 0x0#4
  | .setbit _ _ => 0x1#4
  | .resetbit _ _ => 0x2#4
  | .togglebit _ _ => 0x3#4
  | .setpindir _ _ _ => 0x4#4
  | .setpinstate _ _ _ => 0x5#4
  | .getpinstate _ _ => 0x6#4
  | .btninit _ _ _ _ _ => 0x7#4
  | .btnget _ => 0x8#4
  | .lcdinit => 0x9#4
  | .lcdcmd _ => 0xA#4
  | .lcdchar _ => 0xB#4
  | .lcdstr _ => 0xC#4
  | .lcdstrat _ _ _ => 0xD#4
  | .lcdclear => 0xE#4
  | .lcdglyph _ _ => 0xF#4

/-- The mnemonic of an operation (R92). -/
def mnemonicOf (i : Instr) : String :=
  match i with
  | .nop => "NOP"
  | .setbit _ _ => "SETBIT"
  | .resetbit _ _ => "RESETBIT"
  | .togglebit _ _ => "TOGGLEBIT"
  | .setpindir _ _ _ => "SETPINDIR"
  | .setpinstate _ _ _ => "SETPINSTATE"
  | .getpinstate _ _ => "GETPINSTATE"
  | .btninit _ _ _ _ _ => "BTNINIT"
  | .btnget _ => "BTNGET"
  | .lcdinit => "LCDINIT"
  | .lcdcmd _ => "LCDCMD"
  | .lcdchar _ => "LCDCHAR"
  | .lcdstr _ => "LCDSTR"
  | .lcdstrat _ _ _ => "LCDSTRAT"
  | .lcdclear => "LCDCLEAR"
  | .lcdglyph _ _ => "LCDGLYPH"

/-- The row of the opcode map that matches a word, by R99's search in order. -/
def matchingRow (w : OpWord) : Option OpRow := opcodeMap.find? fun r => w &&& r.mask == r.value

/-- The operation the decoder reads from the word with these bits. An operation is one 32-bit word (R90), so the
bits above `nbits` count as 0 and there is no further word. -/
def decodeTableWord (nbits w : Nat) : Option Instr :=
  match decode (BitVec.ofNat 32 (w % 2 ^ nbits)) with
  | .op i => some i
  | .illegal => none

end Sys2Proof
end

