-- ==== Sys2Proof/Config.lean ====
section
/-! DEFINITION. The configuration record `Cfg` of an LCDC block (00_scope.md R7), the two reference
configurations of 95_test_vectors.md section 0, and the free values `draw` and `racePick`.
A configuration is plain data and stands in the state, so that every statement over all states is a
statement over all configurations (assumption 1). -/

namespace Sys2Proof

/-- One DDRAM address map of the display reference model (47_display_model.md R292): the valid addresses as
closed ranges, and the successor and predecessor functions, each written as the pairs at which it differs
from adding or subtracting one modulo 128. Any map can be written so (assumption 23). -/
structure DdramMap where
  valid : List (BitVec 7 × BitVec 7)
  up    : List (BitVec 7 × BitVec 7)
  down  : List (BitVec 7 × BitVec 7)
  deriving DecidableEq, Repr

/-- The configuration record of R7, field by field, with the two parameters of the display model (R292). The
fixed parameters `OPW`, `IOAW`, `MAW` and `N_BTN` are the widths of the types in Word.lean and the length of
the button table. `ioInit` is `ioInitDefault` except at the addresses `ioInitCells` lists; `none` is
`unknown`. -/
structure Cfg where
  ioInitDefault : Option Byte
  ioInitCells   : List (IoAddr × Option Byte)
  ioVolatile    : List IoAddr
  dirOutputBit  : Bool
  btnActive     : Bool
  lcdBus        : Nat
  lcdRows       : Nat
  lcdCols       : Nat
  rowBase0      : BitVec 7
  rowBase1      : BitVec 7
  rowBase2      : BitVec 7
  rowBase3      : BitVec 7
  ctrlReg       : IoAddr
  ctrlDirReg    : IoAddr
  rsBit         : BitIdx
  eBit          : BitIdx
  dataReg       : IoAddr
  dataDirReg    : IoAddr
  dataShift     : Nat
  tPwrup        : Nat
  tInitA        : Nat
  tInitB        : Nat
  tEpw          : Nat
  tNib          : Nat
  tCmd          : Nat
  tClear        : Nat
  wcw           : Nat
  initFuncset   : Byte
  initEntry     : Byte
  initDispctl   : Byte
  ddram1Line    : DdramMap
  ddram2Line    : DdramMap
  deriving DecidableEq, Repr

namespace Config

/-- FREE VALUE (R66, R10): the byte that the k-th read of an outside-world (`IO_VOLATILE`) register returns.
It has no body: nothing constrains it. Assumption 5. -/
opaque draw : Nat → BitVec 8

/-- FREE VALUE (R78): which of the candidate bytes a racing host-memory read returns. It has no body.
Assumption 6. -/
opaque racePick : Nat → Nat

/-- The default DDRAM map for N = 0 (R292). -/
def oneLine : DdramMap :=
  { valid := [(0x00#7, 0x4F#7)], up := [(0x4F#7, 0x00#7)], down := [(0x00#7, 0x4F#7)] }

/-- The default DDRAM map for N = 1 (R292). -/
def twoLine : DdramMap :=
  { valid := [(0x00#7, 0x27#7), (0x40#7, 0x67#7)]
    up    := [(0x27#7, 0x40#7), (0x67#7, 0x00#7)]
    down  := [(0x40#7, 0x27#7), (0x00#7, 0x67#7)] }

/-- The default of `INIT_FUNCSET` (R7). -/
def defaultFuncset (bus rows : Nat) : Byte :=
  0x20#8 ||| (if bus = 8 then 0x10#8 else 0#8) ||| (if rows > 1 then 0x08#8 else 0#8)

/-- Reference configuration RC8 (95_test_vectors.md section 0). -/
def rc8 : Cfg :=
  { ioInitDefault := some 0#8, ioInitCells := []
    ioVolatile := [0x30#7, 0x33#7, 0x36#7, 0x39#7]
    dirOutputBit := true, btnActive := false
    lcdBus := 8, lcdRows := 2, lcdCols := 16
    rowBase0 := 0x00#7, rowBase1 := 0x40#7, rowBase2 := 0x14#7, rowBase3 := 0x54#7
    ctrlReg := 0x38#7, ctrlDirReg := 0x37#7, rsBit := 0#3, eBit := 1#3
    dataReg := 0x3B#7, dataDirReg := 0x3A#7, dataShift := 0
    tPwrup := 40000, tInitA := 4100, tInitB := 100, tEpw := 1, tNib := 1, tCmd := 41, tClear := 1520
    wcw := 16
    initFuncset := defaultFuncset 8 2, initEntry := 0x06#8, initDispctl := 0x0C#8
    ddram1Line := oneLine, ddram2Line := twoLine }

/-- Reference configuration RC4 (95_test_vectors.md section 0). -/
def rc4 : Cfg :=
  { rc8 with lcdBus := 4, dataShift := 4, initFuncset := defaultFuncset 4 2 }

end Config
end Sys2Proof
end

