-- ==== Sys2Proof/Machine/Operands.lean ====
section
/-! DEFINITION. Operand forms and the values computed from operands and the configuration: bit masks, the data
mask and nibbles, the DDRAM address map, settle times, direction bits, and the configuration's functions. -/

namespace Sys2Proof.Machine

/-- `1 << k` as an 8-bit value with only bit k set (R9, R148). -/
def bitMask (k : BitIdx) : Byte := 1#8 <<< k.toNat

/-- The bit-field write function of R69: `(x & ~mask) | (val & mask)`. -/
def fieldWrite (mask val x : Byte) : Byte := (x &&& ~~~mask) ||| (val &&& mask)

/-- `IO_INIT(a)` (R7): `none` is unknown. -/
def ioInit (c : Cfg) (a : IoAddr) : Option Byte :=
  match c.ioInitCells.lookup a with
  | some v => v
  | none => c.ioInitDefault

/-- `DMASK` (R206). -/
def dmask (c : Cfg) : Byte := if c.lcdBus = 8 then 0xFF#8 else 0x0F#8 <<< c.dataShift

/-- The bit of `LCD_CTRL_REG` that drives RS. -/
def rsMask (c : Cfg) : Byte := bitMask c.rsBit

/-- The bit of `LCD_CTRL_REG` that drives E. -/
def eMask (c : Cfg) : Byte := bitMask c.eBit

/-- `pinsC` of R241: the RS and E bits. -/
def pinsC (c : Cfg) : Byte := rsMask c ||| eMask c

/-- The value a beat puts on the data lines, taken from the data latch (R204, R205, R207): the whole byte on an
8-bit bus, the high nibble while BEAT = 0 and the low nibble while BEAT = 1 on a 4-bit bus. -/
def beatValue (c : Cfg) (dl : Byte) (beat : Bool) : Byte :=
  if c.lcdBus = 8 then dl
  else if beat then dl &&& 0x0F#8
  else dl >>> 4

/-- The bit written to a direction register for a direction (R144, R171). -/
def dirBit (c : Cfg) (v : PinDir) : Bool :=
  match v with
  | .output => c.dirOutputBit
  | .input => !c.dirOutputBit

/-- `ROW_BASE[row]` (R7). -/
def rowBase (c : Cfg) (row : BitVec 2) : BitVec 7 :=
  if row = 0#2 then c.rowBase0
  else if row = 1#2 then c.rowBase1
  else if row = 2#2 then c.rowBase2
  else c.rowBase3

/-- `DdramAddr(row, col)` (R250): the sum modulo 128. -/
def ddramAddr (c : Cfg) (row : BitVec 2) (col : BitVec 6) : BitVec 7 :=
  rowBase c row + col.setWidth 7

/-- The set-DDRAM-address command byte (R248). -/
def setDdramCmd (a : BitVec 7) : Byte := 0x80#8 ||| a.setWidth 8

/-- The set-CGRAM-address command byte of a glyph slot (R247, R248). -/
def setCgramCmd (gslot : BitVec 3) : Byte := 0x40#8 ||| (gslot.setWidth 8 <<< 3)

/-- `Settle(rs, b)` (R212). -/
def settleTime (c : Cfg) (rs : Bool) (b : Byte) : Nat :=
  if !rs && (b == 0x01#8 || b == 0x02#8 || b == 0x03#8) then c.tClear else c.tCmd

/-- `DdramValid(N)` (R292). -/
def ddramValid (c : Cfg) (n : Bool) (a : BitVec 7) : Bool :=
  (if n then c.ddram2Line else c.ddram1Line).valid.any fun r => r.1 ≤ a && a ≤ r.2

/-- `DdramNext(a, id)` for N (R292). -/
def ddramNext (c : Cfg) (n : Bool) (a : BitVec 7) (id : Bool) : BitVec 7 :=
  let m := if n then c.ddram2Line else c.ddram1Line
  if id then (m.up.lookup a).getD (a + 1#7) else (m.down.lookup a).getD (a - 1#7)

end Sys2Proof.Machine
end

