-- ==== Sys2Proof/Machine/State.lean ====
section
/-! DEFINITION. The state of LCDC as plain data: the block's registers (10_state.md R24 to R31), the outside state
the spec gives the model (R32 to R34), the display reference model (47_display_model.md R280), the host's moves
still to come (40_control.md R127), and the record of bus cycles. -/

namespace Sys2Proof.Machine

/-- Stored bytes by address, strictly rising, none equal to what an unlisted address reads as. -/
abbrev Memory := List Host.Cell

/-- The command sequencer state SEQ (R31); value 3 is never reached, so it has no constructor. -/
inductive Seq where
  | idle
  | decode
  | run
  deriving DecidableEq, Repr

/-- The timing state machine (R210). -/
inductive Tsm where
  | idle
  | rs
  | data
  | ehi
  | epw
  | elo
  | gap
  | settle
  deriving DecidableEq, Repr

/-- What the display's address counter addresses: STATUS.AMODE (R28) and the display model's AM (R280). -/
inductive Amode where
  | ddram
  | cgram
  deriving DecidableEq, Repr

/-- The block fault codes (R330). Codes 6 to 15 are never written, so they have no constructor. -/
inductive FCode where
  | none
  | illegal
  | notInit
  | reinit
  | range
  | unbound
  deriving DecidableEq, Repr

/-- Who makes an I/O write, for the display model (R285): an LCD operation, or anything else (a GPIO or button
operation, or a host write). -/
inductive Origin where
  | seq
  | gpio
  deriving DecidableEq, Repr

/-- The function applied by the write half of a read-modify-write (R68): set, clear or invert the bits of a mask,
or write the data field from the data latch (R204, R207). -/
inductive Upd where
  | set (m : Byte)
  | clr (m : Byte)
  | flip (m : Byte)
  | data
  deriving DecidableEq, Repr

/-- A button descriptor (R30). -/
structure Button where
  bound : Bool
  pin   : BitIdx
  dir   : IoAddr
  out   : IoAddr
  inp   : IoAddr
  deriving DecidableEq, Repr

/-- A zero-cycle block register write of a micro-sequence (R122), and the display model's event at the end of
step 3 of LCDINIT (R284). -/
inductive RegWrite where
  | tsm (t : Tsm)
  | latch (rs : Bool) (b : Byte)
  | beat (b : Bool)
  | istep (n : BitVec 4)
  | sp (a : MemAddr)
  | spInc
  | gi (n : BitVec 4)
  /-- GI <- GI + 1, and the glyph loop ends unless GI < 8 (R247) -/
  | giInc
  /-- the string loop ends: the byte read was 0x00 (R244) -/
  | loopEnd
  | btn (slot : BitVec 3) (d : Button)
  | initDone
  | amode (m : Amode)
  /-- STATUS.AMODE <- AmodeAfter(b, STATUS.AMODE) (R249) -/
  | amodeAfter (b : Byte)
  | displaySync
  deriving DecidableEq, Repr

/-- A micro-step (R121, R122) other than a MemRead. -/
inductive Micro where
  /-- RMWV <- IoRead(a) -/
  | rd (a : IoAddr)
  /-- IoWrite(a, f(RMWV)) -/
  | wr (o : Origin) (a : IoAddr) (f : Upd)
  /-- RESULT <- 1 if bit `pin` of IoRead(a) equals `level`, else 0 (R146, R172) -/
  | sample (a : IoAddr) (pin : BitIdx) (level : Bool)
  /-- `wait(n)` (R211) -/
  | wait (n : Nat)
  | reg (r : RegWrite)
  deriving DecidableEq, Repr

/-- What follows the listed micro-steps: nothing, the string loop (R244) or the glyph row loop (R247). Each turn of
a loop begins with a MemRead at SP. -/
inductive Loop where
  | done
  | str
  | glyph
  deriving DecidableEq, Repr

/-- How the host answers a MemRead (R62): after `n` cycles without `mem_ack`, or never. -/
inductive Ack where
  | after (n : Nat)
  | never
  deriving DecidableEq, Repr

/-- A move of the host (R127). The step reads the moves in order. -/
inductive HostMove where
  /-- offer the word until it is accepted, then let the operation run -/
  | offer (w : OpWord)
  /-- offer the word until it is accepted, and no more: the cycles that follow are the next moves' -/
  | start (w : OpWord)
  /-- let `n` clock cycles pass -/
  | clock (n : Nat)
  /-- one rising edge with `rst` = 1 -/
  | reset
  /-- write a byte of host memory -/
  | memWrite (a : MemAddr) (v : Byte)
  /-- write an I/O register -/
  | ioWrite (a : IoAddr) (v : Byte)
  /-- how the next MemRead without an answer will be answered -/
  | ack (k : Ack)
  deriving DecidableEq, Repr

/-- A record of bus activity: the cycles of the block, in the notation of 95_test_vectors.md section 0. -/
inductive Event where
  /-- a word was accepted (an edge, no cycle of its own) -/
  | accept (w : OpWord)
  /-- the DECODE cycle -/
  | decode
  | ioRd (a : IoAddr) (v : Byte)
  | ioWr (a : IoAddr) (v : Byte)
  /-- the cycle of a MemRead in which `mem_ack` = 1 -/
  | memRd (a : MemAddr) (v : Byte)
  /-- `n` cycles with `mem_req` = 1 and `mem_ack` = 0 -/
  | stall (n : Nat)
  /-- `n` cycles of a `wait` -/
  | wait (n : Nat)
  /-- `n` cycles in IDLE -/
  | idle (n : Nat)
  /-- an edge with `rst` = 1 -/
  | rst
  deriving DecidableEq, Repr

/-- `sync` of R280 (R281). -/
inductive Sync where
  | unsync
  | sync
  | lost
  deriving DecidableEq, Repr

/-- The display model state DS (R280), with the spec's field names; `none` is unknown (R282). -/
structure Disp where
  sync    : Sync
  bus8    : Bool
  pend    : Option (BitVec 4 × Bool)
  prevE   : Bool
  N       : Option Bool
  F       : Option Bool
  ID      : Option Bool
  S       : Option Bool
  D       : Option Bool
  C       : Option Bool
  B       : Option Bool
  AM      : Amode
  AC      : Option (BitVec 7)
  DDRAM   : Vector (Option Byte) 128
  CGRAM   : Vector (Option Byte) 64
  shifted : Bool
  deriving DecidableEq, Repr

/-- Why a machine step stops. LCDC's own block faults (R330) are not here: they are next states (R335). -/
inductive Fault where
  /-- Raised by a host move that writes the I/O space while STATUS.BUSY = 1, a race that the spec leaves without
  a meaning (R79, R127, M5; assumption 19). Safe: the model stops where hardware would go on. -/
  | hostIoWriteWhileBusy (a : IoAddr)
  deriving DecidableEq, Repr

/-- The model refusals of R340. None sets STATUS.FAULT. -/
inductive Refusal where
  /-- No meaning yet for this row of the opcode table. Raised by exec only; safe. -/
  | notModelled (mnemonic : String)
  /-- `ConfigIllFormed`: a check of R8 fails. Raised by step; safe (the spec's own refusal). -/
  | configIllFormed
  /-- `IoReadUnknown a`: a read of a non-volatile I/O register whose content is unknown (R66). Raised by IoRead;
  safe (the spec's own refusal). -/
  | ioReadUnknown (a : IoAddr)
  /-- `IoWriteVolatile a`: a write to an input register (R67). Raised by IoWrite and by a host move; safe (the
  spec's own refusal). -/
  | ioWriteVolatile (a : IoAddr)
  deriving DecidableEq, Repr

/-- The state. -/
structure State where
  /-- the configuration record (R7), fixed for a run -/
  cfg : Cfg
  /-- command sequencer state (R31) -/
  seq : Seq
  /-- the accepted operation word (R31) -/
  opr : OpWord
  /-- timing state machine (R210) -/
  tsm : Tsm
  /-- data latch (R204) -/
  dl : Byte
  /-- register-select latch (R204): true is data -/
  rsl : Bool
  /-- which nibble comes next on a 4-bit bus (R205): true is the low one -/
  beat : Bool
  /-- wait counter (R211, R346; assumption 24) -/
  wcnt : Nat
  /-- host-memory pointer (R31) -/
  sp : MemAddr
  /-- glyph row counter (R31) -/
  gi : BitVec 4
  /-- step index of LCDINIT (R31, R241; assumption 11) -/
  istep : BitVec 4
  /-- the byte read by the read half of a read-modify-write (R68) -/
  rmwv : Byte
  /-- the remaining micro-steps of the operation in RUN (R31, R121); a `wait` at the head is in progress -/
  todo : List Micro
  /-- what follows `todo` -/
  loop : Loop
  /-- STATUS.INIT_DONE (R26) -/
  initDone : Bool
  /-- STATUS.FAULT (R27) -/
  fault : Bool
  /-- STATUS.AMODE (R28) -/
  amode : Amode
  /-- STATUS.FCODE (R27) -/
  fcode : FCode
  /-- STATUS.FOP (R27) -/
  fop : BitVec 4
  /-- RESULT (R29) -/
  result : Byte
  /-- the button descriptor table (R30) -/
  btn : Vector Button 8
  /-- the I/O space (R32): the registers whose content is no longer IO_INIT (assumption 4) -/
  io : Memory
  /-- host data memory (R33): the bytes that are not 0x00 -/
  mem : Memory
  /-- the attached display (R34, R280) -/
  disp : Disp
  /-- the host's moves still to come (R127) -/
  host : List HostMove
  /-- the host's answers to the next MemReads (R62); with none listed a read is answered in its first cycle
  (assumption 15) -/
  acks : List Ack
  /-- bytes the host has overwritten while the operation in flight may still read them (R78) -/
  raced : List (MemAddr × Byte)
  /-- how many free values have been drawn (R66, R78) -/
  draws : Nat
  /-- the bus record, newest first (assumption 16) -/
  trace : List Event
  deriving DecidableEq, Repr

/-- An unbound descriptor (R30, R35). -/
def Button.unbound : Button := { bound := false, pin := 0#3, dir := 0#7, out := 0#7, inp := 0#7 }

/-- The display model at power-on (R282), given the E level that IO_INIT puts on the wire. R282 gives `bus8` and `AM` no
value (assumption 13). -/
def Disp.powerOn (e : Bool) : Disp :=
  { sync := .unsync, bus8 := false, pend := none, prevE := e
    N := none, F := none, ID := none, S := none, D := none, C := none, B := none
    AM := .ddram, AC := none
    DDRAM := Vector.replicate 128 none, CGRAM := Vector.replicate 64 none, shifted := true }

/-- The E level that IO_INIT puts on the wire: 0 if the control register's content is unknown (R282). -/
def powerOnE (c : Cfg) : Bool :=
  match ioInit c c.ctrlReg with
  | some v => v.getLsbD c.eBit.toNat
  | none => false

/-- The machine right after reset under a configuration (R35, R371): every block register at its reset value, the
I/O space at IO_INIT, nothing listed in host memory, the display at power-on, and no host move pending. -/
def State.resetWith (c : Cfg) : State :=
  { cfg := c, seq := .idle, opr := 0#32, tsm := .idle, dl := 0#8, rsl := false, beat := false, wcnt := 0
    sp := 0#16, gi := 0#4, istep := 0#4, rmwv := 0#8, todo := [], loop := .done
    initDone := false, fault := false, amode := .ddram, fcode := .none, fop := 0#4, result := 0#8
    btn := Vector.replicate 8 Button.unbound
    io := [], mem := [], disp := Disp.powerOn (powerOnE c)
    host := [], acks := [], raced := [], draws := 0, trace := [] }

/-- The machine right after reset, under the spec's reference configuration RC8 (assumption 1). -/
def State.reset : State := State.resetWith Config.rc8

end Sys2Proof.Machine
end

