-- ==== Sys2Proof/Machine/Timing.lean ====
section
/-! DEFINITION. Cycle counts (70_reset_and_hazards.md R390) and the named premise `DISP_TIMING_OK` (R381). -/

namespace Sys2Proof.Machine

/-- The cycles of an event in which the block is busy (R122, R123). -/
def Event.cycles (e : Event) : Nat :=
  match e with
  | .accept _ => 0
  | .decode => 1
  | .ioRd _ _ => 1
  | .ioWr _ _ => 1
  | .memRd _ _ => 1
  | .stall n => n
  | .wait n => n
  | .idle _ => 0
  | .rst => 0

/-- The busy cycles of a bus record. -/
def busyCycles (tr : List Event) : Nat := (tr.map Event.cycles).sum

/-- The busy cycles so far. -/
def State.cycles (s : State) : Nat := busyCycles s.trace

/-- `X8(s)` of R390. -/
def x8Cycles (c : Cfg) (settle : Nat) : Nat := 8 + c.tEpw + settle

/-- `X4(s)` of R390. -/
def x4Cycles (c : Cfg) (settle : Nat) : Nat := 14 + 2 * c.tEpw + c.tNib + settle

/-- `XN(s)` of R390. -/
def xnCycles (c : Cfg) (settle : Nat) : Nat := 8 + c.tEpw + settle

/-- `X(s)` of R390. -/
def xCycles (c : Cfg) (settle : Nat) : Nat :=
  if c.lcdBus = 8 then x8Cycles c settle else x4Cycles c settle

/-- LCDINIT's count (R390). -/
def initCycles (c : Cfg) : Nat :=
  7 + c.tPwrup +
  (if c.lcdBus = 8 then x8Cycles c c.tInitA + x8Cycles c c.tInitB + x8Cycles c c.tCmd
   else xnCycles c c.tInitA + xnCycles c c.tInitB + xnCycles c c.tCmd + xnCycles c c.tCmd) +
  xCycles c (settleTime c false c.initFuncset) + xCycles c (settleTime c false c.initEntry) +
  xCycles c (settleTime c false c.initDispctl)

/-- The counts of R390 for the operations that read no host memory, when the operation neither faults nor is
refused. -/
def fixedCycles (c : Cfg) (i : Instr) : Option Nat :=
  match i with
  | .nop => some 1
  | .setbit _ _ => some 3
  | .resetbit _ _ => some 3
  | .togglebit _ _ => some 3
  | .setpindir _ _ _ => some 3
  | .setpinstate _ _ _ => some 3
  | .getpinstate _ _ => some 2
  | .btninit _ _ _ _ _ => some 3
  | .btnget _ => some 2
  | .lcdinit => some (initCycles c)
  | .lcdcmd b => some (1 + xCycles c (settleTime c false b))
  | .lcdchar _ => some (1 + xCycles c c.tCmd)
  | .lcdclear => some (1 + xCycles c c.tClear)
  | .lcdstr _ => none
  | .lcdstrat _ _ _ => none
  | .lcdglyph _ _ => none

/-- `DISP_TIMING_OK(Cfg, F_CLK)` (R381), with `fclk` in hertz: each inequality multiplied out
(assumption 21). -/
def dispTimingOk (c : Cfg) (fclk : Nat) : Bool :=
  decide (40 * fclk ≤ c.tPwrup * 1000) &&
  decide (41 * fclk ≤ c.tInitA * 10000) &&
  decide (fclk ≤ c.tInitB * 10000) &&
  decide (41 * fclk ≤ c.tCmd * 1000000) &&
  decide (152 * fclk ≤ c.tClear * 100000) &&
  decide (450 * fclk ≤ (c.tEpw + 2) * 1000000000) &&
  decide (fclk ≤ (c.tEpw + c.tNib + 6) * 1000000) &&
  decide (195 * fclk ≤ 2 * 1000000000)

end Sys2Proof.Machine
end

