-- ==== Sys2Proof/Machine/Display.lean ====
section
/-! DEFINITION. The reference model of the attached display (47_display_model.md): synchronisation, latching,
execution of a byte, and what may be observed. -/

namespace Sys2Proof.Machine

/-- The display is no longer tracked, and its fields become unknown (R281). `shifted` is true where the window may be
shifted. `bus8`, `pend` and `AM` have no unknown value: they stay, and `synchronise` writes them before the display can
be read again (assumption 13). `prevE` stays the level of the wire, which the next write must compare with (R285). -/
def Disp.lose (d : Disp) : Disp :=
  { d with
    sync := .lost, N := none, F := none, ID := none, S := none, D := none, C := none, B := none, AC := none
    DDRAM := Vector.replicate 128 none, CGRAM := Vector.replicate 64 none, shifted := true }

/-- The event at the edge that ends step 3 of LCDINIT (R284). -/
def Disp.synchronise (c : Cfg) (d : Disp) : Disp :=
  { d with
    sync := .sync, bus8 := c.lcdBus == 8, pend := none, AM := .ddram, AC := none
    DDRAM := Vector.replicate 128 none, CGRAM := Vector.replicate 64 none, shifted := false }

/-- A block reset (R283): UNSYNC, but a LOST model stays LOST. -/
def Disp.onReset (d : Disp) : Disp :=
  { d with sync := if d.sync = .lost then .lost else .unsync, pend := none }

/-- The DDRAM address after `a` in direction `id`; unknown when the number of lines or the direction is
unknown (R292; assumption 9). -/
def Disp.nextDdram (c : Cfg) (d : Disp) (a : BitVec 7) (id : Option Bool) : Option (BitVec 7) :=
  match d.N, id with
  | some n, some up => some (ddramNext c n a up)
  | _, _ => none

/-- The CGRAM address after `a` in direction `id`, modulo 64 (R288, R290). -/
def nextCgram (a : BitVec 7) (id : Option Bool) : Option (BitVec 7) :=
  match id with
  | some true => some ((a.setWidth 6 + 1#6).setWidth 7)
  | some false => some ((a.setWidth 6 - 1#6).setWidth 7)
  | none => none

/-- `DDRAM[a] <- b`. -/
def Disp.putDdram (d : Disp) (a : BitVec 7) (b : Byte) : Disp :=
  { d with DDRAM := d.DDRAM.set a.toNat (some b) (by omega) }

/-- `CGRAM[a & 0x3F] <- b`. -/
def Disp.putCgram (d : Disp) (a : BitVec 7) (b : Byte) : Disp :=
  { d with CGRAM := d.CGRAM.set (a.setWidth 6).toNat (some b) (by omega) }

/-- A cursor move (R288, 0x10..0x17). -/
def Disp.cursorMove (c : Cfg) (d : Disp) (right : Bool) : Disp :=
  match d.AC with
  | none => d
  | some a =>
    match d.AM with
    | .ddram => { d with AC := d.nextDdram c a (some right) }
    | .cgram => { d with AC := nextCgram a (some right) }

/-- `Exec(0, b)` (R288): a command, decoded by the highest set bit of `b`. -/
def Disp.execCmd (c : Cfg) (b : Byte) (d : Disp) : Disp :=
  if b.getLsbD 7 then { d with AC := some (b.setWidth 7), AM := .ddram }
  else if b.getLsbD 6 then { d with AC := some ((b.setWidth 6).setWidth 7), AM := .cgram }
  else if b.getLsbD 5 then
    if b.getLsbD 4 != d.bus8 then d.lose
    else if b = c.initFuncset then { d with N := some (b.getLsbD 3), F := some (b.getLsbD 2) }
    else d.lose
  else if b.getLsbD 4 then
    if b.getLsbD 3 then { d with shifted := true } else d.cursorMove c (b.getLsbD 2)
  else if b.getLsbD 3 then
    { d with D := some (b.getLsbD 2), C := some (b.getLsbD 1), B := some (b.getLsbD 0) }
  else if b.getLsbD 2 then { d with ID := some (b.getLsbD 1), S := some (b.getLsbD 0) }
  else if b.getLsbD 1 then { d with AC := some 0#7, AM := .ddram, shifted := false }
  else if b.getLsbD 0 then
    { d with
      DDRAM := Vector.replicate 128 (some 0x20#8), AC := some 0#7, AM := .ddram, ID := some true
      shifted := false }
  else d.lose

/-- `Exec(1, b)` (R290): data. An unknown number of lines makes the target's validity unknown, hence LOST; an
unknown direction makes the next address unknown; an unknown S may have shifted the display (assumption 9). -/
def Disp.execData (c : Cfg) (b : Byte) (d : Disp) : Disp :=
  match d.AC with
  | none => d.lose
  | some a =>
    match d.AM with
    | .ddram =>
      match d.N with
      | none => d.lose
      | some n =>
        if ddramValid c n a then
          { d.putDdram a b with
            AC := d.nextDdram c a d.ID
            shifted := if d.S = some false then d.shifted else true }
        else d.lose
    | .cgram => { d.putCgram a b with AC := nextCgram a d.ID }

/-- `Exec(rs, b)`. -/
def Disp.exec (c : Cfg) (rs : Bool) (b : Byte) (d : Disp) : Disp :=
  if rs then d.execData c b else d.execCmd c b

/-- `Latch(rs, d, origin)` (R286) while LCDINIT is not in steps 1 to 3. `lines` is the value on the data lines; if
the data register's content is unknown the model cannot track the display (assumption 10). The timing premise is no
check here: what a latch did has a meaning only through `State.readable` (R295). -/
def Disp.latch (c : Cfg) (o : Origin) (rs : Bool) (lines : Option Byte) (d : Disp) : Disp :=
  if d.sync != .sync then d
  else if o = .gpio then d.lose
  else match lines with
    | none => d.lose
    | some x =>
      if d.bus8 then d.exec c rs x
      else match d.pend with
        | none => { d with pend := some (x.setWidth 4, rs) }
        | some (hi, rs0) =>
          let e : Disp := { d with pend := none }
          if rs0 != rs then e.lose else e.exec c rs (hi ++ x.setWidth 4)

/-- The display may be read (R281, R295, R381): the model is SYNC, and the configuration's waits meet the display's
requirements at this clock frequency in hertz. -/
def State.displayReadable (s : State) (fclk : Nat) : Bool := decide (s.disp.sync = .sync) && dispTimingOk s.cfg fclk

/-- What a claim may read of the display (R294): the model, while it is SYNC and under `DISP_TIMING_OK`; under another
configuration or clock the model gives no latch a meaning (R295). -/
def State.readable (s : State) (fclk : Nat) : Option Disp := if s.displayReadable fclk then some s.disp else none

/-- `Visible(r, c)` (R294): defined only when the display may be read, is on and not shifted, inside the geometry; a
cell that is unknown has no value. -/
def State.visible (s : State) (fclk : Nat) (row : BitVec 2) (col : BitVec 6) : Option Byte :=
  match s.readable fclk with
  | none => none
  | some d =>
    if d.shifted = false ∧ d.D = some true ∧ row.toNat < s.cfg.lcdRows ∧ col.toNat < s.cfg.lcdCols then
      d.DDRAM.get (ddramAddr s.cfg row col).toFin
    else none

/-- Character codes s and s + 8, for s = 0..7, display glyph slot s (R293). -/
def glyphSlotOf (code : Byte) : Option (BitVec 3) :=
  if code.toNat < 16 then some (code.setWidth 3) else none

/-- Row byte `row` of glyph slot `slot`: `CGRAM[8 slot + row]` (R293). -/
def Disp.glyphRow (d : Disp) (slot row : BitVec 3) : Option Byte :=
  d.CGRAM.get (slot ++ row).toFin

/-- A visible pixel of a slot (R293): column 0 is the leftmost of the five, bit 4 of the row byte; unknown unless the
font is 5x8. -/
def Disp.glyphPixel (d : Disp) (slot row : BitVec 3) (col : Fin 5) : Option Bool :=
  if d.F = some false then (d.glyphRow slot row).map fun b => b.getLsbD (4 - col.val) else none

end Sys2Proof.Machine
end

