-- ==== Sys2Proof/Machine/Flags.lean ====
section
/-! DEFINITION. STATUS and RESULT as the host sees them (10_state.md R24 to R29), the fault codes (R330), AMODE
tracking (R249), and the output ports as functions of the state (R20). -/

namespace Sys2Proof.Machine

/-- The code of R330 written into STATUS.FCODE. -/
def FCode.code (c : FCode) : BitVec 4 :=
  match c with
  | .none => 0#4
  | .illegal => 1#4
  | .notInit => 2#4
  | .reinit => 3#4
  | .range => 4#4
  | .unbound => 5#4

/-- The bit of STATUS.AMODE (R24). -/
def Amode.bit (m : Amode) : BitVec 1 :=
  match m with
  | .ddram => 0#1
  | .cgram => 1#1

/-- STATUS.BUSY is 1 exactly when SEQ is not IDLE (R25). -/
def State.busy (s : State) : Bool := s.seq != .idle

/-- STATUS, bit for bit (R24): bits 15:12 are hardwired 0. -/
def State.status (s : State) : BitVec 16 :=
  0#4 ++ s.fop ++ s.fcode.code ++ s.amode.bit ++ BitVec.ofBool s.fault ++ BitVec.ofBool s.initDone ++
    BitVec.ofBool s.busy

/-- `AmodeAfter(b, a)` (R249). -/
def trackAmode (b : Byte) (a : Amode) : Amode :=
  if b.getLsbD 7 then .ddram
  else if b.getLsbD 6 then .cgram
  else if b == 0x01#8 || b == 0x02#8 || b == 0x03#8 then .ddram
  else a

/-- RESULT of a sampled bit (R146, R172): 1 if the bit has the level asked for. -/
def levelResult (x : Byte) (pin : BitIdx) (level : Bool) : Byte :=
  if x.getLsbD pin.toNat == level then 0x01#8 else 0x00#8

/-- The output ports of R20, but for `status` and `result`. -/
structure Ports where
  opReady : Bool
  ioAddr  : IoAddr
  ioRd    : Bool
  ioWr    : Bool
  ioWdata : Byte
  memReq  : Bool
  memAddr : MemAddr
  deriving DecidableEq, Repr

/-- The value of the write half of a read-modify-write (R68, R69, R207). -/
def Upd.apply (f : Upd) (s : State) (x : Byte) : Byte :=
  match f with
  | .set m => x ||| m
  | .clr m => x &&& ~~~m
  | .flip m => x ^^^ m
  | .data => fieldWrite (dmask s.cfg) (beatValue s.cfg s.dl s.beat <<< s.cfg.dataShift) x

/-- A MemRead is in progress: the block is in RUN, at the head of a loop (R62). -/
def State.memPending (s : State) : Bool := s.seq == .run && s.todo.isEmpty && s.loop != .done

/-- The ports in the current cycle, given the level of `rst` (R20, R25, R62, R66, R67). A port that no access
uses drives 0 (assumption 12). -/
def State.ports (s : State) (rst : Bool) : Ports :=
  let quiet : Ports :=
    { opReady := !rst && !s.busy, ioAddr := 0#7, ioRd := false, ioWr := false, ioWdata := 0#8
      memReq := false, memAddr := 0#16 }
  if s.seq != .run then quiet
  else match s.todo with
    | .rd a :: _ => { quiet with ioAddr := a, ioRd := true }
    | .sample a _ _ :: _ => { quiet with ioAddr := a, ioRd := true }
    | .wr _ a f :: _ => { quiet with ioAddr := a, ioWr := true, ioWdata := f.apply s s.rmwv }
    | [] => if s.loop = .done then quiet else { quiet with memReq := true, memAddr := s.sp }
    | _ => quiet

end Sys2Proof.Machine
end

