-- ==== Sys2Proof/Machine/Memory.lean ====
section
/-! DEFINITION. Memories as canonical lists of (address, byte) cells, and the two address spaces of 20_memory.md
R60: the I/O space (unlisted addresses read as IO_INIT, R32) and host data memory (unlisted addresses read
0x00, assumption 3). -/

namespace Sys2Proof.Machine

/-- The byte listed at an address. -/
def Memory.listed (m : Memory) (a : Nat) : Option Byte :=
  match m with
  | [] => none
  | (b, v) :: r => if a = b then some v else Memory.listed r a

/-- List a byte at an address, keeping the addresses strictly rising. -/
def Memory.insert (m : Memory) (a : Nat) (v : Byte) : Memory :=
  match m with
  | [] => [(a, v)]
  | (b, u) :: r =>
    if a < b then (a, v) :: (b, u) :: r
    else if a = b then (a, v) :: r
    else (b, u) :: Memory.insert r a v

/-- Unlist an address. -/
def Memory.erase (m : Memory) (a : Nat) : Memory := m.filter fun c => c.1 != a

/-- Store a byte where an unlisted address reads as `base`: storing that value unlists the address. -/
def Memory.put (m : Memory) (base : Option Byte) (a : Nat) (v : Byte) : Memory :=
  if base = some v then Memory.erase m a else Memory.insert m a v

/-- The addresses rise strictly. -/
def Memory.rising (m : Memory) : Bool :=
  match m with
  | [] => true
  | (a, _) :: r => r.all (fun c => decide (a < c.1)) && Memory.rising r

/-- The canonical form over addresses below `limit`, where an unlisted address reads as `base`. -/
def Memory.canonical (limit : Nat) (base : Nat → Option Byte) (m : Memory) : Bool :=
  Memory.rising m && m.all fun c => decide (c.1 < limit) && !decide (base c.1 = some c.2)

/-- What unlisted host memory reads as (assumption 3). -/
def memBase : Option Byte := some 0#8

/-- Host memory is in canonical form. -/
def Memory.wf (m : Memory) : Bool := Memory.canonical 65536 (fun _ => memBase) m

/-- The I/O space is in canonical form, and no input register holds a stored value (R32). -/
def Memory.ioWf (c : Cfg) (m : Memory) : Bool :=
  Memory.canonical 128 (fun a => ioInit c (BitVec.ofNat 7 a)) m &&
    m.all fun x => !c.ioVolatile.contains (BitVec.ofNat 7 x.1)

/-- `MEM[a]` (R33). -/
def memByte (s : State) (a : MemAddr) : Byte :=
  match Memory.listed s.mem a.toNat with
  | some v => v
  | none => 0#8

/-- The content of a non-volatile I/O register, `none` if unknown (R32). -/
def ioCell (s : State) (a : IoAddr) : Option Byte :=
  match Memory.listed s.io a.toNat with
  | some v => some v
  | none => ioInit s.cfg a

/-- `IO[a] <- v`. -/
def State.setIo (s : State) (a : IoAddr) (v : Byte) : State :=
  { s with io := Memory.put s.io (ioInit s.cfg a) a.toNat v }

/-- `MEM[a] <- v`, by the host only (R64). -/
def State.setMem (s : State) (a : MemAddr) (v : Byte) : State :=
  { s with mem := Memory.put s.mem memBase a.toNat v }

end Sys2Proof.Machine
end

