-- ==== Sys2Proof/Machine/Ops.lean ====
section
/-! DEFINITION. The shared operations: the bus record, I/O and memory accesses (20_memory.md), register writes,
raising a block fault (60_exceptions.md R335), block reset (R370), and running a micro-sequence (R121, R122). -/

namespace Sys2Proof.Machine

/-- The outcome of an operation that also returns a value. -/
abbrev Res (α : Type) := Host.Outcome α Fault Refusal

/-- Go on with `f` if the outcome is a next state. -/
def andThen {α β : Type} (r : Res α) (f : α → Res β) : Res β :=
  match r with
  | .next a => f a
  | .fault e => .fault e
  | .refused e => .refused e

/-! ## The bus record -/

/-- Add an event, joining adjacent events of the same passive kind. -/
def pushEvent (e : Event) (tr : List Event) : List Event :=
  match e, tr with
  | .wait n, .wait m :: r => .wait (m + n) :: r
  | .stall n, .stall m :: r => .stall (m + n) :: r
  | .idle n, .idle m :: r => .idle (m + n) :: r
  | e, tr => e :: tr

def State.log (s : State) (e : Event) : State := { s with trace := pushEvent e s.trace }

/-- `n` cycles of a passive kind, of which none is no event. -/
def State.logCycles (s : State) (k : Nat → Event) (n : Nat) : State :=
  { s with trace := if n = 0 then s.trace else pushEvent (k n) s.trace }

/-! ## Register updates -/

def State.setRmwv (s : State) (v : Byte) : State := { s with rmwv := v }

def State.setResult (s : State) (v : Byte) : State := { s with result := v }

def State.setWcnt (s : State) (n : Nat) : State := { s with wcnt := n }

def State.setTodo (s : State) (l : List Micro) : State := { s with todo := l }

def State.setAcks (s : State) (l : List Ack) : State := { s with acks := l }

def State.setHost (s : State) (l : List HostMove) : State := { s with host := l }

/-- `n` free values have been used up. -/
def State.drawn (s : State) (n : Nat) : State := { s with draws := s.draws + n }

/-! ## I/O space -/

/-- `IoRead(a)` (R66): a draw from an input register, the stored byte otherwise. -/
def ioRead (a : IoAddr) (s : State) : Res (Byte × State) :=
  if s.cfg.ioVolatile.contains a then
    let v := Config.draw s.draws
    .next (v, (s.drawn 1).log (.ioRd a v))
  else match ioCell s a with
    | none => .refused (.ioReadUnknown a)
    | some v => .next (v, s.log (.ioRd a v))

/-- LCDINIT is in steps 1 to 3 (R284, R286), by its step index. -/
def State.inSyncSteps (s : State) : Bool := s.istep == 1#4 || s.istep == 2#4 || s.istep == 3#4

/-- The value on the LCD data lines (R201), `none` if the register's content is unknown. -/
def State.dataLines (s : State) : Option Byte :=
  (ioCell s s.cfg.dataReg).map fun x => (x &&& dmask s.cfg) >>> s.cfg.dataShift

/-- The display after `DisplayObserve(a)` (R285), register `a` having been given the value `v`: a falling edge of E
latches, and `prevE` follows E at every write of the control register. -/
def State.observed (s : State) (o : Origin) (a : IoAddr) (v : Byte) : Disp :=
  if a = s.cfg.ctrlReg then
    let e := v.getLsbD s.cfg.eBit.toNat
    let d :=
      if s.disp.prevE && !e && !s.inSyncSteps then
        s.disp.latch s.cfg o (v.getLsbD s.cfg.rsBit.toNat) s.dataLines
      else s.disp
    { d with prevE := e }
  else s.disp

/-- `DisplayObserve(a)` (R285). -/
def observe (o : Origin) (a : IoAddr) (v : Byte) (s : State) : State := { s with disp := s.observed o a v }

/-- `IoWrite(a, v)` (R67). -/
def ioWrite (o : Origin) (a : IoAddr) (v : Byte) (s : State) : Res State :=
  if s.cfg.ioVolatile.contains a then .refused (.ioWriteVolatile a)
  else .next (observe o a v ((s.log (.ioWr a v)).setIo a v))

/-! ## Host memory -/

/-- The bytes that a read of `a` may return (R78): the stored byte, and every byte the host has overwritten there
while the operation was in flight. -/
def memCandidates (s : State) (a : MemAddr) : List Byte :=
  memByte s a :: (s.raced.filter fun x => x.1 == a).map (·.2)

/-- The byte a MemRead of `a` returns: the stored byte, or with a race any candidate (R78). -/
def memValue (a : MemAddr) (s : State) : Byte :=
  match memCandidates s a with
  | [v] => v
  | l => l.getD (Config.racePick s.draws % l.length) (memByte s a)

/-- The acknowledged read of a MemRead (R62): the next state of the bus, with a free value used up if there is a
race. -/
def memTaken (s : State) (a : MemAddr) : State :=
  (s.drawn (if (memCandidates s a).length = 1 then 0 else 1)).log (.memRd a (memValue a s))

/-- `MemRead(SP, 1)` to its end (R62): the cycles without an acknowledge, then the read; `none` if the acknowledge
never comes. -/
def memRead (s : State) : Option (Byte × State) :=
  match s.acks with
  | .never :: _ => none
  | .after n :: r => some (memValue s.sp s, memTaken ((s.setAcks r).logCycles .stall n) s.sp)
  | [] => some (memValue s.sp s, memTaken s s.sp)

/-! ## Faults, completion and reset -/

/-- SEQ <- IDLE at the edge that ends an operation (R122, R210). The other hidden registers keep their last values
(assumption 18). -/
def State.toIdle (s : State) : State :=
  { s with seq := .idle, tsm := .idle, todo := [], loop := .done, raced := [] }

/-- `raise Fault(c)` (R335): the first fault since reset is recorded, FAULT is set, and the operation is dropped. There
is no handler and no return from a fault (R338): the block goes on with the next word. R330 says that the word is not
kept after the fault, and R335 writes no OPR: here `opr` holds it until the next acceptance, the model's choice
(assumption 18). -/
def raiseFault (c : FCode) (s : State) : State :=
  State.toIdle
    { s with
      fcode := if s.fault then s.fcode else c
      fop := if s.fault then s.fop else field s.opr 28 4
      fault := true }

/-- One edge with `rst` = 1 (R35, R370, R372, R373): all block state takes its reset value; the I/O space, host
memory and the configuration stay; the display model becomes UNSYNC or stays LOST; a MemRead in progress is
abandoned together with its answer. -/
def State.blockReset (s : State) : State :=
  State.log
    { State.resetWith s.cfg with
      io := s.io, mem := s.mem, disp := s.disp.onReset, host := s.host
      acks := if s.memPending then s.acks.tail else s.acks
      draws := s.draws, trace := s.trace } .rst

/-! ## Micro-steps -/

/-- A zero-cycle register write (R122). -/
def RegWrite.apply (r : RegWrite) (s : State) : State :=
  match r with
  | .tsm t => { s with tsm := t }
  | .latch rs b => { s with dl := b, rsl := rs, beat := false }
  | .beat b => { s with beat := b }
  | .istep n => { s with istep := n }
  | .sp a => { s with sp := a }
  | .spInc => { s with sp := s.sp + 1#16 }
  | .gi n => { s with gi := n }
  | .giInc => { s with gi := s.gi + 1#4, loop := if s.gi + 1#4 < 8#4 then s.loop else .done }
  | .loopEnd => { s with loop := .done }
  | .btn k d => { s with btn := s.btn.set k.toNat d (by omega) }
  | .initDone => { s with initDone := true }
  | .amode m => { s with amode := m }
  | .amodeAfter b => { s with amode := trackAmode b s.amode }
  | .displaySync => { s with disp := s.disp.synchronise s.cfg }

/-- A whole micro-step, with its effect and its cycles (R122). -/
def Micro.run (m : Micro) (s : State) : Res State :=
  match m with
  | .rd a => andThen (ioRead a s) fun p => .next (p.2.setRmwv p.1)
  | .wr o a f => ioWrite o a (f.apply s s.rmwv) s
  | .sample a pin level => andThen (ioRead a s) fun p => .next (p.2.setResult (levelResult p.1 pin level))
  | .wait n => .next ((s.setWcnt 0).logCycles .wait n)
  | .reg r => .next (r.apply s)

/-- Run listed micro-steps in order, each to its end (R76, R200). -/
def perform (l : List Micro) (s : State) : Res State :=
  match l with
  | [] => .next s
  | m :: r => andThen (m.run s) (perform r)

/-- `RMW(a, f)` (R68): two accesses in consecutive cycles. -/
def rmw (o : Origin) (a : IoAddr) (f : Upd) : List Micro := [.rd a, .wr o a f]

/-! ## LCD transfers (43_lcd_sequencer.md) -/

/-- `Beat` (R207) with the states of the timing state machine (R210). -/
def beatSeq (c : Cfg) : List Micro :=
  [.reg (.tsm .data)] ++ rmw .seq c.dataReg .data ++
  [.reg (.tsm .ehi)] ++ rmw .seq c.ctrlReg (.set (eMask c)) ++
  [.reg (.tsm .epw), .wait c.tEpw, .reg (.tsm .elo)] ++ rmw .seq c.ctrlReg (.clr (eMask c))

/-- The RS write that begins a transfer (R208, R209). -/
def rsUpd (c : Cfg) (rs : Bool) : Upd := if rs then .set (rsMask c) else .clr (rsMask c)

/-- The start of a transfer: the latches are loaded and RS is written. -/
def xferStart (c : Cfg) (rs : Bool) (b : Byte) : List Micro :=
  [.reg (.latch rs b), .reg (.tsm .rs)] ++ rmw .seq c.ctrlReg (rsUpd c rs)

/-- The settle wait that ends a transfer. -/
def xferEnd (settle : Nat) : List Micro := [.reg (.tsm .settle), .wait settle, .reg (.tsm .idle)]

/-- `Xfer(rs, b, settle)` (R208). -/
def xferSeq (c : Cfg) (rs : Bool) (b : Byte) (settle : Nat) : List Micro :=
  xferStart c rs b ++ beatSeq c ++
  (if c.lcdBus = 8 then [] else [.reg (.beat true), .reg (.tsm .gap), .wait c.tNib] ++ beatSeq c) ++
  xferEnd settle

/-- `XferNib(n4, settle)` (R209): one beat of the high nibble of the data latch, in command mode. -/
def xferNibSeq (c : Cfg) (n4 : BitVec 4) (settle : Nat) : List Micro :=
  xferStart c false (n4 ++ 0#4) ++ beatSeq c ++ xferEnd settle

/-! ## Loops over host memory -/

/-- The micro-steps of one turn of the operation's loop, given the byte read: the string loop of R244 or the glyph
row loop of R247. -/
def turnSeq (s : State) (b : Byte) : List Micro :=
  match s.loop with
  | .done => []
  | .str =>
    if b = 0x00#8 then [.reg .loopEnd] else xferSeq s.cfg true b s.cfg.tCmd ++ [.reg .spInc]
  | .glyph => xferSeq s.cfg true b s.cfg.tCmd ++ [.reg .spInc, .reg .giInc]

/-- At most `k` turns of the loop. The block returns to IDLE when the loop has ended. It stays in RUN when a MemRead
is never answered (R62; a cycle passes) and when `k` turns have not ended the loop. -/
def runLoop (k : Nat) (s : State) : Res State :=
  match s.loop with
  | .done => .next s.toIdle
  | _ =>
    match k with
    | 0 => .next s
    | j + 1 =>
      match memRead s with
      | none => .next (s.log (.stall 1))
      | some (b, t) => andThen (perform (turnSeq t b) t) (runLoop j)

/-- How many turns one step takes: a turn for each byte of host memory, so every string that has a terminator is
finished in one step (assumption 7). -/
def lap : Nat := 65536

/-- The outcome of the DECODE cycle for a legal word (R121): a fault, or the micro-sequence to run. -/
inductive Plan where
  | fault (c : FCode)
  | go (todo : List Micro) (loop : Loop)
  deriving DecidableEq, Repr

/-- RUN begins (R121); what is left to run is handed over separately. -/
def State.toRun (s : State) (l : Loop) : State := { s with seq := .run, todo := [], loop := l }

/-- Run listed micro-steps and then the loop. -/
def complete (todo : List Micro) (s : State) : Res State := andThen (perform todo s) (runLoop lap)

/-- The DECODE cycle and, unless it faults, the micro-sequence to its end (R121 to R123). -/
def runPlan (p : Plan) (s : State) : Res State :=
  match p with
  | .fault c => .next (raiseFault c (s.log .decode))
  | .go todo l => complete todo ((s.log .decode).toRun l)

/-- The DECODE cycle of an ILLEGAL word (R98, R330). -/
def illegalWord (s : State) : State := raiseFault .illegal (s.log .decode)

end Sys2Proof.Machine
end

