-- ==== Sys2Proof/Machine/Gpio.lean ====
section
/-! DEFINITION. The GPIO bit-field operations (41_gpio.md). -/

namespace Sys2Proof.Machine

/-- Drive one bit to a value, through set or reset (R144, R145, R171). -/
def bitTo (v : Bool) (k : BitIdx) : Upd := if v then .set (bitMask k) else .clr (bitMask k)

/-- SETBIT's micro-sequence (R141). -/
def planSetbit (reg : IoAddr) (bit : BitIdx) : Plan := .go (rmw .gpio reg (.set (bitMask bit))) .done

/-- SETBIT (R141). -/
def execSetbit (reg : IoAddr) (bit : BitIdx) (s : State) : Res State := runPlan (planSetbit reg bit) s

/-- RESETBIT's micro-sequence (R142). -/
def planResetbit (reg : IoAddr) (bit : BitIdx) : Plan := .go (rmw .gpio reg (.clr (bitMask bit))) .done

/-- RESETBIT (R142). -/
def execResetbit (reg : IoAddr) (bit : BitIdx) (s : State) : Res State := runPlan (planResetbit reg bit) s

/-- TOGGLEBIT's micro-sequence (R143). -/
def planTogglebit (reg : IoAddr) (bit : BitIdx) : Plan := .go (rmw .gpio reg (.flip (bitMask bit))) .done

/-- TOGGLEBIT (R143). -/
def execTogglebit (reg : IoAddr) (bit : BitIdx) (s : State) : Res State := runPlan (planTogglebit reg bit) s

/-- SETPINDIR's micro-sequence (R144): the bit is `DIR_OUTPUT_BIT` for OUTPUT and its complement for INPUT. -/
def planSetpindir (reg : IoAddr) (bit : BitIdx) (v : PinDir) (s : State) : Plan :=
  .go (rmw .gpio reg (bitTo (dirBit s.cfg v) bit)) .done

/-- SETPINDIR (R144). -/
def execSetpindir (reg : IoAddr) (bit : BitIdx) (v : PinDir) (s : State) : Res State :=
  runPlan (planSetpindir reg bit v s) s

/-- SETPINSTATE's micro-sequence (R145): HIGH sets the bit, LOW resets it. -/
def planSetpinstate (reg : IoAddr) (bit : BitIdx) (v : PinState) : Plan :=
  .go (rmw .gpio reg (bitTo (v == .high) bit)) .done

/-- SETPINSTATE (R145). -/
def execSetpinstate (reg : IoAddr) (bit : BitIdx) (v : PinState) (s : State) : Res State :=
  runPlan (planSetpinstate reg bit v) s

/-- GETPINSTATE's micro-sequence (R146): RESULT is the bit read. -/
def planGetpinstate (reg : IoAddr) (bit : BitIdx) : Plan := .go [.sample reg bit true] .done

/-- GETPINSTATE (R146). -/
def execGetpinstate (reg : IoAddr) (bit : BitIdx) (s : State) : Res State := runPlan (planGetpinstate reg bit) s

end Sys2Proof.Machine
end

