-- ==== Sys2Proof/Machine/Button.lean ====
section
/-! DEFINITION. The button operations (42_button.md). -/

namespace Sys2Proof.Machine

/-- The descriptor BTNINIT writes (R171). -/
def boundButton (dirreg outreg inreg : IoAddr) (pin : BitIdx) : Button :=
  { bound := true, pin := pin, dir := dirreg, out := outreg, inp := inreg }

/-- BTNINIT's micro-sequence (R171): the descriptor at the DECODE edge, then the pin is made an input. -/
def planBtninit (slot : BitVec 3) (dirreg outreg inreg : IoAddr) (pin : BitIdx) (s : State) : Plan :=
  .go (.reg (.btn slot (boundButton dirreg outreg inreg pin)) ::
    rmw .gpio dirreg (bitTo (dirBit s.cfg .input) pin)) .done

/-- BTNINIT (R171). -/
def execBtninit (slot : BitVec 3) (dirreg outreg inreg : IoAddr) (pin : BitIdx) (s : State) : Res State :=
  runPlan (planBtninit slot dirreg outreg inreg pin s) s

/-- BTNGET's DECODE (R172, R334): UNBOUND, or one sample of the bound pin against the active level. -/
def planBtnget (slot : BitVec 3) (s : State) : Plan :=
  let d := s.btn.get slot.toFin
  if d.bound then .go [.sample d.inp d.pin s.cfg.btnActive] .done else .fault .unbound

/-- BTNGET (R172). -/
def execBtnget (slot : BitVec 3) (s : State) : Res State := runPlan (planBtnget slot s) s

end Sys2Proof.Machine
end

