-- ==== Sys2Proof/Machine/Control.lean ====
section
/-! DEFINITION. The null operation (40_control.md section 2). -/

namespace Sys2Proof.Machine

/-- NOP has no micro-step (R125). -/
def planNop : Plan := .go [] .done

/-- NOP (R125). -/
def execNop (s : State) : Res State := runPlan planNop s

end Sys2Proof.Machine
end

