-- ==== Sys2Proof/Machine/Lcd.lean ====
section
/-! DEFINITION. The LCD operations (44_lcd_ops.md). -/

namespace Sys2Proof.Machine

/-- Make the pins of a mask outputs (R241, step 1). -/
def outputsUpd (c : Cfg) (m : Byte) : Upd := if c.dirOutputBit then .set m else .clr m

/-- A command transfer with its own settle class (R212). -/
def cmdSeq (c : Cfg) (b : Byte) : List Micro := xferSeq c false b (settleTime c false b)

/-- Step 3 of LCDINIT (R241, R248): the synchronisation of the display's data-bus width. -/
def syncSeq (c : Cfg) : List Micro :=
  if c.lcdBus = 8 then
    xferSeq c false 0x30#8 c.tInitA ++ xferSeq c false 0x30#8 c.tInitB ++ xferSeq c false 0x30#8 c.tCmd
  else
    xferNibSeq c 0x3#4 c.tInitA ++ xferNibSeq c 0x3#4 c.tInitB ++ xferNibSeq c 0x3#4 c.tCmd ++
      xferNibSeq c 0x2#4 c.tCmd

/-- Steps 1 and 2 of LCDINIT (R241): the LCD pins become outputs, RS = E = 0, and the power-up wait. -/
def initPins (c : Cfg) : List Micro :=
  [.reg (.istep 1#4)] ++ rmw .seq c.ctrlDirReg (outputsUpd c (pinsC c)) ++
    rmw .seq c.dataDirReg (outputsUpd c (dmask c)) ++ rmw .seq c.ctrlReg (.clr (pinsC c)) ++
  [.reg (.istep 2#4), .wait c.tPwrup]

/-- Steps 4 to 6 of LCDINIT (R241): display function, entry mode, display on / cursor, and the status bits. -/
def initCommands (c : Cfg) : List Micro :=
  [.reg (.istep 4#4)] ++ cmdSeq c c.initFuncset ++
  [.reg (.istep 5#4)] ++ cmdSeq c c.initEntry ++
  [.reg (.istep 6#4)] ++ cmdSeq c c.initDispctl ++
  [.reg .initDone, .reg (.amode .ddram)]

/-- The micro-sequence of LCDINIT (R241); the display model synchronises at the end of step 3 (R284). -/
def initSeq (c : Cfg) : List Micro :=
  initPins c ++ [.reg (.istep 3#4)] ++ syncSeq c ++ [.reg .displaySync] ++ initCommands c

/-- LCDINIT's DECODE (R241, R332). -/
def planLcdinit (s : State) : Plan := if s.initDone then .fault .reinit else .go (initSeq s.cfg) .done

/-- LCDINIT (R241). -/
def execLcdinit (s : State) : Res State := runPlan (planLcdinit s) s

/-- LCDCMD's DECODE (R242, R331). -/
def planLcdcmd (byte : Byte) (s : State) : Plan :=
  if s.initDone then .go (cmdSeq s.cfg byte ++ [.reg (.amodeAfter byte)]) .done else .fault .notInit

/-- LCDCMD (R242). -/
def execLcdcmd (byte : Byte) (s : State) : Res State := runPlan (planLcdcmd byte s) s

/-- LCDCHAR's DECODE (R243, R331). -/
def planLcdchar (byte : Byte) (s : State) : Plan :=
  if s.initDone then .go (xferSeq s.cfg true byte s.cfg.tCmd) .done else .fault .notInit

/-- LCDCHAR (R243). -/
def execLcdchar (byte : Byte) (s : State) : Res State := runPlan (planLcdchar byte s) s

/-- LCDSTR's DECODE (R244, R331). -/
def planLcdstr (maddr : MemAddr) (s : State) : Plan :=
  if s.initDone then .go [.reg (.sp maddr)] .str else .fault .notInit

/-- LCDSTR (R244). -/
def execLcdstr (maddr : MemAddr) (s : State) : Res State := runPlan (planLcdstr maddr s) s

/-- The position is outside the display (R333). -/
def outOfRange (c : Cfg) (row : BitVec 2) (col : BitVec 6) : Bool :=
  decide (c.lcdRows ≤ row.toNat) || decide (c.lcdCols ≤ col.toNat)

/-- LCDSTRAT's DECODE (R245, R331, R333): NOT_INIT wins over RANGE (R336). -/
def planLcdstrat (row : BitVec 2) (col : BitVec 6) (maddr : MemAddr) (s : State) : Plan :=
  if !s.initDone then .fault .notInit
  else if outOfRange s.cfg row col then .fault .range
  else .go (xferSeq s.cfg false (setDdramCmd (ddramAddr s.cfg row col)) s.cfg.tCmd ++
    [.reg (.amode .ddram), .reg (.sp maddr)]) .str

/-- LCDSTRAT (R245). -/
def execLcdstrat (row : BitVec 2) (col : BitVec 6) (maddr : MemAddr) (s : State) : Res State :=
  runPlan (planLcdstrat row col maddr s) s

/-- LCDCLEAR's DECODE (R246, R331). -/
def planLcdclear (s : State) : Plan :=
  if s.initDone then .go (xferSeq s.cfg false 0x01#8 s.cfg.tClear ++ [.reg (.amode .ddram)]) .done
  else .fault .notInit

/-- LCDCLEAR (R246). -/
def execLcdclear (s : State) : Res State := runPlan (planLcdclear s) s

/-- LCDGLYPH's DECODE (R247, R331). -/
def planLcdglyph (gslot : BitVec 3) (maddr : MemAddr) (s : State) : Plan :=
  if s.initDone then
    .go (xferSeq s.cfg false (setCgramCmd gslot) s.cfg.tCmd ++
      [.reg (.amode .cgram), .reg (.sp maddr), .reg (.gi 0#4)]) .glyph
  else .fault .notInit

/-- LCDGLYPH (R247). -/
def execLcdglyph (gslot : BitVec 3) (maddr : MemAddr) (s : State) : Res State :=
  runPlan (planLcdglyph gslot maddr s) s

end Sys2Proof.Machine
end

