-- ==== Sys2Proof/Machine/Cycle.lean ====
section
/-! DEFINITION. The machine one clock cycle at a time (40_control.md R121, R122): the same plans and micro-steps as
exec, with every cycle of a wait, of an unanswered MemRead and of IDLE on its own. -/

namespace Sys2Proof.Machine

/-- The DECODE stage's outcome for an operation (R121). -/
def planOf (i : Instr) (s : State) : Plan :=
  match i with
  | .nop => planNop
  | .setbit reg bit => planSetbit reg bit
  | .resetbit reg bit => planResetbit reg bit
  | .togglebit reg bit => planTogglebit reg bit
  | .setpindir reg bit v => planSetpindir reg bit v s
  | .setpinstate reg bit v => planSetpinstate reg bit v
  | .getpinstate reg bit => planGetpinstate reg bit
  | .btninit slot dirreg outreg inreg pin => planBtninit slot dirreg outreg inreg pin s
  | .btnget slot => planBtnget slot s
  | .lcdinit => planLcdinit s
  | .lcdcmd byte => planLcdcmd byte s
  | .lcdchar byte => planLcdchar byte s
  | .lcdstr maddr => planLcdstr maddr s
  | .lcdstrat row col maddr => planLcdstrat row col maddr s
  | .lcdclear => planLcdclear s
  | .lcdglyph gslot maddr => planLcdglyph gslot maddr s

/-- Perform the zero-cycle micro-steps at the head of the list at this edge (R122) and stop at the next one that
takes cycles: the block is then in its first cycle. With nothing left and no loop the operation ends. -/
def atEdge (l : List Micro) (s : State) : State :=
  match l with
  | [] => if s.loop = .done then s.toIdle else s.setTodo []
  | .reg r :: t => atEdge t (r.apply s)
  | .wait n :: t =>
    if n = 0 then atEdge t (s.setWcnt 0) else (s.setWcnt n).setTodo (.wait n :: t)
  | m :: t => s.setTodo (m :: t)

/-- The read of one turn of the loop is acknowledged, and the turn begins. -/
def turnBegins (s : State) : State := atEdge (turnSeq s (memValue s.sp s)) (memTaken s s.sp)

/-- One cycle at the head of a loop: the MemRead waits, or it is answered (R62). -/
def memCycle (s : State) : State :=
  match s.acks with
  | .never :: _ => s.log (.stall 1)
  | .after (n + 1) :: r => (s.setAcks (.after n :: r)).log (.stall 1)
  | .after 0 :: r => turnBegins (s.setAcks r)
  | [] => turnBegins s

/-- One cycle in RUN. -/
def runCycle (s : State) : Res State :=
  match s.todo with
  | .wait _ :: t =>
    let u := (s.setWcnt (s.wcnt - 1)).log (.wait 1)
    .next (if u.wcnt = 0 then atEdge t u else u)
  | .reg r :: t => .next (atEdge (.reg r :: t) s)
  | m :: t => andThen (m.run s) fun u => .next (atEdge t u)
  | [] => if s.loop = .done then .next s.toIdle else .next (memCycle s)

/-- One clock cycle with `rst` = 0 and no word offered (R121, R122). -/
def tick (s : State) : Res State :=
  match s.seq with
  | .idle => .next (s.log (.idle 1))
  | .decode =>
    match decode s.opr with
    | .illegal => .next (illegalWord s)
    | .op i =>
      match planOf i s with
      | .fault c => .next (raiseFault c (s.log .decode))
      | .go todo l => .next (atEdge todo ((s.log .decode).toRun l))
  | .run => runCycle s

/-- `n` clock cycles. -/
def ticks (n : Nat) (s : State) : Res State :=
  match n with
  | 0 => .next s
  | k + 1 => andThen (tick s) (ticks k)

end Sys2Proof.Machine
end

