-- ==== Sys2Proof/Machine/Dispatch.lean ====
section
/-! DEFINITION. The dispatch of the 16 operations, from the DECODE cycle to the end of the operation. -/

namespace Sys2Proof.Machine

def exec (i : Instr) (s : State) : Host.Outcome State Fault Refusal :=
  match i with
  | .nop => Sys2Proof.Machine.execNop s
  | .setbit reg bit => Sys2Proof.Machine.execSetbit reg bit s
  | .resetbit reg bit => Sys2Proof.Machine.execResetbit reg bit s
  | .togglebit reg bit => Sys2Proof.Machine.execTogglebit reg bit s
  | .setpindir reg bit v => Sys2Proof.Machine.execSetpindir reg bit v s
  | .setpinstate reg bit v => Sys2Proof.Machine.execSetpinstate reg bit v s
  | .getpinstate reg bit => Sys2Proof.Machine.execGetpinstate reg bit s
  | .btninit slot dirreg outreg inreg pin => Sys2Proof.Machine.execBtninit slot dirreg outreg inreg pin s
  | .btnget slot => Sys2Proof.Machine.execBtnget slot s
  | .lcdinit => Sys2Proof.Machine.execLcdinit s
  | .lcdcmd byte => Sys2Proof.Machine.execLcdcmd byte s
  | .lcdchar byte => Sys2Proof.Machine.execLcdchar byte s
  | .lcdstr maddr => Sys2Proof.Machine.execLcdstr maddr s
  | .lcdstrat row col maddr => Sys2Proof.Machine.execLcdstrat row col maddr s
  | .lcdclear => Sys2Proof.Machine.execLcdclear s
  | .lcdglyph gslot maddr => Sys2Proof.Machine.execLcdglyph gslot maddr s

end Sys2Proof.Machine
end

