-- ==== Sys2Proof/Machine/HostPort.lean ====
section
/-! DEFINITION. The operation port and the host's moves (40_control.md R120, R127): acceptance, the run of an
operation in flight, host writes, and reset. -/

namespace Sys2Proof.Machine

/-- Acceptance (R120): OPR <- op_word, SEQ <- DECODE. -/
def State.accept (s : State) (w : OpWord) : State := { s with opr := w, seq := .decode }.log (.accept w)

/-- DECODE and the operation to its end (R121). -/
def runWord (s : State) : Res State :=
  match decode s.opr with
  | .op i => exec i s
  | .illegal => .next (illegalWord s)

/-- The micro-steps left to run: a wait in progress has WCNT cycles left (R211). -/
def leftToRun (s : State) : List Micro :=
  match s.todo with
  | .wait _ :: t => .wait s.wcnt :: t
  | l => l

/-- Let the operation in flight run on; in IDLE one cycle passes. -/
def runOn (s : State) : Res State :=
  match s.seq with
  | .idle => .next (s.log (.idle 1))
  | .decode => runWord s
  | .run => complete (leftToRun s) (s.setTodo [])

/-- A host write to host memory (R78, R127). While an operation is in flight the byte it replaces is remembered: a
read of that operation may return either. -/
def hostMemWrite (a : MemAddr) (v : Byte) (s : State) : State :=
  let t := if s.busy then { s with raced := (a, memByte s a) :: s.raced } else s
  t.setMem a v

/-- A host write to the I/O space (R127): allowed while idle to a non-volatile register. The display sees it as a
write that is not the block's own (assumption 8). While BUSY = 1 it is outside the spec (R79, M5; assumption 19). -/
def hostIoWrite (a : IoAddr) (v : Byte) (s : State) : Res State :=
  if s.busy then .fault (.hostIoWriteWhileBusy a)
  else if s.cfg.ioVolatile.contains a then .refused (.ioWriteVolatile a)
  else .next (observe .gpio a v (s.setIo a v))

/-- The next move of the host, or the operation in flight while the host waits for it. -/
def hostStep (s : State) : Res State :=
  match s.host with
  | [] => runOn s
  | .offer w :: r => if s.busy then runOn s else runWord ((s.setHost r).accept w)
  | .start w :: r => if s.busy then runOn s else .next ((s.setHost r).accept w)
  | .clock n :: r => ticks n (s.setHost r)
  | .reset :: r => .next (s.setHost r).blockReset
  | .memWrite a v :: r => .next (hostMemWrite a v (s.setHost r))
  | .ioWrite a v :: r => hostIoWrite a v (s.setHost r)
  | .ack k :: r => .next ((s.setHost r).setAcks (s.acks ++ [k]))

/-- The word of a table row, given as bits numbered from its least significant (R90). -/
def tableWord (nbits w : Nat) : OpWord := BitVec.ofNat 32 (w % 2 ^ nbits)

end Sys2Proof.Machine
end

