-- ==== Sys2Proof/WellFormed.lean ====
section
/-! DEFINITION. Well-formedness. The operand types of Instr hold exactly the encoding's field ranges (R93), so
every term of Instr is well formed; what can be ill formed is the configuration, by the nine named checks of
00_scope.md R8. The assembler's operand checks (R104) are in Machine/Assembler.lean. -/

namespace Sys2Proof.Cfg

open Sys2Proof.Machine

/-- `LCD_BUS` is 4 or 8. -/
def cfgBus (c : Cfg) : Bool := c.lcdBus == 4 || c.lcdBus == 8

/-- `LCD_BUS` = 8 implies shift 0; `LCD_BUS` = 4 implies shift at most 4. -/
def cfgShift (c : Cfg) : Bool :=
  (c.lcdBus != 8 || c.dataShift == 0) && (c.lcdBus != 4 || decide (c.dataShift ≤ 4))

/-- RS and E are different bits. -/
def cfgRsE (c : Cfg) : Bool := c.rsBit != c.eBit

/-- If control and data share a register, RS and E lie outside the data mask. -/
def cfgOverlap (c : Cfg) : Bool :=
  c.ctrlReg != c.dataReg ||
    (!(dmask c).getLsbD c.rsBit.toNat && !(dmask c).getLsbD c.eBit.toNat)

/-- A direction register is not also its output register. -/
def cfgDirOverlap (c : Cfg) : Bool :=
  c.ctrlDirReg != c.ctrlReg && c.dataDirReg != c.dataReg

/-- No LCD register is an input register. -/
def cfgLcdNonvolatile (c : Cfg) : Bool :=
  !c.ioVolatile.contains c.ctrlReg && !c.ioVolatile.contains c.dataReg &&
    !c.ioVolatile.contains c.ctrlDirReg && !c.ioVolatile.contains c.dataDirReg

/-- The geometry is 1..4 rows of 1..40 columns. -/
def cfgGeom (c : Cfg) : Bool :=
  decide (1 ≤ c.lcdRows) && decide (c.lcdRows ≤ 4) && decide (1 ≤ c.lcdCols) && decide (c.lcdCols ≤ 40)

/-- The last column of each row in use has a DDRAM address that fits 7 bits. -/
def cfgRowbase (c : Cfg) : Bool :=
  (List.finRange 4).all fun r =>
    !decide (r.val < c.lcdRows) ||
      decide ((rowBase c (BitVec.ofNat 2 r.val)).toNat + c.lcdCols - 1 ≤ 0x7F)

/-- The wait parameters are in range and fit the wait counter. -/
def cfgTimes (c : Cfg) : Bool :=
  ([c.tPwrup, c.tInitA, c.tInitB, c.tEpw, c.tCmd].all fun t => decide (1 ≤ t)) &&
    decide (c.tCmd ≤ c.tClear) &&
    ([c.tPwrup, c.tInitA, c.tInitB, c.tEpw, c.tNib, c.tCmd, c.tClear].all fun t => decide (t < 2 ^ c.wcw))

/-- R8: every named check holds. -/
def wf (c : Cfg) : Bool :=
  c.cfgBus && c.cfgShift && c.cfgRsE && c.cfgOverlap && c.cfgDirOverlap && c.cfgLcdNonvolatile &&
    c.cfgGeom && c.cfgRowbase && c.cfgTimes

end Sys2Proof.Cfg
end

