-- ==== Sys2Proof/Machine/Step.lean ====
section
/-! DEFINITION. The step of the machine, and the host's way to place a word where the next step takes it. -/

namespace Sys2Proof.Machine

/-- One step: the host's next move. An ill-formed configuration gives no meaning to any run (R8). -/
def step (s : State) : Host.Outcome State Fault Refusal :=
  if s.cfg.wf then hostStep s else .refused .configIllFormed

/-- The state with the word offered first to an idle block: LCDC fetches nothing, its words come from the host
(R22, R82; assumption 2). -/
def State.withFetchWord (s : State) (nbits w : Nat) : State :=
  { s.toIdle with host := .offer (tableWord nbits w) :: s.host }

end Sys2Proof.Machine
end

