-- ==== Sys2Proof/Machine/Assembler.lean ====
section
/-! DEFINITION. The assembler and disassembler of 30_encoding.md R102 to R104: lines, pseudo-instructions,
refusals, and their text (assumption 22). -/

namespace Sys2Proof.Machine

/-- The keyword operands (R102). -/
inductive Keyword where
  | output
  | input
  | high
  | low
  deriving DecidableEq, Repr

/-- An operand as written (R102): a number, a character literal, or a keyword. -/
inductive Arg where
  | num (n : Nat)
  | chr (c : Char)
  | kw (k : Keyword)
  deriving DecidableEq, Repr

/-- One line: a mnemonic and its operands in the source's argument order. -/
structure AsmLine where
  mnemonic : String
  args     : List Arg
  deriving DecidableEq, Repr

/-- Why the assembler refuses a line (R104). -/
inductive AsmError where
  | outOfRange
  | unknownMnemonic
  | operandCount
  | keyword
  | notANumber
  deriving DecidableEq, Repr

/-- What the assembler makes of a line. -/
inductive AsmResult where
  | ok (i : Instr)
  | refused (e : AsmError)
  deriving DecidableEq, Repr

/-- A number operand below `limit`. -/
def numArg (limit : Nat) (a : Arg) : Option Nat :=
  match a with
  | .num n => if n < limit then some n else none
  | _ => none

/-- A `byte` operand: a number below 256, or the ASCII code of a character literal (R102). -/
def byteArg (a : Arg) : Option Nat :=
  match a with
  | .num n => if n < 256 then some n else none
  | .chr c => if c.toNat < 128 then some c.toNat else none
  | .kw _ => none

/-- Why a list of operands of the right count was refused: a keyword where none is taken, or a range. -/
def refusalOf (args : List Arg) : AsmResult :=
  if args.any fun a => match a with | .kw _ => true | _ => false then .refused .keyword
  else .refused .outOfRange

/-- A wrong operand list: a keyword on an operation that takes none, or a wrong count. -/
def wrongOperands (args : List Arg) : AsmResult :=
  if args.any fun a => match a with | .kw _ => true | _ => false then .refused .keyword
  else .refused .operandCount

/-- No operands. -/
def asm0 (i : Instr) (args : List Arg) : AsmResult :=
  match args with
  | [] => .ok i
  | l => wrongOperands l

/-- `reg, bit`. -/
def asmG (f : IoAddr → BitIdx → Instr) (args : List Arg) : AsmResult :=
  match args with
  | [r, b] =>
    match numArg 128 r, numArg 8 b with
    | some r, some b => .ok (f (BitVec.ofNat 7 r) (BitVec.ofNat 3 b))
    | _, _ => refusalOf args
  | l => wrongOperands l

/-- `reg, pin, OUTPUT | INPUT`. -/
def asmDir (args : List Arg) : AsmResult :=
  match args with
  | [r, b, .kw .output] => asmG (fun r b => .setpindir r b .output) [r, b]
  | [r, b, .kw .input] => asmG (fun r b => .setpindir r b .input) [r, b]
  | [_, _, _] => .refused .keyword
  | _ => .refused .operandCount

/-- `reg, pin, HIGH | LOW`. -/
def asmState (args : List Arg) : AsmResult :=
  match args with
  | [r, b, .kw .high] => asmG (fun r b => .setpinstate r b .high) [r, b]
  | [r, b, .kw .low] => asmG (fun r b => .setpinstate r b .low) [r, b]
  | [_, _, _] => .refused .keyword
  | _ => .refused .operandCount

/-- One operand below a limit. -/
def asm1 (limit : Nat) (f : Nat → Instr) (args : List Arg) : AsmResult :=
  match args with
  | [a] =>
    match numArg limit a with
    | some n => .ok (f n)
    | none => refusalOf args
  | l => wrongOperands l

/-- One `byte` operand. -/
def asmByte (f : Byte → Instr) (args : List Arg) : AsmResult :=
  match args with
  | [a] =>
    match byteArg a with
    | some n => .ok (f (BitVec.ofNat 8 n))
    | none => refusalOf args
  | l => wrongOperands l

/-- `slot, dirreg, outreg, inreg, pin`. -/
def asmBtn (args : List Arg) : AsmResult :=
  match args with
  | [s, d, o, i, p] =>
    match numArg 8 s, numArg 128 d, numArg 128 o, numArg 128 i, numArg 8 p with
    | some s, some d, some o, some i, some p =>
      .ok (.btninit (BitVec.ofNat 3 s) (BitVec.ofNat 7 d) (BitVec.ofNat 7 o) (BitVec.ofNat 7 i) (BitVec.ofNat 3 p))
    | _, _, _, _, _ => refusalOf args
  | l => wrongOperands l

/-- `row, col, maddr`. -/
def asmAt (args : List Arg) : AsmResult :=
  match args with
  | [r, k, m] =>
    match numArg 4 r, numArg 64 k, numArg 65536 m with
    | some r, some k, some m => .ok (.lcdstrat (BitVec.ofNat 2 r) (BitVec.ofNat 6 k) (BitVec.ofNat 16 m))
    | _, _, _ => refusalOf args
  | l => wrongOperands l

/-- `slot, maddr`. -/
def asmGlyph (args : List Arg) : AsmResult :=
  match args with
  | [s, m] =>
    match numArg 8 s, numArg 65536 m with
    | some s, some m => .ok (.lcdglyph (BitVec.ofNat 3 s) (BitVec.ofNat 16 m))
    | _, _ => refusalOf args
  | l => wrongOperands l

/-- `LCDGOTO row, col` (R103): the assembler itself refuses a position outside the configured display. -/
def asmGoto (c : Cfg) (args : List Arg) : AsmResult :=
  match args with
  | [r, k] =>
    match numArg (min 4 c.lcdRows) r, numArg (min 64 c.lcdCols) k with
    | some r, some k => .ok (.lcdcmd (setDdramCmd (ddramAddr c (BitVec.ofNat 2 r) (BitVec.ofNat 6 k))))
    | _, _ => refusalOf args
  | l => wrongOperands l

/-- Assemble a line (R102 to R104). `.word`, which R102 gives as what a disassembler prints for an ILLEGAL word, is
refused as an unknown mnemonic: the model's choice, since 95_test_vectors.md P5 writes it in its assembly column
(assumption 22). -/
def assemble (c : Cfg) (l : AsmLine) : AsmResult :=
  match l.mnemonic with
  | "NOP" => asm0 .nop l.args
  | "SETBIT" => asmG .setbit l.args
  | "RESETBIT" => asmG .resetbit l.args
  | "TOGGLEBIT" => asmG .togglebit l.args
  | "SETPINDIR" => asmDir l.args
  | "SETPINSTATE" => asmState l.args
  | "GETPINSTATE" => asmG .getpinstate l.args
  | "BTNINIT" => asmBtn l.args
  | "BTNGET" => asm1 8 (fun n => .btnget (BitVec.ofNat 3 n)) l.args
  | "LCDINIT" => asm0 .lcdinit l.args
  | "LCDCMD" => asmByte .lcdcmd l.args
  | "LCDCHAR" => asmByte .lcdchar l.args
  | "LCDSTR" => asm1 65536 (fun n => .lcdstr (BitVec.ofNat 16 n)) l.args
  | "LCDSTRAT" => asmAt l.args
  | "LCDCLEAR" => asm0 .lcdclear l.args
  | "LCDGLYPH" => asmGlyph l.args
  | "PINOUT" => asmG (fun r b => .setpindir r b .output) l.args
  | "PININ" => asmG (fun r b => .setpindir r b .input) l.args
  | "PINHIGH" => asmG (fun r b => .setpinstate r b .high) l.args
  | "PINLOW" => asmG (fun r b => .setpinstate r b .low) l.args
  | "LCDHOME" => asm0 (.lcdcmd 0x02#8) l.args
  | "LCDGOTO" => asmGoto c l.args
  | "LCDCGADDR" => asm1 8 (fun n => .lcdcmd (setCgramCmd (BitVec.ofNat 3 n))) l.args
  | _ => .refused .unknownMnemonic

/-- A number operand of a field. -/
def bvArg {n : Nat} (v : BitVec n) : Arg := .num v.toNat

/-- The line a disassembler prints for an operation (R102). -/
def disassemble (i : Instr) : AsmLine :=
  match i with
  | .nop => ⟨"NOP", []⟩
  | .setbit r b => ⟨"SETBIT", [bvArg r, bvArg b]⟩
  | .resetbit r b => ⟨"RESETBIT", [bvArg r, bvArg b]⟩
  | .togglebit r b => ⟨"TOGGLEBIT", [bvArg r, bvArg b]⟩
  | .setpindir r b .output => ⟨"SETPINDIR", [bvArg r, bvArg b, .kw .output]⟩
  | .setpindir r b .input => ⟨"SETPINDIR", [bvArg r, bvArg b, .kw .input]⟩
  | .setpinstate r b .high => ⟨"SETPINSTATE", [bvArg r, bvArg b, .kw .high]⟩
  | .setpinstate r b .low => ⟨"SETPINSTATE", [bvArg r, bvArg b, .kw .low]⟩
  | .getpinstate r b => ⟨"GETPINSTATE", [bvArg r, bvArg b]⟩
  | .btninit s d o i p => ⟨"BTNINIT", [bvArg s, bvArg d, bvArg o, bvArg i, bvArg p]⟩
  | .btnget s => ⟨"BTNGET", [bvArg s]⟩
  | .lcdinit => ⟨"LCDINIT", []⟩
  | .lcdcmd b => ⟨"LCDCMD", [bvArg b]⟩
  | .lcdchar b => ⟨"LCDCHAR", [bvArg b]⟩
  | .lcdstr m => ⟨"LCDSTR", [bvArg m]⟩
  | .lcdstrat r k m => ⟨"LCDSTRAT", [bvArg r, bvArg k, bvArg m]⟩
  | .lcdclear => ⟨"LCDCLEAR", []⟩
  | .lcdglyph s m => ⟨"LCDGLYPH", [bvArg s, bvArg m]⟩

/-! ## Text -/

/-- A hexadecimal digit. -/
def hexDigit (n : Nat) : Char := (Nat.digitChar (n % 16)).toUpper

/-- `n` as `k` hexadecimal digits. -/
def hexDigits (k n : Nat) : List Char :=
  match k with
  | 0 => []
  | j + 1 => hexDigits j (n / 16) ++ [hexDigit n]

/-- The number of hexadecimal digits printed for a 16-bit number: the fewest, at least one. R102 says only that numbers are
in hexadecimal; that an operand has no leading zeros is the model's choice (assumption 22). -/
def hexWidth (n : Nat) : Nat := if n < 16 then 1 else if n < 256 then 2 else if n < 4096 then 3 else 4

/-- An operand's text, numbers in hexadecimal (R102). -/
def Arg.text (a : Arg) : List Char :=
  match a with
  | .num n => ['0', 'x'] ++ hexDigits (hexWidth n) n
  | .chr c => ['\'', c, '\'']
  | .kw .output => "OUTPUT".toList
  | .kw .input => "INPUT".toList
  | .kw .high => "HIGH".toList
  | .kw .low => "LOW".toList

/-- Operands separated by a comma and a space. -/
def argsText (l : List Arg) : List Char :=
  match l with
  | [] => []
  | [a] => a.text
  | a :: r => a.text ++ [',', ' '] ++ argsText r

/-- A line's text. -/
def AsmLine.text (l : AsmLine) : List Char :=
  match l.args with
  | [] => l.mnemonic.toList
  | args => l.mnemonic.toList ++ [' '] ++ argsText args

/-- What a disassembler prints for a word (R102). -/
def disassembleWord (w : OpWord) : List Char :=
  match decode w with
  | .op i => (disassemble i).text
  | .illegal => ".word 0x".toList ++ hexDigits 8 w.toNat ++ " ; ILLEGAL".toList

/-- The value of a digit in a base. -/
def digitVal (base : Nat) (c : Char) : Option Nat :=
  let n := c.toNat
  let v :=
    if 48 ≤ n ∧ n ≤ 57 then n - 48
    else if 97 ≤ n ∧ n ≤ 102 then n - 87
    else if 65 ≤ n ∧ n ≤ 70 then n - 55
    else base
  if v < base then some v else none

/-- Digits, most significant first. -/
def digitsVal (base : Nat) (acc : Nat) (l : List Char) : Option Nat :=
  match l with
  | [] => some acc
  | c :: r =>
    match digitVal base c with
    | some v => digitsVal base (acc * base + v) r
    | none => none

/-- An operand from its text (R102). -/
def parseArg (l : List Char) : Option Arg :=
  match l with
  | [] => none
  | ['\'', c, '\''] => some (.chr c)
  | '0' :: 'x' :: d :: r => (digitsVal 16 0 (d :: r)).map .num
  | l =>
    if l = "OUTPUT".toList then some (.kw .output)
    else if l = "INPUT".toList then some (.kw .input)
    else if l = "HIGH".toList then some (.kw .high)
    else if l = "LOW".toList then some (.kw .low)
    else (digitsVal 10 0 l).map .num

/-- Cut a line into words: a blank, a comma or the end closes a word, `;` begins a comment, and a character literal
is a word of its own whatever its character. Commas and blanks in a row make no operand between them, and none before
the first or after the last: a line such as `BTNGET 5,` is accepted, the model's choice (assumption 22). `cur` is the
word being read, reversed. -/
def wordsOf (cur : List Char) (l : List Char) : List (List Char) :=
  let done := if cur.isEmpty then [] else [cur.reverse]
  match l with
  | [] => done
  | '\'' :: d :: '\'' :: r => done ++ [['\'', d, '\'']] ++ wordsOf [] r
  | c :: r =>
    if c = ';' then done
    else if c = ' ' ∨ c = ',' ∨ c = '\t' then done ++ wordsOf [] r
    else wordsOf (c :: cur) r

/-- All operands of a line, if each is one. -/
def parseArgs (l : List (List Char)) : Option (List Arg) :=
  match l with
  | [] => some []
  | w :: r =>
    match parseArg w, parseArgs r with
    | some a, some as => some (a :: as)
    | _, _ => none

/-- Assemble a line of text that holds an operation (R102, R104). -/
def assembleText (c : Cfg) (l : List Char) : AsmResult :=
  match wordsOf [] l with
  | [] => .refused .unknownMnemonic
  | m :: r =>
    match parseArgs r with
    | some args => assemble c ⟨String.ofList m, args⟩
    | none => .refused .notANumber

/-- What the assembler makes of a text: the words of its operations, or the line refused and why (R104). -/
inductive ProgramResult where
  | ok (words : List OpWord)
  | refused (line : Nat) (e : AsmError)
  deriving DecidableEq, Repr

/-- Assemble lines numbered from `n`, one operation a line; a line with no word on it, such as a comment, holds none
(R102). The first line refused is named (R104). -/
def assembleLines (c : Cfg) (n : Nat) (ls : List (List Char)) : ProgramResult :=
  match ls with
  | [] => .ok []
  | l :: r =>
    if (wordsOf [] l).isEmpty then assembleLines c (n + 1) r
    else match assembleText c l with
      | .refused e => .refused n e
      | .ok i =>
        match assembleLines c (n + 1) r with
        | .ok ws => .ok (encode i :: ws)
        | .refused k e => .refused k e

end Sys2Proof.Machine
end

