-- ==== Sys2Proof/Safety.lean ====
section
/-! DEFINITION. The terms that claims are stated in: what an operation leaves alone, what a faulting operation leaves
behind, the end of a run, when the display may be read, and the invariants of the machine. -/

namespace Sys2Proof.Machine

/-! ## Frames -/

/-- Bit `k` of register `a` is one of the LCD's control or data pins (R201, R206). -/
def lcdPin (c : Cfg) (a : IoAddr) (k : Nat) : Bool :=
  (a == c.ctrlReg && (k == c.rsBit.toNat || k == c.eBit.toNat)) ||
    (a == c.dataReg && (dmask c).getLsbD k)

/-- Every I/O register bit that is no LCD pin is as before; an unknown register stays unknown. -/
def SamePins (s t : State) : Prop :=
  ∀ a k, lcdPin s.cfg a k = false → (ioCell t a).map (·.getLsbD k) = (ioCell s a).map (·.getLsbD k)

/-- What lies outside the block and is never the target of an operation, and the word, which OPR keeps after the operation
(the model's choice, assumption 18). -/
def SameOutside (s t : State) : Prop :=
  t.cfg = s.cfg ∧ t.mem = s.mem ∧ t.host = s.host ∧ t.opr = s.opr

/-- STATUS but for BUSY. -/
def SameStatus (s t : State) : Prop :=
  t.initDone = s.initDone ∧ t.fault = s.fault ∧ t.amode = s.amode ∧ t.fcode = s.fcode ∧ t.fop = s.fop

/-- The hidden registers that only LCD operations use (R31). -/
def SameHidden (s t : State) : Prop :=
  t.dl = s.dl ∧ t.rsl = s.rsl ∧ t.beat = s.beat ∧ t.wcnt = s.wcnt ∧ t.sp = s.sp ∧ t.gi = s.gi ∧ t.istep = s.istep

/-- The block is in IDLE with nothing left to do. -/
def AtRest (t : State) : Prop :=
  t.seq = .idle ∧ t.tsm = .idle ∧ t.todo = [] ∧ t.loop = .done ∧ t.raced = []

/-- The part of a GPIO or button operation's frame that is not the I/O space, RESULT or the button table. -/
def GpioFrame (s t : State) : Prop :=
  SameOutside s t ∧ SameStatus s t ∧ SameHidden s t ∧ t.acks = s.acks ∧ AtRest t

/-- The frame of an LCD operation: the outside, RESULT, the button table, the fault record and every I/O bit that is
no LCD pin. -/
def LcdFrame (s t : State) : Prop :=
  SameOutside s t ∧ t.result = s.result ∧ t.btn = s.btn ∧ t.fault = s.fault ∧ t.fcode = s.fcode ∧ t.fop = s.fop ∧
    SamePins s t

/-- What an LCD operation other than LCDINIT leaves as it was beside LcdFrame, and that it has ended. -/
def LcdRest (s t : State) : Prop :=
  LcdFrame s t ∧ t.initDone = s.initDone ∧ t.istep = s.istep ∧ t.draws = s.draws ∧ AtRest t

/-- The latches after a transfer of a byte (R204, R205), its settle wait counted down (R211). -/
def Latched (t : State) (rs : Bool) (b : Byte) : Prop :=
  t.dl = b ∧ t.rsl = rs ∧ t.beat = (t.cfg.lcdBus == 4) ∧ t.wcnt = 0

/-- The latches that no transfer has touched. -/
def SameLatched (s t : State) : Prop :=
  t.dl = s.dl ∧ t.rsl = s.rsl ∧ t.beat = s.beat ∧ t.wcnt = s.wcnt ∧ t.rmwv = s.rmwv

/-- What a transfer leaves in the DMASK bits of the data register (R206 to R208): its byte on an 8-bit bus, and the low
nibble, which goes second, on a 4-bit bus. -/
def DataLeft (t : State) (b : Byte) : Prop :=
  ∃ x, ioCell t t.cfg.dataReg = some x ∧
    x &&& dmask t.cfg = if t.cfg.lcdBus = 8 then b else (b &&& 0x0F#8) <<< t.cfg.dataShift

/-- The first register of a list whose content is unknown. -/
def firstUnknown (s : State) (l : List IoAddr) : Option IoAddr := l.find? fun a => (ioCell s a).isNone

/-- No field of the display that can be unknown holds a value (R281); `shifted` is true where the window may be
shifted (R280). -/
def Disp.Unknown (d : Disp) : Prop :=
  d.N = none ∧ d.F = none ∧ d.ID = none ∧ d.S = none ∧ d.D = none ∧ d.C = none ∧ d.B = none ∧ d.AC = none ∧
    (∀ a : Fin 128, d.DDRAM.get a = none) ∧ (∀ a : Fin 64, d.CGRAM.get a = none) ∧ d.shifted = true

/-- The display is LOST, and nothing of it is known (R281). -/
def Disp.Gone (d : Disp) : Prop := d.sync = .lost ∧ d.Unknown

/-- The display model after a GPIO or button operation has written the control register from `x` to `y` (R285 to R287):
a falling edge of E loses a tracked display, and otherwise only the E level it last saw changes. This speaks of the
reference model's own state (assumption 21). -/
def GpioSeen (s t : State) (x y : Byte) : Prop :=
  t.disp.prevE = y.getLsbD s.cfg.eBit.toNat ∧
    if x.getLsbD s.cfg.eBit.toNat = true ∧ y.getLsbD s.cfg.eBit.toNat = false ∧ s.disp.sync = .sync ∧
        s.inSyncSteps = false then t.disp.Gone
    else t.disp = { s.disp with prevE := y.getLsbD s.cfg.eBit.toNat }

/-- The E level the display last saw is the level on the wire (R280, R285). -/
def WireSeen (s : State) : Prop :=
  ∀ x, ioCell s s.cfg.ctrlReg = some x → s.disp.prevE = x.getLsbD s.cfg.eBit.toNat

/-- The operation ends with one read-modify-write of `reg`, from `x` to `y`, and leaves everything else (R68): every
other register, RESULT, the button table, STATUS, the outside, and the display unless `reg` drives its E line. That RMWV
still holds `x` at rest is the model's choice (assumption 18). -/
def Rewrites (i : Instr) (s : State) (reg : IoAddr) (x y : Byte) : Prop :=
  ∃ t, exec i s = .next t ∧ ioCell t reg = some y ∧ (∀ a, a ≠ reg → ioCell t a = ioCell s a) ∧
    t.rmwv = x ∧ t.result = s.result ∧ t.btn = s.btn ∧ t.draws = s.draws ∧ GpioFrame s t ∧
    (reg ≠ s.cfg.ctrlReg → t.disp = s.disp) ∧ (reg = s.cfg.ctrlReg → WireSeen s → GpioSeen s t x y) ∧
    t.trace = .ioWr reg y :: .ioRd reg x :: .decode :: s.trace

/-- The operation ends with one read of `reg`, of the byte `x`, and RESULT `r` (R146, R172), having used up `n` free
values; everything else is as it was. That a sample leaves RMWV is the model's choice (assumption 18). -/
def Samples (i : Instr) (s : State) (reg : IoAddr) (x r : Byte) (n : Nat) : Prop :=
  ∃ t, exec i s = .next t ∧ t.result = r ∧ t.io = s.io ∧ t.rmwv = s.rmwv ∧ t.btn = s.btn ∧ t.disp = s.disp ∧
    t.draws = s.draws + n ∧ GpioFrame s t ∧ t.trace = .ioRd reg x :: .decode :: s.trace

/-- The effect of `raise Fault(c)` on an operation (R335): the first fault is recorded, one DECODE cycle passes, and
nothing else changes. R330 says that the word is not kept after the fault: that OPR holds it until the next acceptance is
the model's choice (assumption 18). -/
def FaultDropped (c : FCode) (s t : State) : Prop :=
  t.fault = true ∧
  (s.fault = false → t.fcode = c ∧ t.fop = s.opr.extractLsb' 28 4) ∧
  (s.fault = true → t.fcode = s.fcode ∧ t.fop = s.fop) ∧
  AtRest t ∧
  t.trace = .decode :: s.trace ∧
  SameOutside s t ∧ SameHidden s t ∧
  t.initDone = s.initDone ∧ t.amode = s.amode ∧ t.result = s.result ∧ t.btn = s.btn ∧ t.rmwv = s.rmwv ∧
  t.io = s.io ∧ t.disp = s.disp ∧ t.acks = s.acks ∧ t.draws = s.draws

/-! ## The LCD wire -/

/-- The content of the LCD's control and data registers is known. -/
def WireKnown (s : State) : Prop :=
  (∃ x, ioCell s s.cfg.ctrlReg = some x) ∧ ∃ y, ioCell s s.cfg.dataReg = some y

/-- The levels of E and RS on the wire (R201). -/
def WireLevels (s : State) (e r : Bool) : Prop :=
  ∃ x, ioCell s s.cfg.ctrlReg = some x ∧ x.getLsbD s.cfg.eBit.toNat = e ∧ x.getLsbD s.cfg.rsBit.toNat = r

/-- An LCD operation other than LCDINIT can run: the configuration is well formed, LCDINIT has run, the LCD's
registers are known, and the display has seen the level of E. -/
def LcdReady (s : State) : Prop := s.cfg.wf = true ∧ s.initDone = true ∧ WireKnown s ∧ WireSeen s

/-- The display model is in step with the block: nothing is half sent, and LCDINIT is not synchronising. -/
def InStep (s : State) : Prop :=
  s.disp.sync = .sync ∧ s.disp.bus8 = (s.cfg.lcdBus == 8) ∧ s.disp.pend = none ∧ s.inSyncSteps = false

/-- Whenever the display is tracked, it is in step. -/
def Tracked (s : State) : Prop := s.disp.sync = .sync → InStep s

/-- The register that a GPIO or button operation writes (41_gpio.md, 42_button.md). -/
def gpioTarget (i : Instr) : Option IoAddr :=
  match i with
  | .setbit reg _ => some reg
  | .resetbit reg _ => some reg
  | .togglebit reg _ => some reg
  | .setpindir reg _ _ => some reg
  | .setpinstate reg _ _ => some reg
  | .btninit _ dirreg _ _ _ => some dirreg
  | _ => none

/-- The operation clears a bit that is 1 (R142 to R145, R171): RESETBIT, TOGGLEBIT, SETPINSTATE LOW, and SETPINDIR and
BTNINIT in the direction whose bit is 0. -/
def ClearsBit (c : Cfg) (reg : IoAddr) (bit : BitIdx) (i : Instr) : Prop :=
  i = .resetbit reg bit ∨ i = .togglebit reg bit ∨ i = .setpinstate reg bit .low ∨
    i = .setpindir reg bit (if c.dirOutputBit then .input else .output) ∨
    (c.dirOutputBit = true ∧ ∃ slot o inp, i = .btninit slot reg o inp bit)

/-- The bytes that a display makes of transfers (R286, R288, R290): it takes each in turn, until it is lost. -/
def Disp.sent (c : Cfg) (l : List (Bool × Byte)) (d : Disp) : Disp :=
  match l with
  | [] => d
  | (rs, b) :: r => Disp.sent c r (if d.sync = .sync then d.exec c rs b else d)

/-- Data bytes, as transfers. -/
def dataBytes (l : List Byte) : List (Bool × Byte) := l.map fun b => (true, b)

/-- The display with E low on its wire. -/
def Disp.eLow (d : Disp) : Disp := { d with prevE := false }

/-- The bus record of one beat (R207, R214), newest first: control register `x` with E low, data register from `d` to
`v`. -/
def beatTrace (c : Cfg) (x d v : Byte) : List Event :=
  [.ioWr c.ctrlReg x, .ioRd c.ctrlReg (x ||| eMask c), .wait c.tEpw, .ioWr c.ctrlReg (x ||| eMask c),
   .ioRd c.ctrlReg x, .ioWr c.dataReg v, .ioRd c.dataReg d]

/-- The last byte written to a register in a bus record (newest first); `x` if none was. -/
def lastWritten (a : IoAddr) (x : Byte) (tr : List Event) : Byte :=
  match tr with
  | [] => x
  | .ioWr b v :: r => if b = a then v else lastWritten a x r
  | _ :: r => lastWritten a x r

/-- What the falling edges of E in a bus record put on the wire (R201, R285), oldest first: the level of RS and the value
on the data lines. The record is newest first, and `x` and `y` are what the control and the data register held before
it. -/
def strobes (c : Cfg) (x y : Byte) (tr : List Event) : List (Bool × Byte) :=
  match tr with
  | [] => []
  | .ioWr a v :: r =>
    if a = c.ctrlReg ∧ (lastWritten a x r).getLsbD c.eBit.toNat = true ∧ v.getLsbD c.eBit.toNat = false then
      strobes c x y r ++
        [(v.getLsbD c.rsBit.toNat, (lastWritten c.dataReg y (.ioWr a v :: r) &&& dmask c) >>> c.dataShift)]
    else strobes c x y r
  | _ :: r => strobes c x y r

/-- The strobes of the bus record between two states are these. -/
def Strobed (s t : State) (l : List (Bool × Byte)) : Prop :=
  ∃ new, t.trace = new ++ s.trace ∧ ∀ x y, ioCell s s.cfg.ctrlReg = some x → ioCell s s.cfg.dataReg = some y →
    strobes s.cfg x y new = l

/-- The strobes of one byte: the byte on an 8-bit bus, its high and then its low nibble on a 4-bit bus (R205, R208). -/
def byteStrobes (c : Cfg) (rs : Bool) (b : Byte) : List (Bool × Byte) :=
  if c.lcdBus = 8 then [(rs, b)] else [(rs, b >>> 4), (rs, b &&& 0x0F#8)]

/-- The strobes of a string of data bytes, one after another (R244, R247). -/
def dataStrobes (c : Cfg) (l : List Byte) : List (Bool × Byte) := l.flatMap (byteStrobes c true)

/-- The strobes of LCDINIT after its power-up wait (R241, R248): 0x30 three times, or the nibbles 3, 3, 3, 2, and then the
three commands. -/
def initStrobes (c : Cfg) : List (Bool × Byte) :=
  (if c.lcdBus = 8 then [(false, 0x30#8), (false, 0x30#8), (false, 0x30#8)]
    else [(false, 0x03#8), (false, 0x03#8), (false, 0x03#8), (false, 0x02#8)]) ++
  byteStrobes c false c.initFuncset ++ byteStrobes c false c.initEntry ++ byteStrobes c false c.initDispctl

/-- Modulo 64, one up or one down (R288, R290). -/
def cgramStep (a : BitVec 7) (up : Bool) : BitVec 7 := BitVec.ofNat 7 ((a.toNat + if up then 1 else 63) % 64)

/-- The rows of R288, from the display `d` before a command byte to `e` after it. A cursor move in DDRAM while the number
of lines is unknown is left out: R292 gives it no next address. -/
def CommandRows (c : Cfg) (b : Byte) (d e : Disp) : Prop :=
  (b = 0x00#8 → e.Gone) ∧
  (b = 0x01#8 → e =
    { d with DDRAM := Vector.replicate 128 (some 0x20#8), AC := some 0#7, AM := .ddram, ID := some true, shifted := false }) ∧
  (b = 0x02#8 ∨ b = 0x03#8 → e = { d with AC := some 0#7, AM := .ddram, shifted := false }) ∧
  (0x04#8 ≤ b ∧ b ≤ 0x07#8 → e = { d with ID := some (b.getLsbD 1), S := some (b.getLsbD 0) }) ∧
  (0x08#8 ≤ b ∧ b ≤ 0x0F#8 →
    e = { d with D := some (b.getLsbD 2), C := some (b.getLsbD 1), B := some (b.getLsbD 0) }) ∧
  (0x10#8 ≤ b ∧ b ≤ 0x17#8 →
    (d.AC = none → e = d) ∧
    (∀ a n, d.AC = some a → d.AM = .ddram → d.N = some n →
      e = { d with AC := some (ddramNext c n a (b.getLsbD 2)) }) ∧
    (∀ a, d.AC = some a → d.AM = .cgram → e = { d with AC := some (cgramStep a (b.getLsbD 2)) })) ∧
  (0x18#8 ≤ b ∧ b ≤ 0x1F#8 → e = { d with shifted := true }) ∧
  (0x20#8 ≤ b ∧ b ≤ 0x3F#8 →
    if b.getLsbD 4 = d.bus8 ∧ b = c.initFuncset then e = { d with N := some (b.getLsbD 3), F := some (b.getLsbD 2) }
    else e.Gone) ∧
  (0x40#8 ≤ b ∧ b ≤ 0x7F#8 → e = { d with AC := some (0#1 ++ b.extractLsb' 0 6), AM := .cgram }) ∧
  (0x80#8 ≤ b → e = { d with AC := some (b.extractLsb' 0 7), AM := .ddram })

/-- The branches of R290, from the display `d` before a data byte to `e` after it, but for the DDRAM write, which
Obligations.LcdcharWritesTheDisplay states. -/
def DataRows (c : Cfg) (b : Byte) (d e : Disp) : Prop :=
  (d.AC = none → e.Gone) ∧
  (∀ a n, d.AC = some a → d.AM = .ddram → d.N = some n → ddramValid c n a = false → e.Gone) ∧
  (∀ a up, d.AC = some a → d.AM = .cgram → d.ID = some up →
    e.sync = .sync ∧ e.AM = .cgram ∧ e.AC = some (cgramStep a up) ∧ e.DDRAM = d.DDRAM ∧ e.shifted = d.shifted ∧
    ∀ k : Fin 64, e.CGRAM.get k = if k.val = a.toNat % 64 then some b else d.CGRAM.get k)

/-- AMODE and the display's AM agree, as far as the display may be read at this clock frequency (R295, R296). -/
def ModesAgree (fclk : Nat) (s : State) : Prop := ∀ d, s.readable fclk = some d → s.amode = d.AM

/-- The three bytes of LCDINIT belong to their commands: function set, entry mode, display control (R7, R248). -/
def initBytesProper (c : Cfg) : Bool :=
  decide (0x20#8 ≤ c.initFuncset ∧ c.initFuncset ≤ 0x3F#8) && decide (0x04#8 ≤ c.initEntry ∧ c.initEntry ≤ 0x07#8) &&
    decide (0x08#8 ≤ c.initDispctl ∧ c.initDispctl ≤ 0x0F#8)

/-- Bits of a direction register made outputs (R241, step 1). -/
def madeOutput (c : Cfg) (m x : Byte) : Byte := if c.dirOutputBit then x ||| m else x &&& ~~~m

/-- A register after the direction writes of LCDINIT (R241, step 1). -/
def afterDirections (c : Cfg) (a : IoAddr) (x : Byte) : Byte :=
  let y := if a = c.ctrlDirReg then madeOutput c (pinsC c) x else x
  if a = c.dataDirReg then madeOutput c (dmask c) y else y

/-! ## Host memory -/

/-- The zero-terminated string at an address (R244): the bytes before the first 0x00, addresses modulo 2^16. -/
def StringAt (s : State) (a : MemAddr) (l : List Byte) : Prop :=
  match l with
  | [] => memByte s a = 0x00#8
  | b :: r => memByte s a = b ∧ b ≠ 0x00#8 ∧ StringAt s (a + 1#16) r

/-- `n` bytes of host memory (R247), addresses modulo 2^16. -/
def bytesAt (s : State) (a : MemAddr) (n : Nat) : List Byte :=
  match n with
  | 0 => []
  | k + 1 => memByte s a :: bytesAt s (a + 1#16) k

/-- The cycles that one answer makes a MemRead wait (R62). -/
def Ack.stalls (k : Ack) : Nat :=
  match k with
  | .after n => n
  | .never => 0

/-- The next `n` MemReads are answered (R62). -/
def Answered (s : State) (n : Nat) : Prop := Ack.never ∉ s.acks.take n

/-- The cycles of the next `n` MemReads: each has its read cycle and the cycles it waits (R62, R390). -/
def readCycles (s : State) (n : Nat) : Nat := n + ((s.acks.take n).map Ack.stalls).sum

/-- The bus record of the next MemRead, newest first (R62): the cycles without an acknowledge, if any, and then the
read. -/
def readTrace (s : State) (a : MemAddr) (v : Byte) : List Event :=
  let n := ((s.acks.take 1).map Ack.stalls).sum
  .memRd a v :: if n = 0 then [] else [.stall n]

/-! ## Runs -/

/-- The end of a run of a host program (R128): every word accepted, SEQ in IDLE, no host-memory request
outstanding. -/
def State.ended (s : State) : Bool :=
  s.host.all (fun m => match m with | .offer _ => false | .start _ => false | _ => true) && !s.busy && !s.memPending

/-- The end state of a run (R128), the display model with its `sync` included. A claim reads the display through
`State.readable` (R281, R295). -/
structure EndState where
  status : BitVec 16
  result : Byte
  btn    : Vector Button 8
  io     : Memory
  disp   : Disp
  deriving DecidableEq, Repr

def State.endState (s : State) : EndState :=
  { status := s.status, result := s.result, btn := s.btn, io := s.io, disp := s.disp }

/-- A claim about a run needs both: no block fault recorded and no refusal (R11). The second is that the run
answers a next state. -/
def State.faultFree (s : State) : Bool := !s.fault

/-- The move the host makes next, if any. -/
def State.nextMove (s : State) : Option HostMove := s.host.head?

/-! ## Invariants -/

/-- The invariant of the machine: both memories in canonical form and no input register stored (R32); RESULT[7:1] = 0
(R29); an empty fault record unless FAULT (R27); an unbound descriptor all zero (R30), and no descriptor write left to
do (R171 makes it at the DECODE edge); nothing left to do in IDLE (R25, R31); and the display has seen the level of E
(R285). -/
def MachineInv (s : State) : Prop :=
  s.mem.wf = true ∧ s.io.ioWf s.cfg = true ∧
  (s.result = 0#8 ∨ s.result = 1#8) ∧
  (s.fault = false → s.fcode = .none ∧ s.fop = 0#4) ∧
  (∀ k : Fin 8, (s.btn.get k).bound = false → s.btn.get k = Button.unbound) ∧
  (∀ k d, Micro.reg (.btn k d) ∉ s.todo) ∧
  (s.seq = .idle → AtRest s) ∧
  WireSeen s

/-- Every wait left to run, and the one in progress, fits the wait counter (R31, R8). -/
def CounterFits (s : State) : Prop :=
  s.wcnt < 2 ^ s.cfg.wcw ∧ ∀ n, .wait n ∈ s.todo → n < 2 ^ s.cfg.wcw

end Sys2Proof.Machine
end

