-- ==== Sys2Proof/Certificates/Slice0/Obligations.lean ====
section
/-! DEFINITION. The statements for the provers. Each docstring names the rules of spec/ that the statement rests on, and
says where a clause is the model's own choice. -/

open Sys2Proof Sys2Proof.Machine

/-! ## Encoding (30_encoding.md) -/

/-- The worked encodings of R105. -/
def Obligations.WorkedEncodingsDecode : Prop :=
  decode 0x00000000#32 = .op .nop ∧
  decode 0x1300003B#32 = .op (.setbit 0x3B#7 3#3) ∧
  decode 0x2300003B#32 = .op (.resetbit 0x3B#7 3#3) ∧
  decode 0x3700003B#32 = .op (.togglebit 0x3B#7 7#3) ∧
  decode 0x4B00003A#32 = .op (.setpindir 0x3A#7 3#3 .output) ∧
  decode 0x4300003A#32 = .op (.setpindir 0x3A#7 3#3 .input) ∧
  decode 0x5B00003B#32 = .op (.setpinstate 0x3B#7 3#3 .high) ∧
  decode 0x63000039#32 = .op (.getpinstate 0x39#7 3#3) ∧
  decode 0x720C5930#32 = .op (.btninit 0#3 0x31#7 0x32#7 0x30#7 2#3) ∧
  decode 0x80A00000#32 = .op (.btnget 5#3) ∧
  decode 0x90000000#32 = .op .lcdinit ∧
  decode 0xA0000038#32 = .op (.lcdcmd 0x38#8) ∧
  decode 0xB0000041#32 = .op (.lcdchar 0x41#8) ∧
  decode 0xC0000100#32 = .op (.lcdstr 0x0100#16) ∧
  decode 0xD4500100#32 = .op (.lcdstrat 1#2 5#6 0x0100#16) ∧
  decode 0xE0000000#32 = .op .lcdclear ∧
  decode 0xF3000200#32 = .op (.lcdglyph 3#3 0x0200#16)

/-- Decoding the word of an operation gives the operation back, for every operation and every operand value (R91 to
R96). -/
def Obligations.DecodeOfEncodeIsIdentity : Prop := ∀ i : Instr, decode (encode i) = .op i

/-- A word that is an operation is that operation's word: no two words mean the same operation, and every field comes
from its own bits (R91 to R96, R98). -/
def Obligations.EncodeOfDecodeIsIdentity : Prop := ∀ (w : OpWord) (i : Instr), decode w = .op i → encode i = w

/-- A word is the operation of a row of the opcode map exactly when it matches the row (R92), at most one row matches it
(R99), and it is ILLEGAL exactly when none does (R98). -/
def Obligations.DecodeIsTheOpcodeMap : Prop :=
  ∀ w : OpWord,
    (∀ r ∈ opcodeMap, w &&& r.mask = r.value ↔ ∃ i, decode w = .op i ∧ mnemonicOf i = r.mnemonic) ∧
    (∀ r ∈ opcodeMap, ∀ r' ∈ opcodeMap, w &&& r.mask = r.value → w &&& r'.mask = r'.value → r = r') ∧
    (decode w = .illegal ↔ ∀ r ∈ opcodeMap, w &&& r.mask ≠ r.value)

/-- Assembling the line a disassembler prints gives the operation back, under every configuration (R102). -/
def Obligations.AssembleOfDisassembleIsIdentity : Prop :=
  ∀ (c : Cfg) (i : Instr), assemble c (disassemble i) = .ok i

/-- The pseudo-instructions and their expansions (R103). LCDGOTO is refused outside the display. -/
def Obligations.PseudoInstructionsExpand : Prop :=
  (∀ c reg pin, assemble c ⟨"PINOUT", [reg, pin]⟩ = assemble c ⟨"SETPINDIR", [reg, pin, .kw .output]⟩) ∧
  (∀ c reg pin, assemble c ⟨"PININ", [reg, pin]⟩ = assemble c ⟨"SETPINDIR", [reg, pin, .kw .input]⟩) ∧
  (∀ c reg pin, assemble c ⟨"PINHIGH", [reg, pin]⟩ = assemble c ⟨"SETPINSTATE", [reg, pin, .kw .high]⟩) ∧
  (∀ c reg pin, assemble c ⟨"PINLOW", [reg, pin]⟩ = assemble c ⟨"SETPINSTATE", [reg, pin, .kw .low]⟩) ∧
  (∀ c, assemble c ⟨"LCDHOME", []⟩ = assemble c ⟨"LCDCMD", [.num 0x02]⟩) ∧
  (∀ c row col, row < 4 → col < 64 → row < c.lcdRows → col < c.lcdCols →
    assemble c ⟨"LCDGOTO", [.num row, .num col]⟩ =
      .ok (.lcdcmd (0x80#8 ||| (((rowBase c (BitVec.ofNat 2 row)).setWidth 8 + BitVec.ofNat 8 col) &&& 0x7F#8)))) ∧
  (∀ c row col, c.lcdRows ≤ row ∨ c.lcdCols ≤ col →
    assemble c ⟨"LCDGOTO", [.num row, .num col]⟩ = .refused .outOfRange) ∧
  (∀ c slot, slot < 8 →
    assemble c ⟨"LCDCGADDR", [.num slot]⟩ = .ok (.lcdcmd (0x40#8 ||| BitVec.ofNat 8 (slot <<< 3))))

/-! ## The step, acceptance and the configuration -/

/-- A configuration is refused exactly when a named check of R8 fails; each check is written out here. -/
def Obligations.IllFormedConfigurationIsRefused : Prop :=
  ∀ s : State, step s = .refused .configIllFormed ↔
    ¬ ((s.cfg.lcdBus = 4 ∨ s.cfg.lcdBus = 8) ∧
       (s.cfg.lcdBus = 8 → s.cfg.dataShift = 0) ∧ (s.cfg.lcdBus = 4 → s.cfg.dataShift ≤ 4) ∧
       s.cfg.rsBit ≠ s.cfg.eBit ∧
       (s.cfg.ctrlReg = s.cfg.dataReg →
         (dmask s.cfg).getLsbD s.cfg.rsBit.toNat = false ∧ (dmask s.cfg).getLsbD s.cfg.eBit.toNat = false) ∧
       s.cfg.ctrlDirReg ≠ s.cfg.ctrlReg ∧ s.cfg.dataDirReg ≠ s.cfg.dataReg ∧
       (∀ a ∈ s.cfg.ioVolatile, a ≠ s.cfg.ctrlReg ∧ a ≠ s.cfg.dataReg ∧ a ≠ s.cfg.ctrlDirReg ∧ a ≠ s.cfg.dataDirReg) ∧
       1 ≤ s.cfg.lcdRows ∧ s.cfg.lcdRows ≤ 4 ∧ 1 ≤ s.cfg.lcdCols ∧ s.cfg.lcdCols ≤ 40 ∧
       (∀ r : BitVec 2, r.toNat < s.cfg.lcdRows → (rowBase s.cfg r).toNat + s.cfg.lcdCols - 1 ≤ 0x7F) ∧
       (∀ t ∈ [s.cfg.tPwrup, s.cfg.tInitA, s.cfg.tInitB, s.cfg.tEpw, s.cfg.tCmd], 1 ≤ t) ∧
       s.cfg.tCmd ≤ s.cfg.tClear ∧
       (∀ t ∈ [s.cfg.tPwrup, s.cfg.tInitA, s.cfg.tInitB, s.cfg.tEpw, s.cfg.tNib, s.cfg.tCmd, s.cfg.tClear],
         t < 2 ^ s.cfg.wcw))

/-- A step of an idle block that is offered a word is the acceptance of the word (R120) and then the decoded operation,
from its DECODE cycle to its end (R121, R200); an ILLEGAL word has its own DECODE cycle (R98). So does the word that
`withFetchWord` places (the model's stand-in for an instruction fetch, which LCDC does not have: assumption 2). -/
def Obligations.StepRunsTheOfferedOperation : Prop :=
  ∀ (s : State) (w : OpWord) (r : List HostMove), s.cfg.wf = true → s.host = .offer w :: r → s.busy = false →
    (∀ i, decode w = .op i → step s = exec i ((s.setHost r).accept w)) ∧
    (decode w = .illegal → step s = .next (illegalWord ((s.setHost r).accept w))) ∧
    ((s.setHost r).accept w).opr = w ∧ ((s.setHost r).accept w).seq = .decode ∧
    ((s.setHost r).accept w).host = r ∧ ((s.setHost r).accept w).io = s.io ∧
    ((s.setHost r).accept w).mem = s.mem ∧ ((s.setHost r).accept w).disp = s.disp ∧
    (∀ (u : State) i, u.cfg.wf = true → decode w = .op i → step (u.withFetchWord 32 w.toNat) = exec i (u.toIdle.accept w))

/-- A busy block captures no word (R120, R127), whichever of the two host moves offers it: the offer stays with the host
for the next step, and the word in flight is the one that runs. That OPR holds that word also when the step has ended or
faulted the operation is the model's choice (assumption 18). -/
def Obligations.BusyBlockTakesNoWord : Prop :=
  ∀ (s : State) (w : OpWord) (r : List HostMove), s.host = .offer w :: r ∨ s.host = .start w :: r → s.busy = true →
    ∀ t, step s = .next t → t.host = s.host ∧ t.opr = s.opr

/-- STATUS, bit for bit (R24): BUSY is 1 exactly when SEQ is not IDLE, and `op_ready` is its complement while `rst` is 0
and 0 while `rst` is 1 (R25). -/
def Obligations.StatusAndReady : Prop :=
  ∀ s : State, (s.status.getLsbD 0 = true ↔ s.seq ≠ .idle) ∧ s.status.getLsbD 1 = s.initDone ∧
    s.status.getLsbD 2 = s.fault ∧ (s.status.getLsbD 3 = true ↔ s.amode = .cgram) ∧
    s.status.extractLsb' 4 4 = s.fcode.code ∧ s.status.extractLsb' 8 4 = s.fop ∧ s.status.extractLsb' 12 4 = 0#4 ∧
    (s.ports false).opReady = !s.status.getLsbD 0 ∧ (s.ports true).opReady = false

/-! ## Control (40_control.md) -/

/-- NOP takes its DECODE cycle and changes nothing (R125). -/
def Obligations.NopChangesNothing : Prop :=
  ∀ s : State, s.tsm = .idle → s.todo = [] → s.loop = .done → s.raced = [] →
    exec .nop s = .next { s with seq := .idle, trace := .decode :: s.trace }

/-- `wait(n)` loads WCNT with `n` and holds the sequencer for exactly `n` cycles, counting WCNT down, with no bus access
and the I/O registers unchanged; `wait(0)` takes no cycle (R211). -/
def Obligations.WaitHoldsExactlyNCycles : Prop :=
  (∀ (s : State) (n : Nat) (l : List Micro), 0 < n →
    atEdge (.wait n :: l) s = { s with wcnt := n, todo := .wait n :: l }) ∧
  (∀ (s : State) (l : List Micro), atEdge (.wait 0 :: l) s = atEdge l { s with wcnt := 0 }) ∧
  ∀ (s : State) (n : Nat) (l : List Micro), s.seq = .run → s.todo = .wait n :: l → s.wcnt = n → 0 < n →
    (∀ k, k < n → ∃ t, ticks k s = .next t ∧ t.wcnt = n - k ∧ t.todo = s.todo ∧ t.io = s.io ∧ t.busy = true ∧
      (t.ports false).ioRd = false ∧ (t.ports false).ioWr = false ∧ (t.ports false).memReq = false) ∧
    ∃ t, ticks n s = .next (atEdge l t) ∧ t.wcnt = 0 ∧ t.io = s.io ∧ t.cycles = s.cycles + n

/-- The machine run one clock cycle at a time ends in the very state that `exec` gives in one step, after exactly as many
cycles as `exec` counts (R121, R122, R200). -/
def Obligations.CycleByCycleRunEqualsExec : Prop :=
  ∀ (s t : State) (i : Instr), s.seq = .decode → decode s.opr = .op i → exec i s = .next t → t.seq = .idle →
    ticks (t.cycles - s.cycles) s = .next t

/-! ## GPIO (41_gpio.md) -/

/-- SETBIT of a known register that is no input register sets the bit and changes nothing else (R141, R68). If the register
is the LCD's control register, the reference model of the display sees the write (R281, R285 to R287; the model's own
state, assumption 21). That RMWV still holds the byte read and OPR the word is the model's choice (assumption 18). -/
def Obligations.SetbitSetsItsBit : Prop :=
  ∀ (s : State) (reg : IoAddr) (bit : BitIdx) (x : Byte), s.cfg.ioVolatile.contains reg = false →
    ioCell s reg = some x → Rewrites (.setbit reg bit) s reg x (x ||| 1#8 <<< bit.toNat)

/-- RESETBIT clears the bit and changes nothing else (R142, R68). If the register is the LCD's control register, the
reference model of the display sees the write (R281, R285 to R287; the model's own state, assumption 21). That RMWV still
holds the byte read and OPR the word is the model's choice (assumption 18). -/
def Obligations.ResetbitClearsItsBit : Prop :=
  ∀ (s : State) (reg : IoAddr) (bit : BitIdx) (x : Byte), s.cfg.ioVolatile.contains reg = false →
    ioCell s reg = some x → Rewrites (.resetbit reg bit) s reg x (x &&& ~~~(1#8 <<< bit.toNat))

/-- TOGGLEBIT inverts the bit and changes nothing else (R143, R68). If the register is the LCD's control register, the
reference model of the display sees the write (R281, R285 to R287; the model's own state, assumption 21). That RMWV still
holds the byte read and OPR the word is the model's choice (assumption 18). -/
def Obligations.TogglebitInvertsItsBit : Prop :=
  ∀ (s : State) (reg : IoAddr) (bit : BitIdx) (x : Byte), s.cfg.ioVolatile.contains reg = false →
    ioCell s reg = some x → Rewrites (.togglebit reg bit) s reg x (x ^^^ 1#8 <<< bit.toNat)

/-- SETPINDIR writes `DIR_OUTPUT_BIT` for OUTPUT and its complement for INPUT into the bit and changes nothing else (R144,
R94, R68). If the register is the LCD's control register, the reference model of the display sees the write (R281, R285 to
R287; the model's own state, assumption 21). That RMWV still holds the byte read and OPR the word is the model's choice
(assumption 18). -/
def Obligations.SetpindirWritesTheDirectionBit : Prop :=
  ∀ (s : State) (reg : IoAddr) (bit : BitIdx) (v : PinDir) (x : Byte), s.cfg.ioVolatile.contains reg = false →
    ioCell s reg = some x →
    Rewrites (.setpindir reg bit v) s reg x
      (if (if v = .output then s.cfg.dirOutputBit else !s.cfg.dirOutputBit) then x ||| 1#8 <<< bit.toNat
       else x &&& ~~~(1#8 <<< bit.toNat))

/-- SETPINSTATE sets the bit for HIGH and clears it for LOW and changes nothing else (R145, R94, R68). If the register is
the LCD's control register, the reference model of the display sees the write (R281, R285 to R287; the model's own state,
assumption 21). That RMWV still holds the byte read and OPR the word is the model's choice (assumption 18). -/
def Obligations.SetpinstateDrivesThePin : Prop :=
  ∀ (s : State) (reg : IoAddr) (bit : BitIdx) (v : PinState) (x : Byte), s.cfg.ioVolatile.contains reg = false →
    ioCell s reg = some x →
    Rewrites (.setpinstate reg bit v) s reg x
      (if v = .high then x ||| 1#8 <<< bit.toNat else x &&& ~~~(1#8 <<< bit.toNat))

/-- GETPINSTATE of a stored register: RESULT is the stored bit, and nothing else changes (R146, R66). That the read leaves
RMWV, and OPR the word, is the model's choice (assumption 18). -/
def Obligations.GetpinstateReadsAStoredBit : Prop :=
  ∀ (s : State) (reg : IoAddr) (bit : BitIdx) (x : Byte), s.cfg.ioVolatile.contains reg = false →
    ioCell s reg = some x →
    Samples (.getpinstate reg bit) s reg x (if x.getLsbD bit.toNat then 0x01#8 else 0x00#8) 0

/-- GETPINSTATE of an input register: RESULT is a bit of a free value, a fresh one at every read (R146, R66), whatever
the value is (assumption 5). That the read leaves RMWV, and OPR the word, is the model's choice (assumption 18). -/
def Obligations.GetpinstateDrawsFromAnInputRegister : Prop :=
  ∀ (s : State) (reg : IoAddr) (bit : BitIdx), s.cfg.ioVolatile.contains reg = true →
    Samples (.getpinstate reg bit) s reg (Config.draw s.draws)
      (if (Config.draw s.draws).getLsbD bit.toNat then 0x01#8 else 0x00#8) 1

/-- The model's refusals of the operations on one register (R66, R67, R140): a write to an input register, and a read of
an unknown register that is no input register. -/
def Obligations.GpioAndButtonRefusals : Prop :=
  ∀ (s : State) (reg : IoAddr) (bit : BitIdx),
    (s.cfg.ioVolatile.contains reg = true →
      exec (.setbit reg bit) s = .refused (.ioWriteVolatile reg) ∧
      exec (.resetbit reg bit) s = .refused (.ioWriteVolatile reg) ∧
      exec (.togglebit reg bit) s = .refused (.ioWriteVolatile reg) ∧
      (∀ v, exec (.setpindir reg bit v) s = .refused (.ioWriteVolatile reg)) ∧
      (∀ v, exec (.setpinstate reg bit v) s = .refused (.ioWriteVolatile reg)) ∧
      (∀ k o i, exec (.btninit k reg o i bit) s = .refused (.ioWriteVolatile reg))) ∧
    (s.cfg.ioVolatile.contains reg = false → ioCell s reg = none →
      exec (.setbit reg bit) s = .refused (.ioReadUnknown reg) ∧
      exec (.resetbit reg bit) s = .refused (.ioReadUnknown reg) ∧
      exec (.togglebit reg bit) s = .refused (.ioReadUnknown reg) ∧
      (∀ v, exec (.setpindir reg bit v) s = .refused (.ioReadUnknown reg)) ∧
      (∀ v, exec (.setpinstate reg bit v) s = .refused (.ioReadUnknown reg)) ∧
      exec (.getpinstate reg bit) s = .refused (.ioReadUnknown reg) ∧
      (∀ k o i, exec (.btninit k reg o i bit) s = .refused (.ioReadUnknown reg)) ∧
      (∀ k, (s.btn.get k.toFin).bound = true → (s.btn.get k.toFin).inp = reg →
        exec (.btnget k) s = .refused (.ioReadUnknown reg)))

/-- The laws of R147, operation after operation: set then reset, reset then set, toggle twice, different bits of one
register, different registers, and idempotence. -/
def Obligations.BitLaws : Prop :=
  ∀ (s : State) (r : IoAddr) (b : BitIdx) (x : Byte), s.cfg.ioVolatile.contains r = false → ioCell s r = some x →
    (∃ t, andThen (exec (.setbit r b) s) (exec (.resetbit r b)) = .next t ∧
      ioCell t r = some (x &&& ~~~(1#8 <<< b.toNat)) ∧ (ioCell t r = some x ↔ x.getLsbD b.toNat = false)) ∧
    (∃ t, andThen (exec (.resetbit r b) s) (exec (.setbit r b)) = .next t ∧
      ioCell t r = some (x ||| 1#8 <<< b.toNat)) ∧
    (∃ t, andThen (exec (.togglebit r b) s) (exec (.togglebit r b)) = .next t ∧ ioCell t r = some x) ∧
    (∀ f ∈ [Instr.setbit, Instr.resetbit, Instr.togglebit], ∀ g ∈ [Instr.setbit, Instr.resetbit, Instr.togglebit],
      (∀ c, c ≠ b → ∃ t u, andThen (exec (f r b) s) (exec (g r c)) = .next t ∧
        andThen (exec (g r c) s) (exec (f r b)) = .next u ∧ ioCell t r = ioCell u r) ∧
      (∀ q c y, q ≠ r → s.cfg.ioVolatile.contains q = false → ioCell s q = some y →
        ∃ t u, andThen (exec (f r b) s) (exec (g q c)) = .next t ∧
          andThen (exec (g q c) s) (exec (f r b)) = .next u ∧ ∀ a, ioCell t a = ioCell u a)) ∧
    (∀ f ∈ [Instr.setbit, Instr.resetbit], ∃ t u, exec (f r b) s = .next t ∧
      andThen (exec (f r b) s) (exec (f r b)) = .next u ∧ ioCell u r = ioCell t r)

/-- A falling edge of E made by any GPIO or button operation loses a display in step: nothing of it is known, and no claim
may read it, at any clock frequency (R287, R281, R149). The operations are RESETBIT, TOGGLEBIT, SETPINSTATE LOW, and
SETPINDIR and BTNINIT in the direction whose bit is 0. A GPIO or button operation on the data register alone leaves the
reference model of the display as it was (assumption 21). -/
def Obligations.GpioStrobeLosesTheDisplay : Prop :=
  ∀ (s : State) (i : Instr) (x : Byte), s.cfg.wf = true → InStep s → WireSeen s → ioCell s s.cfg.ctrlReg = some x →
    (x.getLsbD s.cfg.eBit.toNat = true → ClearsBit s.cfg s.cfg.ctrlReg s.cfg.eBit i →
      ∃ t, exec i s = .next t ∧ t.disp.Gone ∧ (∀ fclk, t.readable fclk = none) ∧ t.status = s.toIdle.status) ∧
    (∀ y, gpioTarget i = some s.cfg.dataReg → s.cfg.dataReg ≠ s.cfg.ctrlReg → ioCell s s.cfg.dataReg = some y →
      ∃ t, exec i s = .next t ∧ t.disp = s.disp)

/-! ## Buttons (42_button.md) -/

/-- BTNINIT binds the descriptor and makes the pin an input; the other descriptors and registers, RESULT and STATUS are as
before, and `outreg` and `inreg` are not accessed (R171). A direction register that is also the LCD's control register
drives the wire as any GPIO write does (R285 to R287; the reference model's own state, assumption 21). That OPR still holds
the word is the model's choice (assumption 18). -/
def Obligations.BtninitBindsAndMakesAnInput : Prop :=
  ∀ (s : State) (slot : BitVec 3) (d o i : IoAddr) (pin : BitIdx) (x : Byte), s.cfg.ioVolatile.contains d = false →
    ioCell s d = some x →
    ∃ t y, exec (.btninit slot d o i pin) s = .next t ∧
      y = (if s.cfg.dirOutputBit then x &&& ~~~(1#8 <<< pin.toNat) else x ||| 1#8 <<< pin.toNat) ∧
      t.btn.get slot.toFin = { bound := true, pin := pin, dir := d, out := o, inp := i } ∧
      (∀ k : Fin 8, k ≠ slot.toFin → t.btn.get k = s.btn.get k) ∧
      ioCell t d = some y ∧ (∀ a, a ≠ d → ioCell t a = ioCell s a) ∧
      t.result = s.result ∧ t.draws = s.draws ∧ GpioFrame s t ∧ (d ≠ s.cfg.ctrlReg → t.disp = s.disp) ∧
      (d = s.cfg.ctrlReg → WireSeen s → GpioSeen s t x y) ∧
      t.trace = .ioWr d y :: .ioRd d x :: .decode :: s.trace

/-- A second BTNINIT with the same operands leaves the end state of a run (R128) as the first did: the button table, every
register, RESULT, STATUS and the display model (R171). That the display model is unchanged also if the register is the LCD's
control register is about the reference model's own state (R285; assumption 21). -/
def Obligations.BtninitIsIdempotent : Prop :=
  ∀ (s t : State) (slot : BitVec 3) (d o i : IoAddr) (pin : BitIdx), exec (.btninit slot d o i pin) s = .next t →
    ∃ u, exec (.btninit slot d o i pin) t = .next u ∧ u.btn = t.btn ∧ (∀ a, ioCell u a = ioCell t a) ∧
      u.result = t.result ∧ u.status = t.status ∧ u.disp = t.disp

/-- BTNGET of a bound button: RESULT is 1 exactly when the sampled level is the active level; nothing else changes. The
sample is the stored byte, or a free value for an input register (R172, R66; assumption 5). That the read leaves RMWV, and
OPR the word, is the model's choice (assumption 18). -/
def Obligations.BtngetSamplesTheButton : Prop :=
  ∀ (s : State) (slot : BitVec 3) (d : Button), s.btn.get slot.toFin = d → d.bound = true →
    (∀ x, s.cfg.ioVolatile.contains d.inp = false → ioCell s d.inp = some x →
      Samples (.btnget slot) s d.inp x (if x.getLsbD d.pin.toNat = s.cfg.btnActive then 0x01#8 else 0x00#8) 0) ∧
    (s.cfg.ioVolatile.contains d.inp = true →
      Samples (.btnget slot) s d.inp (Config.draw s.draws)
        (if (Config.draw s.draws).getLsbD d.pin.toNat = s.cfg.btnActive then 0x01#8 else 0x00#8) 1)

/-- BTNGET returns PRESSED exactly when GETPINSTATE of the same input would return the active level, on the same sampled
value (R173). -/
def Obligations.BtngetIsGetpinstateAgainstTheActiveLevel : Prop :=
  ∀ (s t u : State) (slot : BitVec 3), (s.btn.get slot.toFin).bound = true →
    exec (.btnget slot) s = .next t →
    exec (.getpinstate (s.btn.get slot.toFin).inp (s.btn.get slot.toFin).pin) s = .next u →
    (t.result = 0x01#8 ↔ u.result = if s.cfg.btnActive then 0x01#8 else 0x00#8)

/-! ## Block faults (60_exceptions.md) -/

/-- The fault checks of the DECODE cycle, each with its code and its effect: the fault is recorded, the operation is
dropped in one cycle, and nothing else changes (R331 to R335). NOT_INIT wins over RANGE (R336). That OPR holds the faulting
word until the next acceptance, where R330 says that the word is not kept, is the model's choice (assumption 18). -/
def Obligations.FaultChecksOfDecode : Prop :=
  ∀ s : State,
    (∀ i, 0xA#4 ≤ opcOf i → s.initDone = false → ∃ t, exec i s = .next t ∧ FaultDropped .notInit s t) ∧
    (s.initDone = true → ∃ t, exec .lcdinit s = .next t ∧ FaultDropped .reinit s t) ∧
    (∀ row col m, s.initDone = true → s.cfg.lcdRows ≤ row.toNat ∨ s.cfg.lcdCols ≤ col.toNat →
      ∃ t, exec (.lcdstrat row col m) s = .next t ∧ FaultDropped .range s t) ∧
    (∀ slot : BitVec 3, (s.btn.get slot.toFin).bound = false →
      ∃ t, exec (.btnget slot) s = .next t ∧ FaultDropped .unbound s t)

/-- An ILLEGAL word, whatever its opcode and whatever other check would fail, raises ILLEGAL and nothing else (R98, R330,
R336). That OPR holds the word until the next acceptance, where R330 says that it is not kept, is the model's choice
(assumption 18). -/
def Obligations.IllegalWordFaults : Prop :=
  ∀ (s : State) (w : OpWord) (r : List HostMove), s.cfg.wf = true → s.host = .offer w :: r → s.busy = false →
    decode w = .illegal → ∃ t, step s = .next t ∧ FaultDropped .illegal ((s.setHost r).accept w) t

/-- Faults are precise: an operation that DECODE faults is dropped whole, with a code of R331 to R334, also when FAULT is 1
already, and every other operation leaves the fault record as it was (R335, R337, R338). `planOf` is the outcome of DECODE
(R121); Obligations.FaultChecksOfDecode says when it is a fault. That OPR holds the faulting word until the next acceptance
is the model's choice (assumption 18). -/
def Obligations.FaultsArePrecise : Prop :=
  ∀ (i : Instr) (s t : State), exec i s = .next t →
    (∀ c, planOf i s = .fault c → c ∈ [FCode.notInit, FCode.reinit, FCode.range, FCode.unbound] ∧ FaultDropped c s t) ∧
    ((∀ c, planOf i s ≠ .fault c) → t.fault = s.fault ∧ t.fcode = s.fcode ∧ t.fop = s.fop)

/-- The fault record is sticky: FAULT, once 1, stays 1, and FCODE and FOP keep the first fault's values, over every step
that is no reset (R27). -/
def Obligations.FaultRecordIsSticky : Prop :=
  ∀ s t : State, step s = .next t → s.nextMove ≠ some .reset → s.fault = true →
    t.fault = true ∧ t.fcode = s.fcode ∧ t.fop = s.fop

/-- STATUS.INIT_DONE is set by LCDINIT alone, at its end, and cleared by reset alone (R26). -/
def Obligations.OnlyLcdinitSetsInitDone : Prop :=
  (∀ (i : Instr) (s t : State), exec i s = .next t → i ≠ .lcdinit → t.initDone = s.initDone) ∧
  (∀ s t : State, exec .lcdinit s = .next t → t.initDone = true) ∧
  (∀ s t : State, step s = .next t → s.initDone = true → t.initDone = false → s.nextMove = some .reset)

/-- RESULT is written by GETPINSTATE and BTNGET alone (R29), and the button table by BTNINIT alone (R30). -/
def Obligations.ResultAndButtonWriters : Prop :=
  ∀ (i : Instr) (s t : State), exec i s = .next t →
    ((∀ reg bit, i ≠ .getpinstate reg bit) → (∀ slot, i ≠ .btnget slot) → t.result = s.result) ∧
    ((∀ slot d o inp pin, i ≠ .btninit slot d o inp pin) → t.btn = s.btn)

/-! ## Memory (20_memory.md) -/

/-- No operation writes host memory (R64), and only LCDSTR, LCDSTRAT and LCDGLYPH read it: what any other operation does is
the same whatever host memory holds (R61). -/
def Obligations.HostMemoryIsReadOnly : Prop :=
  (∀ (i : Instr) (s t : State), exec i s = .next t → t.mem = s.mem) ∧
  (∀ (s t : State) (n : Nat), ticks n s = .next t → t.mem = s.mem) ∧
  (∀ (i : Instr) (s : State) (m : Memory), (∀ a, i ≠ .lcdstr a) → (∀ r c a, i ≠ .lcdstrat r c a) →
    (∀ g a, i ≠ .lcdglyph g a) →
    exec i { s with mem := m } = andThen (exec i s) fun t => .next { t with mem := m })

/-- The block never reads the display (47_display_model.md, introduction): with another display attached, an operation
ends the same way in the same state of the block, and only the display differs. -/
def Obligations.BlockNeverReadsTheDisplay : Prop :=
  ∀ (i : Instr) (s : State) (d : Disp),
    (∀ t, exec i s = .next t → ∃ d', exec i { s with disp := d } = .next { t with disp := d' }) ∧
    (∀ e, exec i s = .refused e → exec i { s with disp := d } = .refused e) ∧ ∀ e, exec i s ≠ .fault e

/-- A MemRead whose answer never comes holds the request and its address, and the block stays busy for ever, without a
fault (R62, R340). -/
def Obligations.UnansweredReadIsStuck : Prop :=
  ∀ (s : State) (l : List Ack), s.cfg.wf = true → s.memPending = true → s.acks = .never :: l → s.host = [] →
    (∀ n, ∃ t, Host.Core.run Sys2Proof.core n s = .next t ∧ t.busy = true ∧ t.fault = s.fault ∧ t.io = s.io) ∧
    (∀ n, ∃ t, ticks n s = .next t ∧ (t.ports false).memReq = true ∧ (t.ports false).memAddr = s.sp ∧
      t.busy = true ∧ t.fault = s.fault)

/-- A host write to host memory is seen by the reads of every later operation; made while the block is busy it is a race,
and a read of that byte returns the old or the new one (R78). -/
def Obligations.HostMemoryRace : Prop :=
  ∀ (s : State) (a : MemAddr) (v : Byte) (r : List HostMove), s.cfg.wf = true → s.host = .memWrite a v :: r →
    s.raced = [] →
    ∃ t, step s = .next t ∧ memByte t a = v ∧ (∀ b, b ≠ a → memByte t b = memByte s b ∧ memValue b t = memByte s b) ∧
      (s.busy = false → memValue a t = v) ∧ (s.busy = true → memValue a t = memByte s a ∨ memValue a t = v)

/-! ## LCD transfers and operations (43_lcd_sequencer.md, 44_lcd_ops.md) -/

/-- The bus trace of `Xfer(0, 0x38, T_CMD)` on an 8-bit bus, and on a 4-bit bus with shift 4 and data register 0x0A, from
RS = E = 0, with the cycle totals (R214). -/
def Obligations.TransferBusTrace : Prop :=
  ∀ (s : State) (c d x : Byte), s.cfg.wf = true → ioCell s s.cfg.ctrlReg = some c → ioCell s s.cfg.dataReg = some d →
    c &&& (rsMask s.cfg ||| eMask s.cfg) = 0#8 → x = c &&& ~~~rsMask s.cfg →
    (s.cfg.lcdBus = 8 →
      ∃ t, perform (xferSeq s.cfg false 0x38#8 s.cfg.tCmd) s = .next t ∧
        t.trace = Event.wait s.cfg.tCmd :: (beatTrace s.cfg x d 0x38#8 ++
          (Event.ioWr s.cfg.ctrlReg x :: Event.ioRd s.cfg.ctrlReg c :: s.trace)) ∧
        t.cycles = s.cycles + (8 + s.cfg.tEpw + s.cfg.tCmd)) ∧
    (s.cfg.lcdBus = 4 → s.cfg.dataShift = 4 → s.cfg.ctrlReg ≠ s.cfg.dataReg → d = 0x0A#8 →
      ∃ t, perform (xferSeq s.cfg false 0x38#8 s.cfg.tCmd) s = .next t ∧
        t.trace = Event.wait s.cfg.tCmd :: (beatTrace s.cfg x 0x3A#8 0x8A#8 ++
          (if s.cfg.tNib = 0 then [] else [Event.wait s.cfg.tNib]) ++ beatTrace s.cfg x 0x0A#8 0x3A#8 ++
          (Event.ioWr s.cfg.ctrlReg x :: Event.ioRd s.cfg.ctrlReg c :: s.trace)) ∧
        t.cycles = s.cycles + (14 + 2 * s.cfg.tEpw + s.cfg.tNib + s.cfg.tCmd))

/-- LCDINIT, not yet run since reset and with its four registers known: it completes, sets INIT_DONE and AMODE = DDRAM,
leaves RS = E = 0, the last byte on the data lines and the LCD's pins outputs, changes no other register bit and nothing
else (R241), and takes the cycles of R390. The power-up wait comes after the seven cycles of DECODE and step 1. What it
strobes onto the wire after that wait is 0x30 three times, or the nibbles 3, 3, 3, 2, and then its three commands (R241,
R248). ISTEP stays at its last step, and the latches keep the last byte (the model's choice, assumptions 11 and 18). -/
def Obligations.LcdinitInitialises : Prop :=
  ∀ s : State, s.cfg.wf = true → s.initDone = false → WireKnown s →
    (∃ x, ioCell s s.cfg.ctrlDirReg = some x) → (∃ x, ioCell s s.cfg.dataDirReg = some x) →
    ∃ t, exec .lcdinit s = .next t ∧ t.initDone = true ∧ t.amode = .ddram ∧ t.istep = 6#4 ∧
      WireLevels t false false ∧ Latched t false s.cfg.initDispctl ∧ AtRest t ∧ SameOutside s t ∧
      t.result = s.result ∧ t.btn = s.btn ∧ t.fault = s.fault ∧ t.fcode = s.fcode ∧ t.fop = s.fop ∧
      t.sp = s.sp ∧ t.gi = s.gi ∧ t.acks = s.acks ∧ t.draws = s.draws ∧
      (∀ a k, lcdPin s.cfg a k = false →
        (ioCell t a).map (·.getLsbD k) = (ioCell s a).map fun x => (afterDirections s.cfg a x).getLsbD k) ∧
      DataLeft t s.cfg.initDispctl ∧ t.cycles = s.cycles + initCycles s.cfg ∧
      ∃ later earlier, t.trace = later ++ Event.wait s.cfg.tPwrup :: (earlier ++ s.trace) ∧ earlier.length = 7 ∧
        ∀ x y, ioCell s s.cfg.ctrlReg = some x → ioCell s s.cfg.dataReg = some y →
          strobes s.cfg (lastWritten s.cfg.ctrlReg x earlier) (lastWritten s.cfg.dataReg y earlier) later =
            initStrobes s.cfg

/-- The display after LCDINIT (R284, R289), under DISP_TIMING_OK (R295) and for a configuration whose three bytes are a
function set of the bus's width, an entry mode and a display control (the model's premise, assumption 14). -/
def Obligations.LcdinitSynchronisesTheDisplay : Prop :=
  ∀ s t : State, s.cfg.wf = true → s.initDone = false → initBytesProper s.cfg = true →
    s.cfg.initFuncset.getLsbD 4 = (s.cfg.lcdBus == 8) → exec .lcdinit s = .next t →
    ∀ fclk, dispTimingOk s.cfg fclk = true → ∃ d, t.readable fclk = some d ∧
      d.sync = .sync ∧ d.bus8 = (s.cfg.lcdBus == 8) ∧ d.pend = none ∧ d.prevE = false ∧
      d.N = some (s.cfg.initFuncset.getLsbD 3) ∧ d.F = some (s.cfg.initFuncset.getLsbD 2) ∧
      d.ID = some (s.cfg.initEntry.getLsbD 1) ∧ d.S = some (s.cfg.initEntry.getLsbD 0) ∧
      d.D = some (s.cfg.initDispctl.getLsbD 2) ∧ d.C = some (s.cfg.initDispctl.getLsbD 1) ∧
      d.B = some (s.cfg.initDispctl.getLsbD 0) ∧ d.AM = .ddram ∧ d.AC = none ∧
      (∀ a : Fin 128, d.DDRAM.get a = none) ∧ (∀ a : Fin 64, d.CGRAM.get a = none) ∧ d.shifted = false

/-- LCDCMD strobes its byte onto the wire with RS = 0 and leaves it in the data register (R242, R205 to R208), AMODE follows
it (R249), and nothing else changes. The latches keep the byte (the model's choice, assumption 18). The reference model of
the display takes the byte (R286) as R288's row for it says. Those two clauses are about the reference model under every
configuration: a claim about a display reads it through `State.readable`, with R295's premise (assumption 21). -/
def Obligations.LcdcmdSendsItsByte : Prop :=
  ∀ (s : State) (b : Byte), LcdReady s →
    ∃ t, exec (.lcdcmd b) s = .next t ∧ LcdRest s t ∧ t.sp = s.sp ∧ t.gi = s.gi ∧ t.acks = s.acks ∧
      t.amode = (if b.getLsbD 7 then .ddram else if b.getLsbD 6 then .cgram
        else if b = 0x01#8 ∨ b = 0x02#8 ∨ b = 0x03#8 then .ddram else s.amode) ∧
      Latched t false b ∧ WireLevels t false false ∧ DataLeft t b ∧ Strobed s t (byteStrobes s.cfg false b) ∧
      t.cycles = s.cycles + (1 + xCycles s.cfg (if b = 0x01#8 ∨ b = 0x02#8 ∨ b = 0x03#8 then s.cfg.tClear
        else s.cfg.tCmd)) ∧
      (Tracked s → t.disp = (s.disp.sent s.cfg [(false, b)]).eLow) ∧
      (InStep s → CommandRows s.cfg b s.disp.eLow t.disp)

/-- LCDCHAR strobes its byte onto the wire with RS = 1, 0x00 as well, leaves it in the data register (R243, R205 to R208),
and changes nothing else. The latches keep the byte (the model's choice, assumption 18). The reference model of the
display takes the byte (R286) as R290 says. Those two clauses are about the reference model under every configuration: a
claim about a display reads it through `State.readable`, with R295's premise (assumption 21). -/
def Obligations.LcdcharSendsItsByte : Prop :=
  ∀ (s : State) (b : Byte), LcdReady s →
    ∃ t, exec (.lcdchar b) s = .next t ∧ LcdRest s t ∧ t.sp = s.sp ∧ t.gi = s.gi ∧ t.acks = s.acks ∧
      t.amode = s.amode ∧ Latched t true b ∧ WireLevels t false true ∧ DataLeft t b ∧
      Strobed s t (byteStrobes s.cfg true b) ∧ t.cycles = s.cycles + (1 + xCycles s.cfg s.cfg.tCmd) ∧
      (Tracked s → t.disp = (s.disp.sent s.cfg [(true, b)]).eLow) ∧
      (InStep s → DataRows s.cfg b s.disp.eLow t.disp)

/-- LCDCLEAR completes, leaves 0x01 in the data register (R206 to R208), sets AMODE = DDRAM and, under DISP_TIMING_OK
(R295), clears a display that is in step (R246, R288). The latches keep the byte (the model's choice, assumption 18). -/
def Obligations.LcdclearClearsTheDisplay : Prop :=
  ∀ s : State, LcdReady s →
    ∃ t, exec .lcdclear s = .next t ∧ LcdRest s t ∧ t.sp = s.sp ∧ t.gi = s.gi ∧ t.acks = s.acks ∧ t.amode = .ddram ∧
      Latched t false 0x01#8 ∧ WireLevels t false false ∧ DataLeft t 0x01#8 ∧
      t.cycles = s.cycles + (1 + xCycles s.cfg s.cfg.tClear) ∧
      (InStep s → ∀ fclk, dispTimingOk s.cfg fclk = true → ∃ d, t.readable fclk = some d ∧
        (∀ a : Fin 128, d.DDRAM.get a = some 0x20#8) ∧ d.AC = some 0#7 ∧ d.AM = .ddram ∧ d.ID = some true ∧
        d.shifted = false ∧ d.CGRAM = s.disp.CGRAM)

/-- `LCDCMD 0x01` has exactly the effect, bus trace and timing of LCDCLEAR (R246), from one and the same state. OPR is part
of that state, so it is held equal: before LCDINIT, where both raise NOT_INIT, the two words themselves leave FOP 0xA and
0xE (R335), and what is equal here is all the rest. -/
def Obligations.ClearIsCommandOne : Prop := ∀ s : State, exec .lcdclear s = exec (.lcdcmd 0x01#8) s

/-- LCDSTR sends the bytes of the zero-terminated string at its operand, and strobes no others onto the wire, in order, each
with RS = 1, with one more MemRead than characters; the last one stays in the data register (R206 to R208), SP is left on the terminator, and nothing else
changes (R244, R251, R63, R83). An empty string makes its MemRead and no I/O access, so it needs no LCD register to be
known. The premises say that the string is terminated, that
its reads are answered, and that no host write races them (R62, R78). A read with no answer listed takes one cycle (the
model's choice, assumption 15). The latches and SP keep their last values (assumption 18). The last clause is about the
reference model of the display under every configuration: a claim about a display reads it through `State.readable`, with
R295's premise (assumption 21). -/
def Obligations.LcdstrSendsTheString : Prop :=
  ∀ (s : State) (m : MemAddr) (l : List Byte), s.initDone = true → (l ≠ [] → LcdReady s) → s.raced = [] →
    StringAt s m l → Answered s (l.length + 1) →
    ∃ t, exec (.lcdstr m) s = .next t ∧ LcdRest s t ∧ t.gi = s.gi ∧ t.amode = s.amode ∧
      t.sp = m + BitVec.ofNat 16 l.length ∧ t.acks = s.acks.drop (l.length + 1) ∧
      (l = [] → t.io = s.io ∧ t.disp = s.disp ∧ SameLatched s t ∧
        t.trace = readTrace s m 0x00#8 ++ .decode :: s.trace) ∧
      Strobed s t (dataStrobes s.cfg l) ∧
      (∀ b, l.getLast? = some b → WireLevels t false true ∧ DataLeft t b ∧ Latched t true b) ∧
      t.cycles = s.cycles + (1 + readCycles s (l.length + 1) + l.length * xCycles s.cfg s.cfg.tCmd) ∧
      (Tracked s → t.disp = if l = [] then s.disp else (s.disp.sent s.cfg (dataBytes l)).eLow)

/-- LCDSTRAT inside the display sends the set-DDRAM-address command of its position and then the string, strobing onto the
wire that command and each byte in order and no others, and leaves the last byte sent in the data register (R206 to R208)
and AMODE = DDRAM (R245, R250, R251). A read with no answer listed takes one cycle (the model's choice, assumption 15). The latches and SP keep their last values (assumption 18). The last clause is
about the reference model of the display under every configuration: a claim about a display reads it through
`State.readable`, with R295's premise (assumption 21). -/
def Obligations.LcdstratPositionsAndSends : Prop :=
  ∀ (s : State) (row : BitVec 2) (col : BitVec 6) (m : MemAddr) (l : List Byte), LcdReady s →
    row.toNat < s.cfg.lcdRows → col.toNat < s.cfg.lcdCols → s.raced = [] → StringAt s m l →
    Answered s (l.length + 1) →
    ∃ t, exec (.lcdstrat row col m) s = .next t ∧ LcdRest s t ∧ t.gi = s.gi ∧ t.amode = .ddram ∧
      t.sp = m + BitVec.ofNat 16 l.length ∧ t.acks = s.acks.drop (l.length + 1) ∧
      WireLevels t false (l ≠ []) ∧
      Strobed s t (byteStrobes s.cfg false (0x80#8 ||| BitVec.ofNat 8 ((rowBase s.cfg row).toNat + col.toNat)) ++
        dataStrobes s.cfg l) ∧
      (∀ b, l.getLast? = some b → DataLeft t b ∧ Latched t true b) ∧
      (l = [] → DataLeft t (0x80#8 ||| BitVec.ofNat 8 ((rowBase s.cfg row).toNat + col.toNat)) ∧
        Latched t false (0x80#8 ||| BitVec.ofNat 8 ((rowBase s.cfg row).toNat + col.toNat))) ∧
      t.cycles = s.cycles + (1 + xCycles s.cfg s.cfg.tCmd + readCycles s (l.length + 1) +
        l.length * xCycles s.cfg s.cfg.tCmd) ∧
      (Tracked s → t.disp = (s.disp.sent s.cfg
        ((false, 0x80#8 ||| BitVec.ofNat 8 ((rowBase s.cfg row).toNat + col.toNat)) :: dataBytes l)).eLow)

/-- LCDGLYPH sends the set-CGRAM-address command of its slot and then exactly the 8 row bytes in order, zero bytes as well,
strobes no others onto the wire, and leaves the last row byte in the data register (R206 to R208) and AMODE = CGRAM (R247, R251, R63). A read with no answer
listed takes one cycle (the model's choice, assumption 15). SP stays past the rows, GI at 8, and the latches keep the last
byte (assumption 18). The last clause is about the reference model of the display under every configuration: a claim about
a display reads it through `State.readable`, with R295's premise (assumption 21). -/
def Obligations.LcdglyphUploadsEightRows : Prop :=
  ∀ (s : State) (g : BitVec 3) (m : MemAddr), LcdReady s → s.raced = [] → Answered s 8 →
    ∃ t, exec (.lcdglyph g m) s = .next t ∧ LcdRest s t ∧ t.amode = .cgram ∧ t.gi = 8#4 ∧ t.sp = m + 8#16 ∧
      t.acks = s.acks.drop 8 ∧ WireLevels t false true ∧ DataLeft t (memByte s (m + 7#16)) ∧
      Latched t true (memByte s (m + 7#16)) ∧
      Strobed s t (byteStrobes s.cfg false (0x40#8 ||| BitVec.ofNat 8 (g.toNat * 8)) ++
        dataStrobes s.cfg (bytesAt s m 8)) ∧
      t.cycles = s.cycles + (1 + xCycles s.cfg s.cfg.tCmd + readCycles s 8 + 8 * xCycles s.cfg s.cfg.tCmd) ∧
      (Tracked s → t.disp = (s.disp.sent s.cfg
        ((false, 0x40#8 ||| BitVec.ofNat 8 (g.toNat * 8)) :: dataBytes (bytesAt s m 8))).eLow)

/-- An LCD operation that needs an unknown register is refused at its first read of one: control before data in a
transfer, and the direction registers first in LCDINIT (R66, R340, R208, R241). -/
def Obligations.UnknownLcdRegisterIsRefused : Prop :=
  ∀ (s : State) (a : IoAddr), s.cfg.wf = true →
    (s.initDone = true → firstUnknown s [s.cfg.ctrlReg, s.cfg.dataReg] = some a →
      (∀ b, exec (.lcdcmd b) s = .refused (.ioReadUnknown a)) ∧
      (∀ b, exec (.lcdchar b) s = .refused (.ioReadUnknown a)) ∧
      exec .lcdclear s = .refused (.ioReadUnknown a) ∧
      (∀ g m, exec (.lcdglyph g m) s = .refused (.ioReadUnknown a)) ∧
      (∀ row col m, row.toNat < s.cfg.lcdRows → col.toNat < s.cfg.lcdCols →
        exec (.lcdstrat row col m) s = .refused (.ioReadUnknown a)) ∧
      (∀ m, memByte s m ≠ 0x00#8 → s.raced = [] → Answered s 1 →
        exec (.lcdstr m) s = .refused (.ioReadUnknown a))) ∧
    (s.initDone = false →
      firstUnknown s [s.cfg.ctrlDirReg, s.cfg.dataDirReg, s.cfg.ctrlReg, s.cfg.dataReg] = some a →
      exec .lcdinit s = .refused (.ioReadUnknown a))

/-- LCDSTR or LCDSTRAT with no 0x00 byte anywhere in host memory never ends: after any number of steps the block is busy,
with no fault recorded (R244, R340). -/
def Obligations.UnterminatedStringNeverEnds : Prop :=
  ∀ (s : State) (i : Instr) (m : MemAddr), LcdReady s → s.host = [] → s.seq = .decode → s.raced = [] →
    Ack.never ∉ s.acks → decode s.opr = .op i →
    (i = .lcdstr m ∨ ∃ row col, i = .lcdstrat row col m ∧ row.toNat < s.cfg.lcdRows ∧ col.toNat < s.cfg.lcdCols) →
    (∀ a, memByte s a ≠ 0x00#8) →
    ∀ n, ∃ t, Host.Core.run Sys2Proof.core n s = .next t ∧ t.busy = true ∧ t.fault = s.fault

/-- AMODE after an operation that is not dropped (R249): LCDCMD by its byte, LCDSTRAT and LCDCLEAR to DDRAM, LCDGLYPH to
CGRAM, LCDINIT to DDRAM, and every other operation leaves it. -/
def Obligations.AmodeTracking : Prop :=
  ∀ (i : Instr) (s t : State), exec i s = .next t → (∀ c, planOf i s ≠ .fault c) → t.seq = .idle →
    t.amode = match i with
      | .lcdcmd b => if b.getLsbD 7 then .ddram else if b.getLsbD 6 then .cgram
          else if b = 0x01#8 ∨ b = 0x02#8 ∨ b = 0x03#8 then .ddram else s.amode
      | .lcdstrat _ _ _ => .ddram
      | .lcdclear => .ddram
      | .lcdglyph _ _ => .cgram
      | .lcdinit => .ddram
      | _ => s.amode

/-- The cycle counts of R390 for the operations that read no host memory, for every outcome that is a next state without
a fault. -/
def Obligations.CycleCounts : Prop :=
  ∀ (i : Instr) (s t : State) (n : Nat), s.cfg.wf = true → (∀ c, planOf i s ≠ .fault c) →
    fixedCycles s.cfg i = some n → exec i s = .next t → t.cycles = s.cycles + n

/-! ## The display (47_display_model.md) -/

/-- STATUS.AMODE and the display's AM agree as far as the display may be read (R295), after any operation, GPIO strobes
included (R296). For LCDINIT the configuration's bytes must be the commands they stand for (assumption 14). That a display
is in step while it is tracked is kept too; that clause is about the reference model under every configuration
(assumption 21). -/
def Obligations.ModesStayInAgreement : Prop :=
  ∀ (i : Instr) (s t : State), s.cfg.wf = true → (i = .lcdinit → initBytesProper s.cfg = true) → s.inSyncSteps = false →
    WireSeen s → Tracked s → exec i s = .next t → t.seq = .idle →
    Tracked t ∧ ∀ fclk, ModesAgree fclk s → ModesAgree fclk t

/-- LCDCHAR on a display in step that addresses a valid DDRAM cell, under DISP_TIMING_OK (R295), puts the byte there, moves
the address counter to the next address, may shift the window exactly when S = 1, and changes no other cell (R290, R292,
R243). -/
def Obligations.LcdcharWritesTheDisplay : Prop :=
  ∀ (s : State) (b : Byte) (a : BitVec 7) (n id sh : Bool), LcdReady s → InStep s → s.disp.AM = .ddram →
    s.disp.AC = some a → s.disp.N = some n → s.disp.ID = some id → s.disp.S = some sh →
    ddramValid s.cfg n a = true →
    ∃ t, exec (.lcdchar b) s = .next t ∧ ∀ fclk, dispTimingOk s.cfg fclk = true → ∃ d, t.readable fclk = some d ∧
      d.DDRAM.get a.toFin = some b ∧ (∀ k : Fin 128, k ≠ a.toFin → d.DDRAM.get k = s.disp.DDRAM.get k) ∧
      d.CGRAM = s.disp.CGRAM ∧ d.AC = some (ddramNext s.cfg n a id) ∧ d.AM = .ddram ∧
      d.shifted = (if sh then true else s.disp.shifted)

/-- LCDSTRAT shows its string: under DISP_TIMING_OK (R295), on a display in step that is on, not shifted and incrementing
without shift, a string that fits the row from its column is what the row then shows (R245, R250, R290, R294, R389). -/
def Obligations.LcdstratShowsTheString : Prop :=
  ∀ (s : State) (row : BitVec 2) (col : BitVec 6) (m : MemAddr) (l : List Byte) (n : Bool), LcdReady s → InStep s →
    row.toNat < s.cfg.lcdRows → s.raced = [] → StringAt s m l → Answered s (l.length + 1) → l ≠ [] →
    col.toNat + l.length ≤ s.cfg.lcdCols →
    s.disp.N = some n → s.disp.ID = some true → s.disp.S = some false → s.disp.D = some true → s.disp.shifted = false →
    (∀ k, k < l.length → ddramValid s.cfg n (ddramAddr s.cfg row col + BitVec.ofNat 7 k) = true) →
    (∀ k, k + 1 < l.length → ddramNext s.cfg n (ddramAddr s.cfg row col + BitVec.ofNat 7 k) true =
      ddramAddr s.cfg row col + BitVec.ofNat 7 (k + 1)) →
    ∃ t, exec (.lcdstrat row col m) s = .next t ∧ ∀ fclk, dispTimingOk s.cfg fclk = true →
      ∀ (k : Nat) (hk : k < l.length), t.visible fclk row (col + BitVec.ofNat 6 k) = some l[k]

/-- The glyph hazard: under DISP_TIMING_OK (R295), LCDGLYPH puts its 8 rows into its slot and leaves the display addressing
the row after them, so that an LCDCHAR right after it writes row 0 of the next slot, modulo 8, and nothing on the screen
(R382, R247, R290). -/
def Obligations.GlyphHazard : Prop :=
  ∀ (s : State) (g : BitVec 3) (m : MemAddr) (b : Byte), LcdReady s → InStep s → s.disp.ID = some true →
    s.raced = [] → Answered s 8 →
    ∃ t u, exec (.lcdglyph g m) s = .next t ∧ exec (.lcdchar b) t = .next u ∧
      t.amode = .cgram ∧ u.amode = .cgram ∧ u.fault = s.fault ∧
      ∀ fclk, dispTimingOk s.cfg fclk = true → ∃ d e, t.readable fclk = some d ∧ u.readable fclk = some e ∧
        (∀ k : BitVec 3, d.glyphRow g k = some (memByte s (m + k.setWidth 16))) ∧
        (∀ h k : BitVec 3, h ≠ g → d.glyphRow h k = s.disp.glyphRow h k) ∧ d.AM = .cgram ∧
        e.glyphRow (g + 1#3) 0#3 = some b ∧ e.DDRAM = s.disp.DDRAM

/-! ## Reset and invariants (70_reset_and_hazards.md, 10_state.md) -/

/-- A reset puts every piece of block state at its reset value, whatever the block was doing, and changes neither the I/O
space nor host memory; the display model becomes UNSYNC, or stays LOST (R370, R372, R35, R283, R373). -/
def Obligations.ResetRestoresTheBlock : Prop :=
  ∀ (s : State) (r : List HostMove), s.cfg.wf = true → s.host = .reset :: r →
    ∃ t, step s = .next t ∧ t.status = 0#16 ∧ t.result = 0#8 ∧ (∀ k : Fin 8, t.btn.get k = Button.unbound) ∧
      t.seq = .idle ∧ t.opr = 0#32 ∧ t.tsm = .idle ∧ t.dl = 0#8 ∧ t.rsl = false ∧ t.beat = false ∧ t.wcnt = 0 ∧
      t.sp = 0#16 ∧ t.gi = 0#4 ∧ t.istep = 0#4 ∧ t.rmwv = 0#8 ∧ t.todo = [] ∧ t.loop = .done ∧
      t.cfg = s.cfg ∧ t.io = s.io ∧ t.mem = s.mem ∧ t.host = r ∧
      t.ports false = { opReady := true, ioAddr := 0#7, ioRd := false, ioWr := false, ioWdata := 0#8,
                        memReq := false, memAddr := 0#16 } ∧
      t.disp = { s.disp with sync := if s.disp.sync = .lost then .lost else .unsync, pend := none }

/-- The state after reset (R35, R371, R282): every register of the block, hidden ones too, at its reset value, nothing left
to run, every port quiet but `op_ready`, I/O registers at IO_INIT, the display UNSYNC with nothing known, under every
configuration. That unlisted host memory reads 0x00 is the model's choice
(assumption 3) and is not stated. -/
def Obligations.StateAfterReset : Prop :=
  ∀ c : Cfg,
    (State.resetWith c).status = 0#16 ∧ (State.resetWith c).result = 0#8 ∧
    (∀ k : Fin 8, (State.resetWith c).btn.get k = { bound := false, pin := 0#3, dir := 0#7, out := 0#7, inp := 0#7 }) ∧
    (State.resetWith c).cfg = c ∧ (State.resetWith c).seq = .idle ∧ (State.resetWith c).opr = 0#32 ∧
    (State.resetWith c).tsm = .idle ∧ (State.resetWith c).dl = 0#8 ∧ (State.resetWith c).rsl = false ∧
    (State.resetWith c).beat = false ∧ (State.resetWith c).wcnt = 0 ∧ (State.resetWith c).sp = 0#16 ∧
    (State.resetWith c).gi = 0#4 ∧ (State.resetWith c).istep = 0#4 ∧ (State.resetWith c).rmwv = 0#8 ∧
    (State.resetWith c).todo = [] ∧ (State.resetWith c).loop = .done ∧
    (State.resetWith c).ports false = { opReady := true, ioAddr := 0#7, ioRd := false, ioWr := false, ioWdata := 0#8,
                                        memReq := false, memAddr := 0#16 } ∧
    (∀ a, ioCell (State.resetWith c) a = ioInit c a) ∧ (State.resetWith c).disp.sync = .unsync ∧
    (State.resetWith c).disp.pend = none ∧ (State.resetWith c).disp.AC = none ∧
    (State.resetWith c).disp.shifted = true ∧
    (State.resetWith c).disp.N = none ∧ (State.resetWith c).disp.F = none ∧ (State.resetWith c).disp.ID = none ∧
    (State.resetWith c).disp.S = none ∧ (State.resetWith c).disp.D = none ∧ (State.resetWith c).disp.C = none ∧
    (State.resetWith c).disp.B = none ∧
    (∀ a : Fin 128, (State.resetWith c).disp.DDRAM.get a = none) ∧
    (∀ a : Fin 64, (State.resetWith c).disp.CGRAM.get a = none) ∧
    (∀ x, ioInit c c.ctrlReg = some x → (State.resetWith c).disp.prevE = x.getLsbD c.eBit.toNat) ∧
    (ioInit c c.ctrlReg = none → (State.resetWith c).disp.prevE = false)

/-- The invariant holds after reset, under every configuration. -/
def Obligations.ResetMeetsTheInvariant : Prop := ∀ c : Cfg, MachineInv (State.resetWith c) ∧ CounterFits (State.resetWith c)

/-- Every step keeps the invariant: canonical memories (R32, R33), RESULT[7:1] = 0 (R29), an empty fault record without
FAULT (R27), unbound descriptors all zero (R30), nothing left to do in IDLE (R31), and a display that has seen E (R285). -/
def Obligations.EveryStepKeepsTheInvariant : Prop := ∀ s t : State, MachineInv s → step s = .next t → MachineInv t

/-- Every step keeps the wait counter, and every wait left to run, below 2^WCW (R31, R346, R8). -/
def Obligations.EveryStepKeepsTheWaitCounterInRange : Prop :=
  ∀ s t : State, CounterFits s → step s = .next t → CounterFits t
end

