-- ==== Sys2Proof/Laws/Display.lean ====
section
/-! SUPPORT. Laws of the display model: nothing the display does reads or writes the E level of the wire, and a
transfer's latches deliver its byte. -/

namespace Sys2Proof.Machine

/-- The display with the E level of its wire replaced. -/
def Disp.withE (d : Disp) (e : Bool) : Disp := { d with prevE := e }

@[simp] theorem Disp.withE_withE (d : Disp) (e f : Bool) : (d.withE e).withE f = d.withE f := rfl
@[simp] theorem Disp.withE_self (d : Disp) : d.withE d.prevE = d := rfl
@[simp] theorem Disp.withE_sync (d : Disp) (e : Bool) : (d.withE e).sync = d.sync := rfl
@[simp] theorem Disp.withE_bus8 (d : Disp) (e : Bool) : (d.withE e).bus8 = d.bus8 := rfl
@[simp] theorem Disp.withE_pend (d : Disp) (e : Bool) : (d.withE e).pend = d.pend := rfl
@[simp] theorem Disp.withE_AM (d : Disp) (e : Bool) : (d.withE e).AM = d.AM := rfl
@[simp] theorem Disp.withE_prevE (d : Disp) (e : Bool) : (d.withE e).prevE = e := rfl

theorem Disp.cursorMove_withE (c : Cfg) (d : Disp) (r e : Bool) :
    (d.withE e).cursorMove c r = (d.cursorMove c r).withE e := by
  obtain ⟨_, _, _, _, _, _, _, _, _, _, _, am, ac, _, _, _⟩ := d
  cases ac <;> cases am <;> rfl

theorem Disp.execCmd_withE (c : Cfg) (b : Byte) (d : Disp) (e : Bool) :
    (d.withE e).execCmd c b = (d.execCmd c b).withE e := by
  unfold Disp.execCmd
  simp only [Disp.cursorMove_withE, Disp.withE_bus8, apply_ite (fun x : Disp => x.withE e)]
  rfl

theorem Disp.execData_withE (c : Cfg) (b : Byte) (d : Disp) (e : Bool) :
    (d.withE e).execData c b = (d.execData c b).withE e := by
  obtain ⟨_, _, _, _, n, _, _, _, _, _, _, am, ac, _, _, _⟩ := d
  cases ac with
  | none => rfl
  | some a =>
    cases am with
    | cgram => rfl
    | ddram =>
      cases n with
      | none => rfl
      | some n => cases h : ddramValid c n a <;> simp only [Disp.execData, Disp.withE, h] <;> rfl

theorem Disp.exec_withE (c : Cfg) (rs : Bool) (b : Byte) (d : Disp) (e : Bool) :
    (d.withE e).exec c rs b = (d.exec c rs b).withE e := by
  unfold Disp.exec
  cases rs
  · exact Disp.execCmd_withE ..
  · exact Disp.execData_withE ..

/-- A latch neither reads nor writes the E level. -/
theorem Disp.latch_withE (c : Cfg) (o : Origin) (rs : Bool) (l : Option Byte) (d : Disp) (e : Bool) :
    (d.withE e).latch c o rs l = (d.latch c o rs l).withE e := by
  obtain ⟨sy, bus8, pend, pe, n, f, id, s, on, cu, bl, am, ac, dd, cg, sh⟩ := d
  cases sy <;> cases o <;> try rfl
  cases l with
  | none => rfl
  | some x =>
    cases bus8 with
    | true => exact Disp.exec_withE c rs x ⟨.sync, true, pend, pe, n, f, id, s, on, cu, bl, am, ac, dd, cg, sh⟩ e
    | false =>
      cases pend with
      | none => rfl
      | some p =>
        obtain ⟨hi, r0⟩ := p
        cases hr : (r0 != rs) <;> simp only [Disp.latch, Disp.withE, hr]
        · exact Disp.exec_withE c rs _ ⟨.sync, false, none, pe, n, f, id, s, on, cu, bl, am, ac, dd, cg, sh⟩ e
        · rfl

/-- Executing a byte changes neither the bus width nor a waiting nibble. -/
theorem Disp.exec_bus8 (c : Cfg) (rs : Bool) (b : Byte) (d : Disp) : (d.exec c rs b).bus8 = d.bus8 := by
  unfold Disp.exec Disp.execCmd Disp.execData Disp.cursorMove Disp.lose Disp.putDdram Disp.putCgram
  repeat' (first | rfl | split)

theorem Disp.exec_pend (c : Cfg) (rs : Bool) (b : Byte) (d : Disp) : (d.exec c rs b).pend = d.pend := by
  unfold Disp.exec Disp.execCmd Disp.execData Disp.cursorMove Disp.lose Disp.putDdram Disp.putCgram
  repeat' (first | rfl | split)

/-- A display that is not tracked ignores every latch (R286). -/
theorem Disp.latch_not_sync (c : Cfg) (o : Origin) (rs : Bool) (l : Option Byte) (d : Disp) (h : d.sync ≠ .sync) :
    d.latch c o rs l = d := by
  unfold Disp.latch
  simp [h]

/-- On an 8-bit bus one latch delivers the byte. -/
theorem Disp.latch_eight (c : Cfg) (rs : Bool) (b : Byte) (d : Disp) (hs : d.sync = .sync) (hb : d.bus8 = true) :
    d.latch c .seq rs (some b) = d.exec c rs b := by
  unfold Disp.latch
  simp [hs, hb]

/-- On a 4-bit bus two latches deliver the byte, high nibble first (R205, R286). -/
theorem Disp.latch_four (c : Cfg) (rs : Bool) (b : Byte) (d : Disp) (hs : d.sync = .sync) (hb : d.bus8 = false)
    (hp : d.pend = none) :
    (d.latch c .seq rs (some (b >>> 4))).latch c .seq rs (some (b &&& 0x0F#8)) = d.exec c rs b := by
  have hn : (b >>> 4).setWidth 4 ++ (b &&& 0x0F#8).setWidth 4 = b := by
    revert b; decide
  obtain ⟨sy, bus8, pend, pe, n, f, id, s, on, cu, bl, am, ac, dd, cg, sh⟩ := d
  dsimp only at hs hb hp
  subst hs hb hp
  show (if (rs != rs) = true then _ else Disp.exec c rs ((b >>> 4).setWidth 4 ++ (b &&& 0x0F#8).setWidth 4) _) = _
  rw [hn, bne_self_eq_false]
  rfl

end Sys2Proof.Machine
end

