-- ==== Sys2Proof/Laws/Memory.lean ====
section
/-! SUPPORT. Laws of memories: read after write, and that every operation keeps the canonical form. -/

namespace Sys2Proof.Machine

theorem Memory.listed_insert (m : Memory) (a b : Nat) (v : Byte) :
    (m.insert a v).listed b = if b = a then some v else m.listed b := by
  induction m with
  | nil => simp [Memory.insert, Memory.listed]
  | cons c r ih =>
    obtain ⟨k, u⟩ := c
    simp only [Memory.insert]
    split
    · simp [Memory.listed]
    · split
      · subst_vars; simp only [Memory.listed]; split <;> simp_all
      · simp only [Memory.listed, ih]
        split
        · next h => subst h; rw [if_neg (by omega)]
        · rfl

theorem Memory.listed_erase (m : Memory) (a b : Nat) :
    (m.erase a).listed b = if b = a then none else m.listed b := by
  induction m with
  | nil => simp [Memory.erase, Memory.listed]
  | cons c r ih =>
    obtain ⟨k, u⟩ := c
    simp only [Memory.erase, List.filter_cons] at ih ⊢
    by_cases hk : k = a
    · subst hk
      simp only [bne_self_eq_false, Bool.false_eq_true, if_false, ih, Memory.listed]
      split <;> rfl
    · simp only [bne_iff_ne, ne_eq, hk, not_false_eq_true, if_true, Memory.listed, ih]
      split
      · next h => subst h; rw [if_neg hk]
      · rfl

/-- What an address reads as: the listed byte, or the value of an unlisted address. -/
def Memory.readAs (m : Memory) (base : Option Byte) (a : Nat) : Option Byte :=
  match m.listed a with
  | some v => some v
  | none => base

/-- Read after write, at the same and at another address. -/
theorem Memory.readAs_put_same (m : Memory) (base : Option Byte) (a : Nat) (v : Byte) :
    (m.put base a v).readAs base a = some v := by
  unfold Memory.put Memory.readAs
  by_cases h : base = some v
  · simp [h, Memory.listed_erase]
  · simp [h, Memory.listed_insert]

theorem Memory.listed_put_other (m : Memory) (base : Option Byte) (a b : Nat) (v : Byte) (h : b ≠ a) :
    (m.put base a v).listed b = m.listed b := by
  unfold Memory.put
  split <;> simp [Memory.listed_erase, Memory.listed_insert, h]

theorem ioCell_eq (s : State) (a : IoAddr) : ioCell s a = s.io.readAs (ioInit s.cfg a) a.toNat := rfl

/-- The I/O cell just written holds the byte written, and every other cell is unchanged. -/
@[simp] theorem ioCell_setIo_same (s : State) (a : IoAddr) (v : Byte) : ioCell (s.setIo a v) a = some v :=
  Memory.readAs_put_same ..

theorem ioCell_setIo_other (s : State) (a b : IoAddr) (v : Byte) (h : b ≠ a) :
    ioCell (s.setIo a v) b = ioCell s b := by
  have hn : b.toNat ≠ a.toNat := fun e => h (BitVec.eq_of_toNat_eq e)
  simp only [ioCell, State.setIo, Memory.listed_put_other _ _ _ _ _ hn]

theorem memByte_setMem_same (s : State) (a : MemAddr) (v : Byte) : memByte (s.setMem a v) a = v := by
  have h := Memory.readAs_put_same s.mem memBase a.toNat v
  unfold Memory.readAs at h
  unfold memByte State.setMem
  dsimp only
  split at h <;> simp_all [memBase]

theorem memByte_setMem_other (s : State) (a b : MemAddr) (v : Byte) (h : b ≠ a) :
    memByte (s.setMem a v) b = memByte s b := by
  have hn : b.toNat ≠ a.toNat := fun e => h (BitVec.eq_of_toNat_eq e)
  simp only [memByte, State.setMem, Memory.listed_put_other _ _ _ _ _ hn]

/-! ## The canonical form -/

theorem Memory.insert_all (p : Host.Cell → Bool) (m : Memory) (a : Nat) (v : Byte) (hp : p (a, v) = true)
    (h : m.all p = true) : (m.insert a v).all p = true := by
  induction m with
  | nil => simp [Memory.insert, hp]
  | cons c r ih =>
    obtain ⟨k, u⟩ := c
    simp only [List.all_cons, Bool.and_eq_true] at h
    simp only [Memory.insert]
    split
    · simp [hp, h]
    · split
      · simp [hp, h]
      · simp [ih h.2, h]

theorem Memory.rising_insert (m : Memory) (a : Nat) (v : Byte) (h : m.rising = true) :
    (m.insert a v).rising = true := by
  induction m with
  | nil => simp [Memory.insert, Memory.rising]
  | cons c r ih =>
    obtain ⟨k, u⟩ := c
    simp only [Memory.rising, Bool.and_eq_true] at h
    simp only [Memory.insert]
    split
    · next hlt =>
      simp only [Memory.rising, List.all_cons, Bool.and_eq_true, decide_eq_true_eq]
      refine ⟨⟨hlt, ?_⟩, h⟩
      have h1 := h.1
      simp only [List.all_eq_true, decide_eq_true_eq] at h1 ⊢
      intro x hx; have := h1 x hx; omega
    · split
      · next heq => subst heq; simp [Memory.rising, h]
      · simp only [Memory.rising, Bool.and_eq_true]
        exact ⟨Memory.insert_all _ _ _ _ (by simp; omega) h.1, ih h.2⟩

theorem Memory.rising_erase (m : Memory) (a : Nat) (h : m.rising = true) : (m.erase a).rising = true := by
  induction m with
  | nil => simp [Memory.erase, Memory.rising]
  | cons c r ih =>
    obtain ⟨k, u⟩ := c
    simp only [Memory.rising, Bool.and_eq_true] at h
    simp only [Memory.erase, List.filter_cons] at ih ⊢
    split
    · simp only [Memory.rising, Bool.and_eq_true]
      refine ⟨?_, ih h.2⟩
      have h1 := h.1
      simp only [List.all_eq_true] at h1 ⊢
      intro x hx; exact h1 x (List.mem_of_mem_filter hx)
    · exact ih h.2

theorem Memory.erase_all (p : Host.Cell → Bool) (m : Memory) (a : Nat) (h : m.all p = true) :
    (m.erase a).all p = true := by
  simp only [Memory.erase, List.all_eq_true] at h ⊢
  intro x hx; exact h x (List.mem_of_mem_filter hx)

/-- Storing keeps the canonical form. -/
theorem Memory.canonical_put (limit : Nat) (base : Nat → Option Byte) (m : Memory) (a : Nat) (v : Byte)
    (ha : a < limit) (h : m.canonical limit base = true) :
    (m.put (base a) a v).canonical limit base = true := by
  simp only [Memory.canonical, Bool.and_eq_true] at h ⊢
  unfold Memory.put
  split
  · exact ⟨Memory.rising_erase _ _ h.1, Memory.erase_all _ _ _ h.2⟩
  · next hne => exact ⟨Memory.rising_insert _ _ _ h.1, Memory.insert_all _ _ _ _ (by simp [ha, hne]) h.2⟩

/-- A host write keeps host memory's form. -/
theorem setMem_wf (s : State) (a : MemAddr) (v : Byte) (h : s.mem.wf = true) : (s.setMem a v).mem.wf = true :=
  Memory.canonical_put 65536 (fun _ => memBase) s.mem a.toNat v a.isLt h

/-- A write of a register that is no input register keeps the I/O space's form. -/
theorem setIo_wf (s : State) (a : IoAddr) (v : Byte) (ha : s.cfg.ioVolatile.contains a = false)
    (h : s.io.ioWf s.cfg = true) : (s.setIo a v).io.ioWf s.cfg = true := by
  have e : BitVec.ofNat 7 a.toNat = a := BitVec.ofNat_toNat 7 a |>.trans (BitVec.setWidth_eq a)
  simp only [Memory.ioWf, Bool.and_eq_true] at h ⊢
  constructor
  · have := Memory.canonical_put 128 (fun n => ioInit s.cfg (BitVec.ofNat 7 n)) s.io a.toNat v a.isLt h.1
    simp only [e] at this
    exact this
  · show List.all (Memory.put s.io (ioInit s.cfg a) a.toNat v) _ = true
    unfold Memory.put
    split
    · exact Memory.erase_all _ _ _ h.2
    · exact Memory.insert_all _ _ _ _ (by simp only [e, ha]; rfl) h.2

end Sys2Proof.Machine
end

