-- ==== Sys2Proof/Laws/State.lean ====
section
/-! SUPPORT. One lemma for each field and each named update of the state. -/

namespace Sys2Proof.Machine

variable (s : State)

@[simp] theorem State.log_cfg (e : Event) : (s.log e).cfg = s.cfg := rfl
@[simp] theorem State.log_seq (e : Event) : (s.log e).seq = s.seq := rfl
@[simp] theorem State.log_opr (e : Event) : (s.log e).opr = s.opr := rfl
@[simp] theorem State.log_tsm (e : Event) : (s.log e).tsm = s.tsm := rfl
@[simp] theorem State.log_dl (e : Event) : (s.log e).dl = s.dl := rfl
@[simp] theorem State.log_rsl (e : Event) : (s.log e).rsl = s.rsl := rfl
@[simp] theorem State.log_beat (e : Event) : (s.log e).beat = s.beat := rfl
@[simp] theorem State.log_wcnt (e : Event) : (s.log e).wcnt = s.wcnt := rfl
@[simp] theorem State.log_sp (e : Event) : (s.log e).sp = s.sp := rfl
@[simp] theorem State.log_gi (e : Event) : (s.log e).gi = s.gi := rfl
@[simp] theorem State.log_istep (e : Event) : (s.log e).istep = s.istep := rfl
@[simp] theorem State.log_rmwv (e : Event) : (s.log e).rmwv = s.rmwv := rfl
@[simp] theorem State.log_todo (e : Event) : (s.log e).todo = s.todo := rfl
@[simp] theorem State.log_loop (e : Event) : (s.log e).loop = s.loop := rfl
@[simp] theorem State.log_initDone (e : Event) : (s.log e).initDone = s.initDone := rfl
@[simp] theorem State.log_fault (e : Event) : (s.log e).fault = s.fault := rfl
@[simp] theorem State.log_amode (e : Event) : (s.log e).amode = s.amode := rfl
@[simp] theorem State.log_fcode (e : Event) : (s.log e).fcode = s.fcode := rfl
@[simp] theorem State.log_fop (e : Event) : (s.log e).fop = s.fop := rfl
@[simp] theorem State.log_result (e : Event) : (s.log e).result = s.result := rfl
@[simp] theorem State.log_btn (e : Event) : (s.log e).btn = s.btn := rfl
@[simp] theorem State.log_io (e : Event) : (s.log e).io = s.io := rfl
@[simp] theorem State.log_mem (e : Event) : (s.log e).mem = s.mem := rfl
@[simp] theorem State.log_disp (e : Event) : (s.log e).disp = s.disp := rfl
@[simp] theorem State.log_host (e : Event) : (s.log e).host = s.host := rfl
@[simp] theorem State.log_acks (e : Event) : (s.log e).acks = s.acks := rfl
@[simp] theorem State.log_raced (e : Event) : (s.log e).raced = s.raced := rfl
@[simp] theorem State.log_draws (e : Event) : (s.log e).draws = s.draws := rfl
@[simp] theorem State.log_trace (e : Event) : (s.log e).trace = pushEvent e s.trace := rfl

@[simp] theorem State.logCycles_cfg (k : Nat → Event) (n : Nat) : (s.logCycles k n).cfg = s.cfg := rfl
@[simp] theorem State.logCycles_seq (k : Nat → Event) (n : Nat) : (s.logCycles k n).seq = s.seq := rfl
@[simp] theorem State.logCycles_opr (k : Nat → Event) (n : Nat) : (s.logCycles k n).opr = s.opr := rfl
@[simp] theorem State.logCycles_tsm (k : Nat → Event) (n : Nat) : (s.logCycles k n).tsm = s.tsm := rfl
@[simp] theorem State.logCycles_dl (k : Nat → Event) (n : Nat) : (s.logCycles k n).dl = s.dl := rfl
@[simp] theorem State.logCycles_rsl (k : Nat → Event) (n : Nat) : (s.logCycles k n).rsl = s.rsl := rfl
@[simp] theorem State.logCycles_beat (k : Nat → Event) (n : Nat) : (s.logCycles k n).beat = s.beat := rfl
@[simp] theorem State.logCycles_wcnt (k : Nat → Event) (n : Nat) : (s.logCycles k n).wcnt = s.wcnt := rfl
@[simp] theorem State.logCycles_sp (k : Nat → Event) (n : Nat) : (s.logCycles k n).sp = s.sp := rfl
@[simp] theorem State.logCycles_gi (k : Nat → Event) (n : Nat) : (s.logCycles k n).gi = s.gi := rfl
@[simp] theorem State.logCycles_istep (k : Nat → Event) (n : Nat) : (s.logCycles k n).istep = s.istep := rfl
@[simp] theorem State.logCycles_rmwv (k : Nat → Event) (n : Nat) : (s.logCycles k n).rmwv = s.rmwv := rfl
@[simp] theorem State.logCycles_todo (k : Nat → Event) (n : Nat) : (s.logCycles k n).todo = s.todo := rfl
@[simp] theorem State.logCycles_loop (k : Nat → Event) (n : Nat) : (s.logCycles k n).loop = s.loop := rfl
@[simp] theorem State.logCycles_initDone (k : Nat → Event) (n : Nat) : (s.logCycles k n).initDone = s.initDone := rfl
@[simp] theorem State.logCycles_fault (k : Nat → Event) (n : Nat) : (s.logCycles k n).fault = s.fault := rfl
@[simp] theorem State.logCycles_amode (k : Nat → Event) (n : Nat) : (s.logCycles k n).amode = s.amode := rfl
@[simp] theorem State.logCycles_fcode (k : Nat → Event) (n : Nat) : (s.logCycles k n).fcode = s.fcode := rfl
@[simp] theorem State.logCycles_fop (k : Nat → Event) (n : Nat) : (s.logCycles k n).fop = s.fop := rfl
@[simp] theorem State.logCycles_result (k : Nat → Event) (n : Nat) : (s.logCycles k n).result = s.result := rfl
@[simp] theorem State.logCycles_btn (k : Nat → Event) (n : Nat) : (s.logCycles k n).btn = s.btn := rfl
@[simp] theorem State.logCycles_io (k : Nat → Event) (n : Nat) : (s.logCycles k n).io = s.io := rfl
@[simp] theorem State.logCycles_mem (k : Nat → Event) (n : Nat) : (s.logCycles k n).mem = s.mem := rfl
@[simp] theorem State.logCycles_disp (k : Nat → Event) (n : Nat) : (s.logCycles k n).disp = s.disp := rfl
@[simp] theorem State.logCycles_host (k : Nat → Event) (n : Nat) : (s.logCycles k n).host = s.host := rfl
@[simp] theorem State.logCycles_acks (k : Nat → Event) (n : Nat) : (s.logCycles k n).acks = s.acks := rfl
@[simp] theorem State.logCycles_raced (k : Nat → Event) (n : Nat) : (s.logCycles k n).raced = s.raced := rfl
@[simp] theorem State.logCycles_draws (k : Nat → Event) (n : Nat) : (s.logCycles k n).draws = s.draws := rfl

@[simp] theorem State.setRmwv_cfg (v : Byte) : (s.setRmwv v).cfg = s.cfg := rfl
@[simp] theorem State.setRmwv_seq (v : Byte) : (s.setRmwv v).seq = s.seq := rfl
@[simp] theorem State.setRmwv_opr (v : Byte) : (s.setRmwv v).opr = s.opr := rfl
@[simp] theorem State.setRmwv_tsm (v : Byte) : (s.setRmwv v).tsm = s.tsm := rfl
@[simp] theorem State.setRmwv_dl (v : Byte) : (s.setRmwv v).dl = s.dl := rfl
@[simp] theorem State.setRmwv_rsl (v : Byte) : (s.setRmwv v).rsl = s.rsl := rfl
@[simp] theorem State.setRmwv_beat (v : Byte) : (s.setRmwv v).beat = s.beat := rfl
@[simp] theorem State.setRmwv_wcnt (v : Byte) : (s.setRmwv v).wcnt = s.wcnt := rfl
@[simp] theorem State.setRmwv_sp (v : Byte) : (s.setRmwv v).sp = s.sp := rfl
@[simp] theorem State.setRmwv_gi (v : Byte) : (s.setRmwv v).gi = s.gi := rfl
@[simp] theorem State.setRmwv_istep (v : Byte) : (s.setRmwv v).istep = s.istep := rfl
@[simp] theorem State.setRmwv_rmwv (v : Byte) : (s.setRmwv v).rmwv = v := rfl
@[simp] theorem State.setRmwv_todo (v : Byte) : (s.setRmwv v).todo = s.todo := rfl
@[simp] theorem State.setRmwv_loop (v : Byte) : (s.setRmwv v).loop = s.loop := rfl
@[simp] theorem State.setRmwv_initDone (v : Byte) : (s.setRmwv v).initDone = s.initDone := rfl
@[simp] theorem State.setRmwv_fault (v : Byte) : (s.setRmwv v).fault = s.fault := rfl
@[simp] theorem State.setRmwv_amode (v : Byte) : (s.setRmwv v).amode = s.amode := rfl
@[simp] theorem State.setRmwv_fcode (v : Byte) : (s.setRmwv v).fcode = s.fcode := rfl
@[simp] theorem State.setRmwv_fop (v : Byte) : (s.setRmwv v).fop = s.fop := rfl
@[simp] theorem State.setRmwv_result (v : Byte) : (s.setRmwv v).result = s.result := rfl
@[simp] theorem State.setRmwv_btn (v : Byte) : (s.setRmwv v).btn = s.btn := rfl
@[simp] theorem State.setRmwv_io (v : Byte) : (s.setRmwv v).io = s.io := rfl
@[simp] theorem State.setRmwv_mem (v : Byte) : (s.setRmwv v).mem = s.mem := rfl
@[simp] theorem State.setRmwv_disp (v : Byte) : (s.setRmwv v).disp = s.disp := rfl
@[simp] theorem State.setRmwv_host (v : Byte) : (s.setRmwv v).host = s.host := rfl
@[simp] theorem State.setRmwv_acks (v : Byte) : (s.setRmwv v).acks = s.acks := rfl
@[simp] theorem State.setRmwv_raced (v : Byte) : (s.setRmwv v).raced = s.raced := rfl
@[simp] theorem State.setRmwv_draws (v : Byte) : (s.setRmwv v).draws = s.draws := rfl
@[simp] theorem State.setRmwv_trace (v : Byte) : (s.setRmwv v).trace = s.trace := rfl

@[simp] theorem State.setResult_cfg (v : Byte) : (s.setResult v).cfg = s.cfg := rfl
@[simp] theorem State.setResult_seq (v : Byte) : (s.setResult v).seq = s.seq := rfl
@[simp] theorem State.setResult_opr (v : Byte) : (s.setResult v).opr = s.opr := rfl
@[simp] theorem State.setResult_tsm (v : Byte) : (s.setResult v).tsm = s.tsm := rfl
@[simp] theorem State.setResult_dl (v : Byte) : (s.setResult v).dl = s.dl := rfl
@[simp] theorem State.setResult_rsl (v : Byte) : (s.setResult v).rsl = s.rsl := rfl
@[simp] theorem State.setResult_beat (v : Byte) : (s.setResult v).beat = s.beat := rfl
@[simp] theorem State.setResult_wcnt (v : Byte) : (s.setResult v).wcnt = s.wcnt := rfl
@[simp] theorem State.setResult_sp (v : Byte) : (s.setResult v).sp = s.sp := rfl
@[simp] theorem State.setResult_gi (v : Byte) : (s.setResult v).gi = s.gi := rfl
@[simp] theorem State.setResult_istep (v : Byte) : (s.setResult v).istep = s.istep := rfl
@[simp] theorem State.setResult_rmwv (v : Byte) : (s.setResult v).rmwv = s.rmwv := rfl
@[simp] theorem State.setResult_todo (v : Byte) : (s.setResult v).todo = s.todo := rfl
@[simp] theorem State.setResult_loop (v : Byte) : (s.setResult v).loop = s.loop := rfl
@[simp] theorem State.setResult_initDone (v : Byte) : (s.setResult v).initDone = s.initDone := rfl
@[simp] theorem State.setResult_fault (v : Byte) : (s.setResult v).fault = s.fault := rfl
@[simp] theorem State.setResult_amode (v : Byte) : (s.setResult v).amode = s.amode := rfl
@[simp] theorem State.setResult_fcode (v : Byte) : (s.setResult v).fcode = s.fcode := rfl
@[simp] theorem State.setResult_fop (v : Byte) : (s.setResult v).fop = s.fop := rfl
@[simp] theorem State.setResult_result (v : Byte) : (s.setResult v).result = v := rfl
@[simp] theorem State.setResult_btn (v : Byte) : (s.setResult v).btn = s.btn := rfl
@[simp] theorem State.setResult_io (v : Byte) : (s.setResult v).io = s.io := rfl
@[simp] theorem State.setResult_mem (v : Byte) : (s.setResult v).mem = s.mem := rfl
@[simp] theorem State.setResult_disp (v : Byte) : (s.setResult v).disp = s.disp := rfl
@[simp] theorem State.setResult_host (v : Byte) : (s.setResult v).host = s.host := rfl
@[simp] theorem State.setResult_acks (v : Byte) : (s.setResult v).acks = s.acks := rfl
@[simp] theorem State.setResult_raced (v : Byte) : (s.setResult v).raced = s.raced := rfl
@[simp] theorem State.setResult_draws (v : Byte) : (s.setResult v).draws = s.draws := rfl
@[simp] theorem State.setResult_trace (v : Byte) : (s.setResult v).trace = s.trace := rfl

@[simp] theorem State.setWcnt_cfg (n : Nat) : (s.setWcnt n).cfg = s.cfg := rfl
@[simp] theorem State.setWcnt_seq (n : Nat) : (s.setWcnt n).seq = s.seq := rfl
@[simp] theorem State.setWcnt_opr (n : Nat) : (s.setWcnt n).opr = s.opr := rfl
@[simp] theorem State.setWcnt_tsm (n : Nat) : (s.setWcnt n).tsm = s.tsm := rfl
@[simp] theorem State.setWcnt_dl (n : Nat) : (s.setWcnt n).dl = s.dl := rfl
@[simp] theorem State.setWcnt_rsl (n : Nat) : (s.setWcnt n).rsl = s.rsl := rfl
@[simp] theorem State.setWcnt_beat (n : Nat) : (s.setWcnt n).beat = s.beat := rfl
@[simp] theorem State.setWcnt_wcnt (n : Nat) : (s.setWcnt n).wcnt = n := rfl
@[simp] theorem State.setWcnt_sp (n : Nat) : (s.setWcnt n).sp = s.sp := rfl
@[simp] theorem State.setWcnt_gi (n : Nat) : (s.setWcnt n).gi = s.gi := rfl
@[simp] theorem State.setWcnt_istep (n : Nat) : (s.setWcnt n).istep = s.istep := rfl
@[simp] theorem State.setWcnt_rmwv (n : Nat) : (s.setWcnt n).rmwv = s.rmwv := rfl
@[simp] theorem State.setWcnt_todo (n : Nat) : (s.setWcnt n).todo = s.todo := rfl
@[simp] theorem State.setWcnt_loop (n : Nat) : (s.setWcnt n).loop = s.loop := rfl
@[simp] theorem State.setWcnt_initDone (n : Nat) : (s.setWcnt n).initDone = s.initDone := rfl
@[simp] theorem State.setWcnt_fault (n : Nat) : (s.setWcnt n).fault = s.fault := rfl
@[simp] theorem State.setWcnt_amode (n : Nat) : (s.setWcnt n).amode = s.amode := rfl
@[simp] theorem State.setWcnt_fcode (n : Nat) : (s.setWcnt n).fcode = s.fcode := rfl
@[simp] theorem State.setWcnt_fop (n : Nat) : (s.setWcnt n).fop = s.fop := rfl
@[simp] theorem State.setWcnt_result (n : Nat) : (s.setWcnt n).result = s.result := rfl
@[simp] theorem State.setWcnt_btn (n : Nat) : (s.setWcnt n).btn = s.btn := rfl
@[simp] theorem State.setWcnt_io (n : Nat) : (s.setWcnt n).io = s.io := rfl
@[simp] theorem State.setWcnt_mem (n : Nat) : (s.setWcnt n).mem = s.mem := rfl
@[simp] theorem State.setWcnt_disp (n : Nat) : (s.setWcnt n).disp = s.disp := rfl
@[simp] theorem State.setWcnt_host (n : Nat) : (s.setWcnt n).host = s.host := rfl
@[simp] theorem State.setWcnt_acks (n : Nat) : (s.setWcnt n).acks = s.acks := rfl
@[simp] theorem State.setWcnt_raced (n : Nat) : (s.setWcnt n).raced = s.raced := rfl
@[simp] theorem State.setWcnt_draws (n : Nat) : (s.setWcnt n).draws = s.draws := rfl
@[simp] theorem State.setWcnt_trace (n : Nat) : (s.setWcnt n).trace = s.trace := rfl

@[simp] theorem State.setTodo_cfg (l : List Micro) : (s.setTodo l).cfg = s.cfg := rfl
@[simp] theorem State.setTodo_seq (l : List Micro) : (s.setTodo l).seq = s.seq := rfl
@[simp] theorem State.setTodo_opr (l : List Micro) : (s.setTodo l).opr = s.opr := rfl
@[simp] theorem State.setTodo_tsm (l : List Micro) : (s.setTodo l).tsm = s.tsm := rfl
@[simp] theorem State.setTodo_dl (l : List Micro) : (s.setTodo l).dl = s.dl := rfl
@[simp] theorem State.setTodo_rsl (l : List Micro) : (s.setTodo l).rsl = s.rsl := rfl
@[simp] theorem State.setTodo_beat (l : List Micro) : (s.setTodo l).beat = s.beat := rfl
@[simp] theorem State.setTodo_wcnt (l : List Micro) : (s.setTodo l).wcnt = s.wcnt := rfl
@[simp] theorem State.setTodo_sp (l : List Micro) : (s.setTodo l).sp = s.sp := rfl
@[simp] theorem State.setTodo_gi (l : List Micro) : (s.setTodo l).gi = s.gi := rfl
@[simp] theorem State.setTodo_istep (l : List Micro) : (s.setTodo l).istep = s.istep := rfl
@[simp] theorem State.setTodo_rmwv (l : List Micro) : (s.setTodo l).rmwv = s.rmwv := rfl
@[simp] theorem State.setTodo_todo (l : List Micro) : (s.setTodo l).todo = l := rfl
@[simp] theorem State.setTodo_loop (l : List Micro) : (s.setTodo l).loop = s.loop := rfl
@[simp] theorem State.setTodo_initDone (l : List Micro) : (s.setTodo l).initDone = s.initDone := rfl
@[simp] theorem State.setTodo_fault (l : List Micro) : (s.setTodo l).fault = s.fault := rfl
@[simp] theorem State.setTodo_amode (l : List Micro) : (s.setTodo l).amode = s.amode := rfl
@[simp] theorem State.setTodo_fcode (l : List Micro) : (s.setTodo l).fcode = s.fcode := rfl
@[simp] theorem State.setTodo_fop (l : List Micro) : (s.setTodo l).fop = s.fop := rfl
@[simp] theorem State.setTodo_result (l : List Micro) : (s.setTodo l).result = s.result := rfl
@[simp] theorem State.setTodo_btn (l : List Micro) : (s.setTodo l).btn = s.btn := rfl
@[simp] theorem State.setTodo_io (l : List Micro) : (s.setTodo l).io = s.io := rfl
@[simp] theorem State.setTodo_mem (l : List Micro) : (s.setTodo l).mem = s.mem := rfl
@[simp] theorem State.setTodo_disp (l : List Micro) : (s.setTodo l).disp = s.disp := rfl
@[simp] theorem State.setTodo_host (l : List Micro) : (s.setTodo l).host = s.host := rfl
@[simp] theorem State.setTodo_acks (l : List Micro) : (s.setTodo l).acks = s.acks := rfl
@[simp] theorem State.setTodo_raced (l : List Micro) : (s.setTodo l).raced = s.raced := rfl
@[simp] theorem State.setTodo_draws (l : List Micro) : (s.setTodo l).draws = s.draws := rfl
@[simp] theorem State.setTodo_trace (l : List Micro) : (s.setTodo l).trace = s.trace := rfl

@[simp] theorem State.setAcks_cfg (l : List Ack) : (s.setAcks l).cfg = s.cfg := rfl
@[simp] theorem State.setAcks_seq (l : List Ack) : (s.setAcks l).seq = s.seq := rfl
@[simp] theorem State.setAcks_opr (l : List Ack) : (s.setAcks l).opr = s.opr := rfl
@[simp] theorem State.setAcks_tsm (l : List Ack) : (s.setAcks l).tsm = s.tsm := rfl
@[simp] theorem State.setAcks_dl (l : List Ack) : (s.setAcks l).dl = s.dl := rfl
@[simp] theorem State.setAcks_rsl (l : List Ack) : (s.setAcks l).rsl = s.rsl := rfl
@[simp] theorem State.setAcks_beat (l : List Ack) : (s.setAcks l).beat = s.beat := rfl
@[simp] theorem State.setAcks_wcnt (l : List Ack) : (s.setAcks l).wcnt = s.wcnt := rfl
@[simp] theorem State.setAcks_sp (l : List Ack) : (s.setAcks l).sp = s.sp := rfl
@[simp] theorem State.setAcks_gi (l : List Ack) : (s.setAcks l).gi = s.gi := rfl
@[simp] theorem State.setAcks_istep (l : List Ack) : (s.setAcks l).istep = s.istep := rfl
@[simp] theorem State.setAcks_rmwv (l : List Ack) : (s.setAcks l).rmwv = s.rmwv := rfl
@[simp] theorem State.setAcks_todo (l : List Ack) : (s.setAcks l).todo = s.todo := rfl
@[simp] theorem State.setAcks_loop (l : List Ack) : (s.setAcks l).loop = s.loop := rfl
@[simp] theorem State.setAcks_initDone (l : List Ack) : (s.setAcks l).initDone = s.initDone := rfl
@[simp] theorem State.setAcks_fault (l : List Ack) : (s.setAcks l).fault = s.fault := rfl
@[simp] theorem State.setAcks_amode (l : List Ack) : (s.setAcks l).amode = s.amode := rfl
@[simp] theorem State.setAcks_fcode (l : List Ack) : (s.setAcks l).fcode = s.fcode := rfl
@[simp] theorem State.setAcks_fop (l : List Ack) : (s.setAcks l).fop = s.fop := rfl
@[simp] theorem State.setAcks_result (l : List Ack) : (s.setAcks l).result = s.result := rfl
@[simp] theorem State.setAcks_btn (l : List Ack) : (s.setAcks l).btn = s.btn := rfl
@[simp] theorem State.setAcks_io (l : List Ack) : (s.setAcks l).io = s.io := rfl
@[simp] theorem State.setAcks_mem (l : List Ack) : (s.setAcks l).mem = s.mem := rfl
@[simp] theorem State.setAcks_disp (l : List Ack) : (s.setAcks l).disp = s.disp := rfl
@[simp] theorem State.setAcks_host (l : List Ack) : (s.setAcks l).host = s.host := rfl
@[simp] theorem State.setAcks_acks (l : List Ack) : (s.setAcks l).acks = l := rfl
@[simp] theorem State.setAcks_raced (l : List Ack) : (s.setAcks l).raced = s.raced := rfl
@[simp] theorem State.setAcks_draws (l : List Ack) : (s.setAcks l).draws = s.draws := rfl
@[simp] theorem State.setAcks_trace (l : List Ack) : (s.setAcks l).trace = s.trace := rfl

@[simp] theorem State.setHost_cfg (l : List HostMove) : (s.setHost l).cfg = s.cfg := rfl
@[simp] theorem State.setHost_seq (l : List HostMove) : (s.setHost l).seq = s.seq := rfl
@[simp] theorem State.setHost_opr (l : List HostMove) : (s.setHost l).opr = s.opr := rfl
@[simp] theorem State.setHost_tsm (l : List HostMove) : (s.setHost l).tsm = s.tsm := rfl
@[simp] theorem State.setHost_dl (l : List HostMove) : (s.setHost l).dl = s.dl := rfl
@[simp] theorem State.setHost_rsl (l : List HostMove) : (s.setHost l).rsl = s.rsl := rfl
@[simp] theorem State.setHost_beat (l : List HostMove) : (s.setHost l).beat = s.beat := rfl
@[simp] theorem State.setHost_wcnt (l : List HostMove) : (s.setHost l).wcnt = s.wcnt := rfl
@[simp] theorem State.setHost_sp (l : List HostMove) : (s.setHost l).sp = s.sp := rfl
@[simp] theorem State.setHost_gi (l : List HostMove) : (s.setHost l).gi = s.gi := rfl
@[simp] theorem State.setHost_istep (l : List HostMove) : (s.setHost l).istep = s.istep := rfl
@[simp] theorem State.setHost_rmwv (l : List HostMove) : (s.setHost l).rmwv = s.rmwv := rfl
@[simp] theorem State.setHost_todo (l : List HostMove) : (s.setHost l).todo = s.todo := rfl
@[simp] theorem State.setHost_loop (l : List HostMove) : (s.setHost l).loop = s.loop := rfl
@[simp] theorem State.setHost_initDone (l : List HostMove) : (s.setHost l).initDone = s.initDone := rfl
@[simp] theorem State.setHost_fault (l : List HostMove) : (s.setHost l).fault = s.fault := rfl
@[simp] theorem State.setHost_amode (l : List HostMove) : (s.setHost l).amode = s.amode := rfl
@[simp] theorem State.setHost_fcode (l : List HostMove) : (s.setHost l).fcode = s.fcode := rfl
@[simp] theorem State.setHost_fop (l : List HostMove) : (s.setHost l).fop = s.fop := rfl
@[simp] theorem State.setHost_result (l : List HostMove) : (s.setHost l).result = s.result := rfl
@[simp] theorem State.setHost_btn (l : List HostMove) : (s.setHost l).btn = s.btn := rfl
@[simp] theorem State.setHost_io (l : List HostMove) : (s.setHost l).io = s.io := rfl
@[simp] theorem State.setHost_mem (l : List HostMove) : (s.setHost l).mem = s.mem := rfl
@[simp] theorem State.setHost_disp (l : List HostMove) : (s.setHost l).disp = s.disp := rfl
@[simp] theorem State.setHost_host (l : List HostMove) : (s.setHost l).host = l := rfl
@[simp] theorem State.setHost_acks (l : List HostMove) : (s.setHost l).acks = s.acks := rfl
@[simp] theorem State.setHost_raced (l : List HostMove) : (s.setHost l).raced = s.raced := rfl
@[simp] theorem State.setHost_draws (l : List HostMove) : (s.setHost l).draws = s.draws := rfl
@[simp] theorem State.setHost_trace (l : List HostMove) : (s.setHost l).trace = s.trace := rfl

@[simp] theorem State.drawn_cfg (n : Nat) : (s.drawn n).cfg = s.cfg := rfl
@[simp] theorem State.drawn_seq (n : Nat) : (s.drawn n).seq = s.seq := rfl
@[simp] theorem State.drawn_opr (n : Nat) : (s.drawn n).opr = s.opr := rfl
@[simp] theorem State.drawn_tsm (n : Nat) : (s.drawn n).tsm = s.tsm := rfl
@[simp] theorem State.drawn_dl (n : Nat) : (s.drawn n).dl = s.dl := rfl
@[simp] theorem State.drawn_rsl (n : Nat) : (s.drawn n).rsl = s.rsl := rfl
@[simp] theorem State.drawn_beat (n : Nat) : (s.drawn n).beat = s.beat := rfl
@[simp] theorem State.drawn_wcnt (n : Nat) : (s.drawn n).wcnt = s.wcnt := rfl
@[simp] theorem State.drawn_sp (n : Nat) : (s.drawn n).sp = s.sp := rfl
@[simp] theorem State.drawn_gi (n : Nat) : (s.drawn n).gi = s.gi := rfl
@[simp] theorem State.drawn_istep (n : Nat) : (s.drawn n).istep = s.istep := rfl
@[simp] theorem State.drawn_rmwv (n : Nat) : (s.drawn n).rmwv = s.rmwv := rfl
@[simp] theorem State.drawn_todo (n : Nat) : (s.drawn n).todo = s.todo := rfl
@[simp] theorem State.drawn_loop (n : Nat) : (s.drawn n).loop = s.loop := rfl
@[simp] theorem State.drawn_initDone (n : Nat) : (s.drawn n).initDone = s.initDone := rfl
@[simp] theorem State.drawn_fault (n : Nat) : (s.drawn n).fault = s.fault := rfl
@[simp] theorem State.drawn_amode (n : Nat) : (s.drawn n).amode = s.amode := rfl
@[simp] theorem State.drawn_fcode (n : Nat) : (s.drawn n).fcode = s.fcode := rfl
@[simp] theorem State.drawn_fop (n : Nat) : (s.drawn n).fop = s.fop := rfl
@[simp] theorem State.drawn_result (n : Nat) : (s.drawn n).result = s.result := rfl
@[simp] theorem State.drawn_btn (n : Nat) : (s.drawn n).btn = s.btn := rfl
@[simp] theorem State.drawn_io (n : Nat) : (s.drawn n).io = s.io := rfl
@[simp] theorem State.drawn_mem (n : Nat) : (s.drawn n).mem = s.mem := rfl
@[simp] theorem State.drawn_disp (n : Nat) : (s.drawn n).disp = s.disp := rfl
@[simp] theorem State.drawn_host (n : Nat) : (s.drawn n).host = s.host := rfl
@[simp] theorem State.drawn_acks (n : Nat) : (s.drawn n).acks = s.acks := rfl
@[simp] theorem State.drawn_raced (n : Nat) : (s.drawn n).raced = s.raced := rfl
@[simp] theorem State.drawn_draws (n : Nat) : (s.drawn n).draws = s.draws + n := rfl
@[simp] theorem State.drawn_trace (n : Nat) : (s.drawn n).trace = s.trace := rfl

@[simp] theorem State.setIo_cfg (a : IoAddr) (v : Byte) : (s.setIo a v).cfg = s.cfg := rfl
@[simp] theorem State.setIo_seq (a : IoAddr) (v : Byte) : (s.setIo a v).seq = s.seq := rfl
@[simp] theorem State.setIo_opr (a : IoAddr) (v : Byte) : (s.setIo a v).opr = s.opr := rfl
@[simp] theorem State.setIo_tsm (a : IoAddr) (v : Byte) : (s.setIo a v).tsm = s.tsm := rfl
@[simp] theorem State.setIo_dl (a : IoAddr) (v : Byte) : (s.setIo a v).dl = s.dl := rfl
@[simp] theorem State.setIo_rsl (a : IoAddr) (v : Byte) : (s.setIo a v).rsl = s.rsl := rfl
@[simp] theorem State.setIo_beat (a : IoAddr) (v : Byte) : (s.setIo a v).beat = s.beat := rfl
@[simp] theorem State.setIo_wcnt (a : IoAddr) (v : Byte) : (s.setIo a v).wcnt = s.wcnt := rfl
@[simp] theorem State.setIo_sp (a : IoAddr) (v : Byte) : (s.setIo a v).sp = s.sp := rfl
@[simp] theorem State.setIo_gi (a : IoAddr) (v : Byte) : (s.setIo a v).gi = s.gi := rfl
@[simp] theorem State.setIo_istep (a : IoAddr) (v : Byte) : (s.setIo a v).istep = s.istep := rfl
@[simp] theorem State.setIo_rmwv (a : IoAddr) (v : Byte) : (s.setIo a v).rmwv = s.rmwv := rfl
@[simp] theorem State.setIo_todo (a : IoAddr) (v : Byte) : (s.setIo a v).todo = s.todo := rfl
@[simp] theorem State.setIo_loop (a : IoAddr) (v : Byte) : (s.setIo a v).loop = s.loop := rfl
@[simp] theorem State.setIo_initDone (a : IoAddr) (v : Byte) : (s.setIo a v).initDone = s.initDone := rfl
@[simp] theorem State.setIo_fault (a : IoAddr) (v : Byte) : (s.setIo a v).fault = s.fault := rfl
@[simp] theorem State.setIo_amode (a : IoAddr) (v : Byte) : (s.setIo a v).amode = s.amode := rfl
@[simp] theorem State.setIo_fcode (a : IoAddr) (v : Byte) : (s.setIo a v).fcode = s.fcode := rfl
@[simp] theorem State.setIo_fop (a : IoAddr) (v : Byte) : (s.setIo a v).fop = s.fop := rfl
@[simp] theorem State.setIo_result (a : IoAddr) (v : Byte) : (s.setIo a v).result = s.result := rfl
@[simp] theorem State.setIo_btn (a : IoAddr) (v : Byte) : (s.setIo a v).btn = s.btn := rfl
@[simp] theorem State.setIo_mem (a : IoAddr) (v : Byte) : (s.setIo a v).mem = s.mem := rfl
@[simp] theorem State.setIo_disp (a : IoAddr) (v : Byte) : (s.setIo a v).disp = s.disp := rfl
@[simp] theorem State.setIo_host (a : IoAddr) (v : Byte) : (s.setIo a v).host = s.host := rfl
@[simp] theorem State.setIo_acks (a : IoAddr) (v : Byte) : (s.setIo a v).acks = s.acks := rfl
@[simp] theorem State.setIo_raced (a : IoAddr) (v : Byte) : (s.setIo a v).raced = s.raced := rfl
@[simp] theorem State.setIo_draws (a : IoAddr) (v : Byte) : (s.setIo a v).draws = s.draws := rfl
@[simp] theorem State.setIo_trace (a : IoAddr) (v : Byte) : (s.setIo a v).trace = s.trace := rfl

@[simp] theorem State.setMem_cfg (a : MemAddr) (v : Byte) : (s.setMem a v).cfg = s.cfg := rfl
@[simp] theorem State.setMem_seq (a : MemAddr) (v : Byte) : (s.setMem a v).seq = s.seq := rfl
@[simp] theorem State.setMem_opr (a : MemAddr) (v : Byte) : (s.setMem a v).opr = s.opr := rfl
@[simp] theorem State.setMem_tsm (a : MemAddr) (v : Byte) : (s.setMem a v).tsm = s.tsm := rfl
@[simp] theorem State.setMem_dl (a : MemAddr) (v : Byte) : (s.setMem a v).dl = s.dl := rfl
@[simp] theorem State.setMem_rsl (a : MemAddr) (v : Byte) : (s.setMem a v).rsl = s.rsl := rfl
@[simp] theorem State.setMem_beat (a : MemAddr) (v : Byte) : (s.setMem a v).beat = s.beat := rfl
@[simp] theorem State.setMem_wcnt (a : MemAddr) (v : Byte) : (s.setMem a v).wcnt = s.wcnt := rfl
@[simp] theorem State.setMem_sp (a : MemAddr) (v : Byte) : (s.setMem a v).sp = s.sp := rfl
@[simp] theorem State.setMem_gi (a : MemAddr) (v : Byte) : (s.setMem a v).gi = s.gi := rfl
@[simp] theorem State.setMem_istep (a : MemAddr) (v : Byte) : (s.setMem a v).istep = s.istep := rfl
@[simp] theorem State.setMem_rmwv (a : MemAddr) (v : Byte) : (s.setMem a v).rmwv = s.rmwv := rfl
@[simp] theorem State.setMem_todo (a : MemAddr) (v : Byte) : (s.setMem a v).todo = s.todo := rfl
@[simp] theorem State.setMem_loop (a : MemAddr) (v : Byte) : (s.setMem a v).loop = s.loop := rfl
@[simp] theorem State.setMem_initDone (a : MemAddr) (v : Byte) : (s.setMem a v).initDone = s.initDone := rfl
@[simp] theorem State.setMem_fault (a : MemAddr) (v : Byte) : (s.setMem a v).fault = s.fault := rfl
@[simp] theorem State.setMem_amode (a : MemAddr) (v : Byte) : (s.setMem a v).amode = s.amode := rfl
@[simp] theorem State.setMem_fcode (a : MemAddr) (v : Byte) : (s.setMem a v).fcode = s.fcode := rfl
@[simp] theorem State.setMem_fop (a : MemAddr) (v : Byte) : (s.setMem a v).fop = s.fop := rfl
@[simp] theorem State.setMem_result (a : MemAddr) (v : Byte) : (s.setMem a v).result = s.result := rfl
@[simp] theorem State.setMem_btn (a : MemAddr) (v : Byte) : (s.setMem a v).btn = s.btn := rfl
@[simp] theorem State.setMem_io (a : MemAddr) (v : Byte) : (s.setMem a v).io = s.io := rfl
@[simp] theorem State.setMem_disp (a : MemAddr) (v : Byte) : (s.setMem a v).disp = s.disp := rfl
@[simp] theorem State.setMem_host (a : MemAddr) (v : Byte) : (s.setMem a v).host = s.host := rfl
@[simp] theorem State.setMem_acks (a : MemAddr) (v : Byte) : (s.setMem a v).acks = s.acks := rfl
@[simp] theorem State.setMem_raced (a : MemAddr) (v : Byte) : (s.setMem a v).raced = s.raced := rfl
@[simp] theorem State.setMem_draws (a : MemAddr) (v : Byte) : (s.setMem a v).draws = s.draws := rfl
@[simp] theorem State.setMem_trace (a : MemAddr) (v : Byte) : (s.setMem a v).trace = s.trace := rfl

@[simp] theorem State.toRun_cfg (l : Loop) : (s.toRun l).cfg = s.cfg := rfl
@[simp] theorem State.toRun_seq (l : Loop) : (s.toRun l).seq = .run := rfl
@[simp] theorem State.toRun_opr (l : Loop) : (s.toRun l).opr = s.opr := rfl
@[simp] theorem State.toRun_tsm (l : Loop) : (s.toRun l).tsm = s.tsm := rfl
@[simp] theorem State.toRun_dl (l : Loop) : (s.toRun l).dl = s.dl := rfl
@[simp] theorem State.toRun_rsl (l : Loop) : (s.toRun l).rsl = s.rsl := rfl
@[simp] theorem State.toRun_beat (l : Loop) : (s.toRun l).beat = s.beat := rfl
@[simp] theorem State.toRun_wcnt (l : Loop) : (s.toRun l).wcnt = s.wcnt := rfl
@[simp] theorem State.toRun_sp (l : Loop) : (s.toRun l).sp = s.sp := rfl
@[simp] theorem State.toRun_gi (l : Loop) : (s.toRun l).gi = s.gi := rfl
@[simp] theorem State.toRun_istep (l : Loop) : (s.toRun l).istep = s.istep := rfl
@[simp] theorem State.toRun_rmwv (l : Loop) : (s.toRun l).rmwv = s.rmwv := rfl
@[simp] theorem State.toRun_todo (l : Loop) : (s.toRun l).todo = [] := rfl
@[simp] theorem State.toRun_loop (l : Loop) : (s.toRun l).loop = l := rfl
@[simp] theorem State.toRun_initDone (l : Loop) : (s.toRun l).initDone = s.initDone := rfl
@[simp] theorem State.toRun_fault (l : Loop) : (s.toRun l).fault = s.fault := rfl
@[simp] theorem State.toRun_amode (l : Loop) : (s.toRun l).amode = s.amode := rfl
@[simp] theorem State.toRun_fcode (l : Loop) : (s.toRun l).fcode = s.fcode := rfl
@[simp] theorem State.toRun_fop (l : Loop) : (s.toRun l).fop = s.fop := rfl
@[simp] theorem State.toRun_result (l : Loop) : (s.toRun l).result = s.result := rfl
@[simp] theorem State.toRun_btn (l : Loop) : (s.toRun l).btn = s.btn := rfl
@[simp] theorem State.toRun_io (l : Loop) : (s.toRun l).io = s.io := rfl
@[simp] theorem State.toRun_mem (l : Loop) : (s.toRun l).mem = s.mem := rfl
@[simp] theorem State.toRun_disp (l : Loop) : (s.toRun l).disp = s.disp := rfl
@[simp] theorem State.toRun_host (l : Loop) : (s.toRun l).host = s.host := rfl
@[simp] theorem State.toRun_acks (l : Loop) : (s.toRun l).acks = s.acks := rfl
@[simp] theorem State.toRun_raced (l : Loop) : (s.toRun l).raced = s.raced := rfl
@[simp] theorem State.toRun_draws (l : Loop) : (s.toRun l).draws = s.draws := rfl
@[simp] theorem State.toRun_trace (l : Loop) : (s.toRun l).trace = s.trace := rfl

@[simp] theorem State.toIdle_cfg : (s.toIdle).cfg = s.cfg := rfl
@[simp] theorem State.toIdle_seq : (s.toIdle).seq = .idle := rfl
@[simp] theorem State.toIdle_opr : (s.toIdle).opr = s.opr := rfl
@[simp] theorem State.toIdle_tsm : (s.toIdle).tsm = .idle := rfl
@[simp] theorem State.toIdle_dl : (s.toIdle).dl = s.dl := rfl
@[simp] theorem State.toIdle_rsl : (s.toIdle).rsl = s.rsl := rfl
@[simp] theorem State.toIdle_beat : (s.toIdle).beat = s.beat := rfl
@[simp] theorem State.toIdle_wcnt : (s.toIdle).wcnt = s.wcnt := rfl
@[simp] theorem State.toIdle_sp : (s.toIdle).sp = s.sp := rfl
@[simp] theorem State.toIdle_gi : (s.toIdle).gi = s.gi := rfl
@[simp] theorem State.toIdle_istep : (s.toIdle).istep = s.istep := rfl
@[simp] theorem State.toIdle_rmwv : (s.toIdle).rmwv = s.rmwv := rfl
@[simp] theorem State.toIdle_todo : (s.toIdle).todo = [] := rfl
@[simp] theorem State.toIdle_loop : (s.toIdle).loop = .done := rfl
@[simp] theorem State.toIdle_initDone : (s.toIdle).initDone = s.initDone := rfl
@[simp] theorem State.toIdle_fault : (s.toIdle).fault = s.fault := rfl
@[simp] theorem State.toIdle_amode : (s.toIdle).amode = s.amode := rfl
@[simp] theorem State.toIdle_fcode : (s.toIdle).fcode = s.fcode := rfl
@[simp] theorem State.toIdle_fop : (s.toIdle).fop = s.fop := rfl
@[simp] theorem State.toIdle_result : (s.toIdle).result = s.result := rfl
@[simp] theorem State.toIdle_btn : (s.toIdle).btn = s.btn := rfl
@[simp] theorem State.toIdle_io : (s.toIdle).io = s.io := rfl
@[simp] theorem State.toIdle_mem : (s.toIdle).mem = s.mem := rfl
@[simp] theorem State.toIdle_disp : (s.toIdle).disp = s.disp := rfl
@[simp] theorem State.toIdle_host : (s.toIdle).host = s.host := rfl
@[simp] theorem State.toIdle_acks : (s.toIdle).acks = s.acks := rfl
@[simp] theorem State.toIdle_raced : (s.toIdle).raced = [] := rfl
@[simp] theorem State.toIdle_draws : (s.toIdle).draws = s.draws := rfl
@[simp] theorem State.toIdle_trace : (s.toIdle).trace = s.trace := rfl

@[simp] theorem State.accept_cfg (w : OpWord) : (s.accept w).cfg = s.cfg := rfl
@[simp] theorem State.accept_seq (w : OpWord) : (s.accept w).seq = .decode := rfl
@[simp] theorem State.accept_opr (w : OpWord) : (s.accept w).opr = w := rfl
@[simp] theorem State.accept_tsm (w : OpWord) : (s.accept w).tsm = s.tsm := rfl
@[simp] theorem State.accept_dl (w : OpWord) : (s.accept w).dl = s.dl := rfl
@[simp] theorem State.accept_rsl (w : OpWord) : (s.accept w).rsl = s.rsl := rfl
@[simp] theorem State.accept_beat (w : OpWord) : (s.accept w).beat = s.beat := rfl
@[simp] theorem State.accept_wcnt (w : OpWord) : (s.accept w).wcnt = s.wcnt := rfl
@[simp] theorem State.accept_sp (w : OpWord) : (s.accept w).sp = s.sp := rfl
@[simp] theorem State.accept_gi (w : OpWord) : (s.accept w).gi = s.gi := rfl
@[simp] theorem State.accept_istep (w : OpWord) : (s.accept w).istep = s.istep := rfl
@[simp] theorem State.accept_rmwv (w : OpWord) : (s.accept w).rmwv = s.rmwv := rfl
@[simp] theorem State.accept_todo (w : OpWord) : (s.accept w).todo = s.todo := rfl
@[simp] theorem State.accept_loop (w : OpWord) : (s.accept w).loop = s.loop := rfl
@[simp] theorem State.accept_initDone (w : OpWord) : (s.accept w).initDone = s.initDone := rfl
@[simp] theorem State.accept_fault (w : OpWord) : (s.accept w).fault = s.fault := rfl
@[simp] theorem State.accept_amode (w : OpWord) : (s.accept w).amode = s.amode := rfl
@[simp] theorem State.accept_fcode (w : OpWord) : (s.accept w).fcode = s.fcode := rfl
@[simp] theorem State.accept_fop (w : OpWord) : (s.accept w).fop = s.fop := rfl
@[simp] theorem State.accept_result (w : OpWord) : (s.accept w).result = s.result := rfl
@[simp] theorem State.accept_btn (w : OpWord) : (s.accept w).btn = s.btn := rfl
@[simp] theorem State.accept_io (w : OpWord) : (s.accept w).io = s.io := rfl
@[simp] theorem State.accept_mem (w : OpWord) : (s.accept w).mem = s.mem := rfl
@[simp] theorem State.accept_disp (w : OpWord) : (s.accept w).disp = s.disp := rfl
@[simp] theorem State.accept_host (w : OpWord) : (s.accept w).host = s.host := rfl
@[simp] theorem State.accept_acks (w : OpWord) : (s.accept w).acks = s.acks := rfl
@[simp] theorem State.accept_raced (w : OpWord) : (s.accept w).raced = s.raced := rfl
@[simp] theorem State.accept_draws (w : OpWord) : (s.accept w).draws = s.draws := rfl
@[simp] theorem State.accept_trace (w : OpWord) : (s.accept w).trace = pushEvent (.accept w) s.trace := rfl

@[simp] theorem observe_cfg (o : Origin) (a : IoAddr) (v : Byte) : (observe o a v s).cfg = s.cfg := rfl
@[simp] theorem observe_seq (o : Origin) (a : IoAddr) (v : Byte) : (observe o a v s).seq = s.seq := rfl
@[simp] theorem observe_opr (o : Origin) (a : IoAddr) (v : Byte) : (observe o a v s).opr = s.opr := rfl
@[simp] theorem observe_tsm (o : Origin) (a : IoAddr) (v : Byte) : (observe o a v s).tsm = s.tsm := rfl
@[simp] theorem observe_dl (o : Origin) (a : IoAddr) (v : Byte) : (observe o a v s).dl = s.dl := rfl
@[simp] theorem observe_rsl (o : Origin) (a : IoAddr) (v : Byte) : (observe o a v s).rsl = s.rsl := rfl
@[simp] theorem observe_beat (o : Origin) (a : IoAddr) (v : Byte) : (observe o a v s).beat = s.beat := rfl
@[simp] theorem observe_wcnt (o : Origin) (a : IoAddr) (v : Byte) : (observe o a v s).wcnt = s.wcnt := rfl
@[simp] theorem observe_sp (o : Origin) (a : IoAddr) (v : Byte) : (observe o a v s).sp = s.sp := rfl
@[simp] theorem observe_gi (o : Origin) (a : IoAddr) (v : Byte) : (observe o a v s).gi = s.gi := rfl
@[simp] theorem observe_istep (o : Origin) (a : IoAddr) (v : Byte) : (observe o a v s).istep = s.istep := rfl
@[simp] theorem observe_rmwv (o : Origin) (a : IoAddr) (v : Byte) : (observe o a v s).rmwv = s.rmwv := rfl
@[simp] theorem observe_todo (o : Origin) (a : IoAddr) (v : Byte) : (observe o a v s).todo = s.todo := rfl
@[simp] theorem observe_loop (o : Origin) (a : IoAddr) (v : Byte) : (observe o a v s).loop = s.loop := rfl
@[simp] theorem observe_initDone (o : Origin) (a : IoAddr) (v : Byte) : (observe o a v s).initDone = s.initDone := rfl
@[simp] theorem observe_fault (o : Origin) (a : IoAddr) (v : Byte) : (observe o a v s).fault = s.fault := rfl
@[simp] theorem observe_amode (o : Origin) (a : IoAddr) (v : Byte) : (observe o a v s).amode = s.amode := rfl
@[simp] theorem observe_fcode (o : Origin) (a : IoAddr) (v : Byte) : (observe o a v s).fcode = s.fcode := rfl
@[simp] theorem observe_fop (o : Origin) (a : IoAddr) (v : Byte) : (observe o a v s).fop = s.fop := rfl
@[simp] theorem observe_result (o : Origin) (a : IoAddr) (v : Byte) : (observe o a v s).result = s.result := rfl
@[simp] theorem observe_btn (o : Origin) (a : IoAddr) (v : Byte) : (observe o a v s).btn = s.btn := rfl
@[simp] theorem observe_io (o : Origin) (a : IoAddr) (v : Byte) : (observe o a v s).io = s.io := rfl
@[simp] theorem observe_mem (o : Origin) (a : IoAddr) (v : Byte) : (observe o a v s).mem = s.mem := rfl
@[simp] theorem observe_disp (o : Origin) (a : IoAddr) (v : Byte) : (observe o a v s).disp = s.observed o a v := rfl
@[simp] theorem observe_host (o : Origin) (a : IoAddr) (v : Byte) : (observe o a v s).host = s.host := rfl
@[simp] theorem observe_acks (o : Origin) (a : IoAddr) (v : Byte) : (observe o a v s).acks = s.acks := rfl
@[simp] theorem observe_raced (o : Origin) (a : IoAddr) (v : Byte) : (observe o a v s).raced = s.raced := rfl
@[simp] theorem observe_draws (o : Origin) (a : IoAddr) (v : Byte) : (observe o a v s).draws = s.draws := rfl
@[simp] theorem observe_trace (o : Origin) (a : IoAddr) (v : Byte) : (observe o a v s).trace = s.trace := rfl

@[simp] theorem memTaken_cfg (a : MemAddr) : (memTaken s a).cfg = s.cfg := rfl
@[simp] theorem memTaken_seq (a : MemAddr) : (memTaken s a).seq = s.seq := rfl
@[simp] theorem memTaken_opr (a : MemAddr) : (memTaken s a).opr = s.opr := rfl
@[simp] theorem memTaken_tsm (a : MemAddr) : (memTaken s a).tsm = s.tsm := rfl
@[simp] theorem memTaken_dl (a : MemAddr) : (memTaken s a).dl = s.dl := rfl
@[simp] theorem memTaken_rsl (a : MemAddr) : (memTaken s a).rsl = s.rsl := rfl
@[simp] theorem memTaken_beat (a : MemAddr) : (memTaken s a).beat = s.beat := rfl
@[simp] theorem memTaken_wcnt (a : MemAddr) : (memTaken s a).wcnt = s.wcnt := rfl
@[simp] theorem memTaken_sp (a : MemAddr) : (memTaken s a).sp = s.sp := rfl
@[simp] theorem memTaken_gi (a : MemAddr) : (memTaken s a).gi = s.gi := rfl
@[simp] theorem memTaken_istep (a : MemAddr) : (memTaken s a).istep = s.istep := rfl
@[simp] theorem memTaken_rmwv (a : MemAddr) : (memTaken s a).rmwv = s.rmwv := rfl
@[simp] theorem memTaken_todo (a : MemAddr) : (memTaken s a).todo = s.todo := rfl
@[simp] theorem memTaken_loop (a : MemAddr) : (memTaken s a).loop = s.loop := rfl
@[simp] theorem memTaken_initDone (a : MemAddr) : (memTaken s a).initDone = s.initDone := rfl
@[simp] theorem memTaken_fault (a : MemAddr) : (memTaken s a).fault = s.fault := rfl
@[simp] theorem memTaken_amode (a : MemAddr) : (memTaken s a).amode = s.amode := rfl
@[simp] theorem memTaken_fcode (a : MemAddr) : (memTaken s a).fcode = s.fcode := rfl
@[simp] theorem memTaken_fop (a : MemAddr) : (memTaken s a).fop = s.fop := rfl
@[simp] theorem memTaken_result (a : MemAddr) : (memTaken s a).result = s.result := rfl
@[simp] theorem memTaken_btn (a : MemAddr) : (memTaken s a).btn = s.btn := rfl
@[simp] theorem memTaken_io (a : MemAddr) : (memTaken s a).io = s.io := rfl
@[simp] theorem memTaken_mem (a : MemAddr) : (memTaken s a).mem = s.mem := rfl
@[simp] theorem memTaken_disp (a : MemAddr) : (memTaken s a).disp = s.disp := rfl
@[simp] theorem memTaken_host (a : MemAddr) : (memTaken s a).host = s.host := rfl
@[simp] theorem memTaken_acks (a : MemAddr) : (memTaken s a).acks = s.acks := rfl
@[simp] theorem memTaken_raced (a : MemAddr) : (memTaken s a).raced = s.raced := rfl

/-! ## Zero-cycle register writes -/

variable (r : RegWrite)

@[simp] theorem RegWrite.apply_cfg : (r.apply s).cfg = s.cfg := by cases r <;> rfl
@[simp] theorem RegWrite.apply_seq : (r.apply s).seq = s.seq := by cases r <;> rfl
@[simp] theorem RegWrite.apply_opr : (r.apply s).opr = s.opr := by cases r <;> rfl
@[simp] theorem RegWrite.apply_tsm :
    (r.apply s).tsm = match r with | .tsm t => t | _ => s.tsm := by cases r <;> rfl
@[simp] theorem RegWrite.apply_dl :
    (r.apply s).dl = match r with | .latch _ b => b | _ => s.dl := by cases r <;> rfl
@[simp] theorem RegWrite.apply_rsl :
    (r.apply s).rsl = match r with | .latch rs _ => rs | _ => s.rsl := by cases r <;> rfl
@[simp] theorem RegWrite.apply_beat :
    (r.apply s).beat = match r with | .latch _ _ => false | .beat b => b | _ => s.beat := by cases r <;> rfl
@[simp] theorem RegWrite.apply_wcnt : (r.apply s).wcnt = s.wcnt := by cases r <;> rfl
@[simp] theorem RegWrite.apply_sp :
    (r.apply s).sp = match r with | .sp a => a | .spInc => s.sp + 1#16 | _ => s.sp := by cases r <;> rfl
@[simp] theorem RegWrite.apply_gi :
    (r.apply s).gi = match r with | .gi n => n | .giInc => s.gi + 1#4 | _ => s.gi := by cases r <;> rfl
@[simp] theorem RegWrite.apply_istep :
    (r.apply s).istep = match r with | .istep n => n | _ => s.istep := by cases r <;> rfl
@[simp] theorem RegWrite.apply_rmwv : (r.apply s).rmwv = s.rmwv := by cases r <;> rfl
@[simp] theorem RegWrite.apply_todo : (r.apply s).todo = s.todo := by cases r <;> rfl
@[simp] theorem RegWrite.apply_loop :
    (r.apply s).loop = match r with | .loopEnd => .done | .giInc => if s.gi + 1#4 < 8#4 then s.loop else .done | _ => s.loop := by cases r <;> rfl
@[simp] theorem RegWrite.apply_initDone :
    (r.apply s).initDone = match r with | .initDone => true | _ => s.initDone := by cases r <;> rfl
@[simp] theorem RegWrite.apply_fault : (r.apply s).fault = s.fault := by cases r <;> rfl
@[simp] theorem RegWrite.apply_amode :
    (r.apply s).amode = match r with | .amode m => m | .amodeAfter b => trackAmode b s.amode | _ => s.amode := by cases r <;> rfl
@[simp] theorem RegWrite.apply_fcode : (r.apply s).fcode = s.fcode := by cases r <;> rfl
@[simp] theorem RegWrite.apply_fop : (r.apply s).fop = s.fop := by cases r <;> rfl
@[simp] theorem RegWrite.apply_result : (r.apply s).result = s.result := by cases r <;> rfl
@[simp] theorem RegWrite.apply_btn :
    (r.apply s).btn = match r with | .btn k d => s.btn.set k.toNat d (by omega) | _ => s.btn := by cases r <;> rfl
@[simp] theorem RegWrite.apply_io : (r.apply s).io = s.io := by cases r <;> rfl
@[simp] theorem RegWrite.apply_mem : (r.apply s).mem = s.mem := by cases r <;> rfl
@[simp] theorem RegWrite.apply_disp :
    (r.apply s).disp = match r with | .displaySync => s.disp.synchronise s.cfg | _ => s.disp := by cases r <;> rfl
@[simp] theorem RegWrite.apply_host : (r.apply s).host = s.host := by cases r <;> rfl
@[simp] theorem RegWrite.apply_acks : (r.apply s).acks = s.acks := by cases r <;> rfl
@[simp] theorem RegWrite.apply_raced : (r.apply s).raced = s.raced := by cases r <;> rfl
@[simp] theorem RegWrite.apply_draws : (r.apply s).draws = s.draws := by cases r <;> rfl
@[simp] theorem RegWrite.apply_trace : (r.apply s).trace = s.trace := by cases r <;> rfl

end Sys2Proof.Machine
end

