-- ==== Sys2Proof/Laws/Ops.lean ====
section
/-! SUPPORT. What each shared operation can do, said once. -/

namespace Sys2Proof.Machine

/-! ## Outcomes -/

section
variable {α β : Type}

@[simp] theorem andThen_next (a : α) (f : α → Res β) : andThen (.next a) f = f a := rfl
@[simp] theorem andThen_refused (e : Refusal) (f : α → Res β) : andThen (.refused e) f = .refused e := rfl
@[simp] theorem andThen_fault (e : Fault) (f : α → Res β) : andThen (.fault e) f = .fault e := rfl

theorem andThen_eq_next {r : Res α} {f : α → Res β} {b : β} :
    andThen r f = .next b ↔ ∃ a, r = .next a ∧ f a = .next b := by
  cases r <;> simp [andThen]

theorem andThen_assoc {γ : Type} (r : Res α) (f : α → Res β) (g : β → Res γ) :
    andThen (andThen r f) g = andThen r fun a => andThen (f a) g := by
  cases r <;> rfl

end

@[simp] theorem perform_nil (s : State) : perform [] s = .next s := rfl

@[simp] theorem perform_cons (m : Micro) (l : List Micro) (s : State) :
    perform (m :: l) s = andThen (m.run s) (perform l) := rfl

theorem perform_append (l r : List Micro) (s : State) :
    perform (l ++ r) s = andThen (perform l s) (perform r) := by
  induction l generalizing s with
  | nil => rfl
  | cons m l ih =>
    simp only [List.cons_append, perform_cons, andThen_assoc]
    cases m.run s <;> simp [andThen, ih]

/-! ## Accesses -/

/-- A read of an input register is a draw (R66). -/
theorem ioRead_volatile (a : IoAddr) (s : State) (h : s.cfg.ioVolatile.contains a = true) :
    ioRead a s =
      .next (Config.draw s.draws, (s.drawn 1).log (.ioRd a (Config.draw s.draws))) := by
  simp only [ioRead, h, if_true]

/-- A read of a stored register is its content (R66). -/
theorem ioRead_stored (a : IoAddr) (s : State) (v : Byte) (h : s.cfg.ioVolatile.contains a = false)
    (hv : ioCell s a = some v) : ioRead a s = .next (v, s.log (.ioRd a v)) := by
  simp only [ioRead, h, hv, Bool.false_eq_true, if_false]

/-- A read of an unknown register is refused (R66). -/
theorem ioRead_unknown (a : IoAddr) (s : State) (h : s.cfg.ioVolatile.contains a = false)
    (hv : ioCell s a = none) : ioRead a s = .refused (.ioReadUnknown a) := by
  simp only [ioRead, h, hv, Bool.false_eq_true, if_false]

/-- Everything a read can do: the value comes from one of two places, and only the record and the count of draws
change. -/
theorem ioRead_cases {a : IoAddr} {s t : State} {v : Byte} (h : ioRead a s = .next (v, t)) :
    (s.cfg.ioVolatile.contains a = true ∧ v = Config.draw s.draws ∧
      t = (s.drawn 1).log (.ioRd a v)) ∨
    (s.cfg.ioVolatile.contains a = false ∧ ioCell s a = some v ∧ t = s.log (.ioRd a v)) := by
  cases hv : s.cfg.ioVolatile.contains a with
  | true => rw [ioRead_volatile a s hv] at h; simp only [Host.Outcome.next.injEq, Prod.mk.injEq] at h; exact .inl ⟨rfl, h.1.symm, h.1 ▸ h.2.symm⟩
  | false =>
    cases hc : ioCell s a with
    | none => rw [ioRead_unknown a s hv hc] at h; simp at h
    | some w =>
      rw [ioRead_stored a s w hv hc] at h
      simp only [Host.Outcome.next.injEq, Prod.mk.injEq] at h
      exact .inr ⟨rfl, by rw [h.1], h.1 ▸ h.2.symm⟩

/-- A write to a register that is no input register stores the byte, and the display sees it (R67). -/
theorem ioWrite_stored (o : Origin) (a : IoAddr) (v : Byte) (s : State) (h : s.cfg.ioVolatile.contains a = false) :
    ioWrite o a v s = .next (observe o a v ((s.log (.ioWr a v)).setIo a v)) := by
  simp only [ioWrite, h, Bool.false_eq_true, if_false]

theorem ioWrite_volatile (o : Origin) (a : IoAddr) (v : Byte) (s : State) (h : s.cfg.ioVolatile.contains a = true) :
    ioWrite o a v s = .refused (.ioWriteVolatile a) := by
  simp only [ioWrite, h, if_true]

theorem ioWrite_cases {o : Origin} {a : IoAddr} {v : Byte} {s t : State} (h : ioWrite o a v s = .next t) :
    s.cfg.ioVolatile.contains a = false ∧ t = observe o a v ((s.log (.ioWr a v)).setIo a v) := by
  cases hv : s.cfg.ioVolatile.contains a with
  | true => rw [ioWrite_volatile o a v s hv] at h; simp at h
  | false => rw [ioWrite_stored o a v s hv] at h; simp_all

/-- The value written by a read-modify-write depends on the configuration and the data latch alone. -/
theorem upd_apply_congr (f : Upd) {s t : State} (x : Byte) (hc : t.cfg = s.cfg) (hd : t.dl = s.dl)
    (hb : t.beat = s.beat) : f.apply t x = f.apply s x := by
  cases f <;> simp only [Upd.apply, hc, hd, hb]

/-- The state after `RMW(a, f)` of a register that held `x` (R68). -/
def rmwDone (o : Origin) (a : IoAddr) (f : Upd) (x : Byte) (s : State) : State :=
  observe o a (f.apply s x)
    ((((s.log (.ioRd a x)).setRmwv x).log (.ioWr a (f.apply s x))).setIo a (f.apply s x))

/-! What a read-modify-write leaves alone. -/

section
variable (o : Origin) (a : IoAddr) (f : Upd) (x : Byte) (s : State)

@[simp] theorem rmwDone_cfg : (rmwDone o a f x s).cfg = s.cfg := by
  rw [rmwDone, observe_cfg, State.setIo_cfg, State.log_cfg, State.setRmwv_cfg, State.log_cfg]
@[simp] theorem rmwDone_seq : (rmwDone o a f x s).seq = s.seq := by
  rw [rmwDone, observe_seq, State.setIo_seq, State.log_seq, State.setRmwv_seq, State.log_seq]
@[simp] theorem rmwDone_opr : (rmwDone o a f x s).opr = s.opr := by
  rw [rmwDone, observe_opr, State.setIo_opr, State.log_opr, State.setRmwv_opr, State.log_opr]
@[simp] theorem rmwDone_tsm : (rmwDone o a f x s).tsm = s.tsm := by
  rw [rmwDone, observe_tsm, State.setIo_tsm, State.log_tsm, State.setRmwv_tsm, State.log_tsm]
@[simp] theorem rmwDone_dl : (rmwDone o a f x s).dl = s.dl := by
  rw [rmwDone, observe_dl, State.setIo_dl, State.log_dl, State.setRmwv_dl, State.log_dl]
@[simp] theorem rmwDone_rsl : (rmwDone o a f x s).rsl = s.rsl := by
  rw [rmwDone, observe_rsl, State.setIo_rsl, State.log_rsl, State.setRmwv_rsl, State.log_rsl]
@[simp] theorem rmwDone_beat : (rmwDone o a f x s).beat = s.beat := by
  rw [rmwDone, observe_beat, State.setIo_beat, State.log_beat, State.setRmwv_beat, State.log_beat]
@[simp] theorem rmwDone_wcnt : (rmwDone o a f x s).wcnt = s.wcnt := by
  rw [rmwDone, observe_wcnt, State.setIo_wcnt, State.log_wcnt, State.setRmwv_wcnt, State.log_wcnt]
@[simp] theorem rmwDone_sp : (rmwDone o a f x s).sp = s.sp := by
  rw [rmwDone, observe_sp, State.setIo_sp, State.log_sp, State.setRmwv_sp, State.log_sp]
@[simp] theorem rmwDone_gi : (rmwDone o a f x s).gi = s.gi := by
  rw [rmwDone, observe_gi, State.setIo_gi, State.log_gi, State.setRmwv_gi, State.log_gi]
@[simp] theorem rmwDone_istep : (rmwDone o a f x s).istep = s.istep := by
  rw [rmwDone, observe_istep, State.setIo_istep, State.log_istep, State.setRmwv_istep, State.log_istep]
@[simp] theorem rmwDone_todo : (rmwDone o a f x s).todo = s.todo := by
  rw [rmwDone, observe_todo, State.setIo_todo, State.log_todo, State.setRmwv_todo, State.log_todo]
@[simp] theorem rmwDone_loop : (rmwDone o a f x s).loop = s.loop := by
  rw [rmwDone, observe_loop, State.setIo_loop, State.log_loop, State.setRmwv_loop, State.log_loop]
@[simp] theorem rmwDone_initDone : (rmwDone o a f x s).initDone = s.initDone := by
  rw [rmwDone, observe_initDone, State.setIo_initDone, State.log_initDone, State.setRmwv_initDone, State.log_initDone]
@[simp] theorem rmwDone_fault : (rmwDone o a f x s).fault = s.fault := by
  rw [rmwDone, observe_fault, State.setIo_fault, State.log_fault, State.setRmwv_fault, State.log_fault]
@[simp] theorem rmwDone_amode : (rmwDone o a f x s).amode = s.amode := by
  rw [rmwDone, observe_amode, State.setIo_amode, State.log_amode, State.setRmwv_amode, State.log_amode]
@[simp] theorem rmwDone_fcode : (rmwDone o a f x s).fcode = s.fcode := by
  rw [rmwDone, observe_fcode, State.setIo_fcode, State.log_fcode, State.setRmwv_fcode, State.log_fcode]
@[simp] theorem rmwDone_fop : (rmwDone o a f x s).fop = s.fop := by
  rw [rmwDone, observe_fop, State.setIo_fop, State.log_fop, State.setRmwv_fop, State.log_fop]
@[simp] theorem rmwDone_result : (rmwDone o a f x s).result = s.result := by
  rw [rmwDone, observe_result, State.setIo_result, State.log_result, State.setRmwv_result, State.log_result]
@[simp] theorem rmwDone_btn : (rmwDone o a f x s).btn = s.btn := by
  rw [rmwDone, observe_btn, State.setIo_btn, State.log_btn, State.setRmwv_btn, State.log_btn]
@[simp] theorem rmwDone_mem : (rmwDone o a f x s).mem = s.mem := by
  rw [rmwDone, observe_mem, State.setIo_mem, State.log_mem, State.setRmwv_mem, State.log_mem]
@[simp] theorem rmwDone_host : (rmwDone o a f x s).host = s.host := by
  rw [rmwDone, observe_host, State.setIo_host, State.log_host, State.setRmwv_host, State.log_host]
@[simp] theorem rmwDone_acks : (rmwDone o a f x s).acks = s.acks := by
  rw [rmwDone, observe_acks, State.setIo_acks, State.log_acks, State.setRmwv_acks, State.log_acks]
@[simp] theorem rmwDone_raced : (rmwDone o a f x s).raced = s.raced := by
  rw [rmwDone, observe_raced, State.setIo_raced, State.log_raced, State.setRmwv_raced, State.log_raced]
@[simp] theorem rmwDone_draws : (rmwDone o a f x s).draws = s.draws := by
  rw [rmwDone, observe_draws, State.setIo_draws, State.log_draws, State.setRmwv_draws, State.log_draws]
@[simp] theorem rmwDone_rmwv : (rmwDone o a f x s).rmwv = x := by rw [rmwDone, observe_rmwv, State.setIo_rmwv, State.log_rmwv, State.setRmwv_rmwv]
@[simp] theorem rmwDone_trace :
    (rmwDone o a f x s).trace = .ioWr a (f.apply s x) :: .ioRd a x :: s.trace := by
  rw [rmwDone, observe_trace, State.setIo_trace, State.log_trace, State.setRmwv_trace, State.log_trace]
  rfl

@[simp] theorem ioCell_rmwDone_same : ioCell (rmwDone o a f x s) a = some (f.apply s x) :=
  ioCell_setIo_same ..

theorem ioCell_rmwDone_other (b : IoAddr) (h : b ≠ a) : ioCell (rmwDone o a f x s) b = ioCell s b :=
  ioCell_setIo_other _ _ _ _ h

end

/-- `RMW` of a known register that is no input register (R68). -/
theorem perform_rmw (o : Origin) (a : IoAddr) (f : Upd) (x : Byte) (s : State)
    (h : s.cfg.ioVolatile.contains a = false) (hx : ioCell s a = some x) :
    perform (rmw o a f) s = .next (rmwDone o a f x s) := by
  simp only [rmw, perform_cons, Micro.run, ioRead_stored a s x h hx, andThen_next, State.setRmwv_rmwv]
  rw [show f.apply ((s.log (.ioRd a x)).setRmwv x) x = f.apply s x from upd_apply_congr f x rfl rfl rfl,
    ioWrite_stored]
  · rfl
  · exact h

/-- `RMW` of an unknown register is refused at its read (R66, R68). -/
theorem perform_rmw_unknown (o : Origin) (a : IoAddr) (f : Upd) (s : State)
    (h : s.cfg.ioVolatile.contains a = false) (hx : ioCell s a = none) :
    perform (rmw o a f) s = .refused (.ioReadUnknown a) := by
  simp only [rmw, perform_cons, Micro.run, ioRead_unknown a s h hx, andThen_refused]

/-- `RMW` of an input register is refused at its write (R67, R68). -/
theorem perform_rmw_volatile (o : Origin) (a : IoAddr) (f : Upd) (s : State)
    (h : s.cfg.ioVolatile.contains a = true) :
    perform (rmw o a f) s = .refused (.ioWriteVolatile a) := by
  simp only [rmw, perform_cons, Micro.run, ioRead_volatile a s h, andThen_next]
  rw [ioWrite_volatile]
  · rfl
  · exact h

/-! ## Running a plan -/

@[simp] theorem runLoop_done (k : Nat) (s : State) (h : s.loop = .done) : runLoop k s = .next s.toIdle := by
  cases k <;> simp [runLoop, h]

/-- A plan without a loop runs its micro-steps and returns to IDLE. -/
theorem runPlan_go_done (todo : List Micro) (s t : State) (h : perform todo ((s.log .decode).toRun .done) = .next t)
    (hl : t.loop = .done) : runPlan (.go todo .done) s = .next t.toIdle := by
  simp only [runPlan, complete, h, andThen_next, runLoop_done _ _ hl]

theorem runPlan_go_refused (todo : List Micro) (l : Loop) (s : State) (e : Refusal)
    (h : perform todo ((s.log .decode).toRun l) = .refused e) : runPlan (.go todo l) s = .refused e := by
  simp only [runPlan, complete, h, andThen_refused]

/-- A relation that every micro-step of a list keeps is kept by the list. -/
theorem perform_rel (P : State → State → Prop) (refl : ∀ s, P s s) (trans : ∀ {a b c}, P a b → P b c → P a c)
    (l : List Micro) (hm : ∀ m ∈ l, ∀ s t, m.run s = .next t → P s t) :
    ∀ s t, perform l s = .next t → P s t := by
  induction l with
  | nil => intro s t h; simp at h; exact h ▸ refl s
  | cons m l ih =>
    intro s t h
    rw [perform_cons, andThen_eq_next] at h
    obtain ⟨u, hu, ht⟩ := h
    exact trans (hm m (by simp) s u hu) (ih (fun m hm' => hm m (by simp [hm'])) u t ht)

end Sys2Proof.Machine
end

