-- ==== Sys2Proof/Laws/Gpio.lean ====
section
/-! SUPPORT. What a plan of one read-modify-write and a plan of one sample do (41_gpio.md, 42_button.md). -/

namespace Sys2Proof.Machine

/-- The frame of a GPIO operation is that of its parts: here, of a state reached by the shared operations alone. -/
theorem gpioFrame_of_rfl {s t : State} (h1 : SameOutside s t) (h2 : SameStatus s t) (h3 : SameHidden s t)
    (h4 : t.acks = s.acks) : GpioFrame s t.toIdle :=
  ⟨h1, h2, h3, h4, ⟨rfl, rfl, rfl, rfl, rfl⟩⟩

/-- Losing the display leaves nothing of it known (R281), whatever E is then. -/
theorem Disp.gone_lose (d : Disp) (e : Bool) : Disp.Gone { d.lose with prevE := e } :=
  ⟨rfl, rfl, rfl, rfl, rfl, rfl, rfl, rfl, rfl, fun a => by simp [Disp.lose, Vector.get], fun a => by simp [Disp.lose, Vector.get],
    rfl⟩

/-- What the display makes of a GPIO write of the control register (R285 to R287). -/
theorem gpioSeen_rmwDone (f : Upd) (x : Byte) (s : State) (hx : ioCell s s.cfg.ctrlReg = some x) (hw : WireSeen s) :
    GpioSeen s (rmwDone .gpio s.cfg.ctrlReg f x s) x (f.apply s x) := by
  have hp := hw x hx
  have hd : (rmwDone .gpio s.cfg.ctrlReg f x s).disp =
      { (if x.getLsbD s.cfg.eBit.toNat && !(f.apply s x).getLsbD s.cfg.eBit.toNat && !s.inSyncSteps then
          (if s.disp.sync != .sync then s.disp else s.disp.lose) else s.disp) with
        prevE := (f.apply s x).getLsbD s.cfg.eBit.toNat } := by
    rw [← hp]
    show State.observed _ _ _ _ = _
    simp only [State.observed, State.setIo_cfg, State.log_cfg, State.setRmwv_cfg, if_true]
    rfl
  refine ⟨by rw [hd], ?_⟩
  rw [hd]
  cases x.getLsbD s.cfg.eBit.toNat <;> cases (f.apply s x).getLsbD s.cfg.eBit.toNat <;> cases s.inSyncSteps <;>
    cases hs : s.disp.sync <;> first | rfl | exact Disp.gone_lose s.disp false

/-- A read-modify-write of a known register that is no input register (R68). -/
theorem rewrites_of_plan {i : Instr} {s : State} {reg : IoAddr} {x y : Byte} {f : Upd}
    (he : exec i s = runPlan (.go (rmw .gpio reg f) .done) s) (hf : ∀ u : State, u.cfg = s.cfg → f.apply u x = y)
    (hv : s.cfg.ioVolatile.contains reg = false) (hx : ioCell s reg = some x) : Rewrites i s reg x y := by
  have hp := perform_rmw .gpio reg f x ((s.log .decode).toRun .done) hv hx
  refine ⟨_, he.trans (runPlan_go_done _ _ _ hp rfl), ?_, ?_, rfl, rfl, rfl, rfl, ?_, ?_, ?_, ?_⟩
  · rw [show ∀ u : State, ioCell u.toIdle reg = ioCell u reg from fun _ => rfl, ioCell_rmwDone_same, hf ((s.log .decode).toRun .done) rfl]
  · intro a ha; exact ioCell_rmwDone_other .gpio _ _ _ _ _ ha
  · exact gpioFrame_of_rfl ⟨rfl, rfl, rfl, rfl⟩ ⟨rfl, rfl, rfl, rfl, rfl⟩ ⟨rfl, rfl, rfl, rfl, rfl, rfl, rfl⟩ rfl
  · intro h
    show State.observed _ _ _ _ = _
    simp only [State.observed, State.setIo_cfg, State.log_cfg, State.setRmwv_cfg, State.toRun_cfg, h, if_false]
    rfl
  · intro h hw
    subst h
    have := gpioSeen_rmwDone f x ((s.log .decode).toRun .done) hx hw
    rw [hf ((s.log .decode).toRun .done) rfl] at this
    exact this
  · show (rmwDone .gpio reg f x ((s.log .decode).toRun .done)).trace = _
    rw [rmwDone_trace, hf ((s.log .decode).toRun .done) rfl]; rfl

/-- A sample of a stored register (R66). -/
theorem samples_stored {i : Instr} {s : State} {reg : IoAddr} {pin : BitIdx} {level : Bool} {x : Byte}
    (he : exec i s = runPlan (.go [.sample reg pin level] .done) s) (hv : s.cfg.ioVolatile.contains reg = false)
    (hx : ioCell s reg = some x) : Samples i s reg x (levelResult x pin level) 0 := by
  have hr := ioRead_stored reg ((s.log .decode).toRun .done) x hv hx
  have hp : perform [.sample reg pin level] ((s.log .decode).toRun .done) =
      .next ((((s.log .decode).toRun .done).log (.ioRd reg x)).setResult (levelResult x pin level)) := by
    simp only [perform_cons, Micro.run, hr, andThen_next, perform_nil]
  exact ⟨_, he.trans (runPlan_go_done _ _ _ hp rfl), rfl, rfl, rfl, rfl, rfl, rfl,
    gpioFrame_of_rfl ⟨rfl, rfl, rfl, rfl⟩ ⟨rfl, rfl, rfl, rfl, rfl⟩ ⟨rfl, rfl, rfl, rfl, rfl, rfl, rfl⟩ rfl, rfl⟩

/-- A sample of an input register is a free value (R66). -/
theorem samples_drawn {i : Instr} {s : State} {reg : IoAddr} {pin : BitIdx} {level : Bool}
    (he : exec i s = runPlan (.go [.sample reg pin level] .done) s) (hv : s.cfg.ioVolatile.contains reg = true) :
    Samples i s reg (Config.draw s.draws) (levelResult (Config.draw s.draws) pin level) 1 := by
  have hr := ioRead_volatile reg ((s.log .decode).toRun .done) hv
  have hp : perform [.sample reg pin level] ((s.log .decode).toRun .done) =
      .next (((((s.log .decode).toRun .done).drawn 1).log (.ioRd reg (Config.draw s.draws))).setResult
        (levelResult (Config.draw s.draws) pin level)) := by
    simp only [perform_cons, Micro.run, hr, andThen_next, perform_nil]; rfl
  exact ⟨_, he.trans (runPlan_go_done _ _ _ hp rfl), rfl, rfl, rfl, rfl, rfl, rfl,
    gpioFrame_of_rfl ⟨rfl, rfl, rfl, rfl⟩ ⟨rfl, rfl, rfl, rfl, rfl⟩ ⟨rfl, rfl, rfl, rfl, rfl, rfl, rfl⟩ rfl, rfl⟩

end Sys2Proof.Machine
end

