-- ==== Sys2Proof/Laws/Wire.lean ====
section
/-! SUPPORT. The bus record as an observer of the wire reads it: writes account for the registers, and falling edges of E
for the strobes. -/

namespace Sys2Proof.Machine

theorem lastWritten_append (a : IoAddr) (x : Byte) (l r : List Event) :
    lastWritten a x (l ++ r) = lastWritten a (lastWritten a x r) l := by
  induction l with
  | nil => rfl
  | cons e l ih =>
    cases e <;> simp only [List.cons_append, lastWritten, ih]

theorem strobes_append (c : Cfg) (x y : Byte) (l r : List Event) :
    strobes c x y (l ++ r) =
      strobes c x y r ++ strobes c (lastWritten c.ctrlReg x r) (lastWritten c.dataReg y r) l := by
  induction l with
  | nil => simp [strobes]
  | cons e l ih =>
    cases e with
    | ioWr a v =>
      by_cases ha : a = c.ctrlReg
      · subst ha
        simp only [List.cons_append, strobes, lastWritten, lastWritten_append, ih]
        split <;> simp
      · simp only [List.cons_append, strobes, ha, false_and, if_false, ih]
    | _ => simp only [List.cons_append, strobes, ih]

/-- From `s` to `t` the bus record grows by events that account for the LCD's two registers and strobe these values. -/
def Wired (s t : State) (l : List (Bool × Byte)) : Prop :=
  t.cfg = s.cfg ∧ ∃ new, t.trace = new ++ s.trace ∧
    ∀ x y, ioCell s s.cfg.ctrlReg = some x → ioCell s s.cfg.dataReg = some y →
      strobes s.cfg x y new = l ∧ ioCell t s.cfg.ctrlReg = some (lastWritten s.cfg.ctrlReg x new) ∧
        ioCell t s.cfg.dataReg = some (lastWritten s.cfg.dataReg y new)

theorem Wired.strobed {s t : State} {l : List (Bool × Byte)} (h : Wired s t l) : Strobed s t l := by
  obtain ⟨-, new, ht, hw⟩ := h
  exact ⟨new, ht, fun x y hx hy => (hw x y hx hy).1⟩

/-- The newest event is no unanswered read, so that a stall makes an event of its own. -/
def NoStall (s : State) : Prop := ∀ n r, s.trace ≠ .stall n :: r

/-- The newest event is neither a wait nor an unanswered read. -/
def Fresh (s : State) : Prop := (∀ n r, s.trace ≠ .wait n :: r) ∧ NoStall s

theorem Wired.of_same {s t : State} (hc : t.cfg = s.cfg) (hi : t.io = s.io) (ht : t.trace = s.trace) : Wired s t [] := by
  have hx : ∀ a, ioCell t a = ioCell s a := fun a => by unfold ioCell; rw [hc, hi]
  exact ⟨hc, [], ht, fun x y h1 h2 => ⟨rfl, by rw [hx]; exact h1, by rw [hx]; exact h2⟩⟩

theorem Wired.trans {s t u : State} {l m : List (Bool × Byte)} (h : Wired s t l) (k : Wired t u m) :
    Wired s u (l ++ m) := by
  obtain ⟨hc, n1, h1, w1⟩ := h
  obtain ⟨kc, n2, h2, w2⟩ := k
  refine ⟨kc.trans hc, n2 ++ n1, by rw [h2, h1, List.append_assoc], fun x y hx hy => ?_⟩
  obtain ⟨a1, a2, a3⟩ := w1 x y hx hy
  rw [hc] at w2
  obtain ⟨b1, b2, b3⟩ := w2 _ _ a2 a3
  exact ⟨by rw [strobes_append, a1, b1], by rw [lastWritten_append]; exact b2, by rw [lastWritten_append]; exact b3⟩

/-- A wait strobes nothing. -/
theorem Wired.wait {s : State} (h : Fresh s) (n : Nat) : Wired s ((s.setWcnt 0).logCycles .wait n) [] := by
  by_cases hn : n = 0
  · exact .of_same rfl rfl (by simp [State.logCycles, hn, State.setWcnt])
  · refine ⟨rfl, [.wait n], ?_, fun x y hx hy => ⟨rfl, hx, hy⟩⟩
    show (if n = 0 then s.trace else pushEvent (.wait n) s.trace) = _
    rw [if_neg hn]
    cases ht : s.trace with
    | nil => rfl
    | cons e r => cases e <;> first | rfl | exact absurd ht (h.1 _ _)

theorem Fresh.rmwDone (o : Origin) (a : IoAddr) (f : Upd) (x : Byte) (s : State) : Fresh (rmwDone o a f x s) := by
  constructor <;> intro n r <;> rw [rmwDone_trace] <;> simp

/-- After a wait the newest event is still no unanswered read. -/
theorem Fresh.noStall_wait {s : State} (h : Fresh s) (n : Nat) : NoStall ((s.setWcnt 0).logCycles .wait n) := by
  intro m r
  show (if n = 0 then s.trace else pushEvent (.wait n) s.trace) ≠ _
  split
  · exact h.2 m r
  · cases ht : s.trace with
    | nil => simp [pushEvent]
    | cons e l => cases e <;> simp [pushEvent]

/-- A read-modify-write of a register that is neither of the LCD's two strobes nothing. -/
theorem Wired.other (o : Origin) (a : IoAddr) (f : Upd) (x : Byte) (s : State) (h1 : a ≠ s.cfg.ctrlReg)
    (h2 : a ≠ s.cfg.dataReg) : Wired s (rmwDone o a f x s) [] := by
  refine ⟨rmwDone_cfg .., [.ioWr a (f.apply s x), .ioRd a x], by rw [rmwDone_trace]; rfl, fun u v hu hv => ?_⟩
  refine ⟨by simp [strobes, h1], ?_, ?_⟩
  · rw [ioCell_rmwDone_other _ _ _ _ _ _ (Ne.symm h1), hu]; simp [lastWritten, h1]
  · rw [ioCell_rmwDone_other _ _ _ _ _ _ (Ne.symm h2), hv]; simp [lastWritten, h2]

/-- A read-modify-write of any register, as an account of the LCD's two registers. -/
theorem rmwDone_cells (o : Origin) (a : IoAddr) (f : Upd) (x : Byte) (s : State) (b : IoAddr) {v : Byte}
    (hv : ioCell s b = some v) :
    ioCell (rmwDone o a f x s) b = some (lastWritten b v [.ioWr a (f.apply s x), .ioRd a x]) := by
  by_cases h : a = b
  · subst h; rw [ioCell_rmwDone_same]; simp [lastWritten]
  · rw [ioCell_rmwDone_other _ _ _ _ _ _ (Ne.symm h), hv]; simp [lastWritten, h]

/-- A read-modify-write of the control register strobes exactly when E falls (R285). -/
theorem Wired.ctrl (f : Upd) (x : Byte) (s : State) (hx : ioCell s s.cfg.ctrlReg = some x) {e e' r' : Bool} {v' : Byte}
    (he : x.getLsbD s.cfg.eBit.toNat = e) (he' : (f.apply s x).getLsbD s.cfg.eBit.toNat = e')
    (hr' : (f.apply s x).getLsbD s.cfg.rsBit.toNat = r')
    (hd : (rmwDone .seq s.cfg.ctrlReg f x s).dataLines = some v') :
    Wired s (rmwDone .seq s.cfg.ctrlReg f x s) (if e && !e' then [(r', v')] else []) := by
  refine ⟨rmwDone_cfg .., [.ioWr s.cfg.ctrlReg (f.apply s x), .ioRd s.cfg.ctrlReg x], by rw [rmwDone_trace]; rfl,
    fun u v hu hv => ⟨?_, rmwDone_cells _ _ _ _ _ _ hu, rmwDone_cells _ _ _ _ _ _ hv⟩⟩
  rw [hx] at hu
  cases hu
  have hl := rmwDone_cells .seq s.cfg.ctrlReg f x s s.cfg.dataReg hv
  simp only [State.dataLines, rmwDone_cfg, hl, Option.map_some, Option.some.injEq] at hd
  have hd' : (lastWritten s.cfg.dataReg v [.ioWr s.cfg.ctrlReg (f.apply s x)] &&& dmask s.cfg) >>> s.cfg.dataShift = v' := by
    rw [← hd]; rfl
  subst he he' hr'
  cases h1 : x.getLsbD s.cfg.eBit.toNat <;> cases h2 : (f.apply s x).getLsbD s.cfg.eBit.toNat <;>
    simp [strobes, lastWritten, h1, h2]
  rw [← hd]
  rfl

/-- A read-modify-write of the data register alone strobes nothing (R285). -/
theorem Wired.data (f : Upd) (x : Byte) (s : State) (h : s.cfg.dataReg ≠ s.cfg.ctrlReg) :
    Wired s (rmwDone .seq s.cfg.dataReg f x s) [] :=
  ⟨rmwDone_cfg .., [.ioWr s.cfg.dataReg (f.apply s x), .ioRd s.cfg.dataReg x], by rw [rmwDone_trace]; rfl,
    fun _ _ hu hv => ⟨by simp [strobes, h], rmwDone_cells _ _ _ _ _ _ hu, rmwDone_cells _ _ _ _ _ _ hv⟩⟩

end Sys2Proof.Machine
end

