-- ==== Sys2Proof/Laws/Lcd.lean ====
section
/-! SUPPORT. What a transfer does (43_lcd_sequencer.md), as the lines of the wire see it. -/

namespace Sys2Proof.Machine

/-! ## Bits -/

theorem getLsbD_bitMask (k j : BitIdx) : (bitMask k).getLsbD j.toNat = (k == j) := by
  revert k j; decide

theorem getLsbD_bitMask_nat (k : BitIdx) (j : Nat) : (bitMask k).getLsbD j = (k.toNat == j) := by
  by_cases h : j < 8
  · have := getLsbD_bitMask k (BitVec.ofNat 3 j)
    rw [BitVec.toNat_ofNat, Nat.mod_eq_of_lt (by omega)] at this
    rw [this]
    cases hk : (k.toNat == j)
    · simp only [beq_eq_false_iff_ne, ne_eq] at hk ⊢
      intro e; apply hk; rw [e]; simp; omega
    · simp only [beq_iff_eq] at hk ⊢
      subst hk; simp
  · have h1 : (bitMask k).getLsbD j = false := BitVec.getLsbD_of_ge _ _ (by omega)
    rw [h1]; have := k.isLt; symm; simp only [beq_eq_false_iff_ne]; omega

theorem getLsbD_set (x : Byte) (k : BitIdx) (j : Nat) :
    (x ||| bitMask k).getLsbD j = (x.getLsbD j || (k.toNat == j)) := by
  rw [BitVec.getLsbD_or, getLsbD_bitMask_nat]

theorem getLsbD_clr (x : Byte) (k : BitIdx) (j : Nat) :
    (x &&& ~~~bitMask k).getLsbD j = (x.getLsbD j && !(k.toNat == j)) := by
  by_cases h : j < 8
  · rw [BitVec.getLsbD_and, BitVec.getLsbD_not, getLsbD_bitMask_nat]; simp [h]
  · rw [BitVec.getLsbD_of_ge _ _ (by omega), BitVec.getLsbD_of_ge x _ (by omega)]; rfl

theorem getLsbD_fieldWrite (m v x : Byte) (j : Nat) :
    (fieldWrite m v x).getLsbD j = if m.getLsbD j then v.getLsbD j else x.getLsbD j := by
  by_cases h : j < 8
  · simp only [fieldWrite, BitVec.getLsbD_or, BitVec.getLsbD_and, BitVec.getLsbD_not, h, decide_true, Bool.true_and]
    cases m.getLsbD j <;> simp
  · rw [BitVec.getLsbD_of_ge _ _ (by omega), BitVec.getLsbD_of_ge v _ (by omega), BitVec.getLsbD_of_ge x _ (by omega)]
    simp

theorem and_eq_of_bits (m x y : Byte) (h : ∀ j, m.getLsbD j = true → x.getLsbD j = y.getLsbD j) :
    x &&& m = y &&& m := by
  apply BitVec.eq_of_getLsbD_eq
  intro j hj
  rw [BitVec.getLsbD_and, BitVec.getLsbD_and]
  cases hm : m.getLsbD j
  · simp
  · rw [h j hm]

/-! ## The lines -/

/-- The levels of E and RS and the value on the data lines (R201), all known, and E seen by the display. -/
structure Lines (s : State) (e r : Bool) (v : Byte) : Prop where
  ctrl : ∃ x, ioCell s s.cfg.ctrlReg = some x ∧ x.getLsbD s.cfg.eBit.toNat = e ∧ x.getLsbD s.cfg.rsBit.toNat = r
  data : s.dataLines = some v
  prevE : s.disp.prevE = e

/-- What every part of a transfer leaves alone. -/
structure XferFrame (s t : State) : Prop where
  cfg : t.cfg = s.cfg
  opr : t.opr = s.opr
  seq : t.seq = s.seq
  sp : t.sp = s.sp
  gi : t.gi = s.gi
  istep : t.istep = s.istep
  todo : t.todo = s.todo
  loop : t.loop = s.loop
  initDone : t.initDone = s.initDone
  fault : t.fault = s.fault
  amode : t.amode = s.amode
  fcode : t.fcode = s.fcode
  fop : t.fop = s.fop
  result : t.result = s.result
  btn : t.btn = s.btn
  mem : t.mem = s.mem
  host : t.host = s.host
  acks : t.acks = s.acks
  raced : t.raced = s.raced
  draws : t.draws = s.draws
  pins : SamePins s t

theorem SamePins.refl (s : State) : SamePins s s := fun _ _ _ => rfl

theorem SamePins.trans {s t u : State} (hc : t.cfg = s.cfg) (h : SamePins s t) (k : SamePins t u) :
    SamePins s u := fun a j hj => (k a j (by rw [hc]; exact hj)).trans (h a j hj)

theorem XferFrame.refl (s : State) : XferFrame s s := by
  constructor <;> first | rfl | exact SamePins.refl s

theorem XferFrame.trans {s t u : State} (h : XferFrame s t) (k : XferFrame t u) : XferFrame s u where
  cfg := k.cfg.trans h.cfg
  opr := k.opr.trans h.opr
  seq := k.seq.trans h.seq
  sp := k.sp.trans h.sp
  gi := k.gi.trans h.gi
  istep := k.istep.trans h.istep
  todo := k.todo.trans h.todo
  loop := k.loop.trans h.loop
  initDone := k.initDone.trans h.initDone
  fault := k.fault.trans h.fault
  amode := k.amode.trans h.amode
  fcode := k.fcode.trans h.fcode
  fop := k.fop.trans h.fop
  result := k.result.trans h.result
  btn := k.btn.trans h.btn
  mem := k.mem.trans h.mem
  host := k.host.trans h.host
  acks := k.acks.trans h.acks
  raced := k.raced.trans h.raced
  draws := k.draws.trans h.draws
  pins := h.pins.trans h.cfg k.pins

theorem XferFrame.inSync {s t : State} (h : XferFrame s t) : t.inSyncSteps = s.inSyncSteps := by
  simp only [State.inSyncSteps, h.istep]

/-- The checks of R8 that transfers rest on. -/
structure LcdCfg (c : Cfg) : Prop where
  bus : c.lcdBus = 4 ∨ c.lcdBus = 8
  shift8 : c.lcdBus = 8 → c.dataShift = 0
  shift4 : c.lcdBus = 4 → c.dataShift ≤ 4
  rsE : c.rsBit ≠ c.eBit
  overlap : c.ctrlReg = c.dataReg →
    (dmask c).getLsbD c.rsBit.toNat = false ∧ (dmask c).getLsbD c.eBit.toNat = false
  ctrl : c.ioVolatile.contains c.ctrlReg = false
  data : c.ioVolatile.contains c.dataReg = false
  ctrlDir : c.ioVolatile.contains c.ctrlDirReg = false
  dataDir : c.ioVolatile.contains c.dataDirReg = false

theorem LcdCfg.of_wf {c : Cfg} (h : c.wf = true) : LcdCfg c := by
  simp only [Cfg.wf, Bool.and_eq_true, Cfg.cfgBus, Cfg.cfgShift, Cfg.cfgRsE, Cfg.cfgOverlap, Cfg.cfgDirOverlap,
    Cfg.cfgLcdNonvolatile, Bool.or_eq_true, beq_iff_eq, bne_iff_ne, ne_eq, decide_eq_true_eq, Bool.not_eq_true'] at h
  obtain ⟨⟨⟨⟨⟨⟨⟨⟨hb, h8, h4⟩, hre⟩, hov⟩, -⟩, ⟨⟨hc, hd⟩, hcd⟩, hdd⟩, -⟩, -⟩, -⟩ := h
  exact
    { bus := hb, rsE := hre, ctrl := hc, data := hd, ctrlDir := hcd, dataDir := hdd
      shift8 := fun e => h8.resolve_left (fun n => n e)
      shift4 := fun e => h4.resolve_left (fun n => n e)
      overlap := fun e => hov.resolve_left (fun n => n e) }

/-! ## One read-modify-write of the wire -/

/-- Drive one bit: the same function as SETPINSTATE's. -/
theorem bitTo_bits (b : Bool) (k : BitIdx) (s : State) (x : Byte) (j : Nat) :
    ((bitTo b k).apply s x).getLsbD j = if k.toNat = j then b else x.getLsbD j := by
  cases b
  · simp only [bitTo, Upd.apply, Bool.false_eq_true, if_false, getLsbD_clr]
    by_cases h : k.toNat = j <;> simp [h]
  · simp only [bitTo, Upd.apply, if_true, getLsbD_set]
    by_cases h : k.toNat = j <;> simp [h]

theorem rsUpd_eq (c : Cfg) (rs : Bool) : rsUpd c rs = bitTo rs c.rsBit := rfl
theorem eSet_eq (c : Cfg) : Upd.set (eMask c) = bitTo true c.eBit := rfl
theorem eClr_eq (c : Cfg) : Upd.clr (eMask c) = bitTo false c.eBit := rfl

/-- What the display makes of a write of the control register that leaves the lines at these levels. -/
def seen (s : State) (e r : Bool) (v : Byte) : Disp :=
  (if s.disp.prevE && !e && !s.inSyncSteps then s.disp.latch s.cfg .seq r (some v) else s.disp).withE e

/-- The registers that a read-modify-write leaves alone beside the frame. -/
structure SameLatches (s t : State) : Prop where
  dl : t.dl = s.dl
  rsl : t.rsl = s.rsl
  beat : t.beat = s.beat
  tsm : t.tsm = s.tsm
  wcnt : t.wcnt = s.wcnt

theorem rmwDone_pins (o : Origin) (a : IoAddr) (f : Upd) (x : Byte) (s : State) (hx : ioCell s a = some x)
    (hp : ∀ j, lcdPin s.cfg a j = false → (f.apply s x).getLsbD j = x.getLsbD j) :
    SamePins s (rmwDone o a f x s) := by
  intro b j hj
  by_cases hb : b = a
  · subst hb; rw [ioCell_rmwDone_same, hx, Option.map_some, Option.map_some, hp j hj]
  · rw [ioCell_rmwDone_other _ _ _ _ _ _ hb]

theorem rmwDone_frame (o : Origin) (a : IoAddr) (f : Upd) (x : Byte) (s : State)
    (hp : SamePins s (rmwDone o a f x s)) : XferFrame s (rmwDone o a f x s) :=
  ⟨rmwDone_cfg .., rmwDone_opr .., rmwDone_seq .., rmwDone_sp .., rmwDone_gi .., rmwDone_istep .., rmwDone_todo ..,
    rmwDone_loop .., rmwDone_initDone .., rmwDone_fault .., rmwDone_amode .., rmwDone_fcode .., rmwDone_fop ..,
    rmwDone_result .., rmwDone_btn .., rmwDone_mem .., rmwDone_host .., rmwDone_acks .., rmwDone_raced ..,
    rmwDone_draws .., hp⟩

theorem rmwDone_latches (o : Origin) (a : IoAddr) (f : Upd) (x : Byte) (s : State) :
    SameLatches s (rmwDone o a f x s) :=
  ⟨rmwDone_dl .., rmwDone_rsl .., rmwDone_beat .., rmwDone_tsm .., rmwDone_wcnt ..⟩

theorem rmwDone_cycles (o : Origin) (a : IoAddr) (f : Upd) (x : Byte) (s : State) :
    (rmwDone o a f x s).cycles = s.cycles + 2 := by
  unfold State.cycles
  rw [rmwDone_trace]
  simp only [busyCycles, List.map_cons, List.sum_cons, Event.cycles]
  omega

/-- What the display makes of a read-modify-write of the control register (R285). -/
theorem rmwDone_disp_ctrl (f : Upd) (x : Byte) (s : State) {e r : Bool} {v : Byte}
    (he : (f.apply s x).getLsbD s.cfg.eBit.toNat = e) (hr : (f.apply s x).getLsbD s.cfg.rsBit.toNat = r)
    (hd : (rmwDone .seq s.cfg.ctrlReg f x s).dataLines = some v) :
    (rmwDone .seq s.cfg.ctrlReg f x s).disp = seen s e r v := by
  have hd' : State.dataLines ((((s.log (.ioRd s.cfg.ctrlReg x)).setRmwv x).log
      (.ioWr s.cfg.ctrlReg (f.apply s x))).setIo s.cfg.ctrlReg (f.apply s x)) = some v := hd
  show State.observed _ _ _ _ = _
  simp only [State.observed, State.setIo_cfg, State.log_cfg, State.setRmwv_cfg, if_true, he, hr, hd']
  rfl

/-- A write of another register leaves the display alone (R285). -/
theorem rmwDone_disp_other (o : Origin) (a : IoAddr) (f : Upd) (x : Byte) (s : State) (h : a ≠ s.cfg.ctrlReg) :
    (rmwDone o a f x s).disp = s.disp := by
  show State.observed _ _ _ _ = _
  simp only [State.observed, State.setIo_cfg, State.log_cfg, State.setRmwv_cfg, h, if_false]
  rfl

/-- The data lines read off a data register. -/
theorem dataLines_eq {s : State} {y : Byte} (h : ioCell s s.cfg.dataReg = some y) :
    s.dataLines = some ((y &&& dmask s.cfg) >>> s.cfg.dataShift) := by
  simp only [State.dataLines, h, Option.map_some]

theorem Lines.dataCell {s : State} {e r : Bool} {v : Byte} (L : Lines s e r v) :
    ∃ y, ioCell s s.cfg.dataReg = some y ∧ (y &&& dmask s.cfg) >>> s.cfg.dataShift = v := by
  have h := L.data
  simp only [State.dataLines, Option.map_eq_some_iff] at h
  exact h

/-- The data lines after driving RS or E: a shared register keeps its data bits (R8, `cfg_overlap`). -/
theorem ctrl_step_data {s : State} (h : LcdCfg s.cfg) {v x : Byte} (hx : ioCell s s.cfg.ctrlReg = some x)
    (hv : s.dataLines = some v) (b : Bool) (k : BitIdx) (hk : k = s.cfg.rsBit ∨ k = s.cfg.eBit) :
    (rmwDone .seq s.cfg.ctrlReg (bitTo b k) x s).dataLines = some v := by
  by_cases hcd : s.cfg.ctrlReg = s.cfg.dataReg
  · have hc : ioCell (rmwDone .seq s.cfg.ctrlReg (bitTo b k) x s)
        (rmwDone .seq s.cfg.ctrlReg (bitTo b k) x s).cfg.dataReg = some ((bitTo b k).apply s x) := by
      rw [rmwDone_cfg, ← hcd]; exact ioCell_rmwDone_same ..
    rw [dataLines_eq hc, rmwDone_cfg]
    rw [dataLines_eq (hcd ▸ hx)] at hv
    rw [← hv, and_eq_of_bits (dmask s.cfg) ((bitTo b k).apply s x) x]
    intro j hj
    rw [bitTo_bits, if_neg]
    rintro rfl
    have ho := h.overlap hcd
    rcases hk with rfl | rfl
    · rw [ho.1] at hj; cases hj
    · rw [ho.2] at hj; cases hj
  · unfold State.dataLines
    rw [rmwDone_cfg, ioCell_rmwDone_other _ _ _ _ _ _ (fun q => hcd q.symm)]
    exact hv

/-- Setting or clearing RS or E in the control register. -/
theorem ctrl_step {s : State} (h : LcdCfg s.cfg) {e r : Bool} {v : Byte} (L : Lines s e r v) (b : Bool) (k : BitIdx)
    (hk : k = s.cfg.rsBit ∨ k = s.cfg.eBit) {e' r' : Bool} (he : e' = if k = s.cfg.eBit then b else e)
    (hr : r' = if k = s.cfg.rsBit then b else r) :
    ∃ t, perform (rmw .seq s.cfg.ctrlReg (bitTo b k)) s = .next t ∧ XferFrame s t ∧ SameLatches s t ∧
      t.cycles = s.cycles + 2 ∧ Lines t e' r' v ∧ t.disp = seen s e' r' v ∧
      Wired s t (if e && !e' then [(r', v)] else []) ∧ Fresh t := by
  obtain ⟨x, hx, hxe, hxr⟩ := L.ctrl
  have hbit := bitTo_bits b k s x
  have hE : ((bitTo b k).apply s x).getLsbD s.cfg.eBit.toNat = e' := by
    rw [hbit, he, hxe]
    by_cases hke : k = s.cfg.eBit
    · simp [hke]
    · rw [if_neg hke, if_neg (fun q => hke (BitVec.eq_of_toNat_eq q))]
  have hR : ((bitTo b k).apply s x).getLsbD s.cfg.rsBit.toNat = r' := by
    rw [hbit, hr, hxr]
    by_cases hke : k = s.cfg.rsBit
    · simp [hke]
    · rw [if_neg hke, if_neg (fun q => hke (BitVec.eq_of_toNat_eq q))]
  have hD := ctrl_step_data h hx L.data b k hk
  have hP : SamePins s (rmwDone .seq s.cfg.ctrlReg (bitTo b k) x s) := by
    refine rmwDone_pins _ _ _ _ _ hx fun j hj => ?_
    rw [hbit, if_neg]
    rintro rfl
    rcases hk with rfl | rfl <;> simp [lcdPin] at hj
  have hC : Lines (rmwDone .seq s.cfg.ctrlReg (bitTo b k) x s) e' r' v := by
    refine ⟨⟨(bitTo b k).apply s x, ?_, ?_, ?_⟩, hD, ?_⟩
    · rw [rmwDone_cfg]; exact ioCell_rmwDone_same ..
    · rw [rmwDone_cfg]; exact hE
    · rw [rmwDone_cfg]; exact hR
    · rw [rmwDone_disp_ctrl _ _ _ hE hR hD]; rfl
  exact ⟨_, perform_rmw _ _ _ x s h.ctrl hx, rmwDone_frame _ _ _ _ _ hP, rmwDone_latches .., rmwDone_cycles .., hC,
    rmwDone_disp_ctrl _ _ _ hE hR hD, Wired.ctrl _ _ _ hx hxe hE hR hD, Fresh.rmwDone _ _ _ _ _⟩

/-! ## Reading back a written field -/

theorem fieldWrite_and (m w x : Byte) : fieldWrite m w x &&& m = w &&& m := by
  apply BitVec.eq_of_getLsbD_eq
  intro j hj
  rw [BitVec.getLsbD_and, BitVec.getLsbD_and, getLsbD_fieldWrite]
  cases m.getLsbD j <;> simp

theorem nibble_back (v : Byte) (k : Nat) (hk : k ≤ 4) :
    (v <<< k &&& 0x0F#8 <<< k) >>> k = v &&& 0x0F#8 := by
  have : ∀ k : Fin 5, ∀ v : Byte, (v <<< k.val &&& 0x0F#8 <<< k.val) >>> k.val = v &&& 0x0F#8 := by decide +kernel
  exact this ⟨k, by omega⟩ v

theorem beatValue_nibble (c : Cfg) (dl : Byte) (b : Bool) (h : c.lcdBus = 4) :
    beatValue c dl b &&& 0x0F#8 = beatValue c dl b := by
  have h1 : ∀ d : Byte, (d &&& 0x0F#8) &&& 0x0F#8 = d &&& 0x0F#8 := by decide
  have h2 : ∀ d : Byte, (d >>> 4) &&& 0x0F#8 = d >>> 4 := by decide
  cases b
  · simp only [beatValue, h, if_false, Bool.false_eq_true, Nat.reduceEqDiff]; exact h2 dl
  · simp only [beatValue, h, if_false, if_true, Nat.reduceEqDiff]; exact h1 dl

/-- What is read off the data lines after the data write of a beat is the beat's value (R206, R207). -/
theorem beat_back {c : Cfg} (h : LcdCfg c) (dl x : Byte) (b : Bool) :
    (fieldWrite (dmask c) (beatValue c dl b <<< c.dataShift) x &&& dmask c) >>> c.dataShift = beatValue c dl b := by
  rw [fieldWrite_and]
  rcases h.bus with h4 | h8
  · have hm : dmask c = 0x0F#8 <<< c.dataShift := by
      unfold dmask; rw [h4, if_neg (by decide)]
    rw [hm, nibble_back _ _ (h.shift4 h4), beatValue_nibble c dl b h4]
  · have hm : dmask c = 0xFF#8 := by unfold dmask; rw [h8, if_pos rfl]
    rw [hm, h.shift8 h8]
    have : ∀ v : Byte, (v <<< 0 &&& 0xFF#8) >>> 0 = v := by decide
    exact this _

/-- The data write of a beat puts the beat's value on the data lines, and nothing is strobed. -/
theorem data_step {s : State} (h : LcdCfg s.cfg) {e r : Bool} {v : Byte} (L : Lines s e r v) :
    ∃ t, perform (rmw .seq s.cfg.dataReg .data) s = .next t ∧ XferFrame s t ∧ SameLatches s t ∧
      t.cycles = s.cycles + 2 ∧ Lines t e r (beatValue s.cfg s.dl s.beat) ∧ t.disp = s.disp ∧ Wired s t [] ∧
      Fresh t := by
  obtain ⟨x, hx, hxe, hxr⟩ := L.ctrl
  obtain ⟨y, hy, -⟩ := L.dataCell
  have hbit : ∀ j, (Upd.data.apply s y).getLsbD j =
      if (dmask s.cfg).getLsbD j then (beatValue s.cfg s.dl s.beat <<< s.cfg.dataShift).getLsbD j else y.getLsbD j :=
    fun j => getLsbD_fieldWrite _ _ _ _
  have hc : ioCell (rmwDone .seq s.cfg.dataReg .data y s)
      (rmwDone .seq s.cfg.dataReg .data y s).cfg.dataReg = some (Upd.data.apply s y) := by
    rw [rmwDone_cfg]; exact ioCell_rmwDone_same ..
  have hD : (rmwDone .seq s.cfg.dataReg .data y s).dataLines = some (beatValue s.cfg s.dl s.beat) := by
    rw [dataLines_eq hc, rmwDone_cfg]
    exact congrArg some (beat_back h s.dl y s.beat)
  have hP : SamePins s (rmwDone .seq s.cfg.dataReg .data y s) := by
    refine rmwDone_pins _ _ _ _ _ hy fun j hj => ?_
    rw [hbit, if_neg]
    intro hm
    simp [lcdPin, hm] at hj
  by_cases hcd : s.cfg.dataReg = s.cfg.ctrlReg
  · have ho := h.overlap hcd.symm
    have hxy : x = y := by rw [← hcd, hy] at hx; exact (Option.some.inj hx).symm
    have hE : (Upd.data.apply s y).getLsbD s.cfg.eBit.toNat = e := by
      rw [hbit, ho.2, ← hxe, hxy]; rfl
    have hR : (Upd.data.apply s y).getLsbD s.cfg.rsBit.toNat = r := by
      rw [hbit, ho.1, ← hxr, hxy]; rfl
    have hd : (rmwDone .seq s.cfg.dataReg .data y s).disp = s.disp := by
      have hD' := hD
      rw [hcd] at hD' ⊢
      rw [rmwDone_disp_ctrl _ _ _ hE hR hD', seen, L.prevE, if_neg (by cases e <;> simp), ← L.prevE]; rfl
    have hW : Wired s (rmwDone .seq s.cfg.dataReg .data y s) [] := by
      have hD' := hD
      rw [hcd] at hD' hy ⊢
      have w := Wired.ctrl _ _ _ hy (hxy ▸ hxe) hE hR hD'
      simpa using w
    exact ⟨_, perform_rmw _ _ _ y s h.data hy, rmwDone_frame _ _ _ _ _ hP, rmwDone_latches .., rmwDone_cycles ..,
      ⟨⟨_, by rw [rmwDone_cfg, ← hcd]; exact ioCell_rmwDone_same .., by rw [rmwDone_cfg]; exact hE,
        by rw [rmwDone_cfg]; exact hR⟩, hD, by rw [hd]; exact L.prevE⟩, hd, hW, Fresh.rmwDone _ _ _ _ _⟩
  · have hd := rmwDone_disp_other .seq s.cfg.dataReg .data y s hcd
    exact ⟨_, perform_rmw _ _ _ y s h.data hy, rmwDone_frame _ _ _ _ _ hP, rmwDone_latches .., rmwDone_cycles ..,
      ⟨⟨x, by rw [rmwDone_cfg, ioCell_rmwDone_other _ _ _ _ _ _ (fun q => hcd q.symm)]; exact hx,
        by rw [rmwDone_cfg]; exact hxe, by rw [rmwDone_cfg]; exact hxr⟩, hD, by rw [hd]; exact L.prevE⟩, hd,
      Wired.data _ _ _ hcd, Fresh.rmwDone _ _ _ _ _⟩

end Sys2Proof.Machine
end

