-- ==== Sys2Proof/Laws/Run.lean ====
section
/-! SUPPORT. What a step, a cycle, an operation and a loop can do, said once. -/

namespace Sys2Proof.Machine

/-- Every operation is its DECODE outcome, run to its end (R121). -/
theorem exec_eq (i : Instr) (s : State) : exec i s = runPlan (planOf i s) s := by cases i <;> rfl

/-- Everything a MemRead can do (R62): its answers, its value, and what it leaves on the bus. -/
theorem memRead_cases {s t : State} {b : Byte} (h : memRead s = some (b, t)) :
    b = memValue s.sp s ∧
    ((s.acks = [] ∧ t = memTaken s s.sp) ∨
      ∃ n r, s.acks = .after n :: r ∧ t = memTaken ((s.setAcks r).logCycles .stall n) s.sp) := by
  unfold memRead at h
  split at h
  · cases h
  · next n r ha => cases h; exact ⟨rfl, .inr ⟨n, r, ha, rfl⟩⟩
  · next ha => cases h; exact ⟨rfl, .inl ⟨ha, rfl⟩⟩

/-- A property that one micro-step of each kind keeps is kept by a list of them. -/
theorem perform_keeps (P : State → Prop) (l : List Micro)
    (hm : ∀ m ∈ l, ∀ s t, P s → m.run s = .next t → P t) : ∀ s t, P s → perform l s = .next t → P t := by
  induction l with
  | nil => intro s t hs h; simp only [perform_nil, Host.Outcome.next.injEq] at h; exact h ▸ hs
  | cons m l ih =>
    intro s t hs h
    rw [perform_cons, andThen_eq_next] at h
    obtain ⟨u, hu, ht⟩ := h
    exact ih (fun m hm' => hm m (List.mem_cons_of_mem _ hm')) u t (hm m List.mem_cons_self s u hs hu) ht

/-- A loop that has not ended takes one turn, or waits for its MemRead (R62). -/
theorem runLoop_step {k : Nat} {s : State} (h : s.loop ≠ .done) :
    runLoop (k + 1) s = match memRead s with
      | none => .next (s.log (.stall 1))
      | some (b, t) => andThen (perform (turnSeq t b) t) (runLoop k) := by
  rw [runLoop.eq_def]
  split
  · contradiction
  · rfl

/-- One turn of a loop, at most. -/
theorem runLoop_cases {k : Nat} {s t : State} (h : runLoop k s = .next t) :
    (s.loop = .done ∧ t = s.toIdle) ∨
    (s.loop ≠ .done ∧ ((k = 0 ∧ t = s) ∨
      ∃ j, k = j + 1 ∧ ((memRead s = none ∧ t = s.log (.stall 1)) ∨
        ∃ b u v, memRead s = some (b, u) ∧ perform (turnSeq u b) u = .next v ∧ runLoop j v = .next t))) := by
  by_cases hl : s.loop = .done
  · rw [runLoop_done k s hl] at h; cases h; exact .inl ⟨hl, rfl⟩
  · refine .inr ⟨hl, ?_⟩
    cases k with
    | zero =>
      rw [runLoop.eq_def] at h
      split at h
      · contradiction
      · cases h; exact .inl ⟨rfl, rfl⟩
    | succ j =>
      refine .inr ⟨j, rfl, ?_⟩
      rw [runLoop_step hl] at h
      cases hm : memRead s with
      | none => rw [hm] at h; cases h; exact .inl ⟨rfl, rfl⟩
      | some p =>
        rw [hm] at h
        obtain ⟨v, hv, ht⟩ := andThen_eq_next.mp h
        exact .inr ⟨p.1, p.2, v, rfl, hv, ht⟩

/-- A property kept by a MemRead, by a turn's micro-steps, by waiting and by the return to IDLE is kept by a loop. -/
theorem runLoop_keeps (P : State → Prop) (hidle : ∀ s, P s → P s.toIdle) (hstall : ∀ s, P s → P (s.log (.stall 1)))
    (hturn : ∀ s b u v, P s → memRead s = some (b, u) → perform (turnSeq u b) u = .next v → P v) (k : Nat) :
    ∀ s t, P s → runLoop k s = .next t → P t := by
  induction k with
  | zero =>
    intro s t hs h
    obtain ⟨_, rfl⟩ | ⟨_, ⟨_, rfl⟩ | ⟨j, hj, _⟩⟩ := runLoop_cases h
    · exact hidle s hs
    · exact hs
    · cases hj
  | succ k ih =>
    intro s t hs h
    obtain ⟨_, rfl⟩ | ⟨_, ⟨hk, _⟩ | ⟨j, hj, ⟨_, rfl⟩ | ⟨b, u, v, hm, hp, hr⟩⟩⟩ := runLoop_cases h
    · exact hidle s hs
    · cases hk
    · exact hstall s hs
    · cases hj; exact ih v t (hturn s b u v hs hm hp) hr

/-- The two ends of an operation (R121): a fault, or its micro-sequence and its loop. -/
theorem exec_cases {i : Instr} {s t : State} (h : exec i s = .next t) :
    (∃ c, planOf i s = .fault c ∧ t = raiseFault c (s.log .decode)) ∨
    ∃ todo l u, planOf i s = .go todo l ∧ perform todo ((s.log .decode).toRun l) = .next u ∧
      runLoop lap u = .next t := by
  rw [exec_eq] at h
  cases hp : planOf i s with
  | fault c => rw [hp] at h; cases h; exact .inl ⟨c, rfl, rfl⟩
  | go todo l =>
    rw [hp] at h
    obtain ⟨u, hu, ht⟩ := andThen_eq_next.mp h
    exact .inr ⟨todo, l, u, rfl, hu, ht⟩

/-- Everything a step can do (R127): one case for each move of the host. -/
theorem step_cases {s t : State} (h : step s = .next t) :
    s.cfg.wf = true ∧
    ((s.host = [] ∧ runOn s = .next t) ∨
     (∃ w r, s.host = .offer w :: r ∧ ((s.busy = true ∧ runOn s = .next t) ∨
        (s.busy = false ∧ runWord ((s.setHost r).accept w) = .next t))) ∨
     (∃ w r, s.host = .start w :: r ∧ ((s.busy = true ∧ runOn s = .next t) ∨
        (s.busy = false ∧ t = (s.setHost r).accept w))) ∨
     (∃ n r, s.host = .clock n :: r ∧ ticks n (s.setHost r) = .next t) ∨
     (∃ r, s.host = .reset :: r ∧ t = (s.setHost r).blockReset) ∨
     (∃ a v r, s.host = .memWrite a v :: r ∧ t = hostMemWrite a v (s.setHost r)) ∨
     (∃ a v r, s.host = .ioWrite a v :: r ∧ s.busy = false ∧ s.cfg.ioVolatile.contains a = false ∧
        t = observe .gpio a v ((s.setHost r).setIo a v)) ∨
     ∃ k r, s.host = .ack k :: r ∧ t = (s.setHost r).setAcks (s.acks ++ [k])) := by
  unfold step at h
  cases hw : s.cfg.wf with
  | false => rw [hw] at h; cases h
  | true =>
    rw [hw, if_pos rfl] at h
    refine ⟨rfl, ?_⟩
    unfold hostStep at h
    cases hh : s.host with
    | nil => rw [hh] at h; exact .inl ⟨rfl, h⟩
    | cons m r =>
      rw [hh] at h
      refine .inr ?_
      cases m with
      | offer w =>
        refine .inl ⟨w, r, rfl, ?_⟩
        cases hb : s.busy <;> simp only [hb, Bool.false_eq_true, if_false, if_true] at h
        · exact .inr ⟨rfl, h⟩
        · exact .inl ⟨rfl, h⟩
      | start w =>
        refine .inr (.inl ⟨w, r, rfl, ?_⟩)
        cases hb : s.busy <;> simp only [hb, Bool.false_eq_true, if_false, if_true] at h
        · cases h; exact .inr ⟨rfl, rfl⟩
        · exact .inl ⟨rfl, h⟩
      | clock n => exact .inr (.inr (.inl ⟨n, r, rfl, h⟩))
      | reset => cases h; exact .inr (.inr (.inr (.inl ⟨r, rfl, rfl⟩)))
      | memWrite a v => cases h; exact .inr (.inr (.inr (.inr (.inl ⟨a, v, r, rfl, rfl⟩))))
      | ioWrite a v =>
        refine .inr (.inr (.inr (.inr (.inr (.inl ⟨a, v, r, rfl, ?_⟩)))))
        change hostIoWrite a v (s.setHost r) = .next t at h
        unfold hostIoWrite at h
        have hb : (s.setHost r).busy = s.busy := rfl
        have hv : (s.setHost r).cfg = s.cfg := rfl
        rw [hb, hv] at h
        cases hb' : s.busy <;> cases hv' : s.cfg.ioVolatile.contains a <;>
          simp only [hb', hv', Bool.false_eq_true, if_false, if_true] at h
        · cases h; exact ⟨rfl, rfl, rfl⟩
        all_goals cases h
      | ack k => cases h; exact .inr (.inr (.inr (.inr (.inr (.inr ⟨k, r, rfl, rfl⟩)))))

end Sys2Proof.Machine
end

