-- ==== Sys2Proof/Laws/Transfer.lean ====
section
/-! SUPPORT. What a beat and a transfer do (43_lcd_sequencer.md R207, R208), each said once. -/

namespace Sys2Proof.Machine

/-! ## Beats and transfers -/

theorem perform_seq {l r : List Micro} {s t : State} (h : perform l s = .next t) :
    perform (l ++ r) s = perform r t := by
  rw [perform_append, h, andThen_next]

theorem busyCycles_pushEvent (e : Event) (tr : List Event) :
    busyCycles (pushEvent e tr) = busyCycles tr + e.cycles := by
  unfold pushEvent
  split <;> simp only [busyCycles, List.map_cons, List.sum_cons, Event.cycles] <;> omega

theorem cycles_log (s : State) (e : Event) : (s.log e).cycles = s.cycles + e.cycles :=
  busyCycles_pushEvent e s.trace

/-- The cycles of a wait. -/
theorem cycles_wait (s : State) (n : Nat) : (s.logCycles .wait n).cycles = s.cycles + n := by
  unfold State.cycles State.logCycles
  by_cases h : n = 0
  · simp [h]
  · simp only [h, if_false, busyCycles_pushEvent, Event.cycles]

/-- The cycles of an unanswered read. -/
theorem cycles_stall (s : State) (n : Nat) : (s.logCycles .stall n).cycles = s.cycles + n := by
  unfold State.cycles State.logCycles
  by_cases h : n = 0
  · simp [h]
  · simp only [h, if_false, busyCycles_pushEvent, Event.cycles]

/-- The lines, the display, the frame, the cycles and the strobes of a piece of a transfer, with its latches. -/
structure Moved (s t : State) (e r : Bool) (v : Byte) (n : Nat) (d : Disp) (l : List (Bool × Byte)) : Prop where
  frame : XferFrame s t
  lines : Lines t e r v
  cycles : t.cycles = s.cycles + n
  disp : t.disp = d
  dl : t.dl = s.dl
  rsl : t.rsl = s.rsl
  beat : t.beat = s.beat
  wired : Wired s t l

theorem Moved.trans {s t u : State} {e e' r r' : Bool} {v v' : Byte} {n m : Nat} {d d' : Disp}
    {l l' : List (Bool × Byte)} (a : Moved s t e r v n d l) (b : Moved t u e' r' v' m d' l') :
    Moved s u e' r' v' (n + m) d' (l ++ l') :=
  ⟨a.frame.trans b.frame, b.lines, by rw [b.cycles, a.cycles, Nat.add_assoc], b.disp, b.dl.trans a.dl,
    b.rsl.trans a.rsl, b.beat.trans a.beat, a.wired.trans b.wired⟩

theorem Lines.congr {s t : State} {e r : Bool} {v : Byte} (L : Lines s e r v) (hc : t.cfg = s.cfg) (hi : t.io = s.io)
    (hd : t.disp = s.disp) : Lines t e r v := by
  have hx : ∀ a, ioCell t a = ioCell s a := fun a => by unfold ioCell; rw [hc, hi]
  obtain ⟨x, hx1, hx2, hx3⟩ := L.ctrl
  exact ⟨⟨x, by rw [hx, hc]; exact hx1, by rw [hc]; exact hx2, by rw [hc]; exact hx3⟩,
    by have := L.data; unfold State.dataLines at this ⊢; rw [hx, hc]; exact this, by rw [hd]; exact L.prevE⟩

theorem SamePins.of_io {s t : State} (hc : t.cfg = s.cfg) (hi : t.io = s.io) : SamePins s t := by
  intro a k _
  unfold ioCell
  rw [hc, hi]

/-- The state of the timing state machine is bookkeeping. -/
theorem tsm_step {s : State} {e r : Bool} {v : Byte} (L : Lines s e r v) (x : Tsm) :
    Moved s ((RegWrite.tsm x).apply s) e r v 0 s.disp [] :=
  ⟨⟨rfl, rfl, rfl, rfl, rfl, rfl, rfl, rfl, rfl, rfl, rfl, rfl, rfl, rfl, rfl, rfl, rfl, rfl, rfl, rfl,
    SamePins.of_io rfl rfl⟩, L.congr rfl rfl rfl, rfl, rfl, rfl, rfl, rfl, .of_same rfl rfl rfl⟩

theorem wait_step {s : State} {e r : Bool} {v : Byte} (L : Lines s e r v) (W : Fresh s) (n : Nat) :
    Moved s ((s.setWcnt 0).logCycles .wait n) e r v n s.disp [] :=
  ⟨⟨rfl, rfl, rfl, rfl, rfl, rfl, rfl, rfl, rfl, rfl, rfl, rfl, rfl, rfl, rfl, rfl, rfl, rfl, rfl, rfl,
    SamePins.of_io rfl rfl⟩, L.congr rfl rfl rfl, cycles_wait _ n, rfl, rfl, rfl, rfl, .wait W n⟩

theorem Moved.of_step {s t : State} {e r : Bool} {v : Byte} {n : Nat} {d : Disp} {l : List (Bool × Byte)}
    (F : XferFrame s t) (A : SameLatches s t) (C : t.cycles = s.cycles + n) (L : Lines t e r v) (D : t.disp = d)
    (W : Wired s t l) : Moved s t e r v n d l := ⟨F, L, C, D, A.dl, A.rsl, A.beat, W⟩

/-- What a falling edge of E makes of the display, with E low again (R285, R286). -/
def strobe (s : State) (r : Bool) (v : Byte) : Disp :=
  (if s.inSyncSteps then s.disp else s.disp.latch s.cfg .seq r (some v)).withE false

theorem perform_reg (r : RegWrite) (l : List Micro) (s : State) :
    perform (.reg r :: l) s = perform l (r.apply s) := rfl

theorem perform_wait (n : Nat) (l : List Micro) (s : State) :
    perform (.wait n :: l) s = perform l ((s.setWcnt 0).logCycles .wait n) := rfl

/-- One beat (R207): the value reaches the data lines, E is strobed, and the display latches. -/
theorem beat_step {s : State} (h : LcdCfg s.cfg) {e r : Bool} {v : Byte} (L : Lines s e r v) :
    ∃ t, perform (beatSeq s.cfg) s = .next t ∧
      Moved s t false r (beatValue s.cfg s.dl s.beat) (6 + s.cfg.tEpw)
        (strobe s r (beatValue s.cfg s.dl s.beat)) [(r, beatValue s.cfg s.dl s.beat)] ∧ Fresh t := by
  have m1 := tsm_step L .data
  obtain ⟨s2, p2, f2, a2, c2, l2, d2, w2, -⟩ := data_step (s := (RegWrite.tsm .data).apply s) h m1.lines
  have m2 := Moved.of_step f2 a2 c2 l2 d2 w2
  have n2 := m1.trans m2
  have m3 := tsm_step n2.lines .ehi
  have n3 := n2.trans m3
  obtain ⟨s4, p4, f4, a4, c4, l4, d4, w4, q4⟩ := ctrl_step (s := (RegWrite.tsm .ehi).apply s2)
    (by rw [n3.frame.cfg]; exact h) n3.lines true s.cfg.eBit (Or.inr (by rw [n3.frame.cfg]))
    (e' := true) (r' := r) (by rw [n3.frame.cfg]; simp) (by rw [n3.frame.cfg, if_neg (fun q => h.rsE q.symm)])
  have n4 := n3.trans (Moved.of_step f4 a4 c4 l4 d4 w4)
  have n5 := n4.trans (tsm_step n4.lines .epw)
  have n6 := n5.trans (wait_step n5.lines q4 s.cfg.tEpw)
  have n7 := n6.trans (tsm_step n6.lines .elo)
  obtain ⟨s8, p8, f8, a8, c8, l8, d8, w8, q8⟩ := ctrl_step (s := (RegWrite.tsm .elo).apply
      ((((RegWrite.tsm .epw).apply s4).setWcnt 0).logCycles .wait s.cfg.tEpw))
    (by rw [n7.frame.cfg]; exact h) n7.lines false s.cfg.eBit (Or.inr (by rw [n7.frame.cfg]))
    (e' := false) (r' := r) (by rw [n7.frame.cfg]; simp) (by rw [n7.frame.cfg, if_neg (fun q => h.rsE q.symm)])
  have n8 := n7.trans (Moved.of_step f8 a8 c8 l8 d8 w8)
  rw [RegWrite.apply_cfg] at p2
  rw [n3.frame.cfg] at p4
  rw [n7.frame.cfg] at p8
  refine ⟨s8, ?_, ⟨n8.frame, n8.lines, ?_, ?_, n8.dl, n8.rsl, n8.beat, ?_⟩, q8⟩
  · unfold beatSeq
    simp only [List.append_assoc, List.cons_append, List.nil_append]
    rw [perform_reg, perform_seq p2, perform_reg, eSet_eq,
      perform_seq p4, perform_reg, perform_wait, perform_reg, eClr_eq]
    exact p8
  · rw [n8.cycles]; omega
  · rw [n8.disp]
    unfold seen strobe
    have hi : ∀ u : State, u.istep = s.istep → u.inSyncSteps = s.inSyncSteps := fun u hu => by
      unfold State.inSyncSteps; rw [hu]
    rw [hi _ n7.frame.istep, n7.frame.cfg, n7.disp]
    have hd4 : s4.disp = s.disp.withE true := by
      rw [d4]; unfold seen
      simp only [Bool.not_true, Bool.and_false, Bool.false_and, Bool.false_eq_true, if_false]
      rw [show ((RegWrite.tsm .ehi).apply s2).disp = s2.disp from rfl, d2]
      rfl
    rw [show (((((RegWrite.tsm .epw).apply s4).setWcnt 0).logCycles .wait s.cfg.tEpw)).disp = s4.disp from rfl, hd4]
    cases s.inSyncSteps
    · simp [Disp.latch_withE]
    · simp
  · have w := n8.wired
    simpa using w

/-- What a whole transfer makes of the display, with E low (R208, R286): the latches of its one or two beats. -/
def delivered (s : State) (rs : Bool) (b : Byte) : Disp :=
  (if s.inSyncSteps then s.disp
   else if s.cfg.lcdBus = 8 then s.disp.latch s.cfg .seq rs (some b)
   else (s.disp.latch s.cfg .seq rs (some (b >>> 4))).latch s.cfg .seq rs (some (b &&& 0x0F#8))).withE false

/-- The start of a transfer: the latches are loaded and RS is driven. No strobe happens, whatever the level of E. -/
theorem start_step {s : State} (h : LcdCfg s.cfg) {e r : Bool} {v : Byte} (L : Lines s e r v) (rs : Bool) (b : Byte) :
    ∃ t, perform (xferStart s.cfg rs b) s = .next t ∧ XferFrame s t ∧ Lines t e rs v ∧ t.cycles = s.cycles + 2 ∧
      t.disp = s.disp ∧ t.dl = b ∧ t.rsl = rs ∧ t.beat = false ∧ Wired s t [] := by
  have L0 : Lines ((RegWrite.tsm .rs).apply ((RegWrite.latch rs b).apply s)) e r v := L.congr rfl rfl rfl
  obtain ⟨t, p, f, a, c, l, d, w, -⟩ := ctrl_step (s := (RegWrite.tsm .rs).apply ((RegWrite.latch rs b).apply s)) h L0 rs
    s.cfg.rsBit (Or.inl rfl) (e' := e) (r' := rs) (by simp [h.rsE]) (by simp)
  have F0 : XferFrame s ((RegWrite.tsm .rs).apply ((RegWrite.latch rs b).apply s)) :=
    ⟨rfl, rfl, rfl, rfl, rfl, rfl, rfl, rfl, rfl, rfl, rfl, rfl, rfl, rfl, rfl, rfl, rfl, rfl, rfl, rfl,
      SamePins.of_io rfl rfl⟩
  refine ⟨t, ?_, F0.trans f, l, c, ?_, a.dl, a.rsl, a.beat, ?_⟩
  · unfold xferStart
    simp only [List.cons_append, List.nil_append]
    rw [perform_reg, perform_reg, rsUpd_eq]
    exact p
  · rw [d]
    unfold seen
    have hp : ((RegWrite.tsm .rs).apply ((RegWrite.latch rs b).apply s)).disp = s.disp := rfl
    rw [hp, L.prevE, if_neg (by cases e <;> simp), ← L.prevE]
    rfl
  · have W0 : Wired s ((RegWrite.tsm .rs).apply ((RegWrite.latch rs b).apply s)) [] := .of_same rfl rfl rfl
    have w1 := W0.trans w
    simpa using w1

/-- The settle wait. -/
theorem settle_step {s : State} {e r : Bool} {v : Byte} (L : Lines s e r v) (W : Fresh s) (n : Nat) :
    ∃ t, perform (xferEnd n) s = .next t ∧ Moved s t e r v n s.disp [] ∧ t.tsm = .idle ∧ t.wcnt = 0 ∧
      NoStall t := by
  have m1 := tsm_step L .settle
  have m2 := m1.trans (wait_step m1.lines W n)
  have m3 := m2.trans (tsm_step m2.lines .idle)
  refine ⟨_, rfl, ⟨m3.frame, m3.lines, ?_, rfl, m3.dl, m3.rsl, m3.beat, m3.wired⟩, rfl, rfl, ?_⟩
  · rw [m3.cycles]; omega
  · exact Fresh.noStall_wait (s := (RegWrite.tsm .settle).apply s) W n

theorem inSyncSteps_congr {s t : State} (h : t.istep = s.istep) : t.inSyncSteps = s.inSyncSteps := by
  unfold State.inSyncSteps; rw [h]

/-- The value that a transfer of `b` leaves on the data lines (R206 to R208): the whole byte, or its low nibble. -/
def lastLines (c : Cfg) (b : Byte) : Byte := if c.lcdBus = 8 then b else b &&& 0x0F#8

/-- `Xfer(rs, b, n)` (R208): it always runs to its end, and this is everything it does. -/
theorem xfer_step {s : State} (h : LcdCfg s.cfg) {e r : Bool} {v : Byte} (L : Lines s e r v) (rs : Bool) (b : Byte)
    (n : Nat) :
    ∃ t, perform (xferSeq s.cfg rs b n) s = .next t ∧ XferFrame s t ∧ Lines t false rs (lastLines s.cfg b) ∧
      t.cycles = s.cycles + xCycles s.cfg n ∧ t.disp = delivered s rs b ∧ t.dl = b ∧ t.rsl = rs ∧
      t.beat = (s.cfg.lcdBus == 4) ∧ t.tsm = .idle ∧ t.wcnt = 0 ∧ Wired s t (byteStrobes s.cfg rs b) ∧
      NoStall t := by
  obtain ⟨s1, p1, f1, l1, c1, d1, dl1, rsl1, b1, w1⟩ := start_step h L rs b
  obtain ⟨s2, p2, m2, q2⟩ := beat_step (s := s1) (by rw [f1.cfg]; exact h) l1
  rw [f1.cfg] at p2 m2
  have hs2 : s2.disp = (if s.inSyncSteps then s.disp
      else s.disp.latch s.cfg .seq rs (some (beatValue s.cfg b false))).withE false := by
    rw [m2.disp]; unfold strobe
    rw [inSyncSteps_congr f1.istep, f1.cfg, d1, dl1, b1]
  rcases h.bus with h4 | h8
  · have L3 : Lines ((RegWrite.tsm .gap).apply ((RegWrite.beat true).apply s2)) false rs _ :=
      m2.lines.congr rfl rfl rfl
    have m4 := wait_step L3 q2 s.cfg.tNib
    have F3 : XferFrame s2 ((RegWrite.tsm .gap).apply ((RegWrite.beat true).apply s2)) :=
      ⟨rfl, rfl, rfl, rfl, rfl, rfl, rfl, rfl, rfl, rfl, rfl, rfl, rfl, rfl, rfl, rfl, rfl, rfl, rfl, rfl,
        SamePins.of_io rfl rfl⟩
    have F4 := ((f1.trans m2.frame).trans F3).trans m4.frame
    obtain ⟨s5, p5, m5, q5⟩ := beat_step (s := (((RegWrite.tsm .gap).apply ((RegWrite.beat true).apply s2)).setWcnt 0).logCycles
      .wait s.cfg.tNib) (by rw [F4.cfg]; exact h) m4.lines
    rw [F4.cfg] at p5 m5
    have hdl : ((((RegWrite.tsm .gap).apply ((RegWrite.beat true).apply s2)).setWcnt 0).logCycles .wait s.cfg.tNib).dl
        = b := (m2.dl : _).trans dl1
    have hbt : ((((RegWrite.tsm .gap).apply ((RegWrite.beat true).apply s2)).setWcnt 0).logCycles .wait s.cfg.tNib).beat
        = true := rfl
    have v1 : beatValue s.cfg b false = b >>> 4 := by simp [beatValue, h4]
    have v2 : beatValue s.cfg b true = b &&& 0x0F#8 := by simp [beatValue, h4]
    have hll : lastLines s.cfg b = b &&& 0x0F#8 := by simp [lastLines, h4]
    rw [hdl, hbt, v2] at m5
    obtain ⟨s6, p6, m6, t6, w6, g6⟩ := settle_step m5.lines q5 n
    refine ⟨s6, ?_, (F4.trans m5.frame).trans m6.frame, by rw [hll]; exact m6.lines, ?_, ?_, ?_, ?_, ?_, t6, w6, ?_, g6⟩
    · unfold xferSeq
      simp only [h4, Nat.reduceEqDiff, if_false, List.append_assoc, List.cons_append, List.nil_append]
      rw [perform_seq p1, perform_seq p2, perform_reg, perform_reg, perform_wait, perform_seq p5]
      exact p6
    · rw [m6.cycles, m5.cycles, m4.cycles]
      have : ((RegWrite.tsm .gap).apply ((RegWrite.beat true).apply s2)).cycles = s2.cycles := rfl
      rw [this, m2.cycles, c1]
      simp only [xCycles, h4, Nat.reduceEqDiff, if_false, x4Cycles]
      omega
    · rw [m6.disp, m5.disp]
      unfold strobe delivered
      rw [inSyncSteps_congr F4.istep, F4.cfg, m4.disp]
      have hd : ((RegWrite.tsm .gap).apply ((RegWrite.beat true).apply s2)).disp = s2.disp := rfl
      rw [hd, hs2, v1]
      cases s.inSyncSteps
      · simp [h4, Disp.latch_withE]
      · simp
    · exact m6.dl.trans (m5.dl.trans (m4.dl.trans (m2.dl.trans dl1)))
    · exact m6.rsl.trans (m5.rsl.trans (m4.rsl.trans (m2.rsl.trans rsl1)))
    · rw [m6.beat, m5.beat, m4.beat, h4]; rfl
    · have W3 : Wired s2 ((RegWrite.tsm .gap).apply ((RegWrite.beat true).apply s2)) [] := .of_same rfl rfl rfl
      have w := ((((w1.trans m2.wired).trans W3).trans m4.wired).trans m5.wired).trans m6.wired
      rw [dl1, b1, v1] at w
      simpa [byteStrobes, h4] using w
  · obtain ⟨s6, p6, m6, t6, w6, g6⟩ := settle_step m2.lines q2 n
    have v1 : beatValue s.cfg b false = b := by simp [beatValue, h8]
    have hll : lastLines s.cfg b = b := by simp [lastLines, h8]
    rw [dl1, b1, v1] at m6
    refine ⟨s6, ?_, (f1.trans m2.frame).trans m6.frame, by rw [hll]; exact m6.lines, ?_, ?_, ?_, ?_, ?_, t6, w6, ?_, g6⟩
    · unfold xferSeq
      simp only [h8, if_true, List.append_assoc, List.nil_append]
      rw [perform_seq p1, perform_seq p2]
      exact p6
    · rw [m6.cycles, m2.cycles, c1]
      simp only [xCycles, h8, if_true, x8Cycles]
      omega
    · rw [m6.disp, hs2]
      unfold delivered
      rw [v1]
      simp [h8]
    · exact m6.dl.trans (m2.dl.trans dl1)
    · exact m6.rsl.trans (m2.rsl.trans rsl1)
    · rw [m6.beat, m2.beat, b1, h8]; rfl
    · have w := (w1.trans m2.wired).trans m6.wired
      rw [dl1, b1, v1] at w
      simpa [byteStrobes, h8] using w

/-- `XferNib(n4, n)` (R209) on a 4-bit bus: one strobe of the nibble, in command mode. -/
theorem nib_step {s : State} (h : LcdCfg s.cfg) (h4 : s.cfg.lcdBus = 4) {e r : Bool} {v : Byte} (L : Lines s e r v)
    (n4 : BitVec 4) (n : Nat) :
    ∃ t w, perform (xferNibSeq s.cfg n4 n) s = .next t ∧ XferFrame s t ∧ Lines t false false w ∧
      t.cycles = s.cycles + xnCycles s.cfg n ∧ Wired s t [(false, n4.setWidth 8)] := by
  obtain ⟨s1, p1, f1, l1, c1, d1, dl1, rsl1, b1, w1⟩ := start_step h L false (n4 ++ 0#4)
  obtain ⟨s2, p2, m2, q2⟩ := beat_step (s := s1) (by rw [f1.cfg]; exact h) l1
  rw [f1.cfg] at p2 m2
  obtain ⟨s6, p6, m6, -⟩ := settle_step m2.lines q2 n
  refine ⟨s6, _, ?_, (f1.trans m2.frame).trans m6.frame, m6.lines, ?_, ?_⟩
  · unfold xferNibSeq
    rw [List.append_assoc, perform_seq p1, perform_seq p2]; exact p6
  · rw [m6.cycles, m2.cycles, c1]; unfold xnCycles; omega
  · have w := (w1.trans m2.wired).trans m6.wired
    have hv : beatValue s.cfg (n4 ++ 0#4) false = n4.setWidth 8 := by
      simp only [beatValue, h4, Nat.reduceEqDiff, if_false, Bool.false_eq_true]
      exact (by decide : ∀ n : BitVec 4, (n ++ 0#4) >>> 4 = n.setWidth 8) n4
    rw [dl1, b1, hv] at w
    simpa using w

/-- A transfer's byte, read off the data register (R206 to R208). -/
theorem dataLeft_of_lines {t : State} (h : LcdCfg t.cfg) {e r : Bool} {b : Byte}
    (L : Lines t e r (lastLines t.cfg b)) : DataLeft t b := by
  obtain ⟨x, hx, hv⟩ := L.dataCell
  refine ⟨x, hx, ?_⟩
  unfold lastLines at hv
  rcases h.bus with h4 | h8
  · have hk := h.shift4 h4
    rw [if_neg (by omega)] at hv ⊢
    rw [← hv]
    unfold dmask
    rw [if_neg (by omega)]
    have : ∀ k : Fin 5, ∀ v : Byte, v &&& 0x0F#8 <<< k.val = ((v &&& 0x0F#8 <<< k.val) >>> k.val) <<< k.val := by
      decide +kernel
    exact this ⟨t.cfg.dataShift, by omega⟩ x
  · rw [if_pos h8] at hv ⊢
    rw [← hv, h.shift8 h8, BitVec.ushiftRight_zero]

/-- A transfer to a display that is in step delivers its byte (R204 to R208, R286, R288, R290). -/
theorem delivered_inStep {s : State} (h : LcdCfg s.cfg) (hs : InStep s) (rs : Bool) (b : Byte) :
    delivered s rs b = (s.disp.exec s.cfg rs b).withE false := by
  obtain ⟨h1, h2, h3, h4⟩ := hs
  unfold delivered
  simp only [h4, Bool.false_eq_true, if_false]
  rcases h.bus with b4 | b8
  · simp only [b4, Nat.reduceEqDiff, if_false]
    rw [Disp.latch_four _ _ _ _ h1 (by rw [h2, b4]; rfl) h3]
  · simp only [b8, if_true]
    rw [Disp.latch_eight _ _ _ _ h1 (by rw [h2, b8]; rfl)]

/-- A display that is not tracked sees nothing of a transfer (R286). -/
theorem delivered_not_sync {s : State} (hs : s.disp.sync ≠ .sync) (rs : Bool) (b : Byte) :
    delivered s rs b = s.disp.withE false := by
  unfold delivered
  rw [Disp.latch_not_sync _ _ _ _ _ hs, Disp.latch_not_sync _ _ _ _ _ hs, Disp.latch_not_sync _ _ _ _ _ hs]
  simp

end Sys2Proof.Machine
end

