-- ==== Sys2Proof/Laws/Loops.lean ====
section
/-! SUPPORT. The loops over host memory (44_lcd_ops.md R244, R247), by induction on the bytes they send. -/

namespace Sys2Proof.Machine

/-! ## The display over several transfers -/

theorem Disp.sent_withE (c : Cfg) (l : List (Bool × Byte)) (d : Disp) (e : Bool) :
    (d.withE e).sent c l = (d.sent c l).withE e := by
  induction l generalizing d with
  | nil => rfl
  | cons p l ih =>
    obtain ⟨rs, b⟩ := p
    simp only [Disp.sent, Disp.withE_sync, Disp.exec_withE]
    rw [← ih]
    congr 1
    split <;> rfl

theorem Disp.sent_append (c : Cfg) (l r : List (Bool × Byte)) (d : Disp) :
    d.sent c (l ++ r) = (d.sent c l).sent c r := by
  induction l generalizing d with
  | nil => rfl
  | cons p l ih => obtain ⟨rs, b⟩ := p; simp only [List.cons_append, Disp.sent, ih]

theorem Disp.eLow_eq (d : Disp) : d.eLow = d.withE false := rfl

/-- One transfer to a display that is in step or not tracked. -/
theorem delivered_tracked {s : State} (h : LcdCfg s.cfg) (hs : Tracked s) (rs : Bool) (b : Byte) :
    delivered s rs b = (s.disp.sent s.cfg [(rs, b)]).eLow := by
  by_cases hy : s.disp.sync = .sync
  · rw [delivered_inStep h (hs hy), Disp.sent, if_pos hy]; rfl
  · rw [delivered_not_sync hy, Disp.sent, if_neg hy]; rfl

theorem Tracked.congr {s t : State} (h : Tracked s) (hc : t.cfg = s.cfg) (hi : t.istep = s.istep)
    (hd : t.disp = s.disp) : Tracked t := by
  intro hy
  rw [hd] at hy
  obtain ⟨a1, a2, a3, a4⟩ := h hy
  exact ⟨by rw [hd]; exact a1, by rw [hd, hc]; exact a2, by rw [hd]; exact a3,
    by rw [inSyncSteps_congr hi]; exact a4⟩

/-- A byte leaves a display that is in step in step, or loses it. -/
theorem Tracked.after {s t : State} (h : Tracked s) (rs : Bool) (b : Byte) (hc : t.cfg = s.cfg)
    (hi : t.istep = s.istep) (hd : t.disp = (s.disp.sent s.cfg [(rs, b)]).eLow) : Tracked t := by
  intro hy
  have hd' : t.disp = (if s.disp.sync = .sync then s.disp.exec s.cfg rs b else s.disp).eLow := hd
  by_cases hs : s.disp.sync = .sync
  · rw [if_pos hs] at hd'
    obtain ⟨-, h2, h3, h4⟩ := h hs
    refine ⟨hy, ?_, ?_, ?_⟩
    · rw [hd', hc, ← h2]; exact Disp.exec_bus8 ..
    · rw [hd', ← h3]; exact Disp.exec_pend ..
    · rw [inSyncSteps_congr hi, h4]
  · rw [if_neg hs] at hd'
    rw [hd'] at hy
    exact absurd hy hs

/-! ## Frames of whole operations -/

/-- What an LCD operation that is no LCDINIT leaves alone, but for AMODE, SP, GI and the answers it uses up. -/
structure OpFrame (s t : State) : Prop where
  cfg : t.cfg = s.cfg
  opr : t.opr = s.opr
  istep : t.istep = s.istep
  initDone : t.initDone = s.initDone
  fault : t.fault = s.fault
  fcode : t.fcode = s.fcode
  fop : t.fop = s.fop
  result : t.result = s.result
  btn : t.btn = s.btn
  mem : t.mem = s.mem
  host : t.host = s.host
  draws : t.draws = s.draws
  pins : SamePins s t

theorem OpFrame.trans {s t u : State} (h : OpFrame s t) (k : OpFrame t u) : OpFrame s u where
  cfg := k.cfg.trans h.cfg
  opr := k.opr.trans h.opr
  istep := k.istep.trans h.istep
  initDone := k.initDone.trans h.initDone
  fault := k.fault.trans h.fault
  fcode := k.fcode.trans h.fcode
  fop := k.fop.trans h.fop
  result := k.result.trans h.result
  btn := k.btn.trans h.btn
  mem := k.mem.trans h.mem
  host := k.host.trans h.host
  draws := k.draws.trans h.draws
  pins := h.pins.trans h.cfg k.pins

theorem XferFrame.op {s t : State} (h : XferFrame s t) : OpFrame s t :=
  ⟨h.cfg, h.opr, h.istep, h.initDone, h.fault, h.fcode, h.fop, h.result, h.btn, h.mem, h.host, h.draws, h.pins⟩

/-- A register write that leaves the status, the table and the display alone. -/
theorem OpFrame.toIdle (s : State) : OpFrame s s.toIdle :=
  ⟨rfl, rfl, rfl, rfl, rfl, rfl, rfl, rfl, rfl, rfl, rfl, rfl, SamePins.of_io rfl rfl⟩

theorem AtRest.toIdle (s : State) : AtRest s.toIdle := ⟨rfl, rfl, rfl, rfl, rfl⟩

/-! ## One MemRead -/

theorem drawn_zero (s : State) : s.drawn 0 = s := rfl

theorem memCandidates_quiet {s : State} (h : s.raced = []) (a : MemAddr) : memCandidates s a = [memByte s a] := by
  unfold memCandidates; rw [h]; rfl

theorem memValue_quiet {s : State} (h : s.raced = []) (a : MemAddr) : memValue a s = memByte s a := by
  unfold memValue; rw [memCandidates_quiet h]

theorem memTaken_quiet {s : State} (h : s.raced = []) (a : MemAddr) :
    memTaken s a = s.log (.memRd a (memByte s a)) := by
  unfold memTaken; rw [memCandidates_quiet h, memValue_quiet h]; exact congrArg (State.log · _) (drawn_zero s)

theorem OpFrame.ofLog (s : State) (e : Event) : OpFrame s (s.log e) :=
  ⟨rfl, rfl, rfl, rfl, rfl, rfl, rfl, rfl, rfl, rfl, rfl, rfl, SamePins.of_io rfl rfl⟩

theorem OpFrame.ofLogCycles (s : State) (k : Nat → Event) (n : Nat) : OpFrame s (s.logCycles k n) :=
  ⟨rfl, rfl, rfl, rfl, rfl, rfl, rfl, rfl, rfl, rfl, rfl, rfl, SamePins.of_io rfl rfl⟩

theorem OpFrame.ofSetAcks (s : State) (r : List Ack) : OpFrame s (s.setAcks r) :=
  ⟨rfl, rfl, rfl, rfl, rfl, rfl, rfl, rfl, rfl, rfl, rfl, rfl, SamePins.of_io rfl rfl⟩

/-- An answered MemRead without a race (R62, R78). -/
theorem memRead_quiet {s : State} (hr : s.raced = []) (ha : Answered s 1) :
    ∃ t, memRead s = some (memByte s s.sp, t) ∧ OpFrame s t ∧ t.amode = s.amode ∧ t.sp = s.sp ∧ t.gi = s.gi ∧
      t.loop = s.loop ∧ t.raced = [] ∧ t.io = s.io ∧ t.disp = s.disp ∧ t.acks = s.acks.drop 1 ∧
      t.cycles = s.cycles + readCycles s 1 ∧ SameLatched s t ∧
      (NoStall s → t.trace = readTrace s s.sp (memByte s s.sp) ++ s.trace) := by
  unfold memRead
  unfold Answered at ha
  unfold readCycles readTrace
  cases hk : s.acks with
  | nil =>
    refine ⟨s.log (.memRd s.sp (memByte s s.sp)), by rw [memValue_quiet hr, memTaken_quiet hr],
      OpFrame.ofLog .., State.log_amode .., State.log_sp .., State.log_gi .., State.log_loop .., hr,
      State.log_io .., State.log_disp .., hk, ?_, ⟨rfl, rfl, rfl, rfl, rfl⟩, fun _ => rfl⟩
    rw [cycles_log]; rfl
  | cons k r =>
    cases k with
    | never => rw [hk] at ha; simp at ha
    | after n =>
      have hr' : ((s.setAcks r).logCycles .stall n).raced = [] := hr
      refine ⟨((s.setAcks r).logCycles .stall n).log (.memRd s.sp (memByte s s.sp)),
        by rw [memValue_quiet hr]; simp only; rw [memTaken_quiet hr']; rfl,
        ((OpFrame.ofSetAcks ..).trans (OpFrame.ofLogCycles ..)).trans (OpFrame.ofLog ..), State.log_amode ..,
        State.log_sp .., State.log_gi .., State.log_loop .., hr, State.log_io .., State.log_disp .., State.log_acks .., ?_,
        ⟨State.log_dl .., State.log_rsl .., State.log_beat .., State.log_wcnt .., State.log_rmwv ..⟩, fun hn => ?_⟩
      · have hc : ((s.setAcks r).logCycles .stall n).cycles = s.cycles + n := cycles_stall (s.setAcks r) n
        rw [cycles_log, hc]
        simp [Event.cycles, Ack.stalls]; omega
      · show .memRd s.sp (memByte s s.sp) :: (if n = 0 then s.trace else pushEvent (.stall n) s.trace) = _
        have hp : pushEvent (.stall n) s.trace = .stall n :: s.trace := by
          cases ht : s.trace with
          | nil => rfl
          | cons e l => cases e <;> first | rfl | exact absurd ht (hn _ _)
        by_cases h0 : n = 0 <;> simp [Ack.stalls, h0, hp]

/-- A MemRead strobes nothing. -/
theorem Wired.ofRead {s t : State} (F : OpFrame s t) (hi : t.io = s.io) {a : MemAddr} {v : Byte}
    (ht : t.trace = readTrace s a v ++ s.trace) : Wired s t [] := by
  have hx : ∀ a, ioCell t a = ioCell s a := fun a => by unfold ioCell; rw [F.cfg, hi]
  refine ⟨F.cfg, _, ht, fun x y h1 h2 => ?_⟩
  rw [hx, hx, h1, h2]
  unfold readTrace
  cases ((s.acks.take 1).map Ack.stalls).sum <;> exact ⟨rfl, rfl, rfl⟩

theorem memByte_congr {s t : State} (h : t.mem = s.mem) (a : MemAddr) : memByte t a = memByte s a := by
  unfold memByte; rw [h]

theorem StringAt.congr {s t : State} (h : t.mem = s.mem) {a : MemAddr} {l : List Byte} (hs : StringAt s a l) :
    StringAt t a l := by
  induction l generalizing a with
  | nil => simpa [StringAt, memByte_congr h] using hs
  | cons b l ih =>
    obtain ⟨h1, h2, h3⟩ := hs
    exact ⟨by rw [memByte_congr h]; exact h1, h2, ih h3⟩

theorem bytesAt_congr {s t : State} (h : t.mem = s.mem) (a : MemAddr) (n : Nat) : bytesAt t a n = bytesAt s a n := by
  induction n generalizing a with
  | zero => rfl
  | succ n ih => simp only [bytesAt, memByte_congr h, ih]

theorem Answered.drop {s t : State} {n : Nat} (h : Answered s (n + 1)) (ht : t.acks = s.acks.drop 1) :
    Answered t n := by
  unfold Answered at *
  rw [ht]
  cases hk : s.acks with
  | nil => simp
  | cons k r => rw [hk] at h; simp at h ⊢; exact h.2

theorem Answered.mono {s : State} {n m : Nat} (h : Answered s n) (hm : m ≤ n) : Answered s m := by
  unfold Answered at *
  exact fun hx => h (List.Sublist.subset (List.take_sublist_take_left hm) hx)

theorem Answered.congr {s t : State} {n : Nat} (h : Answered s n) (ht : t.acks = s.acks) : Answered t n := by
  unfold Answered at *; rw [ht]; exact h

theorem readCycles_succ {s t : State} (n : Nat) (ht : t.acks = s.acks.drop 1) :
    readCycles s (n + 1) = readCycles s 1 + readCycles t n := by
  unfold readCycles
  rw [ht]
  cases hk : s.acks with
  | nil => simp; omega
  | cons k r => simp; omega

theorem readCycles_congr {s t : State} (n : Nat) (ht : t.acks = s.acks) : readCycles t n = readCycles s n := by
  unfold readCycles; rw [ht]

/-- A string's length is less than the size of host memory: a longer one would have met its own terminator. -/
theorem StringAt.get {s : State} {a : MemAddr} {l : List Byte} (h : StringAt s a l) :
    (∀ i, i < l.length → memByte s (a + BitVec.ofNat 16 i) ≠ 0x00#8) ∧
      memByte s (a + BitVec.ofNat 16 l.length) = 0x00#8 := by
  induction l generalizing a with
  | nil => exact ⟨fun i hi => absurd hi (Nat.not_lt_zero i), by simpa [StringAt] using h⟩
  | cons b l ih =>
    obtain ⟨h1, h2, h3⟩ := h
    obtain ⟨h4, h5⟩ := ih h3
    have hadd : ∀ i, a + BitVec.ofNat 16 (i + 1) = a + 1#16 + BitVec.ofNat 16 i := by
      intro i
      apply BitVec.eq_of_toNat_eq
      simp only [BitVec.toNat_add, BitVec.toNat_ofNat]
      omega
    refine ⟨fun i hi => ?_, by rw [List.length_cons, hadd]; exact h5⟩
    cases i with
    | zero => simpa [h1] using h2
    | succ i => rw [hadd]; exact h4 i (by simpa using hi)

theorem StringAt.length_lt {s : State} {a : MemAddr} {l : List Byte} (h : StringAt s a l) : l.length < 65536 := by
  obtain ⟨h1, h2⟩ := h.get
  by_contra hl
  have hk : BitVec.ofNat 16 (l.length - 65536) = BitVec.ofNat 16 l.length := by
    apply BitVec.eq_of_toNat_eq
    rw [BitVec.toNat_ofNat, BitVec.toNat_ofNat]
    exact (Nat.mod_eq_sub_mod (Nat.le_of_not_lt hl)).symm
  have hlt : l.length - 65536 < l.length := Nat.sub_lt (Nat.lt_of_lt_of_le (by decide) (Nat.le_of_not_lt hl)) (by decide)
  exact h1 _ hlt (by rw [hk]; exact h2)

/-! ## The string loop -/

theorem eLow_sent_cons (c : Cfg) (p : Bool × Byte) (l : List (Bool × Byte)) (d : Disp) :
    (d.sent c [p]).eLow.sent c l = (d.sent c (p :: l)).withE false := by
  rw [Disp.eLow_eq, Disp.sent_withE, ← Disp.sent_append]; rfl

/-- The last turn of the string loop: it reads the terminator, and touches no register outside the block (R244). -/
theorem str_end {s : State} {k : Nat} (hl : s.loop = .str) (hr : s.raced = []) (hb : memByte s s.sp = 0x00#8)
    (hA : Answered s 1) :
    ∃ t, runLoop (k + 1) s = .next t ∧ OpFrame s t ∧ AtRest t ∧ t.amode = s.amode ∧ t.gi = s.gi ∧ t.sp = s.sp ∧
      t.acks = s.acks.drop 1 ∧ t.cycles = s.cycles + readCycles s 1 ∧ t.io = s.io ∧ t.disp = s.disp ∧
      SameLatched s t ∧ (NoStall s → t.trace = readTrace s s.sp 0x00#8 ++ s.trace) := by
  obtain ⟨u, hu, F, ua, us, ug, ul, ur, ui, ud, uk, uc, uh, ut⟩ := memRead_quiet hr hA
  have ht : turnSeq u (memByte s s.sp) = [.reg .loopEnd] := by
    unfold turnSeq; rw [ul, hl]; simp [hb]
  have h1 : OpFrame u ((RegWrite.loopEnd).apply u) :=
    ⟨rfl, rfl, rfl, rfl, rfl, rfl, rfl, rfl, rfl, rfl, rfl, rfl, SamePins.of_io rfl rfl⟩
  refine ⟨((RegWrite.loopEnd).apply u).toIdle, ?_, F.trans (h1.trans (OpFrame.toIdle _)), AtRest.toIdle _, ua, ug, us, uk,
    uc, ui, ud, uh, fun hn => hb ▸ ut hn⟩
  rw [runLoop_step (by rw [hl]; decide), hu]
  simp only [ht, perform_reg, perform_nil, andThen_next]
  exact runLoop_done _ _ rfl

/-- The string loop of LCDSTR and LCDSTRAT (R244), and everything it does. -/
theorem str_loop (l : List Byte) : ∀ (s : State) (k : Nat) (e r : Bool) (v : Byte), LcdCfg s.cfg → s.loop = .str →
    s.raced = [] → Lines s e r v → NoStall s → StringAt s s.sp l → Answered s (l.length + 1) → l.length < k →
    ∃ t, runLoop k s = .next t ∧ OpFrame s t ∧ AtRest t ∧ t.amode = s.amode ∧ t.gi = s.gi ∧
      t.sp = s.sp + BitVec.ofNat 16 l.length ∧ t.acks = s.acks.drop (l.length + 1) ∧
      t.cycles = s.cycles + readCycles s (l.length + 1) + l.length * xCycles s.cfg s.cfg.tCmd ∧
      Wired s t (dataStrobes s.cfg l) ∧ (l = [] → Lines t e r v ∧ t.io = s.io ∧ SameLatched s t) ∧
      (∀ b, l.getLast? = some b → Lines t false true (lastLines s.cfg b) ∧ Latched t true b) ∧
      (Tracked s → t.disp = if l = [] then s.disp else (s.disp.sent s.cfg (dataBytes l)).eLow) := by
  induction l with
  | nil =>
    intro s k e r v h hl hr L hN hS hA hk
    obtain ⟨k, rfl⟩ : ∃ j, k = j + 1 := ⟨k - 1, by simp at hk; omega⟩
    obtain ⟨t, p, F, R, ta, tg, ts, tk, tc, ti, td, th, tt⟩ := str_end (k := k) hl hr hS hA
    exact ⟨t, p, F, R, ta, tg, by rw [ts]; simp, tk, by rw [tc]; simp, .ofRead F ti (tt hN),
      fun _ => ⟨L.congr F.cfg ti td, ti, th⟩, (fun _ q => by cases q), fun _ => by rw [if_pos rfl]; exact td⟩
  | cons b l ih =>
    intro s k e r v h hl hr L hN hS hA hk
    obtain ⟨hb, hb0, hS⟩ := hS
    obtain ⟨u, hu, F, ua, us, ug, ul, ur, ui, ud, uk, uc, uh, ut⟩ := memRead_quiet hr (hA.mono (by simp))
    obtain ⟨k, rfl⟩ : ∃ j, k = j + 1 := ⟨k - 1, by simp at hk; omega⟩
    have hu' : LcdCfg u.cfg := by rw [F.cfg]; exact h
    obtain ⟨x, px, fx, lx, cx, dx, x1, x2, x3, -, x5, xw, xn⟩ := xfer_step hu' (L.congr F.cfg ui ud) true b u.cfg.tCmd
    rw [F.cfg] at lx x3 xw
    have hdx : Tracked s → x.disp = (s.disp.sent s.cfg [(true, b)]).eLow := fun hT => by
      rw [dx, delivered_tracked hu' (hT.congr F.cfg F.istep ud), ud, F.cfg]
    have FX := F.trans fx.op
    have Fn : OpFrame s ((RegWrite.spInc).apply x) := FX.trans
      ⟨rfl, rfl, rfl, rfl, rfl, rfl, rfl, rfl, rfl, rfl, rfl, rfl, SamePins.of_io rfl rfl⟩
    have hsp : ((RegWrite.spInc).apply x).sp = s.sp + 1#16 := by
      show x.sp + 1#16 = _; rw [fx.sp, us]
    have hacks : ((RegWrite.spInc).apply x).acks = s.acks.drop 1 := fx.acks.trans uk
    obtain ⟨t, pt, Ft, rt, at', gt, st, kt, ct, wt, lt, nt, dt⟩ := ih ((RegWrite.spInc).apply x) k false true (lastLines s.cfg b)
      (by rw [Fn.cfg]; exact h) (by show x.loop = _; rw [fx.loop, ul, hl]) (fx.raced.trans ur)
      (lx.congr rfl rfl rfl) xn
      (by rw [hsp]; exact hS.congr Fn.mem) (hA.drop hacks) (by simpa using hk)
    have htu : turnSeq u (memByte s s.sp) = xferSeq u.cfg true b u.cfg.tCmd ++ [.reg .spInc] := by
      unfold turnSeq; rw [ul, hl, hb]; simp [hb0]
    refine ⟨t, ?_, Fn.trans Ft, rt, ?_, ?_, ?_, ?_, ?_, ?_, fun q => absurd q (List.cons_ne_nil b l), ?_, ?_⟩
    · rw [runLoop_step (by rw [hl]; decide), hu]
      simp only [htu]
      rw [perform_seq px, perform_reg, perform_nil, andThen_next]
      exact pt
    · rw [at']; exact fx.amode.trans ua
    · rw [gt]; exact fx.gi.trans ug
    · rw [st, hsp, List.length_cons]
      apply BitVec.eq_of_toNat_eq
      simp only [BitVec.toNat_add, BitVec.toNat_ofNat]
      omega
    · rw [kt, hacks, List.drop_drop, List.length_cons]; congr 1; omega
    · rw [ct, Fn.cfg, List.length_cons, readCycles_succ (l.length + 1) hacks]
      have hc1 : ((RegWrite.spInc).apply x).cycles = x.cycles := rfl
      rw [hc1, cx, uc, F.cfg, Nat.succ_mul]
      omega
    · have hs : Wired x ((RegWrite.spInc).apply x) [] := .of_same rfl rfl rfl
      rw [Fn.cfg] at wt
      have w := (((Wired.ofRead F ui (ut hN)).trans xw).trans hs).trans wt
      simpa [dataStrobes] using w
    · intro c hc
      rw [List.getLast?_cons, Option.some.injEq] at hc
      cases hq : l.getLast? with
      | none =>
        rw [hq] at hc
        subst hc
        obtain ⟨t1, -, t2, t3, t4, t5, -⟩ := lt (List.getLast?_eq_none_iff.mp hq)
        exact ⟨t1, t2.trans x1, t3.trans x2, by rw [(Fn.trans Ft).cfg]; exact t4.trans x3, t5.trans x5⟩
      | some c' =>
        rw [hq] at hc
        subst hc
        have q := nt c' hq
        rw [Fn.cfg] at q
        exact q
    · intro hT
      rw [dt (Tracked.after (t := (RegWrite.spInc).apply x) hT true b Fn.cfg Fn.istep (hdx hT)), Fn.cfg,
        if_neg (List.cons_ne_nil b l)]
      show (if l = [] then x.disp else (x.disp.sent s.cfg (dataBytes l)).eLow) = _
      rw [hdx hT]
      by_cases hl0 : l = []
      · rw [if_pos hl0, hl0]; rfl
      · rw [if_neg hl0, eLow_sent_cons]; rfl

/-! ## The glyph row loop -/

theorem readCycles_zero (s : State) : readCycles s 0 = 0 := by simp [readCycles]

/-- The row loop of LCDGLYPH (R247), from row 8 - n on, and everything it does. -/
theorem glyph_loop (n : Nat) : ∀ (s : State) (k : Nat) (r : Bool) (v : Byte), LcdCfg s.cfg → s.loop = .glyph →
    s.raced = [] → Lines s false r v → NoStall s → Answered s (n + 1) → n + 1 < k → n + 1 ≤ 8 →
    s.gi = BitVec.ofNat 4 (7 - n) →
    ∃ t, runLoop k s = .next t ∧ OpFrame s t ∧ AtRest t ∧ t.amode = s.amode ∧ t.gi = 8#4 ∧
      t.sp = s.sp + BitVec.ofNat 16 (n + 1) ∧ t.acks = s.acks.drop (n + 1) ∧
      t.cycles = s.cycles + readCycles s (n + 1) + (n + 1) * xCycles s.cfg s.cfg.tCmd ∧
      Lines t false true (lastLines s.cfg (memByte s (s.sp + BitVec.ofNat 16 n))) ∧
      Latched t true (memByte s (s.sp + BitVec.ofNat 16 n)) ∧
      Wired s t (dataStrobes s.cfg (bytesAt s s.sp (n + 1))) ∧
      (Tracked s → t.disp = (s.disp.sent s.cfg (dataBytes (bytesAt s s.sp (n + 1)))).eLow) := by
  induction n with
  | zero =>
    intro s k r v h hl hr L hN hA hk hn hg
    obtain ⟨u, hu, F, ua, us, ug, ul, ur, ui, ud, uk, uc, uh, ut⟩ := memRead_quiet hr (hA.mono (by simp))
    obtain ⟨k, rfl⟩ : ∃ j, k = j + 1 := ⟨k - 1, by omega⟩
    have hu' : LcdCfg u.cfg := by rw [F.cfg]; exact h
    obtain ⟨x, px, fx, lx, cx, dx, x1, x2, x3, -, x5, xw, xn⟩ :=
      xfer_step hu' (L.congr F.cfg ui ud) true (memByte s s.sp) u.cfg.tCmd
    rw [F.cfg] at lx x3 xw
    have hdx : Tracked s → x.disp = (s.disp.sent s.cfg [(true, memByte s s.sp)]).eLow := fun hT => by
      rw [dx, delivered_tracked hu' (hT.congr F.cfg F.istep ud), ud, F.cfg]
    have FX := F.trans fx.op
    have hgi : ((RegWrite.spInc).apply x).gi = 7#4 := by
      show x.gi = _; rw [fx.gi, ug, hg]
    have hgl : ((RegWrite.giInc).apply ((RegWrite.spInc).apply x)).loop = .done := by
      show (if ((RegWrite.spInc).apply x).gi + 1#4 < 8#4 then _ else _) = _
      rw [hgi]; rfl
    have hgg : ((RegWrite.giInc).apply ((RegWrite.spInc).apply x)).gi = 8#4 := by
      show ((RegWrite.spInc).apply x).gi + 1#4 = _
      rw [hgi]; rfl
    have Fn : OpFrame s ((RegWrite.giInc).apply ((RegWrite.spInc).apply x)) := (FX.trans
      (⟨rfl, rfl, rfl, rfl, rfl, rfl, rfl, rfl, rfl, rfl, rfl, rfl, SamePins.of_io rfl rfl⟩ :
        OpFrame x ((RegWrite.spInc).apply x))).trans
      ⟨rfl, rfl, rfl, rfl, rfl, rfl, rfl, rfl, rfl, rfl, rfl, rfl, SamePins.of_io rfl rfl⟩
    have htu : turnSeq u (memByte s s.sp) =
        xferSeq u.cfg true (memByte s s.sp) u.cfg.tCmd ++ [.reg .spInc, .reg .giInc] := by
      unfold turnSeq; rw [ul, hl]
    refine ⟨((RegWrite.giInc).apply ((RegWrite.spInc).apply x)).toIdle, ?_, Fn.trans (OpFrame.toIdle _),
      AtRest.toIdle _, fx.amode.trans ua, hgg, ?_, fx.acks.trans uk, ?_, ?_, ?_, ?_, ?_⟩
    · rw [runLoop_step (by rw [hl]; decide), hu]
      simp only [htu]
      rw [perform_seq px, perform_reg, perform_reg, perform_nil, andThen_next]
      exact runLoop_done _ _ hgl
    · show x.sp + 1#16 = _; rw [fx.sp, us]
    · show x.cycles = _; rw [cx, uc, F.cfg, Nat.zero_add, Nat.one_mul]
    · rw [BitVec.add_zero]
      exact ((lx.congr (t := (RegWrite.spInc).apply x) rfl rfl rfl).congr
        (t := (RegWrite.giInc).apply ((RegWrite.spInc).apply x)) rfl rfl rfl).congr rfl rfl rfl
    · rw [BitVec.add_zero]
      exact ⟨x1, x2, by rw [show ∀ u : State, u.toIdle.cfg = u.cfg from fun _ => rfl, Fn.cfg]; exact x3, x5⟩
    · have hs : Wired x ((RegWrite.giInc).apply ((RegWrite.spInc).apply x)).toIdle [] := .of_same rfl rfl rfl
      have w := ((Wired.ofRead F ui (ut hN)).trans xw).trans hs
      simpa [dataStrobes, bytesAt] using w
    · intro hT; show x.disp = _; rw [hdx hT]; rfl
  | succ n ih =>
    intro s k r v h hl hr L hN hA hk hn hg
    obtain ⟨u, hu, F, ua, us, ug, ul, ur, ui, ud, uk, uc, uh, ut⟩ := memRead_quiet hr (hA.mono (by simp))
    obtain ⟨k, rfl⟩ : ∃ j, k = j + 1 := ⟨k - 1, by omega⟩
    have hu' : LcdCfg u.cfg := by rw [F.cfg]; exact h
    obtain ⟨x, px, fx, lx, cx, dx, x1, x2, x3, -, x5, xw, xn⟩ :=
      xfer_step hu' (L.congr F.cfg ui ud) true (memByte s s.sp) u.cfg.tCmd
    rw [F.cfg] at lx x3 xw
    have hdx : Tracked s → x.disp = (s.disp.sent s.cfg [(true, memByte s s.sp)]).eLow := fun hT => by
      rw [dx, delivered_tracked hu' (hT.congr F.cfg F.istep ud), ud, F.cfg]
    have FX := F.trans fx.op
    obtain ⟨y, hy⟩ : ∃ y, y = (RegWrite.giInc).apply ((RegWrite.spInc).apply x) := ⟨_, rfl⟩
    have hgi : ((RegWrite.spInc).apply x).gi = BitVec.ofNat 4 (7 - (n + 1)) := by
      show x.gi = _; rw [fx.gi, ug, hg]
    have hng : BitVec.ofNat 4 (7 - (n + 1)) + 1#4 = BitVec.ofNat 4 (7 - n) := by
      have : ∀ m : Fin 7, BitVec.ofNat 4 (7 - (m.val + 1)) + 1#4 = BitVec.ofNat 4 (7 - m.val) := by decide
      exact this ⟨n, by omega⟩
    have hlt : BitVec.ofNat 4 (7 - n) < 8#4 := by
      have : ∀ m : Fin 7, BitVec.ofNat 4 (7 - m.val) < 8#4 := by decide
      exact this ⟨n, by omega⟩
    have hyl : y.loop = .glyph := by
      rw [hy]
      show (if ((RegWrite.spInc).apply x).gi + 1#4 < 8#4 then ((RegWrite.spInc).apply x).loop else _) = _
      rw [hgi, hng, if_pos hlt]
      show x.loop = _; rw [fx.loop, ul, hl]
    have hyg : y.gi = BitVec.ofNat 4 (7 - n) := by
      rw [hy]
      show ((RegWrite.spInc).apply x).gi + 1#4 = _
      rw [hgi, hng]
    have Fn : OpFrame s y := by
      rw [hy]
      exact (FX.trans
        (⟨rfl, rfl, rfl, rfl, rfl, rfl, rfl, rfl, rfl, rfl, rfl, rfl, SamePins.of_io rfl rfl⟩ :
          OpFrame x ((RegWrite.spInc).apply x))).trans
        ⟨rfl, rfl, rfl, rfl, rfl, rfl, rfl, rfl, rfl, rfl, rfl, rfl, SamePins.of_io rfl rfl⟩
    have hsp : y.sp = s.sp + 1#16 := by
      rw [hy]; show x.sp + 1#16 = _; rw [fx.sp, us]
    have hacks : y.acks = s.acks.drop 1 := by rw [hy]; exact fx.acks.trans uk
    have hyd : Tracked s → y.disp = (s.disp.sent s.cfg [(true, memByte s s.sp)]).eLow := fun hT => by
      rw [hy]; exact hdx hT
    have hyc : y.cycles = x.cycles := by rw [hy]; rfl
    have hyL : Lines y false true (lastLines s.cfg (memByte s s.sp)) := by
      rw [hy]
      exact (lx.congr (t := (RegWrite.spInc).apply x) rfl rfl rfl).congr rfl rfl rfl
    obtain ⟨t, pt, Ft, rt, at', gt, st, kt, ct, lt, nt, wt, dt⟩ := ih y k true (lastLines s.cfg (memByte s s.sp))
      (by rw [Fn.cfg]; exact h) hyl (by rw [hy]; exact fx.raced.trans ur) hyL (by rw [hy]; exact xn)
      (hA.drop hacks) (by omega) (by omega) hyg
    have htu : turnSeq u (memByte s s.sp) =
        xferSeq u.cfg true (memByte s s.sp) u.cfg.tCmd ++ [.reg .spInc, .reg .giInc] := by
      unfold turnSeq; rw [ul, hl]
    have hlast : memByte y (y.sp + BitVec.ofNat 16 n) = memByte s (s.sp + BitVec.ofNat 16 (n + 1)) := by
      rw [memByte_congr Fn.mem, hsp]
      congr 1
      apply BitVec.eq_of_toNat_eq
      simp only [BitVec.toNat_add, BitVec.toNat_ofNat]
      omega
    rw [hlast, Fn.cfg] at lt
    rw [hlast] at nt
    refine ⟨t, ?_, Fn.trans Ft, rt, ?_, gt, ?_, ?_, ?_, lt, nt, ?_, ?_⟩
    · rw [runLoop_step (by rw [hl]; decide), hu]
      simp only [htu]
      rw [perform_seq px, perform_reg, perform_reg, perform_nil, andThen_next, ← hy]
      exact pt
    · rw [at', hy]; exact fx.amode.trans ua
    · rw [st, hsp]
      apply BitVec.eq_of_toNat_eq
      simp only [BitVec.toNat_add, BitVec.toNat_ofNat]
      omega
    · rw [kt, hacks, List.drop_drop]; congr 1; omega
    · rw [ct, Fn.cfg, hyc, cx, uc, F.cfg, readCycles_succ (n + 1) hacks]
      have : (n + 1 + 1) * xCycles s.cfg s.cfg.tCmd =
          (n + 1) * xCycles s.cfg s.cfg.tCmd + xCycles s.cfg s.cfg.tCmd := Nat.succ_mul _ _
      omega
    · have hs : Wired x y [] := by rw [hy]; exact .of_same rfl rfl rfl
      rw [Fn.cfg, hsp, bytesAt_congr Fn.mem] at wt
      have w := (((Wired.ofRead F ui (ut hN)).trans xw).trans hs).trans wt
      rw [bytesAt]
      simpa [dataStrobes] using w
    · intro hT
      rw [dt (Tracked.after hT true _ Fn.cfg Fn.istep (hyd hT)), Fn.cfg, hyd hT, hsp, bytesAt_congr Fn.mem,
        eLow_sent_cons]
      rfl

end Sys2Proof.Machine
end

