-- ==== Sys2Proof/Laws/PerInstr.lean ====
section
/-! SUPPORT. One law per operation: its word is in its row of the opcode map (30_encoding.md R92). -/

namespace Sys2Proof.Laws.TableRow

open Sys2Proof

/-- The operation's word matches the row of the opcode map at its opcode, under the operation's mnemonic. -/
def Statement (i : Instr) : Prop :=
  ∃ r, opcodeMap[(opcOf i).toNat]? = some r ∧ encode i &&& r.mask = r.value ∧ r.mnemonic = mnemonicOf i

theorem append_and_append {n m : Nat} (a c : BitVec n) (b d : BitVec m) :
    (a ++ b) &&& (c ++ d) = (a &&& c) ++ (b &&& d) := by
  apply BitVec.eq_of_getLsbD_eq
  intro i hi
  simp only [BitVec.getLsbD_and, BitVec.getLsbD_append]
  split <;> rfl

/-- A format G word without V has zero reserved bits (R91). -/
theorem maskG (opc : BitVec 4) (bit : BitIdx) (reg : IoAddr) :
    wordG opc 0#1 bit reg &&& 0xF8FFFF80#32 = opc ++ 0#1 ++ 0#3 ++ 0#17 ++ 0#7 := by
  show (opc ++ 0#1 ++ bit ++ 0#17 ++ reg : BitVec (4 + 1 + 3 + 17 + 7)) &&&
    (0xF#4 ++ 1#1 ++ 0#3 ++ 0x1FFFF#17 ++ 0#7) = _
  simp only [append_and_append, BitVec.and_zero, BitVec.zero_and]
  rw [show opc &&& 0xF#4 = opc from by revert opc; decide]

/-- A format G word with V has zero reserved bits (R91). -/
theorem maskGV (opc : BitVec 4) (v : BitVec 1) (bit : BitIdx) (reg : IoAddr) :
    wordG opc v bit reg &&& 0xF0FFFF80#32 = opc ++ 0#1 ++ 0#3 ++ 0#17 ++ 0#7 := by
  show (opc ++ v ++ bit ++ 0#17 ++ reg : BitVec (4 + 1 + 3 + 17 + 7)) &&&
    (0xF#4 ++ 0#1 ++ 0#3 ++ 0x1FFFF#17 ++ 0#7) = _
  simp only [append_and_append, BitVec.and_zero, BitVec.zero_and]
  rw [show opc &&& 0xF#4 = opc from by revert opc; decide]

theorem nop : Statement .nop := ⟨_, rfl, rfl, rfl⟩

theorem setbit (reg : IoAddr) (bit : BitIdx) : Statement (.setbit reg bit) :=
  ⟨_, rfl, (maskG 0x1#4 bit reg).trans rfl, rfl⟩

theorem resetbit (reg : IoAddr) (bit : BitIdx) : Statement (.resetbit reg bit) :=
  ⟨_, rfl, (maskG 0x2#4 bit reg).trans rfl, rfl⟩

theorem togglebit (reg : IoAddr) (bit : BitIdx) : Statement (.togglebit reg bit) :=
  ⟨_, rfl, (maskG 0x3#4 bit reg).trans rfl, rfl⟩

theorem setpindir (reg : IoAddr) (bit : BitIdx) (v : PinDir) : Statement (.setpindir reg bit v) :=
  ⟨_, rfl, (maskGV 0x4#4 (pinDirBit v) bit reg).trans rfl, rfl⟩

theorem setpinstate (reg : IoAddr) (bit : BitIdx) (v : PinState) : Statement (.setpinstate reg bit v) :=
  ⟨_, rfl, (maskGV 0x5#4 (pinStateBit v) bit reg).trans rfl, rfl⟩

theorem getpinstate (reg : IoAddr) (bit : BitIdx) : Statement (.getpinstate reg bit) :=
  ⟨_, rfl, (maskG 0x6#4 bit reg).trans rfl, rfl⟩

theorem btninit (slot : BitVec 3) (dirreg outreg inreg : IoAddr) (pin : BitIdx) :
    Statement (.btninit slot dirreg outreg inreg pin) := by
  refine ⟨_, rfl, ?_, rfl⟩
  show (0x7#4 ++ 0#1 ++ pin ++ slot ++ dirreg ++ outreg ++ inreg : BitVec (4 + 1 + 3 + 3 + 7 + 7 + 7)) &&&
    (0xF#4 ++ 1#1 ++ 0#3 ++ 0#3 ++ 0#7 ++ 0#7 ++ 0#7) = 0x70000000#32
  simp only [append_and_append, BitVec.and_zero]
  rfl

theorem btnget (slot : BitVec 3) : Statement (.btnget slot) := by
  refine ⟨_, rfl, ?_, rfl⟩
  show (0x8#4 ++ 0#4 ++ slot ++ 0#21 : BitVec (4 + 4 + 3 + 21)) &&&
    (0xF#4 ++ 0xF#4 ++ 0#3 ++ 0x1FFFFF#21) = 0x80000000#32
  simp only [append_and_append, BitVec.and_zero]
  rfl

theorem lcdinit : Statement .lcdinit := ⟨_, rfl, rfl, rfl⟩

theorem lcdcmd (byte : Byte) : Statement (.lcdcmd byte) := by
  refine ⟨_, rfl, ?_, rfl⟩
  show (0xA#4 ++ 0#20 ++ byte : BitVec (4 + 20 + 8)) &&&
    (0xF#4 ++ 0xFFFFF#20 ++ 0#8) = 0xA0000000#32
  simp only [append_and_append, BitVec.and_zero]
  rfl

theorem lcdchar (byte : Byte) : Statement (.lcdchar byte) := by
  refine ⟨_, rfl, ?_, rfl⟩
  show (0xB#4 ++ 0#20 ++ byte : BitVec (4 + 20 + 8)) &&&
    (0xF#4 ++ 0xFFFFF#20 ++ 0#8) = 0xB0000000#32
  simp only [append_and_append, BitVec.and_zero]
  rfl

theorem lcdstr (maddr : MemAddr) : Statement (.lcdstr maddr) := by
  refine ⟨_, rfl, ?_, rfl⟩
  show (0xC#4 ++ 0#12 ++ maddr : BitVec (4 + 12 + 16)) &&&
    (0xF#4 ++ 0xFFF#12 ++ 0#16) = 0xC0000000#32
  simp only [append_and_append, BitVec.and_zero]
  rfl

theorem lcdstrat (row : BitVec 2) (col : BitVec 6) (maddr : MemAddr) : Statement (.lcdstrat row col maddr) := by
  refine ⟨_, rfl, ?_, rfl⟩
  show (0xD#4 ++ row ++ col ++ 0#4 ++ maddr : BitVec (4 + 2 + 6 + 4 + 16)) &&&
    (0xF#4 ++ 0#2 ++ 0#6 ++ 0xF#4 ++ 0#16) = 0xD0000000#32
  simp only [append_and_append, BitVec.and_zero]
  rfl

theorem lcdclear : Statement .lcdclear := ⟨_, rfl, rfl, rfl⟩

theorem lcdglyph (gslot : BitVec 3) (maddr : MemAddr) : Statement (.lcdglyph gslot maddr) := by
  refine ⟨_, rfl, ?_, rfl⟩
  show (0xF#4 ++ 0#1 ++ gslot ++ 0#8 ++ maddr : BitVec (4 + 1 + 3 + 8 + 16)) &&&
    (0xF#4 ++ 1#1 ++ 0#3 ++ 0xFF#8 ++ 0#16) = 0xF0000000#32
  simp only [append_and_append, BitVec.and_zero]
  rfl

end Sys2Proof.Laws.TableRow
end

