-- ==== Sys2Proof/Tests/Slice0.lean ====
section
/-! SUPPORT. Tests: the smoke tests of WellFormed, decoding of written-out words, at most two small tests for each
operation with expected values from 95_test_vectors.md, and a witness for the hypotheses of each obligation. -/

namespace Sys2Proof.Tests

open Sys2Proof Sys2Proof.Machine Sys2Proof.Config

set_option Elab.async false

/-! ## Configurations: each check of R8 refuses an ill-formed one -/

theorem test_rc8_wf : rc8.wf = true := by decide
theorem test_rc4_wf : rc4.wf = true := by decide
theorem test_cfg_bus : { rc8 with lcdBus := 5 }.wf = false := by decide
theorem test_cfg_shift : { rc8 with dataShift := 1 }.wf = false := by decide
theorem test_cfg_shift_four : { rc4 with dataShift := 5 }.wf = false := by decide
theorem test_cfg_rs_e : { rc8 with eBit := 0#3 }.wf = false := by decide
theorem test_cfg_overlap : { rc4 with dataReg := 0x38#7, dataShift := 1 }.wf = false := by decide
theorem test_cfg_overlap_shared_ok : { rc4 with dataReg := 0x38#7 }.wf = true := by decide
theorem test_cfg_dir_overlap : { rc8 with ctrlDirReg := 0x38#7 }.wf = false := by decide
theorem test_cfg_lcd_nonvolatile : { rc8 with ctrlReg := 0x30#7 }.wf = false := by decide
theorem test_cfg_geom : { rc8 with lcdRows := 5 }.wf = false := by decide
theorem test_cfg_rowbase : { rc8 with rowBase1 := 0x71#7 }.wf = false := by decide
theorem test_cfg_times : { rc8 with tClear := 40 }.wf = false := by decide
theorem test_cfg_times_width : { rc8 with wcw := 15 }.wf = false := by decide

theorem test_ill_formed_step : step (State.resetWith { rc8 with lcdBus := 5 }) = .refused .configIllFormed := rfl

/-- The reference configurations meet DISP_TIMING_OK at 1 MHz (95_test_vectors.md section 0), and not at 2 MHz. -/
theorem test_timing_ok : dispTimingOk rc8 1000000 = true ∧ dispTimingOk rc8 2000000 = false := by decide

/-! ## Decoding: words from 95_test_vectors.md section 2 -/

theorem test_decode_gpio :
    decode 0x1300003B#32 = .op (.setbit 0x3B#7 3#3) ∧ decode 0x2300003B#32 = .op (.resetbit 0x3B#7 3#3) ∧
    decode 0x3700003B#32 = .op (.togglebit 0x3B#7 7#3) ∧ decode 0x4B00003A#32 = .op (.setpindir 0x3A#7 3#3 .output) ∧
    decode 0x4300003A#32 = .op (.setpindir 0x3A#7 3#3 .input) ∧
    decode 0x4F00007F#32 = .op (.setpindir 0x7F#7 7#3 .output) ∧
    decode 0x5B00003B#32 = .op (.setpinstate 0x3B#7 3#3 .high) ∧
    decode 0x63000039#32 = .op (.getpinstate 0x39#7 3#3) := by decide

theorem test_decode_button :
    decode 0x720C5930#32 = .op (.btninit 0#3 0x31#7 0x32#7 0x30#7 2#3) ∧
    decode 0x702D1AB3#32 = .op (.btninit 1#3 0x34#7 0x35#7 0x33#7 0#3) ∧
    decode 0x80A00000#32 = .op (.btnget 5#3) := by decide

theorem test_decode_lcd :
    decode 0x00000000#32 = .op .nop ∧ decode 0x90000000#32 = .op .lcdinit ∧
    decode 0xA0000038#32 = .op (.lcdcmd 0x38#8) ∧ decode 0xB0000041#32 = .op (.lcdchar 0x41#8) ∧
    decode 0xC0000100#32 = .op (.lcdstr 0x0100#16) ∧ decode 0xD4500100#32 = .op (.lcdstrat 1#2 5#6 0x0100#16) ∧
    decode 0xD1000100#32 = .op (.lcdstrat 0#2 16#6 0x0100#16) ∧ decode 0xE0000000#32 = .op .lcdclear ∧
    decode 0xF3000200#32 = .op (.lcdglyph 3#3 0x0200#16) ∧
    decode 0xF700FFF8#32 = .op (.lcdglyph 7#3 0xFFF8#16) := by decide

theorem test_decode_illegal :
    ([0x00000001#32, 0x18000000#32, 0x6B00003B#32, 0x40000080#32, 0x78000000#32, 0x80000001#32, 0x81000000#32,
      0x90000001#32, 0xA0000100#32, 0xC8000000#32, 0xD0010000#32, 0xE0000080#32, 0xF8000000#32, 0xF0010000#32,
      0xFFFFFFFF#32].all fun w => decode w == .illegal) = true := by decide

/-- The count of legal words in R98, from the masks. -/
theorem test_legal_words :
    (opcodeMap.map fun r => 2 ^ ((List.range 32).filter fun k => !r.mask.getLsbD k).length).sum = 151593483 := by
  decide +kernel

theorem test_table_word : decodeTableWord 32 0xD4500100 = some (.lcdstrat 1#2 5#6 0x0100#16) := by decide

/-! ## Assembler: refusals and pseudo-instructions of 95_test_vectors.md section 2 -/

theorem test_assembler_refusals :
    assemble rc8 ⟨"SETBIT", [.num 0x3B, .num 8]⟩ = .refused .outOfRange ∧
    assemble rc8 ⟨"LCDGLYPH", [.num 8, .num 0x0200]⟩ = .refused .outOfRange ∧
    assemble rc8 ⟨"SETBIT", [.num 0x80, .num 0]⟩ = .refused .outOfRange ∧
    assemble rc8 ⟨"LCDCHAR", [.num 0x100]⟩ = .refused .outOfRange ∧
    assemble rc8 ⟨"SETBIT", [.num 0x3B, .num 3, .kw .high]⟩ = .refused .keyword ∧
    assemble rc8 ⟨"LCDSTRAT", [.num 1, .num 5]⟩ = .refused .operandCount ∧
    assemble rc8 ⟨"LCDGOTO", [.num 2, .num 0]⟩ = .refused .outOfRange ∧
    assemble rc8 ⟨"MOVE", []⟩ = .refused .unknownMnemonic := by decide

theorem test_pseudo_instructions :
    assemble rc8 ⟨"PINOUT", [.num 0x3A, .num 3]⟩ = .ok (.setpindir 0x3A#7 3#3 .output) ∧
    assemble rc8 ⟨"LCDHOME", []⟩ = .ok (.lcdcmd 0x02#8) ∧
    assemble rc8 ⟨"LCDGOTO", [.num 1, .num 5]⟩ = .ok (.lcdcmd 0xC5#8) ∧
    assemble rc8 ⟨"LCDCGADDR", [.num 3]⟩ = .ok (.lcdcmd 0x58#8) := by decide

theorem test_text :
    assembleText rc8 "LCDSTRAT 1, 5, 0x0100 ; greet".toList = .ok (.lcdstrat 1#2 5#6 0x0100#16) ∧
    assembleText rc8 "LCDCHAR 'A'".toList = .ok (.lcdchar 0x41#8) ∧
    disassembleWord 0x00000001#32 = ".word 0x00000001 ; ILLEGAL".toList := by decide +kernel

/-- The line that is refused is named (R104). -/
theorem test_program_text :
    assembleLines rc8 1 ["; a comment".toList, "LCDINIT".toList, "BTNGET 5".toList] =
      .ok [0x90000000#32, 0x80A00000#32] ∧
    assembleLines rc8 1 ["LCDINIT".toList, "".toList, "BTNGET 8".toList] = .refused 3 .outOfRange := by decide +kernel

/-! ## Small states -/

/-- After reset, with one register given a content. -/
def withReg (c : Cfg) (a : IoAddr) (v : Byte) : State := (State.resetWith c).setIo a v

/-- A display in step: cleared, on, incrementing, at the given address. -/
def inStepDisp (c : Cfg) (ac : BitVec 7) : Disp :=
  { sync := .sync, bus8 := c.lcdBus == 8, pend := none, prevE := false
    N := some true, F := some false, ID := some true, S := some false, D := some true, C := some false, B := some false
    AM := .ddram, AC := some ac
    DDRAM := Vector.replicate 128 (some 0x20#8), CGRAM := Vector.replicate 64 none, shifted := false }

/-- As after LCDINIT and LCDCLEAR, with every I/O register 0x00 and these bytes in host memory. -/
def ready (c : Cfg) (mem : Memory) : State :=
  { State.resetWith c with initDone := true, istep := 6#4, mem := mem, disp := inStepDisp c 0#7 }

/-- "HI" at 0x0100, and the glyph of 95_test_vectors.md L-GLY1 at 0x0200. -/
def hiMem : Memory :=
  [(0x100, 0x48#8), (0x101, 0x49#8), (0x200, 0x0E#8), (0x201, 0x11#8), (0x202, 0x11#8), (0x203, 0x11#8),
   (0x204, 0x1F#8), (0x205, 0x11#8), (0x206, 0x11#8)]

/-- The state after the step in which the host offers a word. -/
def after (w : OpWord) (s : State) : Option State :=
  match step { s with host := [.offer w] } with
  | .next t => some t
  | _ => none

/-- The step in which the host offers a word is refused for this reason. -/
def refusedWith (w : OpWord) (s : State) (e : Refusal) : Bool :=
  match step { s with host := [.offer w] } with
  | .refused r => r == e
  | _ => false

/-- The content of a register, STATUS, RESULT and the cycles after a word. -/
def regAfter (w : OpWord) (s : State) (a : IoAddr) : Option (Option Byte × BitVec 16 × Byte × Nat) :=
  (after w s).map fun t => (ioCell t a, t.status, t.result, t.cycles)

/-! ## GPIO: 95_test_vectors.md section 3 -/

/-- G1 -/
theorem test_setbit : (after 0x1300003B#32 (withReg rc8 0x3B#7 0x00#8)).map (fun t => (ioCell t 0x3B#7, t.trace)) =
    some (some 0x08#8, [.ioWr 0x3B#7 0x08#8, .ioRd 0x3B#7 0x00#8, .decode, .accept 0x1300003B#32]) := by decide +kernel
/-- G17, G18 -/
theorem test_setbit_refused :
    refusedWith 0x10000033#32 (State.resetWith rc8) (.ioWriteVolatile 0x33#7) = true ∧
    refusedWith 0x10000020#32 (State.resetWith { rc8 with ioInitCells := [(0x20#7, none)] })
      (.ioReadUnknown 0x20#7) = true := by decide +kernel
/-- G3 -/
theorem test_resetbit : regAfter 0x2300003B#32 (withReg rc8 0x3B#7 0xFF#8) 0x3B#7 =
    some (some 0xF7#8, 0x0000#16, 0x00#8, 3) := by decide +kernel
/-- G5 -/
theorem test_togglebit : regAfter 0x3700003B#32 (withReg rc8 0x3B#7 0x81#8) 0x3B#7 =
    some (some 0x01#8, 0x0000#16, 0x00#8, 3) := by decide +kernel
/-- G7 -/
theorem test_setpindir : regAfter 0x4B00003A#32 (withReg rc8 0x3A#7 0x00#8) 0x3A#7 =
    some (some 0x08#8, 0x0000#16, 0x00#8, 3) := by decide +kernel
/-- G9 -/
theorem test_setpindir_active_low :
    regAfter 0x4B00003A#32 (withReg { rc8 with dirOutputBit := false } 0x3A#7 0xFF#8) 0x3A#7 =
    some (some 0xF7#8, 0x0000#16, 0x00#8, 3) := by decide +kernel
/-- G11 -/
theorem test_setpinstate_high : regAfter 0x5B00003B#32 (withReg rc8 0x3B#7 0x00#8) 0x3B#7 =
    some (some 0x08#8, 0x0000#16, 0x00#8, 3) := by decide +kernel
/-- G12 -/
theorem test_setpinstate_low : regAfter 0x5300003B#32 (withReg rc8 0x3B#7 0x08#8) 0x3B#7 =
    some (some 0x00#8, 0x0000#16, 0x00#8, 3) := by decide +kernel
/-- G13 -/
theorem test_getpinstate : regAfter 0x6300003B#32 (withReg rc8 0x3B#7 0x08#8) 0x3B#7 =
    some (some 0x08#8, 0x0000#16, 0x01#8, 2) := by decide +kernel
/-- G14 -/
theorem test_getpinstate_low : regAfter 0x6300003B#32 (withReg rc8 0x3B#7 0xF7#8) 0x3B#7 =
    some (some 0xF7#8, 0x0000#16, 0x00#8, 2) := by decide +kernel
/-- G20 -/
theorem test_illegal_word : regAfter 0x1B00003B#32 (State.resetWith rc8) 0x3B#7 =
    some (some 0x00#8, 0x0114#16, 0x00#8, 1) := by decide +kernel
/-- 40_control.md R125 -/
theorem test_nop : regAfter 0x00000000#32 (State.resetWith rc8) 0x00#7 =
    some (some 0x00#8, 0x0000#16, 0x00#8, 1) := by decide +kernel

/-! ## Buttons: 95_test_vectors.md section 4 -/

/-- B1 -/
theorem test_btninit : (after 0x720C5930#32 (withReg rc8 0x31#7 0xFF#8)).map
    (fun t => (ioCell t 0x31#7, t.btn.get 0, t.btn.get 1)) =
    some (some 0xFB#8, ⟨true, 2#3, 0x31#7, 0x32#7, 0x30#7⟩, Button.unbound) := by decide +kernel
/-- B8 -/
theorem test_btninit_active_low : regAfter 0x720C5930#32 (State.resetWith { rc8 with dirOutputBit := false }) 0x31#7 =
    some (some 0x04#8, 0x0000#16, 0x00#8, 3) := by decide +kernel
/-- B10 -/
theorem test_btnget :
    regAfter 0x80200000#32 ((RegWrite.btn 1#3 ⟨true, 0#3, 0x34#7, 0x36#7, 0x35#7⟩).apply (withReg rc8 0x35#7 0x01#8))
      0x35#7 = some (some 0x01#8, 0x0000#16, 0x00#8, 2) := by decide +kernel
/-- B6 -/
theorem test_btnget_unbound : regAfter 0x80A00000#32 (State.resetWith rc8) 0x30#7 =
    some (some 0x00#8, 0x0854#16, 0x00#8, 1) := by decide +kernel

/-! ## LCD: 95_test_vectors.md sections 5 to 7 -/

/-- L-INIT1 -/
theorem test_lcdinit : ((after 0x90000000#32 (State.resetWith rc8)).any fun t =>
    t.status == 0x0002#16 && t.cycles == 44425 && t.disp.sync == .sync && t.disp.AC == none &&
    [0x37#7, 0x38#7, 0x3A#7, 0x3B#7].map (ioCell t) == [some 0x03#8, some 0x00#8, some 0xFF#8, some 0x0C#8]) = true := by
  decide +kernel
/-- L-INIT2 -/
theorem test_lcdinit_four : ((after 0x90000000#32 (State.resetWith rc4)).any fun t =>
    t.status == 0x0002#16 && t.cycles == 44499 && t.disp.sync == .sync && !t.disp.bus8 &&
    [t.disp.N, t.disp.F, t.disp.ID, t.disp.S, t.disp.D, t.disp.C, t.disp.B] ==
      [some true, some false, some true, some false, some true, some false, some false] &&
    [0x3A#7, 0x3B#7].map (ioCell t) == [some 0xF0#8, some 0xC0#8]) = true := by
  decide +kernel
/-- L-CMD1, its first command -/
theorem test_lcdcmd : (after 0xA0000040#32 (ready rc8 [])).map
    (fun t => (t.status, t.cycles, t.disp.AM, t.disp.AC)) =
    some (0x000A#16, 51, .cgram, some 0x00#7) := by decide +kernel
/-- L-CMD3: a function set of the other bus width; every field is then unknown (R281). -/
theorem test_lcdcmd_lost :
    (after 0xA0000028#32 (ready rc8 [])).map (fun t => (t.status, t.cycles, t.disp.sync, t.disp.N, t.disp.AC)) =
    some (0x0002#16, 51, .lost, none, none) := by decide +kernel
/-- T1 -/
theorem test_lcdchar : (after 0xB0000041#32 ((ready rc8 []).setIo 0x3B#7 0x0C#8)).map (fun t => t.trace.reverse) =
    some [.accept 0xB0000041#32, .decode, .ioRd 0x38#7 0x00#8, .ioWr 0x38#7 0x01#8, .ioRd 0x3B#7 0x0C#8,
      .ioWr 0x3B#7 0x41#8, .ioRd 0x38#7 0x01#8, .ioWr 0x38#7 0x03#8, .wait 1, .ioRd 0x38#7 0x03#8,
      .ioWr 0x38#7 0x01#8, .wait 41] := by decide +kernel
/-- T2, with L-CHAR1's effect on the display -/
theorem test_lcdchar_four : (after 0xB0000041#32 ((ready rc4 []).setIo 0x3B#7 0x05#8)).map
    (fun t => (t.cycles, ioCell t 0x3B#7, t.disp.DDRAM.get 0, t.disp.AC)) =
    some (59, some 0x15#8, some 0x41#8, some 0x01#7) := by decide +kernel
/-- L-STR1 -/
theorem test_lcdstr : (after 0xC0000100#32 (ready rc8 hiMem)).map
    (fun t => (t.cycles, t.sp, t.disp.DDRAM.get 0, t.disp.DDRAM.get 1, t.disp.AC)) =
    some (104, 0x0102#16, some 0x48#8, some 0x49#8, some 0x02#7) := by decide +kernel
/-- L-STR3 -/
theorem test_lcdstr_wraps : (after 0xC000FFFF#32 (ready rc8 [(0xFFFF, 0x5A#8)])).map
    (fun t => (t.cycles, t.sp, t.disp.DDRAM.get 0)) = some (53, 0x0000#16, some 0x5A#8) := by decide +kernel
/-- L-STRAT1 -/
theorem test_lcdstrat : (after 0xD4500100#32 (ready rc8 hiMem)).map
    (fun t => (t.status, t.cycles, [ioCell t 0x38#7, ioCell t 0x3B#7, t.visible 1000000 1#2 5#6,
      t.visible 1000000 1#2 6#6], t.disp.AC)) =
    some (0x0002#16, 154, [some 0x01#8, some 0x49#8, some 0x48#8, some 0x49#8], some 0x47#7) := by decide +kernel
/-- L-STRAT3 -/
theorem test_lcdstrat_range : regAfter 0xD8000100#32 (ready rc8 hiMem) 0x38#7 =
    some (some 0x00#8, 0x0D46#16, 0x00#8, 1) := by decide +kernel
/-- L-CLR1 -/
theorem test_lcdclear : (after 0xE0000000#32 (ready rc8 [])).map
    (fun t => (t.status, t.cycles, t.disp.DDRAM.get 5, t.disp.AC)) =
    some (0x0002#16, 1530, some 0x20#8, some 0x00#7) := by decide +kernel
/-- L-GLY1 -/
theorem test_lcdglyph : (after 0xF3000200#32 (ready rc8 hiMem)).map
    (fun t => (t.status, t.cycles, (List.finRange 8).map fun k => t.disp.glyphRow 3#3 (BitVec.ofFin k))) =
    some (0x000A#16, 459, [some 0x0E#8, some 0x11#8, some 0x11#8, some 0x11#8, some 0x1F#8, some 0x11#8, some 0x11#8,
      some 0x00#8]) := by decide +kernel
/-- L-GLY2 -/
theorem test_lcdglyph_wraps : (after 0xF7000200#32 (ready rc8 hiMem)).map (fun t => (t.disp.AM, t.disp.AC)) =
    some (.cgram, some 0x00#7) := by decide +kernel
/-- L-NI and L-STRAT4: NOT_INIT wins over RANGE -/
theorem test_not_init : regAfter 0xDC000100#32 (State.resetWith rc8) 0x38#7 =
    some (some 0x00#8, 0x0D24#16, 0x00#8, 1) := by decide +kernel
/-- F6 -/
theorem test_gpio_strobe : ((after 0x11000038#32 (ready rc8 [])).bind (after 0x21000038#32)).map (fun t => t.disp.sync) =
    some .lost := by decide +kernel
/-- F8: a reset in the fifteenth cycle of LCDSTRAT, after E rose -/
theorem test_reset_mid_transfer :
    (match Host.Core.run core 3 { ready rc8 hiMem with host := [.start 0xD4500100#32, .clock 9, .reset] } with
      | .next t => some (ioCell t 0x38#7, t.status, t.disp.sync)
      | _ => none) = some (some 0x02#8, 0x0000#16, .unsync) := by decide +kernel
/-- The same LCDCHAR one cycle at a time: after its 51 cycles the block is idle in the state that one step gives. -/
theorem test_cycle_by_cycle :
    (match Host.Core.run core 2 { ready rc8 [] with host := [.start 0xB0000041#32, .clock 51] } with
      | .next t => some (t.seq, t.trace)
      | _ => none) = (after 0xB0000041#32 (ready rc8 [])).map (fun t => (t.seq, t.trace)) := by decide +kernel

/-! ## Witnesses: for each obligation with hypotheses, a state and operands that meet them together -/

/-- The outcome is a next state with a property. -/
def nextWith (p : State → Bool) (r : Res State) : Bool :=
  match r with
  | .next t => p t
  | _ => false

theorem of_nextWith {p : State → Bool} {r : Res State} (h : nextWith p r = true) : ∃ t, r = .next t ∧ p t = true := by
  cases r with
  | next t => exact ⟨t, rfl, h⟩
  | fault e => cases h
  | refused e => cases h

/-- A state after reset with one host move to come. -/
def moving (c : Cfg) (m : HostMove) : State := { State.resetWith c with host := [m] }

/-- One register unknown at power-on. -/
def unknownAt (a : IoAddr) : Cfg := { rc8 with ioInitCells := [(a, none)] }

/-- The "ready" state under a configuration with one register unknown. -/
def readyUnknown (a : IoAddr) : State := ready (unknownAt a) hiMem

/-- Slot 7 bound to pin 2 of a register. -/
def withButton (inp : IoAddr) (s : State) : State := (RegWrite.btn 7#3 ⟨true, 2#3, 0x34#7, 0x35#7, inp⟩).apply s

/-- A host memory with no 0x00 byte. -/
def noZeroMem : Memory := (List.range 65536).map fun a => (a, 1#8)

theorem listed_ones (l : List Nat) (a : Nat) (h : a ∈ l) : Memory.listed (l.map fun a => (a, 1#8)) a = some 1#8 := by
  induction l with
  | nil => cases h
  | cons b r ih =>
    by_cases hb : a = b
    · simp [Memory.listed, hb]
    · simp [Memory.listed, hb, ih ((List.mem_cons.mp h).resolve_left hb)]

theorem rc8_ctrlCell {s : State} (hc : s.cfg = rc8) (hio : s.io = []) : ioCell s s.cfg.ctrlReg = some 0#8 := by
  rw [ioCell, hio, hc]
  rfl

theorem wireSeen_of {s : State} (hc : s.cfg = rc8) (hio : s.io = []) (he : s.disp.prevE = false) : WireSeen s := by
  intro x h
  rw [rc8_ctrlCell hc hio] at h
  cases h
  rw [he, hc]
  decide

theorem lcdReady_of {s : State} (hc : s.cfg = rc8) (hi : s.initDone = true) (hio : s.io = [])
    (he : s.disp.prevE = false) : LcdReady s := by
  refine ⟨by rw [hc]; decide, hi, ⟨⟨_, rc8_ctrlCell hc hio⟩, 0#8, ?_⟩, wireSeen_of hc hio he⟩
  rw [ioCell, hio, hc]
  rfl

theorem witness_lcdReady (mem : Memory) : LcdReady (ready rc8 mem) := lcdReady_of rfl rfl rfl rfl

theorem witness_inStep (mem : Memory) : InStep (ready rc8 mem) := ⟨rfl, rfl, rfl, rfl⟩

theorem witness_EncodeOfDecodeIsIdentity : decode 0xF700FFFF#32 = .op (.lcdglyph 7#3 0xFFFF#16) := by decide

theorem witness_DecodeIsTheOpcodeMap :
    (∃ r ∈ opcodeMap, 0x17000000#32 &&& r.mask = r.value) ∧ ∀ r ∈ opcodeMap, 0x18000000#32 &&& r.mask ≠ r.value := by
  decide

theorem witness_PseudoInstructionsExpand :
    (1 < 4 ∧ 15 < 64 ∧ 1 < rc8.lcdRows ∧ 15 < rc8.lcdCols) ∧ rc8.lcdRows ≤ 2 ∧ rc8.lcdCols ≤ 16 ∧
    assemble rc8 ⟨"LCDGOTO", [.num 1, .num 15]⟩ = .ok (.lcdcmd 0xCF#8) ∧
    assemble rc8 ⟨"LCDGOTO", [.num 0, .num 16]⟩ = .refused .outOfRange ∧
    assemble rc8 ⟨"LCDCGADDR", [.num 7]⟩ = .ok (.lcdcmd 0x78#8) := by decide

theorem witness_StepRunsTheOfferedOperation (w : OpWord) :
    (moving rc8 (.offer w)).cfg.wf = true ∧ (moving rc8 (.offer w)).host = [.offer w] ∧
    (moving rc8 (.offer w)).busy = false :=
  ⟨test_rc8_wf, rfl, rfl⟩

/-- A block in RUN that is offered a word. -/
def busyOffered : State := { moving rc8 (.offer 0#32) with seq := .run, todo := [.wait 3], wcnt := 3 }

theorem witness_BusyBlockTakesNoWord :
    (busyOffered.host = [.offer 0#32] ∧ busyOffered.busy = true ∧ ∃ t, step busyOffered = .next t ∧
      (t.seq == .idle) = true) ∧
    (busyOffered.setHost [.start 0#32]).host = [.start 0#32] ∧ (busyOffered.setHost [.start 0#32]).busy = true ∧
    ∃ t, step (busyOffered.setHost [.start 0#32]) = .next t ∧ (t.seq == .idle) = true :=
  ⟨⟨rfl, rfl, of_nextWith (by decide +kernel)⟩, rfl, rfl, of_nextWith (by decide +kernel)⟩

theorem witness_NopChangesNothing :
    State.reset.tsm = .idle ∧ State.reset.todo = [] ∧ State.reset.loop = .done ∧ State.reset.raced = [] :=
  ⟨rfl, rfl, rfl, rfl⟩

theorem witness_WaitHoldsExactlyNCycles :
    busyOffered.seq = .run ∧ busyOffered.todo = [.wait 3] ∧ busyOffered.wcnt = 3 ∧ 0 < 3 := ⟨rfl, rfl, rfl, by decide⟩

theorem witness_CycleByCycleRunEqualsExec :
    ((ready rc8 []).accept 0xB0000041#32).seq = .decode ∧
    decode ((ready rc8 []).accept 0xB0000041#32).opr = .op (.lcdchar 0x41#8) ∧
    ∃ t, exec (.lcdchar 0x41#8) ((ready rc8 []).accept 0xB0000041#32) = .next t ∧ (t.seq == .idle) = true :=
  ⟨rfl, rfl, of_nextWith (by decide +kernel)⟩

/-- For SETBIT, RESETBIT, TOGGLEBIT, SETPINDIR, SETPINSTATE, GETPINSTATE of a stored register, BTNINIT and R147: the
first and the last register. -/
theorem witness_storedRegister :
    (rc8.ioVolatile.contains 0x00#7 = false ∧ ioCell (withReg rc8 0x00#7 0x5A#8) 0x00#7 = some 0x5A#8) ∧
    (rc8.ioVolatile.contains 0x7F#7 = false ∧ ioCell (withReg rc8 0x00#7 0x5A#8) 0x7F#7 = some 0x00#8) := by decide

theorem witness_inputRegister : (State.resetWith rc8).cfg.ioVolatile.contains 0x30#7 = true := by decide

theorem witness_GpioAndButtonRefusals :
    (State.resetWith (unknownAt 0x20#7)).cfg.ioVolatile.contains 0x30#7 = true ∧
    (State.resetWith (unknownAt 0x20#7)).cfg.ioVolatile.contains 0x20#7 = false ∧
    ioCell (withButton 0x20#7 (State.resetWith (unknownAt 0x20#7))) 0x20#7 = none ∧
    ((withButton 0x20#7 (State.resetWith (unknownAt 0x20#7))).btn.get 7).bound = true ∧
    ((withButton 0x20#7 (State.resetWith (unknownAt 0x20#7))).btn.get 7).inp = 0x20#7 := by decide

theorem witness_BitLaws : (0x3B#7 ≠ 0x3C#7) ∧ (7#3 ≠ 0#3) ∧
    rc8.ioVolatile.contains 0x3B#7 = false ∧ ioCell (withReg rc8 0x3B#7 0x80#8) 0x3B#7 = some 0x80#8 ∧
    rc8.ioVolatile.contains 0x3C#7 = false ∧ ioCell (withReg rc8 0x3B#7 0x80#8) 0x3C#7 = some 0x00#8 := by decide

/-- A display in step whose E line a GPIO operation has raised. -/
def eHigh : State := { (ready rc8 []).setIo 0x38#7 0x02#8 with disp := { inStepDisp rc8 0#7 with prevE := true } }

/-- For the strobes, one operation of each kind that makes one, and for the operations on the control register, which is
no input register. -/
theorem witness_GpioStrobeLosesTheDisplay :
    eHigh.cfg.wf = true ∧ InStep eHigh ∧ WireSeen eHigh ∧ ioCell eHigh eHigh.cfg.ctrlReg = some 0x02#8 ∧
    eHigh.cfg.ioVolatile.contains eHigh.cfg.ctrlReg = false ∧
    (0x02#8).getLsbD eHigh.cfg.eBit.toNat = true ∧ (0x00#8).getLsbD eHigh.cfg.eBit.toNat = false ∧
    (∀ i ∈ [Instr.resetbit 0x38#7 1#3, .togglebit 0x38#7 1#3, .setpinstate 0x38#7 1#3 .low,
      .setpindir 0x38#7 1#3 .input, .btninit 7#3 0x38#7 0x39#7 0x30#7 1#3],
      ClearsBit eHigh.cfg eHigh.cfg.ctrlReg eHigh.cfg.eBit i) ∧
    gpioTarget (.setpindir 0x3B#7 0#3 .output) = some eHigh.cfg.dataReg ∧ eHigh.cfg.dataReg ≠ eHigh.cfg.ctrlReg ∧
    ioCell eHigh eHigh.cfg.dataReg = some 0x00#8 := by
  refine ⟨by decide, ⟨rfl, rfl, rfl, rfl⟩, ?_, rfl, by decide, by decide, by decide, ?_, rfl, by decide, rfl⟩
  rotate_left
  · intro i hi
    simp only [List.mem_cons, List.not_mem_nil, or_false] at hi
    rcases hi with rfl | rfl | rfl | rfl | rfl
    · exact .inl rfl
    · exact .inr (.inl rfl)
    · exact .inr (.inr (.inl rfl))
    · exact .inr (.inr (.inr (.inl rfl)))
    · exact .inr (.inr (.inr (.inr ⟨rfl, _, _, _, rfl⟩)))
  intro x h
  have : some 0x02#8 = some x := h
  cases this
  rfl

theorem witness_BtninitIsIdempotent : ∃ t, exec (.btninit 7#3 0x31#7 0x32#7 0x30#7 2#3) State.reset = .next t ∧
    (t.btn.get 7).bound = true := of_nextWith (p := fun t => (t.btn.get 7).bound) (by decide +kernel)

theorem witness_BtngetSamplesTheButton :
    ((withButton 0x35#7 State.reset).btn.get 7).bound = true ∧ rc8.ioVolatile.contains 0x35#7 = false ∧
    ioCell (withButton 0x35#7 State.reset) 0x35#7 = some 0x00#8 ∧
    ((withButton 0x36#7 State.reset).btn.get 7).bound = true ∧ rc8.ioVolatile.contains 0x36#7 = true := by decide

theorem witness_BtngetIsGetpinstateAgainstTheActiveLevel :
    ((withButton 0x35#7 State.reset).btn.get 7).bound = true ∧
    (∃ t, exec (.btnget 7#3) (withButton 0x35#7 State.reset) = .next t ∧ (t.result == 1#8) = true) ∧
    ∃ u, exec (.getpinstate 0x35#7 2#3) (withButton 0x35#7 State.reset) = .next u ∧ (u.result == 0#8) = true :=
  ⟨rfl, of_nextWith (by decide +kernel), of_nextWith (by decide +kernel)⟩

theorem witness_FaultChecksOfDecode :
    0xA#4 ≤ opcOf (.lcdcmd 0#8) ∧ 0xA#4 ≤ opcOf (.lcdglyph 7#3 0#16) ∧ State.reset.initDone = false ∧
    (ready rc8 []).initDone = true ∧ rc8.lcdRows ≤ (2#2).toNat ∧ rc8.lcdCols ≤ (16#6).toNat ∧
    (State.reset.btn.get 7).bound = false := by decide

theorem witness_IllegalWordFaults :
    (moving rc8 (.offer 0x18000000#32)).cfg.wf = true ∧ (moving rc8 (.offer 0x18000000#32)).busy = false ∧
    decode 0x18000000#32 = .illegal := ⟨by decide, rfl, by decide⟩

/-- An operation without a fault, one that faults, and one that faults while FAULT is 1 already. -/
theorem witness_FaultsArePrecise :
    ((∃ t, exec .nop State.reset = .next t ∧ (!t.fault) = true) ∧ ∀ c, planOf .nop State.reset ≠ .fault c) ∧
    ((∃ t, exec (.lcdcmd 0#8) State.reset = .next t ∧ t.fault = true) ∧
      planOf (.lcdcmd 0#8) State.reset = .fault .notInit) ∧
    (∃ t, exec (.lcdcmd 0#8) { State.reset with fault := true, fcode := .range, fop := 0xD#4 } = .next t ∧
      (t.fcode == .range) = true) ∧
    planOf (.lcdcmd 0#8) { State.reset with fault := true, fcode := .range, fop := 0xD#4 } = .fault .notInit :=
  ⟨⟨of_nextWith (by decide +kernel), fun _ h => by cases h⟩,
    ⟨of_nextWith (p := fun t => t.fault) (by decide +kernel), rfl⟩, of_nextWith (by decide +kernel), rfl⟩

theorem witness_FaultRecordIsSticky :
    ∃ t, step { State.reset with fault := true, fcode := .range, fop := 0xD#4, host := [.offer 1#32] } = .next t ∧
      (t.fcode == .range) = true := of_nextWith (by decide +kernel)

theorem witness_OnlyLcdinitSetsInitDone :
    (∃ t, exec .nop State.reset = .next t ∧ (!t.initDone) = true) ∧
    (∃ t, exec .lcdinit State.reset = .next t ∧ t.initDone = true) ∧
    ∃ t, step { ready rc8 [] with host := [.reset] } = .next t ∧ (!t.initDone) = true :=
  ⟨of_nextWith (by decide +kernel), of_nextWith (p := fun t => t.initDone) (by decide +kernel),
    of_nextWith (by decide +kernel)⟩

theorem witness_ResultAndButtonWriters : ∃ t, exec (.setbit 0x00#7 0#3) (withButton 0x35#7 State.reset) = .next t ∧
    (t.btn.get 7).bound = true := of_nextWith (p := fun t => (t.btn.get 7).bound) (by decide +kernel)

theorem witness_HostMemoryIsReadOnly :
    (∃ t, exec (.lcdstr 0x0100#16) (ready rc8 hiMem) = .next t ∧ (t.sp == 0x0102#16) = true) ∧
    ∃ t, ticks 60 ((ready rc8 hiMem).accept 0xC0000100#32) = .next t ∧ t.busy = true :=
  ⟨of_nextWith (by decide +kernel), of_nextWith (p := fun t => t.busy) (by decide +kernel)⟩

theorem witness_BlockNeverReadsTheDisplay :
    (∃ t, exec (.lcdchar 0x41#8) (ready rc8 []) = .next t ∧ (t.seq == .idle) = true) ∧
    exec (.setbit 0x33#7 0#3) State.reset = .refused (.ioWriteVolatile 0x33#7) :=
  ⟨of_nextWith (by decide +kernel), rfl⟩

/-- A MemRead whose answer never comes. -/
def unanswered : State := { ready rc8 hiMem with seq := .run, loop := .str, sp := 0x0100#16, acks := [.never] }

theorem witness_UnansweredReadIsStuck :
    unanswered.cfg.wf = true ∧ unanswered.memPending = true ∧ unanswered.acks = [.never] ∧ unanswered.host = [] :=
  ⟨by decide, rfl, rfl, rfl⟩

/-- An idle block, and a busy one, whose memory the host is about to write. -/
theorem witness_HostMemoryRace :
    (moving rc8 (.memWrite 0xFFFF#16 0x41#8)).cfg.wf = true ∧ (moving rc8 (.memWrite 0xFFFF#16 0x41#8)).raced = [] ∧
    (moving rc8 (.memWrite 0xFFFF#16 0x41#8)).busy = false ∧
    { moving rc8 (.memWrite 0xFFFF#16 0x41#8) with seq := .run }.busy = true := ⟨by decide, rfl, rfl, rfl⟩

theorem witness_TransferBusTrace :
    (rc8.wf = true ∧ ioCell (State.resetWith rc8) rc8.ctrlReg = some 0#8 ∧
      ioCell (State.resetWith rc8) rc8.dataReg = some 0#8 ∧ 0#8 &&& (rsMask rc8 ||| eMask rc8) = 0#8 ∧
      0#8 = 0#8 &&& ~~~rsMask rc8 ∧ rc8.lcdBus = 8) ∧
    (rc4.wf = true ∧ ioCell (withReg rc4 0x3B#7 0x0A#8) rc4.ctrlReg = some 0#8 ∧
      ioCell (withReg rc4 0x3B#7 0x0A#8) rc4.dataReg = some 0x0A#8 ∧ 0#8 &&& (rsMask rc4 ||| eMask rc4) = 0#8 ∧
      0#8 = 0#8 &&& ~~~rsMask rc4 ∧
      rc4.lcdBus = 4 ∧ rc4.dataShift = 4 ∧ rc4.ctrlReg ≠ rc4.dataReg) := by decide

theorem witness_LcdinitInitialises :
    State.reset.cfg.wf = true ∧ State.reset.initDone = false ∧ WireKnown State.reset ∧
    (∃ x, ioCell State.reset State.reset.cfg.ctrlDirReg = some x) ∧
    ∃ x, ioCell State.reset State.reset.cfg.dataDirReg = some x :=
  ⟨by decide, rfl, ⟨⟨_, rfl⟩, _, rfl⟩, ⟨_, rfl⟩, _, rfl⟩

theorem witness_LcdinitSynchronisesTheDisplay :
    rc4.wf = true ∧ initBytesProper rc4 = true ∧ rc4.initFuncset.getLsbD 4 = (rc4.lcdBus == 8) ∧
    (State.resetWith rc4).initDone = false ∧ dispTimingOk rc4 1000000 = true ∧
    ∃ t, exec .lcdinit (State.resetWith rc4) = .next t ∧ t.initDone = true :=
  ⟨by decide, by decide, by decide, rfl, by decide, of_nextWith (p := fun t => t.initDone) (by decide +kernel)⟩

/-- For LCDCMD, LCDCHAR and LCDCLEAR. -/
theorem witness_LcdcmdSendsItsByte :
    LcdReady (ready rc8 []) ∧ Tracked (ready rc8 []) ∧ InStep (ready rc8 []) ∧ dispTimingOk rc8 1000000 = true :=
  ⟨witness_lcdReady [], fun _ => witness_inStep [], witness_inStep [], by decide⟩

/-- The "ready" state with another display in step. -/
def showing (d : Disp) : State := { ready rc8 [] with disp := d }

/-- The rows of R288 and R290 that look at the display: an unknown address, a DDRAM address at an end of a line, one that
is not valid, and a CGRAM address at each end. -/
theorem witness_CommandRows :
    InStep (showing { inStepDisp rc8 0#7 with AC := none }) ∧ InStep (showing (inStepDisp rc8 0x67#7)) ∧
    (inStepDisp rc8 0x67#7).AC = some 0x67#7 ∧ (inStepDisp rc8 0x67#7).N = some true ∧
    InStep (showing (inStepDisp rc8 0x7F#7)) ∧ ddramValid rc8 true 0x7F#7 = false ∧
    InStep (showing { inStepDisp rc8 0x3F#7 with AM := .cgram }) ∧
    cgramStep 0x3F#7 true = 0x00#7 ∧ cgramStep 0x00#7 false = 0x3F#7 ∧
    (0x38#8).getLsbD 4 = (inStepDisp rc8 0#7).bus8 ∧ 0x38#8 = rc8.initFuncset ∧
    (0x28#8).getLsbD 4 ≠ (inStepDisp rc8 0#7).bus8 ∧ 0x30#8 ≠ rc8.initFuncset :=
  ⟨⟨rfl, rfl, rfl, rfl⟩, ⟨rfl, rfl, rfl, rfl⟩, rfl, rfl, ⟨rfl, rfl, rfl, rfl⟩, by decide, ⟨rfl, rfl, rfl, rfl⟩,
    by decide, by decide, by decide, by decide, by decide, by decide⟩

theorem witness_stringAt : StringAt (ready rc8 hiMem) 0x0100#16 [0x48#8, 0x49#8] ∧
    StringAt (ready rc8 hiMem) 0xFFFF#16 [] := ⟨⟨rfl, by decide, rfl, by decide, rfl⟩, rfl⟩

theorem witness_answered (n : Nat) : Answered (ready rc8 hiMem) n := by simp [Answered, ready, State.resetWith]

theorem witness_LcdstrSendsTheString :
    LcdReady (ready rc8 hiMem) ∧ (ready rc8 hiMem).raced = [] ∧
    StringAt (ready rc8 hiMem) 0x0100#16 [0x48#8, 0x49#8] ∧ Answered (ready rc8 hiMem) 3 ∧
    StringAt (ready rc8 hiMem) 0xFFFF#16 [] ∧ Answered (ready rc8 hiMem) 1 ∧ Tracked (ready rc8 hiMem) :=
  ⟨witness_lcdReady _, rfl, witness_stringAt.1, witness_answered 3, witness_stringAt.2, witness_answered 1,
    fun _ => witness_inStep _⟩

/-- The empty string, with the LCD's data register unknown. -/
theorem witness_LcdstrEmpty :
    (readyUnknown 0x3B#7).initDone = true ∧ ¬ WireKnown (readyUnknown 0x3B#7) ∧ (readyUnknown 0x3B#7).raced = [] ∧
    StringAt (readyUnknown 0x3B#7) 0xFFFF#16 [] ∧ Answered (readyUnknown 0x3B#7) 1 := by
  refine ⟨rfl, ?_, rfl, rfl, by simp [Answered, readyUnknown, ready, State.resetWith]⟩
  rintro ⟨-, y, h⟩
  have : none = some y := h
  cases this

theorem witness_LcdstratPositionsAndSends :
    LcdReady (ready rc8 hiMem) ∧ (1#2).toNat < rc8.lcdRows ∧ (15#6).toNat < rc8.lcdCols ∧
    (ready rc8 hiMem).raced = [] ∧ StringAt (ready rc8 hiMem) 0x0100#16 [0x48#8, 0x49#8] ∧
    Answered (ready rc8 hiMem) 3 ∧ Tracked (ready rc8 hiMem) :=
  ⟨witness_lcdReady _, by decide, by decide, rfl, witness_stringAt.1, witness_answered 3, fun _ => witness_inStep _⟩

theorem witness_LcdglyphUploadsEightRows :
    LcdReady (ready rc8 hiMem) ∧ (ready rc8 hiMem).raced = [] ∧ Answered (ready rc8 hiMem) 8 ∧
    Tracked (ready rc8 hiMem) := ⟨witness_lcdReady _, rfl, witness_answered 8, fun _ => witness_inStep _⟩

theorem witness_UnknownLcdRegisterIsRefused :
    (readyUnknown 0x3B#7).cfg.wf = true ∧ (readyUnknown 0x3B#7).initDone = true ∧
    firstUnknown (readyUnknown 0x3B#7) [0x38#7, 0x3B#7] = some 0x3B#7 ∧
    firstUnknown (readyUnknown 0x38#7) [0x38#7, 0x3B#7] = some 0x38#7 ∧
    memByte (readyUnknown 0x3B#7) 0x0100#16 ≠ 0x00#8 ∧ (readyUnknown 0x3B#7).raced = [] ∧
    (1#2).toNat < (readyUnknown 0x3B#7).cfg.lcdRows ∧ (15#6).toNat < (readyUnknown 0x3B#7).cfg.lcdCols ∧
    (State.resetWith (unknownAt 0x37#7)).initDone = false ∧ (unknownAt 0x37#7).wf = true ∧
    firstUnknown (State.resetWith (unknownAt 0x37#7)) [0x37#7, 0x3A#7, 0x38#7, 0x3B#7] = some 0x37#7 := by decide

theorem witness_unknown_answered : Answered (readyUnknown 0x3B#7) 1 := by
  simp [Answered, readyUnknown, ready, State.resetWith]

/-- LCDSTR in DECODE over memory with no 0x00 byte; and LCDSTRAT at the last position. -/
theorem witness_UnterminatedStringNeverEnds :
    LcdReady { ready rc8 noZeroMem with seq := .decode, opr := 0xC000FFFF#32 } ∧
    decode 0xC000FFFF#32 = .op (.lcdstr 0xFFFF#16) ∧
    decode 0xD4F0FFFF#32 = .op (.lcdstrat 1#2 15#6 0xFFFF#16) ∧ (1#2).toNat < rc8.lcdRows ∧
    (15#6).toNat < rc8.lcdCols ∧ Ack.never ∉ (ready rc8 noZeroMem).acks ∧
    ∀ a, memByte { ready rc8 noZeroMem with seq := .decode, opr := 0xC000FFFF#32 } a ≠ 0x00#8 := by
  refine ⟨lcdReady_of rfl rfl rfl rfl, by decide, by decide, by decide, by decide,
    List.not_mem_nil, ?_⟩
  intro a
  have h := listed_ones (List.range 65536) a.toNat (List.mem_range.mpr a.isLt)
  simp only [memByte, ready, noZeroMem, h]
  decide

theorem witness_AmodeTracking :
    (∃ t, exec (.lcdglyph 0#3 0x0200#16) (ready rc8 hiMem) = .next t ∧ (t.seq == .idle) = true) ∧
    ∀ c, planOf (.lcdglyph 0#3 0x0200#16) (ready rc8 hiMem) ≠ .fault c :=
  ⟨of_nextWith (by decide +kernel), fun _ h => by cases h⟩

theorem witness_CycleCounts :
    rc4.wf = true ∧ fixedCycles rc4 (.lcdcmd 0x03#8) = some 1538 ∧
    (∀ c, planOf (.lcdcmd 0x03#8) (ready rc4 []) ≠ .fault c) ∧
    (∃ t, exec (.lcdcmd 0x03#8) (ready rc4 []) = .next t ∧ (t.cycles == 1538) = true) :=
  ⟨by decide, by decide, (fun _ h => by cases h), of_nextWith (by decide +kernel)⟩

theorem witness_ModesStayInAgreement :
    rc8.wf = true ∧ initBytesProper rc8 = true ∧ (ready rc8 []).inSyncSteps = false ∧ WireSeen (ready rc8 []) ∧
    Tracked (ready rc8 []) ∧ (ready rc8 []).readable 1000000 = some (inStepDisp rc8 0#7) ∧
    ModesAgree 1000000 (ready rc8 []) ∧
    ∃ t, exec (.lcdcmd 0x40#8) (ready rc8 []) = .next t ∧ (t.seq == .idle && t.amode == .cgram) = true := by
  refine ⟨by decide, by decide, rfl, wireSeen_of rfl rfl rfl, fun _ => witness_inStep _, rfl, ?_,
    of_nextWith (by decide +kernel)⟩
  intro d h
  have : some (inStepDisp rc8 0#7) = some d := h
  cases this
  rfl

/-- A display in step at its last valid address, with and without a shift on write. -/
theorem witness_LcdcharWritesTheDisplay (sh : Bool) :
    LcdReady (showing { inStepDisp rc8 0x67#7 with S := some sh }) ∧
    InStep (showing { inStepDisp rc8 0x67#7 with S := some sh }) ∧ ddramValid rc8 true 0x67#7 = true ∧
    ddramNext rc8 true 0x67#7 true = 0x00#7 ∧ dispTimingOk rc8 1000000 = true :=
  ⟨lcdReady_of rfl rfl rfl rfl, ⟨rfl, rfl, rfl, rfl⟩, by decide, by decide, by decide⟩

/-- "HI" in the last two columns of row 1. -/
theorem witness_LcdstratShowsTheString :
    LcdReady (ready rc8 hiMem) ∧ InStep (ready rc8 hiMem) ∧ (1#2).toNat < rc8.lcdRows ∧
    StringAt (ready rc8 hiMem) 0x0100#16 [0x48#8, 0x49#8] ∧ Answered (ready rc8 hiMem) 3 ∧
    (14#6).toNat + 2 ≤ rc8.lcdCols ∧ (ready rc8 hiMem).disp.N = some true ∧ (ready rc8 hiMem).disp.ID = some true ∧
    (ready rc8 hiMem).disp.S = some false ∧ (ready rc8 hiMem).disp.D = some true ∧
    (ready rc8 hiMem).disp.shifted = false ∧
    dispTimingOk rc8 1000000 = true ∧
    (∀ k, k < 2 → ddramValid rc8 true (ddramAddr rc8 1#2 14#6 + BitVec.ofNat 7 k) = true) ∧
    ∀ k, k + 1 < 2 → ddramNext rc8 true (ddramAddr rc8 1#2 14#6 + BitVec.ofNat 7 k) true =
      ddramAddr rc8 1#2 14#6 + BitVec.ofNat 7 (k + 1) := by
  refine ⟨witness_lcdReady _, witness_inStep _, by decide, witness_stringAt.1, witness_answered 3, by decide, rfl, rfl,
    rfl, rfl, rfl, by decide, by decide, ?_⟩
  intro k hk
  obtain rfl : k = 0 := by omega
  decide

theorem witness_GlyphHazard :
    LcdReady (ready rc8 hiMem) ∧ InStep (ready rc8 hiMem) ∧ (ready rc8 hiMem).disp.ID = some true ∧
    (ready rc8 hiMem).raced = [] ∧ Answered (ready rc8 hiMem) 8 ∧ dispTimingOk rc8 1000000 = true :=
  ⟨witness_lcdReady _, witness_inStep _, rfl, rfl, witness_answered 8, by decide⟩

theorem witness_ResetRestoresTheBlock :
    (moving rc8 .reset).cfg.wf = true ∧ (moving rc8 .reset).host = [.reset] := ⟨by decide, rfl⟩

theorem witness_StateAfterReset : ioInit rc8 rc8.ctrlReg = some 0#8 ∧ ioInit (unknownAt 0x38#7) 0x38#7 = none := by
  decide

theorem witness_EveryStepKeepsTheInvariant :
    MachineInv (moving rc8 (.offer 0x1300003B#32)) ∧ CounterFits (moving rc8 (.offer 0x1300003B#32)) ∧
    ∃ t, step (moving rc8 (.offer 0x1300003B#32)) = .next t ∧ (ioCell t 0x3B#7 == some 0x08#8) = true := by
  refine ⟨⟨rfl, rfl, .inl rfl, fun _ => ⟨rfl, rfl⟩, by decide, fun _ _ h => List.not_mem_nil h,
    fun _ => ⟨rfl, rfl, rfl, rfl, rfl⟩, wireSeen_of rfl rfl rfl⟩, ⟨by decide, fun _ h => absurd h List.not_mem_nil⟩, of_nextWith (by decide +kernel)⟩

end Sys2Proof.Tests
end

section
/-! The refusal of an ill-formed configuration (00_scope.md R8): each named check as the statement it makes, the
refusals a run under a well-formed configuration can meet, and O7. -/

namespace Sys2Proof.Cfg

open Sys2Proof.Machine

theorem cfgBus_iff (c : Cfg) : c.cfgBus = true ↔ c.lcdBus = 4 ∨ c.lcdBus = 8 := by
  simp only [cfgBus, Bool.or_eq_true, beq_iff_eq]

theorem cfgShift_iff (c : Cfg) :
    c.cfgShift = true ↔ (c.lcdBus = 8 → c.dataShift = 0) ∧ (c.lcdBus = 4 → c.dataShift ≤ 4) := by
  simp only [cfgShift, Bool.and_eq_true, Bool.or_eq_true, bne_iff_ne, beq_iff_eq, decide_eq_true_eq, ne_eq,
    imp_iff_not_or]

theorem cfgRsE_iff (c : Cfg) : c.cfgRsE = true ↔ c.rsBit ≠ c.eBit := by
  simp only [cfgRsE, bne_iff_ne]

theorem cfgOverlap_iff (c : Cfg) :
    c.cfgOverlap = true ↔ (c.ctrlReg = c.dataReg →
      (dmask c).getLsbD c.rsBit.toNat = false ∧ (dmask c).getLsbD c.eBit.toNat = false) := by
  simp only [cfgOverlap, Bool.or_eq_true, Bool.and_eq_true, bne_iff_ne, ne_eq, Bool.not_eq_true', imp_iff_not_or]

theorem cfgDirOverlap_iff (c : Cfg) :
    c.cfgDirOverlap = true ↔ c.ctrlDirReg ≠ c.ctrlReg ∧ c.dataDirReg ≠ c.dataReg := by
  simp only [cfgDirOverlap, Bool.and_eq_true, bne_iff_ne]

/-- The check looks each LCD register up among the input registers; read from the input registers, none is an LCD
register. -/
theorem cfgLcdNonvolatile_iff (c : Cfg) :
    c.cfgLcdNonvolatile = true ↔
      ∀ a ∈ c.ioVolatile, a ≠ c.ctrlReg ∧ a ≠ c.dataReg ∧ a ≠ c.ctrlDirReg ∧ a ≠ c.dataDirReg := by
  have not_contains (r : IoAddr) : (!c.ioVolatile.contains r) = true ↔ ∀ a ∈ c.ioVolatile, a ≠ r := by
    rw [Bool.not_eq_true', ← Bool.not_eq_true, List.contains_iff_mem, List.forall_mem_ne']
  simp only [cfgLcdNonvolatile, Bool.and_eq_true, not_contains, forall_and, and_assoc]

theorem cfgGeom_iff (c : Cfg) :
    c.cfgGeom = true ↔ 1 ≤ c.lcdRows ∧ c.lcdRows ≤ 4 ∧ 1 ≤ c.lcdCols ∧ c.lcdCols ≤ 40 := by
  simp only [cfgGeom, Bool.and_eq_true, decide_eq_true_eq, and_assoc]

/-- The check counts the rows as numbers below 4, which are the values of a two-bit row number. -/
theorem cfgRowbase_iff (c : Cfg) :
    c.cfgRowbase = true ↔
      ∀ r : BitVec 2, r.toNat < c.lcdRows → (rowBase c r).toNat + c.lcdCols - 1 ≤ 0x7F := by
  simp only [cfgRowbase, List.all_eq_true, List.mem_finRange, true_imp_iff, Bool.or_eq_true, Bool.not_eq_true',
    decide_eq_false_iff_not, decide_eq_true_eq, ← imp_iff_not_or]
  constructor
  · intro h r
    simpa using h r.toFin
  · intro h r
    simpa [Nat.mod_eq_of_lt r.isLt] using h (BitVec.ofNat 2 r.val)

theorem cfgTimes_iff (c : Cfg) :
    c.cfgTimes = true ↔
      (∀ t ∈ [c.tPwrup, c.tInitA, c.tInitB, c.tEpw, c.tCmd], 1 ≤ t) ∧ c.tCmd ≤ c.tClear ∧
      (∀ t ∈ [c.tPwrup, c.tInitA, c.tInitB, c.tEpw, c.tNib, c.tCmd, c.tClear], t < 2 ^ c.wcw) := by
  simp only [cfgTimes, Bool.and_eq_true, List.all_eq_true, decide_eq_true_eq, and_assoc]

end Sys2Proof.Cfg

namespace Sys2Proof.Machine

/-- The outcome, if it is a refusal, is one of an access to an I/O register (R66, R67). -/
def RefusesOnlyAccess {α : Type} (r : Res α) : Prop :=
  ∀ e, r = .refused e → ∃ a, e = .ioReadUnknown a ∨ e = .ioWriteVolatile a

namespace RefusesOnlyAccess

variable {α β : Type}

theorem next (a : α) : RefusesOnlyAccess (.next a) := by
  intro e h
  cases h

theorem fault (f : Fault) : RefusesOnlyAccess (α := α) (.fault f) := by
  intro e h
  cases h

theorem ioReadUnknown (a : IoAddr) : RefusesOnlyAccess (α := α) (.refused (.ioReadUnknown a)) := by
  intro e h
  cases h
  exact ⟨a, .inl rfl⟩

theorem ioWriteVolatile (a : IoAddr) : RefusesOnlyAccess (α := α) (.refused (.ioWriteVolatile a)) := by
  intro e h
  cases h
  exact ⟨a, .inr rfl⟩

theorem andThen {r : Res α} {f : α → Res β} (hr : RefusesOnlyAccess r) (hf : ∀ a, RefusesOnlyAccess (f a)) :
    RefusesOnlyAccess (Machine.andThen r f) := by
  cases r with
  | next a => exact hf a
  | fault f => exact fault f
  | refused e =>
    intro e' h
    cases h
    exact hr e rfl

theorem ite {p : Prop} [Decidable p] {r q : Res α} (hr : RefusesOnlyAccess r) (hq : RefusesOnlyAccess q) :
    RefusesOnlyAccess (if p then r else q) := by
  split
  · exact hr
  · exact hq

theorem not_configIllFormed {r : Res α} (h : RefusesOnlyAccess r) : r ≠ .refused .configIllFormed := by
  intro hr
  obtain ⟨a, ha | ha⟩ := h _ hr <;> cases ha

end RefusesOnlyAccess

/-! ### Micro-steps, loops and operations -/

theorem ioRead_refusesOnlyAccess (a : IoAddr) (s : State) : RefusesOnlyAccess (ioRead a s) := by
  unfold ioRead
  split
  · exact .next _
  · split
    · exact .ioReadUnknown a
    · exact .next _

theorem ioWrite_refusesOnlyAccess (o : Origin) (a : IoAddr) (v : Byte) (s : State) :
    RefusesOnlyAccess (ioWrite o a v s) :=
  .ite (.ioWriteVolatile a) (.next _)

theorem run_refusesOnlyAccess (m : Micro) (s : State) : RefusesOnlyAccess (m.run s) := by
  cases m with
  | rd a => exact (ioRead_refusesOnlyAccess a s).andThen fun _ => .next _
  | wr o a f => exact ioWrite_refusesOnlyAccess o a _ s
  | sample a pin level => exact (ioRead_refusesOnlyAccess a s).andThen fun _ => .next _
  | wait n => exact .next _
  | reg r => exact .next _

theorem perform_refusesOnlyAccess (l : List Micro) (s : State) : RefusesOnlyAccess (perform l s) := by
  induction l generalizing s with
  | nil => exact .next s
  | cons m l ih => exact (run_refusesOnlyAccess m s).andThen ih

theorem runLoop_refusesOnlyAccess (k : Nat) (s : State) : RefusesOnlyAccess (runLoop k s) := by
  induction k generalizing s with
  | zero =>
    rw [runLoop.eq_def]
    split <;> exact .next _
  | succ k ih =>
    by_cases hl : s.loop = .done
    · rw [runLoop_done _ _ hl]
      exact .next _
    · rw [runLoop_step hl]
      split
      · exact .next _
      · exact (perform_refusesOnlyAccess _ _).andThen ih

theorem complete_refusesOnlyAccess (l : List Micro) (s : State) : RefusesOnlyAccess (complete l s) :=
  (perform_refusesOnlyAccess l s).andThen (runLoop_refusesOnlyAccess lap)

theorem exec_refusesOnlyAccess (i : Instr) (s : State) : RefusesOnlyAccess (exec i s) := by
  rw [exec_eq]
  cases planOf i s with
  | fault c => exact .next _
  | go todo l => exact complete_refusesOnlyAccess todo _

/-! ### The moves of the host -/

theorem runWord_refusesOnlyAccess (s : State) : RefusesOnlyAccess (runWord s) := by
  unfold runWord
  split
  · exact exec_refusesOnlyAccess _ s
  · exact .next _

theorem runOn_refusesOnlyAccess (s : State) : RefusesOnlyAccess (runOn s) := by
  unfold runOn
  split
  · exact .next _
  · exact runWord_refusesOnlyAccess s
  · exact complete_refusesOnlyAccess _ _

theorem runCycle_refusesOnlyAccess (s : State) : RefusesOnlyAccess (runCycle s) := by
  unfold runCycle
  split
  · exact .next _
  · exact .next _
  · exact (run_refusesOnlyAccess _ s).andThen fun _ => .next _
  · exact .ite (.next _) (.next _)

theorem tick_refusesOnlyAccess (s : State) : RefusesOnlyAccess (tick s) := by
  unfold tick
  split
  · exact .next _
  · split
    · exact .next _
    · split <;> exact .next _
  · exact runCycle_refusesOnlyAccess s

theorem ticks_refusesOnlyAccess (n : Nat) (s : State) : RefusesOnlyAccess (ticks n s) := by
  induction n generalizing s with
  | zero => exact .next s
  | succ n ih => exact (tick_refusesOnlyAccess s).andThen ih

theorem hostIoWrite_refusesOnlyAccess (a : IoAddr) (v : Byte) (s : State) :
    RefusesOnlyAccess (hostIoWrite a v s) :=
  .ite (.fault _) (.ite (.ioWriteVolatile a) (.next _))

theorem hostStep_refusesOnlyAccess (s : State) : RefusesOnlyAccess (hostStep s) := by
  unfold hostStep
  cases s.host with
  | nil => exact runOn_refusesOnlyAccess s
  | cons m r =>
    cases m with
    | offer w => exact (runOn_refusesOnlyAccess s).ite (runWord_refusesOnlyAccess _)
    | start w => exact (runOn_refusesOnlyAccess s).ite (.next _)
    | clock n => exact ticks_refusesOnlyAccess n _
    | reset => exact .next _
    | memWrite a v => exact .next _
    | ioWrite a v => exact hostIoWrite_refusesOnlyAccess a v _
    | ack k => exact .next _

/-! ### The step -/

/-- The check of R8 alone decides this refusal: under a well-formed configuration only an access is refused. -/
theorem step_eq_configIllFormed_iff (s : State) :
    step s = .refused .configIllFormed ↔ ¬ s.cfg.wf = true := by
  unfold step
  split
  case isTrue hw => exact iff_of_false (hostStep_refusesOnlyAccess s).not_configIllFormed (not_not_intro hw)
  case isFalse hw => exact iff_of_true rfl hw

/-- Settles O7: the refusal is decided by `Cfg.wf`, and each of its nine checks is the one R8 names. -/
theorem illFormedConfigurationIsRefused : Obligations.IllFormedConfigurationIsRefused := by
  intro s
  rw [step_eq_configIllFormed_iff]
  simp only [Cfg.wf, Bool.and_eq_true, Cfg.cfgBus_iff, Cfg.cfgShift_iff, Cfg.cfgRsE_iff, Cfg.cfgOverlap_iff,
    Cfg.cfgDirOverlap_iff, Cfg.cfgLcdNonvolatile_iff, Cfg.cfgGeom_iff, Cfg.cfgRowbase_iff, Cfg.cfgTimes_iff, and_assoc]

end Sys2Proof.Machine
end

section
/-! The architectural state (10_state.md): what each field of STATUS and the ports of an idle block read (R20, R24, R25),
what an edge with `rst` = 1 does (R35, R370 to R373), and O10 and O56. -/

namespace Sys2Proof.Machine

/-! ### STATUS -/

theorem busy_eq_true_iff (s : State) : s.busy = true ↔ s.seq ≠ .idle := by
  simp only [State.busy, bne_iff_ne]

theorem Amode.bit_getLsbD_zero (m : Amode) : m.bit.getLsbD 0 = true ↔ m = .cgram := by
  cases m <;> decide

/-- The one-bit fields: reading bit `k` of an appended word leads to the part that holds it, at its own index. -/
theorem status_oneBitFields (s : State) :
    s.status.getLsbD 0 = s.busy ∧ s.status.getLsbD 1 = s.initDone ∧ s.status.getLsbD 2 = s.fault ∧
    s.status.getLsbD 3 = s.amode.bit.getLsbD 0 := by
  simp only [State.status, BitVec.getLsbD_append, BitVec.getLsbD_ofBool, Nat.reduceLT, Nat.reduceSub, if_true,
    if_false, decide_true, Bool.true_and, and_self]

/-- Below a four-bit field stand whole parts of the word; they drop away, and the field is the lowest part left. -/
theorem status_fcode (s : State) : s.status.extractLsb' 4 4 = s.fcode.code := by
  simp (disch := decide) only [State.status, BitVec.extractLsb'_append_eq_of_le]
  exact BitVec.extractLsb'_append_eq_right

theorem status_fop (s : State) : s.status.extractLsb' 8 4 = s.fop := by
  simp (disch := decide) only [State.status, BitVec.extractLsb'_append_eq_of_le]
  exact BitVec.extractLsb'_append_eq_right

theorem status_hardwired (s : State) : s.status.extractLsb' 12 4 = 0#4 := by
  simp (disch := decide) only [State.status, BitVec.extractLsb'_append_eq_of_le]
  exact BitVec.extractLsb'_eq_self

/-! ### The ports -/

/-- `op_ready` does not depend on what the block is running, only on whether it runs (R25). -/
theorem ports_opReady (s : State) (rst : Bool) : (s.ports rst).opReady = (!rst && !s.busy) := by
  unfold State.ports
  split
  case isTrue => rfl
  case isFalse =>
    split
    case h_4 => split <;> rfl
    all_goals rfl

/-- An idle block makes no access (R20), so its ports drive nothing but `op_ready`. -/
theorem ports_of_idle {s : State} (h : s.seq = .idle) (rst : Bool) :
    s.ports rst = { opReady := !rst, ioAddr := 0#7, ioRd := false, ioWr := false, ioWdata := 0#8,
                    memReq := false, memAddr := 0#16 } := by
  simp [State.ports, State.busy, h]

/-- Settles O10, from the lemmas about each field of STATUS and about `op_ready`. -/
theorem statusAndReady : Obligations.StatusAndReady := by
  intro s
  obtain ⟨hbusy, hinit, hfault, hamode⟩ := status_oneBitFields s
  refine ⟨?_, hinit, hfault, ?_, status_fcode s, status_fop s, status_hardwired s, ?_, ports_opReady s true⟩
  · rw [hbusy, busy_eq_true_iff]
  · rw [hamode, Amode.bit_getLsbD_zero]
  · rw [ports_opReady, hbusy, Bool.not_false, Bool.true_and]

/-! ### Reset -/

theorem step_of_reset {s : State} {r : List HostMove} (hwf : s.cfg.wf = true) (hh : s.host = .reset :: r) :
    step s = .next (s.setHost r).blockReset := by
  simp only [step, hwf, if_true, hostStep, hh]

theorem resetWith_status (c : Cfg) : (State.resetWith c).status = 0#16 := by
  simp [State.status, State.busy, State.resetWith, FCode.code, Amode.bit]

/-- A reset differs from `resetWith` in no field of STATUS. -/
theorem blockReset_status (s : State) : s.blockReset.status = 0#16 := resetWith_status s.cfg

theorem blockReset_btn (s : State) (k : Fin 8) : s.blockReset.btn.get k = Button.unbound :=
  Vector.get_replicate 8 Button.unbound k

theorem blockReset_ports (s : State) (rst : Bool) :
    s.blockReset.ports rst = { opReady := !rst, ioAddr := 0#7, ioRd := false, ioWr := false, ioWdata := 0#8,
                               memReq := false, memAddr := 0#16 } :=
  ports_of_idle rfl rst

/-- Settles O56: the step is `blockReset`. It writes every register of R35; what stands outside the block it carries
over (R372), and the display takes `onReset` (R283). -/
theorem resetRestoresTheBlock : Obligations.ResetRestoresTheBlock := by
  intro s r hwf hh
  refine ⟨(s.setHost r).blockReset, step_of_reset hwf hh, blockReset_status _, rfl, blockReset_btn _, ?_⟩
  have hports := blockReset_ports (s.setHost r) false
  exact ⟨rfl, rfl, rfl, rfl, rfl, rfl, rfl, rfl, rfl, rfl, rfl, rfl, rfl, rfl, rfl, rfl, rfl, hports, rfl⟩

end Sys2Proof.Machine
end

section
/-! Host memory (20_memory.md R60 to R64). Replacing the whole of host memory commutes with every micro-step, hence with
every operation that has no loop over host memory (R61); and what commutes with it writes no host memory (R64). O34. -/

namespace Sys2Proof.Machine

/-- The state with all of host memory replaced. -/
def State.withMem (s : State) (m : Memory) : State := { s with mem := m }

@[simp] theorem State.withMem_mem (s : State) (m : Memory) : (s.withMem m).mem = m := rfl
@[simp] theorem State.withMem_self (s : State) : s.withMem s.mem = s := rfl

/-- What `f` does is the same whatever host memory holds, and it carries host memory along. -/
def IgnoresMem (f : State → Res State) : Prop :=
  ∀ (s : State) (m : Memory), f (s.withMem m) = andThen (f s) fun t => .next (t.withMem m)

namespace IgnoresMem

variable {f g : State → Res State}

theorem andThen (hf : IgnoresMem f) (hg : IgnoresMem g) : IgnoresMem fun s => Machine.andThen (f s) g := by
  intro s m
  simp only [hf s m, andThen_assoc, andThen_next, hg _ m]

/-- Put back the memory that was there before: nothing changes, so the outcome's memory is that memory too. -/
theorem mem_eq (hf : IgnoresMem f) {s t : State} (h : f s = .next t) : t.mem = s.mem := by
  have hback := hf s s.mem
  rw [State.withMem_self, h, andThen_next, Host.Outcome.next.injEq] at hback
  rw [hback, State.withMem_mem]

end IgnoresMem

/-! ### Micro-steps -/

/-- A register's value comes from the I/O space or from a draw, neither of which is host memory (R60, R66). -/
theorem ioRead_withMem (a : IoAddr) (s : State) (m : Memory) :
    ioRead a (s.withMem m) = andThen (ioRead a s) fun p => .next (p.1, p.2.withMem m) := by
  cases hv : s.cfg.ioVolatile.contains a with
  | true => rw [ioRead_volatile a s hv, ioRead_volatile a (s.withMem m) hv]; rfl
  | false =>
    cases hc : ioCell s a with
    | none => rw [ioRead_unknown a s hv hc, ioRead_unknown a (s.withMem m) hv hc]; rfl
    | some x => rw [ioRead_stored a s x hv hc, ioRead_stored a (s.withMem m) x hv hc]; rfl

theorem ioWrite_ignoresMem (o : Origin) (a : IoAddr) (v : Byte) : IgnoresMem (ioWrite o a v) := by
  intro s m
  cases hv : s.cfg.ioVolatile.contains a with
  | true => rw [ioWrite_volatile o a v s hv, ioWrite_volatile o a v (s.withMem m) hv]; rfl
  | false => rw [ioWrite_stored o a v s hv, ioWrite_stored o a v (s.withMem m) hv]; rfl

theorem run_ignoresMem (x : Micro) : IgnoresMem x.run := by
  intro s m
  cases x with
  | rd a => simp only [Micro.run, ioRead_withMem, andThen_assoc, andThen_next]; rfl
  | wr o a f =>
    have hval : f.apply (s.withMem m) (s.withMem m).rmwv = f.apply s s.rmwv := upd_apply_congr f s.rmwv rfl rfl rfl
    simp only [Micro.run, hval, ioWrite_ignoresMem o a _ s m]
  | sample a pin level => simp only [Micro.run, ioRead_withMem, andThen_assoc, andThen_next]; rfl
  | wait n => rfl
  | reg r => cases r <;> rfl

theorem perform_ignoresMem (l : List Micro) : IgnoresMem (perform l) := by
  induction l with
  | nil => exact fun _ _ => rfl
  | cons x l ih => exact (run_ignoresMem x).andThen ih

/-! ### Operations -/

/-- No micro-step begins a loop. -/
theorem run_keeps_loop_done {x : Micro} {s t : State} (hs : s.loop = .done) (h : x.run s = .next t) :
    t.loop = .done := by
  cases x with
  | rd a =>
    obtain ⟨p, hp, ht⟩ := andThen_eq_next.mp h
    cases ht
    obtain ⟨_, _, hu⟩ | ⟨_, _, hu⟩ := ioRead_cases hp <;> simp [hu, hs]
  | wr o a f =>
    obtain ⟨_, rfl⟩ := ioWrite_cases h
    exact hs
  | sample a pin level =>
    obtain ⟨p, hp, ht⟩ := andThen_eq_next.mp h
    cases ht
    obtain ⟨_, _, hu⟩ | ⟨_, _, hu⟩ := ioRead_cases hp <;> simp [hu, hs]
  | wait n => cases h; exact hs
  | reg r => cases h; cases r <;> simp [RegWrite.apply, hs]

theorem complete_withMem_of_loop_done (l : List Micro) {s : State} (hs : s.loop = .done) (m : Memory) :
    complete l (s.withMem m) = andThen (complete l s) fun t => .next (t.withMem m) := by
  unfold complete
  rw [perform_ignoresMem l s m]
  cases hp : perform l s with
  | fault e => rfl
  | refused e => rfl
  | next u =>
    have hu : u.loop = .done :=
      perform_keeps (fun s => s.loop = .done) l (fun _ _ _ _ => run_keeps_loop_done) s u hs hp
    simp only [andThen_next, runLoop_done _ u hu, runLoop_done _ (u.withMem m) hu]
    rfl

/-- DECODE does not look at host memory. -/
theorem planOf_withMem (i : Instr) (s : State) (m : Memory) : planOf i (s.withMem m) = planOf i s := by
  cases i <;> rfl

/-- The plan has no loop over host memory. -/
def Plan.Loopless (p : Plan) : Prop := ∀ todo l, p = .go todo l → l = .done

namespace Plan.Loopless

theorem go (todo : List Micro) : (Plan.go todo .done).Loopless := by
  intro _ _ h
  cases h
  rfl

theorem fault (c : FCode) : (Plan.fault c).Loopless := by
  intro _ _ h
  cases h

theorem ite {c : Prop} [Decidable c] {p q : Plan} (hp : p.Loopless) (hq : q.Loopless) :
    (if c then p else q).Loopless := by
  split
  · exact hp
  · exact hq

end Plan.Loopless

/-- Only the string and glyph operations loop over host memory (R61). -/
theorem planOf_loopless {i : Instr} (s : State) (hstr : ∀ a, i ≠ .lcdstr a) (hstrat : ∀ r c a, i ≠ .lcdstrat r c a)
    (hglyph : ∀ g a, i ≠ .lcdglyph g a) : (planOf i s).Loopless := by
  cases i with
  | nop | setbit | resetbit | togglebit | setpindir | setpinstate | getpinstate | btninit => exact .go _
  | btnget | lcdcmd | lcdchar | lcdclear => exact .ite (.go _) (.fault _)
  | lcdinit => exact .ite (.fault _) (.go _)
  | lcdstr a => exact absurd rfl (hstr a)
  | lcdstrat r c a => exact absurd rfl (hstrat r c a)
  | lcdglyph g a => exact absurd rfl (hglyph g a)

theorem exec_ignoresMem {i : Instr} (hstr : ∀ a, i ≠ .lcdstr a) (hstrat : ∀ r c a, i ≠ .lcdstrat r c a)
    (hglyph : ∀ g a, i ≠ .lcdglyph g a) : IgnoresMem (exec i) := by
  intro s m
  rw [exec_eq, exec_eq, planOf_withMem]
  cases hp : planOf i s with
  | fault c => rfl
  | go todo l =>
    obtain rfl := planOf_loopless s hstr hstrat hglyph todo l hp
    exact complete_withMem_of_loop_done todo (s := (s.log .decode).toRun .done) rfl m

/-! ### What leaves host memory as it was -/

theorem memRead_mem {s t : State} {b : Byte} (h : memRead s = some (b, t)) : t.mem = s.mem := by
  obtain ⟨_, ⟨_, rfl⟩ | ⟨n, r, _, rfl⟩⟩ := memRead_cases h
  · exact memTaken_mem ..
  · rfl

@[simp] theorem raiseFault_mem (c : FCode) (s : State) : (raiseFault c s).mem = s.mem := rfl

theorem runLoop_mem {k : Nat} {s t : State} (h : runLoop k s = .next t) : t.mem = s.mem := by
  refine runLoop_keeps (fun u => u.mem = s.mem) (fun u hu => hu) (fun u hu => hu) ?_ k s t rfl h
  intro u b v w hu hread hturn
  rw [(perform_ignoresMem _).mem_eq hturn, memRead_mem hread, hu]

theorem exec_mem {i : Instr} {s t : State} (h : exec i s = .next t) : t.mem = s.mem := by
  obtain ⟨c, _, rfl⟩ | ⟨todo, l, u, _, hperform, hloop⟩ := exec_cases h
  · rfl
  · rw [runLoop_mem hloop, (perform_ignoresMem todo).mem_eq hperform]
    rfl

/-! ### Clock cycles -/

@[simp] theorem atEdge_mem (l : List Micro) (s : State) : (atEdge l s).mem = s.mem := by
  fun_induction atEdge l s with
  | case1 s _ => rfl
  | case2 s _ => rfl
  | case3 s r t ih => rw [ih, RegWrite.apply_mem]
  | case4 s t ih => rw [ih, State.setWcnt_mem]
  | case5 s n t _ => rfl
  | case6 s x t _ _ => rfl

@[simp] theorem memCycle_mem (s : State) : (memCycle s).mem = s.mem := by
  unfold memCycle
  split <;> simp [turnBegins]

theorem runCycle_mem {s t : State} (h : runCycle s = .next t) : t.mem = s.mem := by
  unfold runCycle at h
  split at h
  case h_1 =>
    cases h
    split <;> simp
  case h_2 =>
    cases h
    exact atEdge_mem ..
  case h_3 x l _ _ _ =>
    obtain ⟨u, hu, ht⟩ := andThen_eq_next.mp h
    cases ht
    rw [atEdge_mem, (run_ignoresMem x).mem_eq hu]
  case h_4 =>
    split at h <;> cases h
    · rfl
    · exact memCycle_mem s

theorem tick_mem {s t : State} (h : tick s = .next t) : t.mem = s.mem := by
  unfold tick at h
  split at h
  case h_1 => cases h; rfl
  case h_2 =>
    split at h
    · cases h; rfl
    · split at h <;> cases h
      · rfl
      · exact atEdge_mem ..
  case h_3 => exact runCycle_mem h

theorem ticks_mem {n : Nat} {s t : State} (h : ticks n s = .next t) : t.mem = s.mem := by
  induction n generalizing s with
  | zero => cases h; rfl
  | succ n ih =>
    obtain ⟨u, hu, ht⟩ := andThen_eq_next.mp h
    rw [ih ht, tick_mem hu]

/-- Settles O34. Every micro-step ignores host memory, so an operation without a loop ignores it too, and no micro-step
writes it; the loops and the clock cycles add only reads. -/
theorem hostMemoryIsReadOnly : Obligations.HostMemoryIsReadOnly :=
  ⟨fun _ _ _ => exec_mem, fun _ _ _ => ticks_mem,
    fun _ s m hstr hstrat hglyph => exec_ignoresMem hstr hstrat hglyph s m⟩

end Sys2Proof.Machine
end

section
/-! The opcode map (30_encoding.md R92, R98, R99) and the worked encodings (R105). A mask of R92 covers the opcode
`w[31:28]` and the reserved fields of its row, so a word matches the row of its own opcode exactly when those fields are
zero, which is what the decoder tests; and it matches no other row. O4, O1. -/

namespace Sys2Proof.Machine

/-- The row of the opcode map at an opcode (R92). -/
def opcodeRow (opc : BitVec 4) : OpRow := opcodeMap[opc.toNat]'opc.isLt

/-- The reserved fields of each opcode's format (R91), as pairs of lowest bit and length. -/
def reservedFields (opc : BitVec 4) : List (Nat × Nat) :=
  match opc.toNat with
  | 0x0 | 0x9 | 0xE => [(0, 28)]
  | 0x1 | 0x2 | 0x3 | 0x6 => [(27, 1), (7, 17)]
  | 0x4 | 0x5 => [(7, 17)]
  | 0x7 => [(27, 1)]
  | 0x8 => [(24, 4), (0, 21)]
  | 0xA | 0xB => [(8, 20)]
  | 0xC => [(16, 12)]
  | 0xD => [(16, 4)]
  | _ => [(27, 1), (16, 8)]

/-- The mask `m` has ones exactly at the opcode and at the fields `fs`. -/
def Covers (m : OpWord) (fs : List (Nat × Nat)) : Prop :=
  (∀ f ∈ fs, f.1 + f.2 ≤ 28) ∧ ∀ j < 32, (m.getLsbD j = true ↔ 28 ≤ j ∨ ∃ f ∈ fs, f.1 ≤ j ∧ j < f.1 + f.2)

theorem opcodeRow_mem (opc : BitVec 4) : opcodeRow opc ∈ opcodeMap := List.getElem_mem _

theorem opcodeRow_value (opc : BitVec 4) : (opcodeRow opc).value = opc ++ 0#28 := by revert opc; decide

theorem opcodeRow_mask_covers (opc : BitVec 4) : Covers (opcodeRow opc).mask (reservedFields opc) := by
  unfold Covers; revert opc; decide

theorem opcodeRow_mnemonic (i : Instr) : (opcodeRow (opcOf i)).mnemonic = mnemonicOf i := by cases i <;> rfl

theorem opcode_of_mem : ∀ r ∈ opcodeMap, field r.mask 28 4 = 0xF#4 ∧ r = opcodeRow (field r.value 28 4) := by decide

theorem opcodeMap_mnemonics_nodup : (opcodeMap.map OpRow.mnemonic).Nodup := by decide

/-- A word matches at most the row of its own opcode. -/
theorem eq_opcodeRow_of_matches {w : OpWord} {r : OpRow} (hr : r ∈ opcodeMap) (h : w &&& r.mask = r.value) :
    r = opcodeRow (field w 28 4) := by
  obtain ⟨hmask, hrow⟩ := opcode_of_mem r hr
  have hopc : field r.value 28 4 = field w 28 4 := by
    rw [← h, field, BitVec.extractLsb'_and, ← field, ← field, hmask]
    exact BitVec.and_allOnes
  rwa [hopc] at hrow

theorem getLsbD_field {w : OpWord} {lo len j : Nat} (h : j < len) : (field w lo len).getLsbD j = w.getLsbD (lo + j) := by
  simp [field, h]

/-- Under a mask of the opcode and the fields `fs` nothing but the opcode is left exactly when all these fields are
zero. -/
theorem and_mask_eq_opcode_iff {w m : OpWord} {fs : List (Nat × Nat)} (hm : Covers m fs) :
    w &&& m = field w 28 4 ++ 0#28 ↔ ∀ f ∈ fs, field w f.1 f.2 = 0#f.2 := by
  obtain ⟨hfs, hbits⟩ := hm
  constructor
  · intro h f hf
    apply BitVec.eq_of_getLsbD_eq
    intro j hj
    have hlt : f.1 + j < 28 := by have := hfs f hf; omega
    have hmj : m.getLsbD (f.1 + j) = true := (hbits _ (by omega)).mpr (.inr ⟨f, hf, by omega, by omega⟩)
    calc (field w f.1 f.2).getLsbD j
      _ = (w &&& m).getLsbD (f.1 + j) := by rw [getLsbD_field hj, BitVec.getLsbD_and, hmj, Bool.and_true]
      _ = (0#f.2).getLsbD j := by rw [h, BitVec.getLsbD_append, if_pos hlt, BitVec.getLsbD_zero, BitVec.getLsbD_zero]
  · intro h
    apply BitVec.eq_of_getLsbD_eq
    intro j hj
    rw [BitVec.getLsbD_and, BitVec.getLsbD_append]
    by_cases h28 : j < 28
    · rw [if_pos h28, BitVec.getLsbD_zero, Bool.and_eq_false_imp]
      intro hwj
      by_contra hmj
      obtain hge | ⟨f, hf, hlo, hhi⟩ := (hbits j hj).mp (by simpa using hmj)
      · omega
      · have hz := getLsbD_field (w := w) (lo := f.1) (show j - f.1 < f.2 by omega)
        rw [h f hf, BitVec.getLsbD_zero, Nat.add_sub_cancel' hlo, hwj] at hz
        exact Bool.false_ne_true hz
    · rw [if_neg h28, (hbits j hj).mpr (.inl (by omega)), Bool.and_true, getLsbD_field (by omega),
        Nat.add_sub_cancel' (by omega)]

/-- R92 read as fields: a word matches the row of its own opcode exactly when the reserved fields are zero. -/
theorem matches_opcodeRow_iff (w : OpWord) :
    w &&& (opcodeRow (field w 28 4)).mask = (opcodeRow (field w 28 4)).value ↔
      ∀ f ∈ reservedFields (field w 28 4), field w f.1 f.2 = 0#f.2 := by
  rw [opcodeRow_value, and_mask_eq_opcode_iff (opcodeRow_mask_covers _)]

/-- The decoder answers an operation of the word's opcode behind a test of that opcode's reserved fields. -/
theorem decode_eq_reservedZero (w : OpWord) :
    ∃ ok i, decode w = reservedZero ok i ∧ opcOf i = field w 28 4 ∧
      (ok = true ↔ ∀ f ∈ reservedFields (field w 28 4), field w f.1 f.2 = 0#f.2) := by
  unfold decode
  generalize field w 28 4 = opc
  obtain ⟨k, hk⟩ := opc
  interval_cases k <;> exact ⟨_, _, rfl, rfl, by simp [reservedFields, zeroG, zeroGV]⟩

/-- All that decoding can do: the word matches the row of its own opcode and is an operation with this opcode, or it
does not match it and is ILLEGAL. -/
theorem decode_cases (w : OpWord) :
    (w &&& (opcodeRow (field w 28 4)).mask = (opcodeRow (field w 28 4)).value ∧
      ∃ i, decode w = .op i ∧ opcOf i = field w 28 4) ∨
    (w &&& (opcodeRow (field w 28 4)).mask ≠ (opcodeRow (field w 28 4)).value ∧ decode w = .illegal) := by
  obtain ⟨ok, i, hd, hopc, hok⟩ := decode_eq_reservedZero w
  rw [ne_eq, matches_opcodeRow_iff, ← hok, hd]
  cases ok with
  | true => exact .inl ⟨rfl, i, rfl, hopc⟩
  | false => exact .inr ⟨Bool.false_ne_true, rfl⟩

/-- Settles O4. A word can match only the row of its own opcode, and decoding turns on whether it matches that one. -/
theorem decodeIsTheOpcodeMap : Obligations.DecodeIsTheOpcodeMap := by
  intro w
  refine ⟨fun r hr => ?row, fun r hr r' hr' h h' => ?unique, ?illegal⟩
  case unique => rw [eq_opcodeRow_of_matches hr h, eq_opcodeRow_of_matches hr' h']
  case row =>
    obtain ⟨hmatch, i, hd, hopc⟩ | ⟨hno, hd⟩ := decode_cases w
    · have hi : mnemonicOf i = (opcodeRow (field w 28 4)).mnemonic := by rw [← hopc, opcodeRow_mnemonic]
      constructor
      · intro h
        exact ⟨i, hd, by rw [hi, ← eq_opcodeRow_of_matches hr h]⟩
      · rintro ⟨i', hd', hi'⟩
        obtain rfl : i = i' := by simpa [hd] using hd'
        rwa [List.inj_on_of_nodup_map opcodeMap_mnemonics_nodup hr (opcodeRow_mem _) (hi'.symm.trans hi)]
    · constructor
      · intro h
        exact absurd (eq_opcodeRow_of_matches hr h ▸ h) hno
      · rintro ⟨i, hd', _⟩
        simp [hd] at hd'
  case illegal =>
    obtain ⟨hmatch, i, hd, _⟩ | ⟨hno, hd⟩ := decode_cases w
    · simpa [hd] using ⟨_, opcodeRow_mem _, hmatch⟩
    · simp only [hd, true_iff]
      exact fun r hr h => hno (eq_opcodeRow_of_matches hr h ▸ h)

/-- Settles O1, by running the decoder on the 17 words of R105. -/
theorem workedEncodingsDecode : Obligations.WorkedEncodingsDecode := by
  unfold Obligations.WorkedEncodingsDecode
  decide

end Sys2Proof.Machine
end

section
/-! The pseudo-instructions of the assembler (30_encoding.md R103): what a number operand in or out of range is read as,
and the command byte of a display position as R103 writes it. O6. -/

namespace Sys2Proof.Machine

theorem numArg_of_lt {limit n : Nat} (h : n < limit) : numArg limit (.num n) = some n := if_pos h

theorem numArg_of_le {limit n : Nat} (h : limit ≤ n) : numArg limit (.num n) = none := if_neg (Nat.not_lt.mpr h)

/-- A sum modulo 128 (R250) is the low seven bits of the sum of bytes. -/
theorem setWidth_add_eq_and (b : BitVec 7) (k : Nat) (hk : k < 64) :
    (b + (BitVec.ofNat 6 k).setWidth 7).setWidth 8 = (b.setWidth 8 + BitVec.ofNat 8 k) &&& 0x7F#8 := by
  apply BitVec.eq_of_toNat_eq
  rw [BitVec.toNat_and, show (0x7F#8).toNat = 2 ^ 7 - 1 from rfl, Nat.and_two_pow_sub_one_eq_mod]
  simp only [BitVec.toNat_setWidth, BitVec.toNat_add, BitVec.toNat_ofNat]
  omega

theorem setCgramCmd_ofNat {slot : Nat} (h : slot < 8) :
    setCgramCmd (BitVec.ofNat 3 slot) = 0x40#8 ||| BitVec.ofNat 8 (slot <<< 3) := by
  interval_cases slot <;> rfl

theorem assemble_lcdgoto (c : Cfg) (args : List Arg) : assemble c ⟨"LCDGOTO", args⟩ = asmGoto c args := rfl

theorem assemble_lcdgoto_inside (c : Cfg) {row col : Nat} (hrow : row < 4) (hcol : col < 64) (hrows : row < c.lcdRows)
    (hcols : col < c.lcdCols) :
    assemble c ⟨"LCDGOTO", [.num row, .num col]⟩ =
      .ok (.lcdcmd (setDdramCmd (ddramAddr c (BitVec.ofNat 2 row) (BitVec.ofNat 6 col)))) := by
  simp only [assemble_lcdgoto, asmGoto, numArg_of_lt (lt_min hrow hrows), numArg_of_lt (lt_min hcol hcols)]

theorem assemble_lcdgoto_outside (c : Cfg) {row col : Nat} (h : c.lcdRows ≤ row ∨ c.lcdCols ≤ col) :
    assemble c ⟨"LCDGOTO", [.num row, .num col]⟩ = .refused .outOfRange := by
  rw [assemble_lcdgoto]
  obtain hrow | hcol := h
  · simp only [asmGoto, numArg_of_le (min_le_of_right_le hrow)]
    rfl
  · simp only [asmGoto, numArg_of_le (min_le_of_right_le hcol)]
    cases numArg (min 4 c.lcdRows) (.num row) <;> rfl

theorem assemble_lcdcgaddr (c : Cfg) {slot : Nat} (h : slot < 8) :
    assemble c ⟨"LCDCGADDR", [.num slot]⟩ = .ok (.lcdcmd (setCgramCmd (BitVec.ofNat 3 slot))) := by
  calc assemble c ⟨"LCDCGADDR", [.num slot]⟩
    _ = asm1 8 (fun n => .lcdcmd (setCgramCmd (BitVec.ofNat 3 n))) [.num slot] := rfl
    _ = .ok (.lcdcmd (setCgramCmd (BitVec.ofNat 3 slot))) := by simp only [asm1, numArg_of_lt h]

/-- Settles O6. The pin and home forms are read by the assembler as their expansions; the two display addresses are the
bytes R103 writes out. -/
theorem pseudoInstructionsExpand : Obligations.PseudoInstructionsExpand := by
  refine ⟨fun _ _ _ => rfl, fun _ _ _ => rfl, fun _ _ _ => rfl, fun _ _ _ => rfl, fun _ => rfl, ?goto,
    fun c _ _ => assemble_lcdgoto_outside c, ?cgaddr⟩
  case goto =>
    intro c row col hrow hcol hrows hcols
    rw [assemble_lcdgoto_inside c hrow hcol hrows hcols, setDdramCmd, ddramAddr, setWidth_add_eq_and _ _ hcol]
  case cgaddr =>
    intro c slot h
    rw [assemble_lcdcgaddr c h, setCgramCmd_ofNat h]

end Sys2Proof.Machine
end

section
/-! The bit operations SETBIT, RESETBIT and TOGGLEBIT (41_gpio.md R141 to R143) as one function of the bit each, what two
of them leave one after the other, and O22. -/

namespace Sys2Proof.Machine

/-! ### One bit of a byte -/

/-- The byte with `φ` applied to one bit. -/
def atBit (φ : Bool → Bool) (b : BitIdx) (x : Byte) : Byte :=
  if φ (x.getLsbD b.toNat) then x ||| bitMask b else x &&& ~~~bitMask b

theorem getLsbD_atBit (φ : Bool → Bool) (b : BitIdx) (x : Byte) (j : Nat) :
    (atBit φ b x).getLsbD j = if b.toNat = j then φ (x.getLsbD j) else x.getLsbD j := by
  unfold atBit
  split
  case isTrue h => rw [getLsbD_set]; split <;> simp_all
  case isFalse h => rw [getLsbD_clr]; split <;> simp_all

theorem atBit_atBit_same (φ ψ : Bool → Bool) (b : BitIdx) (x : Byte) : atBit ψ b (atBit φ b x) = atBit (ψ ∘ φ) b x := by
  apply BitVec.eq_of_getLsbD_eq
  intro j _
  simp only [getLsbD_atBit]
  split <;> rfl

theorem atBit_comm (φ ψ : Bool → Bool) {b c : BitIdx} (h : c ≠ b) (x : Byte) :
    atBit ψ c (atBit φ b x) = atBit φ b (atBit ψ c x) := by
  have hn : c.toNat ≠ b.toNat := fun e => h (BitVec.eq_of_toNat_eq e)
  apply BitVec.eq_of_getLsbD_eq
  intro j _
  simp only [getLsbD_atBit]
  by_cases hb : b.toNat = j
  · simp [hb, hb ▸ hn]
  · simp [hb]

theorem atBit_id (b : BitIdx) (x : Byte) : atBit id b x = x := by
  apply BitVec.eq_of_getLsbD_eq
  intro j _
  rw [getLsbD_atBit, id, ite_self]

theorem atBit_not (b : BitIdx) (x : Byte) : atBit not b x = x ^^^ bitMask b := by
  apply BitVec.eq_of_getLsbD_eq
  intro j _
  rw [getLsbD_atBit, BitVec.getLsbD_xor, getLsbD_bitMask_nat]
  by_cases hb : b.toNat = j
  · simp [hb]
  · simp [hb, beq_false_of_ne hb]

/-- Clearing a bit leaves a byte as it was exactly when the bit was 0 (90_conflicts.md C1). -/
theorem clr_eq_self_iff (b : BitIdx) (x : Byte) : x &&& ~~~bitMask b = x ↔ x.getLsbD b.toNat = false := by
  constructor
  · intro h
    rw [← h, getLsbD_clr]
    simp
  · intro h
    apply BitVec.eq_of_getLsbD_eq
    intro j _
    rw [getLsbD_clr]
    by_cases hb : b.toNat = j
    · simp [← hb, h]
    · simp [hb]

/-! ### The operations as functions of one bit -/

/-- In a known register that is no input register, `op` gives its bit the value `φ` of the old one, by one
read-modify-write (R68). -/
def ActsBy (op : IoAddr → BitIdx → Instr) (φ : Bool → Bool) : Prop :=
  ∀ (s : State) (r : IoAddr) (b : BitIdx) (x : Byte), s.cfg.ioVolatile.contains r = false → ioCell s r = some x →
    Rewrites (op r b) s r x (atBit φ b x)

theorem setbit_actsBy : ActsBy .setbit fun _ => true := fun _ _ _ _ hv hx =>
  rewrites_of_plan rfl (fun _ _ => rfl) hv hx

theorem resetbit_actsBy : ActsBy .resetbit fun _ => false := fun _ _ _ _ hv hx =>
  rewrites_of_plan rfl (fun _ _ => rfl) hv hx

theorem togglebit_actsBy : ActsBy .togglebit not := fun _ _ b x hv hx =>
  rewrites_of_plan rfl (fun _ _ => (atBit_not b x).symm) hv hx

theorem exists_actsBy {op : IoAddr → BitIdx → Instr} (h : op ∈ [Instr.setbit, .resetbit, .togglebit]) :
    ∃ φ, ActsBy op φ := by
  simp only [List.mem_cons, List.not_mem_nil, or_false] at h
  obtain rfl | rfl | rfl := h
  · exact ⟨_, setbit_actsBy⟩
  · exact ⟨_, resetbit_actsBy⟩
  · exact ⟨_, togglebit_actsBy⟩

theorem exists_actsBy_idempotent {op : IoAddr → BitIdx → Instr} (h : op ∈ [Instr.setbit, .resetbit]) :
    ∃ φ, ActsBy op φ ∧ φ ∘ φ = φ := by
  simp only [List.mem_cons, List.not_mem_nil, or_false] at h
  obtain rfl | rfl := h
  · exact ⟨_, setbit_actsBy, rfl⟩
  · exact ⟨_, resetbit_actsBy, rfl⟩

/-! ### Two operations in a row -/

/-- A read-modify-write changes the contents of the I/O space in one place, and no configuration. -/
theorem Rewrites.ioCell_eq_update {i : Instr} {s : State} {r : IoAddr} {x y : Byte} (h : Rewrites i s r x y) :
    ∃ t, exec i s = .next t ∧ t.cfg = s.cfg ∧ ioCell t = Function.update (ioCell s) r (some y) := by
  obtain ⟨t, ht, hr, ha, -, -, -, -, ⟨⟨hcfg, -⟩, -⟩, -⟩ := h
  exact ⟨t, ht, hcfg, Function.eq_update_iff.mpr ⟨hr, ha⟩⟩

section
variable {f g : IoAddr → BitIdx → Instr} {φ ψ : Bool → Bool} {s : State} {r : IoAddr} {x : Byte}

/-- The contents of the I/O space after two operations, the second on a register that holds `y` after the first. -/
theorem ActsBy.andThen {q : IoAddr} {y : Byte} (hf : ActsBy f φ) (hg : ActsBy g ψ) (b c : BitIdx)
    (hr : s.cfg.ioVolatile.contains r = false) (hx : ioCell s r = some x) (hq : s.cfg.ioVolatile.contains q = false)
    (hy : Function.update (ioCell s) r (some (atBit φ b x)) q = some y) :
    ∃ t, Machine.andThen (exec (f r b) s) (exec (g q c)) = .next t ∧
      ioCell t = Function.update (Function.update (ioCell s) r (some (atBit φ b x))) q (some (atBit ψ c y)) := by
  obtain ⟨t, ht, hcfg, hio⟩ := (hf s r b x hr hx).ioCell_eq_update
  obtain ⟨u, hu, -, hio'⟩ := (hg t q c y (hcfg ▸ hq) (hio ▸ hy)).ioCell_eq_update
  exact ⟨u, by rw [ht, andThen_next, hu], hio ▸ hio'⟩

/-- Two operations on one register. -/
theorem ActsBy.andThen_same (hf : ActsBy f φ) (hg : ActsBy g ψ) (b c : BitIdx)
    (hr : s.cfg.ioVolatile.contains r = false) (hx : ioCell s r = some x) :
    ∃ t, Machine.andThen (exec (f r b) s) (exec (g r c)) = .next t ∧
      ioCell t r = some (atBit ψ c (atBit φ b x)) := by
  obtain ⟨t, ht, hio⟩ := hf.andThen hg b c hr hx hr (Function.update_self ..)
  exact ⟨t, ht, by rw [hio, Function.update_self]⟩

/-- Two operations on different registers. -/
theorem ActsBy.andThen_other {q : IoAddr} {y : Byte} (hf : ActsBy f φ) (hg : ActsBy g ψ) (b c : BitIdx)
    (hr : s.cfg.ioVolatile.contains r = false) (hx : ioCell s r = some x) (hq : s.cfg.ioVolatile.contains q = false)
    (hy : ioCell s q = some y) (hne : q ≠ r) :
    ∃ t, Machine.andThen (exec (f r b) s) (exec (g q c)) = .next t ∧
      ioCell t = Function.update (Function.update (ioCell s) r (some (atBit φ b x))) q (some (atBit ψ c y)) :=
  hf.andThen hg b c hr hx hq (by rw [Function.update_of_ne hne, hy])

end

/-- Settles O22. Each operation applies a function to one bit: two on the same bit compose, two on different bits or
registers commute. -/
theorem bitLaws : Obligations.BitLaws := by
  intro s r b x hr hx
  refine ⟨?setReset, ?resetSet, ?toggleTwice, fun f hf g hg => ⟨?bits, ?registers⟩, ?idempotent⟩
  case setReset =>
    obtain ⟨t, ht, hio⟩ := setbit_actsBy.andThen_same resetbit_actsBy b b hr hx
    rw [atBit_atBit_same] at hio
    exact ⟨t, ht, hio, by rw [hio, Option.some_inj]; exact clr_eq_self_iff b x⟩
  case resetSet =>
    obtain ⟨t, ht, hio⟩ := resetbit_actsBy.andThen_same setbit_actsBy b b hr hx
    rw [atBit_atBit_same] at hio
    exact ⟨t, ht, hio⟩
  case toggleTwice =>
    obtain ⟨t, ht, hio⟩ := togglebit_actsBy.andThen_same togglebit_actsBy b b hr hx
    rw [atBit_atBit_same, Bool.involutive_not.comp_self, atBit_id] at hio
    exact ⟨t, ht, hio⟩
  case bits =>
    intro c hc
    obtain ⟨φ, hφ⟩ := exists_actsBy hf
    obtain ⟨ψ, hψ⟩ := exists_actsBy hg
    obtain ⟨t, ht, hio⟩ := hφ.andThen_same hψ b c hr hx
    obtain ⟨u, hu, hio'⟩ := hψ.andThen_same hφ c b hr hx
    exact ⟨t, u, ht, hu, by rw [hio, hio', atBit_comm φ ψ hc]⟩
  case registers =>
    intro q c y hq hqv hy
    obtain ⟨φ, hφ⟩ := exists_actsBy hf
    obtain ⟨ψ, hψ⟩ := exists_actsBy hg
    obtain ⟨t, ht, hio⟩ := hφ.andThen_other hψ b c hr hx hqv hy hq
    obtain ⟨u, hu, hio'⟩ := hψ.andThen_other hφ c b hqv hy hr hx hq.symm
    exact ⟨t, u, ht, hu, fun a => by rw [hio, hio', Function.update_comm hq]⟩
  case idempotent =>
    intro f hf
    obtain ⟨φ, hφ, hid⟩ := exists_actsBy_idempotent hf
    obtain ⟨t, ht, -, hio⟩ := (hφ s r b x hr hx).ioCell_eq_update
    obtain ⟨u, hu, hio'⟩ := hφ.andThen_same hφ b b hr hx
    exact ⟨t, u, ht, hu, by rw [hio, hio', atBit_atBit_same, hid, Function.update_self]⟩

end Sys2Proof.Machine
end

section
/-! The button operations (42_button.md) and the strobes that a GPIO or button operation makes (47_display_model.md
R287): BTNINIT is SETPINDIR INPUT after the descriptor is written, BTNGET is one sample. O23 to O27. -/

namespace Sys2Proof.Machine

/-! ### One read-modify-write, up to the button table -/

/-- The state with its button table replaced. -/
def State.withBtn (s : State) (b : Vector Button 8) : State := { s with btn := b }

/-- The button table after BTNINIT's write (R171). -/
def State.boundTable (s : State) (slot : BitVec 3) (d : Button) : Vector Button 8 := s.btn.set slot.toNat d slot.isLt

theorem boundTable_get_same (s : State) (slot : BitVec 3) (d : Button) : (s.boundTable slot d).get slot.toFin = d :=
  Vector.getElem_set_self ..

theorem boundTable_get_other (s : State) (slot : BitVec 3) (d : Button) {k : Fin 8} (h : k ≠ slot.toFin) :
    (s.boundTable slot d).get k = s.btn.get k :=
  Vector.getElem_set_ne _ _ fun e => h (Fin.ext e.symm)

/-- BTNINIT is SETPINDIR INPUT with the descriptor written first (R171). -/
theorem exec_btninit (slot : BitVec 3) (d o i : IoAddr) (pin : BitIdx) (s : State) :
    exec (.btninit slot d o i pin) s =
      exec (.setpindir d pin .input) (s.withBtn (s.boundTable slot (boundButton d o i pin))) := rfl

theorem bitTo_apply (v : Bool) (k : BitIdx) (s : State) (x : Byte) :
    (bitTo v k).apply s x = atBit (fun _ => v) k x := by
  cases v <;> rfl

section
variable {s : State} {reg : IoAddr} {x : Byte}

theorem setpindir_rewrites (bit : BitIdx) (v : PinDir) (hv : s.cfg.ioVolatile.contains reg = false)
    (hx : ioCell s reg = some x) :
    Rewrites (.setpindir reg bit v) s reg x (atBit (fun _ => dirBit s.cfg v) bit x) :=
  rewrites_of_plan rfl (fun u _ => bitTo_apply (dirBit s.cfg v) bit u x) hv hx

theorem setpinstate_rewrites (bit : BitIdx) (v : PinState) (hv : s.cfg.ioVolatile.contains reg = false)
    (hx : ioCell s reg = some x) :
    Rewrites (.setpinstate reg bit v) s reg x (atBit (fun _ => v == .high) bit x) :=
  rewrites_of_plan rfl (fun u _ => bitTo_apply (v == .high) bit u x) hv hx

/-- The operation is one read-modify-write of `reg`, by another operation on another button table where it writes a
descriptor itself. -/
def RewritesUpToButtons (i : Instr) (s : State) (reg : IoAddr) (x y : Byte) : Prop :=
  ∃ j b, exec i s = exec j (s.withBtn b) ∧ Rewrites j (s.withBtn b) reg x y

theorem Rewrites.upToButtons {i : Instr} {y : Byte} (h : Rewrites i s reg x y) : RewritesUpToButtons i s reg x y :=
  ⟨i, s.btn, rfl, h⟩

theorem btninit_rewritesUpToButtons (slot : BitVec 3) (o i : IoAddr) (pin : BitIdx)
    (hv : s.cfg.ioVolatile.contains reg = false) (hx : ioCell s reg = some x) :
    RewritesUpToButtons (.btninit slot reg o i pin) s reg x (atBit (fun _ => dirBit s.cfg .input) pin x) :=
  ⟨_, _, exec_btninit .., setpindir_rewrites pin .input hv hx⟩

/-- What such an operation does to the display and to STATUS. -/
theorem RewritesUpToButtons.seen {i : Instr} {y : Byte} (h : RewritesUpToButtons i s reg x y) :
    ∃ t, exec i s = .next t ∧ GpioFrame s t ∧ (reg ≠ s.cfg.ctrlReg → t.disp = s.disp) ∧
      (reg = s.cfg.ctrlReg → WireSeen s → GpioSeen s t x y) := by
  obtain ⟨j, b, hexec, t, ht, -, -, -, -, -, -, hframe, hother, hctrl, -⟩ := h
  exact ⟨t, hexec.trans ht, hframe, hother, hctrl⟩

/-- A GPIO or button operation that writes a known register is one read-modify-write of it. -/
theorem exists_rewritesUpToButtons {i : Instr} (h : gpioTarget i = some reg)
    (hv : s.cfg.ioVolatile.contains reg = false) (hx : ioCell s reg = some x) :
    ∃ y, RewritesUpToButtons i s reg x y := by
  cases i with
  | setbit r b => cases h; exact ⟨_, (setbit_actsBy s reg b x hv hx).upToButtons⟩
  | resetbit r b => cases h; exact ⟨_, (resetbit_actsBy s reg b x hv hx).upToButtons⟩
  | togglebit r b => cases h; exact ⟨_, (togglebit_actsBy s reg b x hv hx).upToButtons⟩
  | setpindir r b v => cases h; exact ⟨_, (setpindir_rewrites b v hv hx).upToButtons⟩
  | setpinstate r b v => cases h; exact ⟨_, (setpinstate_rewrites b v hv hx).upToButtons⟩
  | btninit k d o i p => cases h; exact ⟨_, btninit_rewritesUpToButtons k o i p hv hx⟩
  | _ => cases h

/-! ### The strobe -/

/-- A clearing operation applies to its bit a function that makes 0 of 1. -/
theorem ClearsBit.rewritesUpToButtons {i : Instr} {bit : BitIdx} (h : ClearsBit s.cfg reg bit i)
    (hv : s.cfg.ioVolatile.contains reg = false) (hx : ioCell s reg = some x) :
    ∃ φ : Bool → Bool, φ true = false ∧ RewritesUpToButtons i s reg x (atBit φ bit x) := by
  obtain rfl | rfl | rfl | rfl | ⟨hdir, slot, o, inp, rfl⟩ := h
  · exact ⟨_, rfl, (resetbit_actsBy s reg bit x hv hx).upToButtons⟩
  · exact ⟨_, rfl, (togglebit_actsBy s reg bit x hv hx).upToButtons⟩
  · exact ⟨_, rfl, (setpinstate_rewrites bit .low hv hx).upToButtons⟩
  · exact ⟨_, by cases hd : s.cfg.dirOutputBit <;> simp [dirBit, hd], (setpindir_rewrites bit _ hv hx).upToButtons⟩
  · exact ⟨_, by simp [dirBit, hdir], btninit_rewritesUpToButtons slot o inp bit hv hx⟩

/-- A falling edge that is not the block's own loses a display in step (R287). -/
theorem GpioSeen.gone {t : State} {y : Byte} (h : GpioSeen s t x y) (hs : InStep s)
    (hx : x.getLsbD s.cfg.eBit.toNat = true) (hy : y.getLsbD s.cfg.eBit.toNat = false) : t.disp.Gone := by
  obtain ⟨hsync, -, -, hsteps⟩ := hs
  obtain ⟨-, hd⟩ := h
  rwa [if_pos ⟨hx, hy, hsync, hsteps⟩] at hd

/-- A display that is gone may not be read, at any clock frequency (R281). -/
theorem Disp.Gone.readable_eq_none (h : s.disp.Gone) (fclk : Nat) : s.readable fclk = none := by
  obtain ⟨hlost, -⟩ := h
  simp [State.readable, State.displayReadable, hlost]

theorem GpioFrame.status {t : State} (h : GpioFrame s t) : t.status = s.toIdle.status := by
  obtain ⟨-, ⟨hinit, hfault, hamode, hfcode, hfop⟩, -, -, hseq, -⟩ := h
  simp only [State.status, State.busy, hinit, hfault, hamode, hfcode, hfop, hseq, State.toIdle_initDone,
    State.toIdle_fault, State.toIdle_amode, State.toIdle_fcode, State.toIdle_fop, State.toIdle_seq]

end

/-- Settles O23. Every clearing operation is one read-modify-write of the control register that makes E fall; one on the
data register alone is a write that the display does not see. -/
theorem gpioStrobeLosesTheDisplay : Obligations.GpioStrobeLosesTheDisplay := by
  intro s i x hwf hstep hwire hx
  have hcfg := LcdCfg.of_wf hwf
  refine ⟨fun he hclears => ?strobe, fun y htarget hne hy => ?data⟩
  case strobe =>
    obtain ⟨φ, hφ, h⟩ := hclears.rewritesUpToButtons hcfg.ctrl hx
    obtain ⟨t, ht, hframe, -, hseen⟩ := h.seen
    have hfall : (atBit φ s.cfg.eBit x).getLsbD s.cfg.eBit.toNat = false := by rw [getLsbD_atBit, if_pos rfl, he, hφ]
    have hgone := (hseen rfl hwire).gone hstep he hfall
    exact ⟨t, ht, hgone, hgone.readable_eq_none, hframe.status⟩
  case data =>
    obtain ⟨z, h⟩ := exists_rewritesUpToButtons htarget hcfg.data hy
    obtain ⟨t, ht, -, hother, -⟩ := h.seen
    exact ⟨t, ht, hother hne⟩

/-! ### BTNINIT -/

/-- Settles O24, by what SETPINDIR INPUT does once the descriptor is written. -/
theorem btninitBindsAndMakesAnInput : Obligations.BtninitBindsAndMakesAnInput := by
  intro s slot d o i pin x hv hx
  obtain ⟨t, ht, hd, hcells, -, hresult, hbtn, hdraws, hframe, hother, hctrl, htrace⟩ :=
    setpindir_rewrites (s := s.withBtn (s.boundTable slot (boundButton d o i pin))) pin .input hv hx
  refine ⟨t, _, (exec_btninit ..).trans ht, ?value, ?slot, ?slots, hd, hcells, hresult, hdraws, hframe, hother,
    hctrl, htrace⟩
  case value => cases h : s.cfg.dirOutputBit <;> simp [atBit, dirBit, State.withBtn, h, bitMask]
  case slot => rw [hbtn]; exact boundTable_get_same ..
  case slots => intro k hk; rw [hbtn]; exact boundTable_get_other _ _ _ hk

theorem AtRest.toIdle_eq {s : State} (h : AtRest s) : s.toIdle = s := by
  obtain ⟨hseq, htsm, htodo, hloop, hraced⟩ := h
  rw [State.toIdle, ← hseq, ← htsm, ← htodo, ← hloop, ← hraced]

/-- An operation that is one read-modify-write completes only from a known register that is no input register. -/
theorem runPlan_rmw_inv {o : Origin} {reg : IoAddr} {f : Upd} {s t : State}
    (h : runPlan (.go (rmw o reg f) .done) s = .next t) :
    s.cfg.ioVolatile.contains reg = false ∧
      ∃ x, ioCell s reg = some x ∧ t = (rmwDone o reg f x ((s.log .decode).toRun .done)).toIdle := by
  cases hv : s.cfg.ioVolatile.contains reg with
  | true => rw [runPlan_go_refused _ _ _ _ (perform_rmw_volatile o reg f _ hv)] at h; cases h
  | false =>
    cases hx : ioCell s reg with
    | none => rw [runPlan_go_refused _ _ _ _ (perform_rmw_unknown o reg f _ hv hx)] at h; cases h
    | some x =>
      rw [runPlan_go_done _ _ _ (perform_rmw o reg f x _ hv hx) rfl] at h
      cases h
      exact ⟨rfl, x, rfl, rfl⟩

/-- A write of the control register shows the display the level it leaves on the wire, whatever the display saw before
(R285). -/
theorem wireSeen_rmwDone (o : Origin) (f : Upd) (x : Byte) (s : State) : WireSeen (rmwDone o s.cfg.ctrlReg f x s) := by
  intro v hv
  rw [rmwDone_cfg, ioCell_rmwDone_same] at hv
  cases hv
  rw [rmwDone_cfg]
  show (State.observed _ _ _ _).prevE = _
  simp [State.observed]

/-- Writing the level that the display has seen changes nothing of it. -/
theorem GpioSeen.disp_eq {s t : State} {x : Byte} (h : GpioSeen s t x x) (hw : WireSeen s)
    (hx : ioCell s s.cfg.ctrlReg = some x) : t.disp = s.disp := by
  obtain ⟨-, hd⟩ := h
  rw [if_neg fun ⟨hhigh, hlow, _⟩ => Bool.false_ne_true (hlow.symm.trans hhigh), ← hw x hx] at hd
  exact hd

/-- SETPINDIR completes only from a known register that is no input register, and where it writes the control register
the display has then seen the level on the wire. -/
theorem exec_setpindir_inv {reg : IoAddr} {bit : BitIdx} {v : PinDir} {s t : State}
    (h : exec (.setpindir reg bit v) s = .next t) :
    s.cfg.ioVolatile.contains reg = false ∧ (∃ x, ioCell s reg = some x) ∧ (reg = s.cfg.ctrlReg → WireSeen t) := by
  obtain ⟨hv, x, hx, rfl⟩ := runPlan_rmw_inv h
  refine ⟨hv, ⟨x, hx⟩, ?_⟩
  rintro rfl
  exact wireSeen_rmwDone .gpio _ x ((s.log .decode).toRun .done)

/-- Settles O25. The second run writes the byte and the descriptor that the first left, and E does not move. -/
theorem btninitIsIdempotent : Obligations.BtninitIsIdempotent := by
  intro s t slot d o i pin h
  obtain ⟨hv, ⟨x, hx⟩, hwire⟩ := exec_setpindir_inv ((exec_btninit ..).symm.trans h)
  obtain ⟨_, y, ht, hy, htslot, -, htd, -, -, -, htframe, -⟩ := btninitBindsAndMakesAnInput s slot d o i pin x hv hx
  cases h.symm.trans ht
  obtain ⟨⟨hcfg, -⟩, -, -, -, hrest⟩ := htframe
  obtain ⟨u, z, hu, hz, huslot, huslots, hud, hucells, hresult, -, huframe, hother, hctrl, -⟩ :=
    btninitBindsAndMakesAnInput t slot d o i pin y (hcfg ▸ hv) htd
  obtain rfl : z = y := by
    rw [hz, hy, hcfg]
    cases s.cfg.dirOutputBit <;> simp [BitVec.and_assoc, BitVec.or_assoc]
  refine ⟨u, hu, ?table, ?cells, hresult, ?status, ?display⟩
  case table =>
    refine Vector.ext fun k hk => ?_
    by_cases h : (⟨k, hk⟩ : Fin 8) = slot.toFin
    · have hsame : u.btn.get slot.toFin = t.btn.get slot.toFin := huslot.trans htslot.symm
      rwa [← h] at hsame
    · exact huslots ⟨k, hk⟩ h
  case cells =>
    intro a
    by_cases ha : a = d
    · rw [ha, hud, htd]
    · exact hucells a ha
  case status => rw [huframe.status, hrest.toIdle_eq]
  case display =>
    by_cases h : d = t.cfg.ctrlReg
    · have hw : WireSeen t := hwire (h.trans (congrArg Cfg.ctrlReg hcfg))
      exact (hctrl h hw).disp_eq hw (h ▸ htd)
    · exact hother h

/-! ### BTNGET -/

/-- RESULT of a sample is 1 exactly when the bit has the level asked for (R146, R172). -/
theorem levelResult_eq_ite (x : Byte) (pin : BitIdx) (level : Bool) :
    levelResult x pin level = if x.getLsbD pin.toNat = level then 0x01#8 else 0x00#8 := by
  simp [levelResult]

theorem exec_btnget_of_bound {s : State} {slot : BitVec 3} (h : (s.btn.get slot.toFin).bound = true) :
    exec (.btnget slot) s = runPlan (.go [.sample (s.btn.get slot.toFin).inp (s.btn.get slot.toFin).pin
      s.cfg.btnActive] .done) s := by
  show runPlan (planBtnget slot s) s = _
  rw [planBtnget, if_pos h]

/-- Settles O26, by what a sample of a stored register and of an input register do. -/
theorem btngetSamplesTheButton : Obligations.BtngetSamplesTheButton := by
  intro s slot d rfl hbound
  refine ⟨fun x hv hx => ?stored, fun hv => ?drawn⟩
  case stored => exact levelResult_eq_ite .. ▸ samples_stored (exec_btnget_of_bound hbound) hv hx
  case drawn => exact levelResult_eq_ite .. ▸ samples_drawn (exec_btnget_of_bound hbound) hv

/-- A sample that completes leaves RESULT of the byte that the read gave. -/
theorem runPlan_sample_inv {reg : IoAddr} {pin : BitIdx} {level : Bool} {s t : State}
    (h : runPlan (.go [.sample reg pin level] .done) s = .next t) :
    ∃ x u, ioRead reg ((s.log .decode).toRun .done) = .next (x, u) ∧ t.result = levelResult x pin level := by
  obtain ⟨v, hsample, hloop⟩ := andThen_eq_next.mp h
  rw [perform_cons, Micro.run, andThen_assoc, andThen_eq_next] at hsample
  obtain ⟨⟨x, u⟩, hread, hv⟩ := hsample
  cases hv
  have hdone : u.loop = .done := by obtain ⟨-, -, rfl⟩ | ⟨-, -, rfl⟩ := ioRead_cases hread <;> rfl
  have hidle := (runLoop_done lap (u.setResult (levelResult x pin level)) hdone).symm.trans hloop
  cases hidle
  exact ⟨x, u, hread, rfl⟩

/-- Settles O27: both operations read the same byte, so each compares the same bit with its own level. -/
theorem btngetIsGetpinstateAgainstTheActiveLevel : Obligations.BtngetIsGetpinstateAgainstTheActiveLevel := by
  intro s t u slot hbound ht hu
  rw [exec_btnget_of_bound hbound] at ht
  obtain ⟨x, _, hread, hbtn⟩ := runPlan_sample_inv ht
  obtain ⟨x', _, hread', hpin⟩ := runPlan_sample_inv hu
  obtain ⟨rfl, -⟩ : x = x' ∧ _ := by simpa [hread] using hread'
  rw [hbtn, hpin, levelResult_eq_ite, levelResult_eq_ite]
  cases s.cfg.btnActive <;> cases x.getLsbD (s.btn.get slot.toFin).pin.toNat <;> decide

end Sys2Proof.Machine
end

section
/-! The LCD sequencer (43_lcd_sequencer.md): the clock cycles of a wait (R211), and the bus record of a beat and of a
transfer, event by event (R207, R208, R214). O12 and O38. -/

namespace Sys2Proof.Machine

/-! ### A wait, one clock cycle at a time -/

theorem ticks_add (m n : Nat) (s : State) : ticks (m + n) s = andThen (ticks m s) (ticks n) := by
  induction m generalizing s with
  | zero => rw [Nat.zero_add]; rfl
  | succ m ih =>
    rw [Nat.succ_add, ticks, ticks, andThen_assoc]
    exact congrArg (andThen (tick s)) (funext ih)

theorem tick_of_run {s : State} (h : s.seq = .run) : tick s = runCycle s := by
  simp only [tick, h]

theorem atEdge_wait_of_pos {n : Nat} (hn : 0 < n) (l : List Micro) (s : State) :
    atEdge (.wait n :: l) s = (s.setWcnt n).setTodo (.wait n :: l) := if_neg hn.ne'

theorem atEdge_wait_zero (l : List Micro) (s : State) : atEdge (.wait 0 :: l) s = atEdge l (s.setWcnt 0) := rfl

/-- The state after one cycle of a wait. -/
def State.waitedOnce (s : State) : State := (s.setWcnt (s.wcnt - 1)).log (.wait 1)

/-- Each cycle of a wait decrements WCNT, and the last one is followed by the rest of the sequence (R211). -/
theorem tick_of_wait {s : State} {n : Nat} {l : List Micro} (hrun : s.seq = .run) (htodo : s.todo = .wait n :: l) :
    tick s = .next (if s.wcnt - 1 = 0 then atEdge l s.waitedOnce else s.waitedOnce) := by
  rw [tick_of_run hrun, runCycle, htodo]
  rfl

/-- A wait is no access to either memory (R211). -/
theorem ports_of_wait {s : State} {n : Nat} {l : List Micro} (htodo : s.todo = .wait n :: l) (rst : Bool) :
    (s.ports rst).ioRd = false ∧ (s.ports rst).ioWr = false ∧ (s.ports rst).memReq = false := by
  unfold State.ports
  rw [htodo]
  split <;> exact ⟨rfl, rfl, rfl⟩

/-- What `k` cycles of a wait make of the state: WCNT is counted down, and the sequencer stays where it was. -/
structure Waited (k : Nat) (s t : State) : Prop where
  wcnt : t.wcnt = s.wcnt - k
  todo : t.todo = s.todo
  seq : t.seq = s.seq
  io : t.io = s.io
  cycles : t.cycles = s.cycles + k

namespace Waited

theorem refl (s : State) : Waited 0 s s := ⟨rfl, rfl, rfl, rfl, rfl⟩

theorem trans {j k : Nat} {s t u : State} (h : Waited j s t) (h' : Waited k t u) : Waited (j + k) s u where
  wcnt := by rw [h'.wcnt, h.wcnt, Nat.sub_sub]
  todo := h'.todo.trans h.todo
  seq := h'.seq.trans h.seq
  io := h'.io.trans h.io
  cycles := by rw [h'.cycles, h.cycles, Nat.add_assoc]

theorem one (s : State) : Waited 1 s s.waitedOnce := ⟨rfl, rfl, rfl, rfl, cycles_log _ _⟩

end Waited

/-- While WCNT is not yet 0 the wait goes on. -/
theorem ticks_waited {s : State} {n : Nat} {l : List Micro} (hrun : s.seq = .run) (htodo : s.todo = .wait n :: l)
    (k : Nat) (hk : k < s.wcnt) : ∃ t, ticks k s = .next t ∧ Waited k s t := by
  induction k with
  | zero => exact ⟨s, rfl, .refl s⟩
  | succ k ih =>
    obtain ⟨t, ht, hw⟩ := ih (Nat.lt_of_succ_lt hk)
    have hlast : t.wcnt - 1 ≠ 0 := by rw [hw.wcnt]; omega
    refine ⟨_, ?_, hw.trans (.one t)⟩
    rw [ticks_add, ht, andThen_next, ticks, tick_of_wait (hw.seq.trans hrun) (hw.todo.trans htodo), if_neg hlast]
    rfl

/-- The cycle that brings WCNT to 0 ends the wait, and the rest of the sequence begins at its edge (R211). -/
theorem ticks_wait_end {s : State} {l : List Micro} (hrun : s.seq = .run) (htodo : s.todo = .wait s.wcnt :: l)
    (hpos : 0 < s.wcnt) : ∃ t, ticks s.wcnt s = .next (atEdge l t) ∧ Waited s.wcnt s t := by
  have hsplit : s.wcnt - 1 + 1 = s.wcnt := Nat.sub_add_cancel hpos
  obtain ⟨t, ht, hw⟩ := ticks_waited hrun htodo (s.wcnt - 1) (Nat.sub_one_lt_of_lt hpos)
  have hlast : t.wcnt - 1 = 0 := by rw [hw.wcnt]; omega
  refine ⟨_, ?_, hsplit ▸ hw.trans (.one t)⟩
  rw [← hsplit, ticks_add, ht, andThen_next, ticks, tick_of_wait (hw.seq.trans hrun) (hw.todo.trans htodo),
    if_pos hlast]
  rfl

/-- Settles O12: the load is what `atEdge` does, and the cycles are counted by induction. -/
theorem waitHoldsExactlyNCycles : Obligations.WaitHoldsExactlyNCycles := by
  refine ⟨fun s n l hn => atEdge_wait_of_pos hn l s, fun s l => atEdge_wait_zero l s, ?_⟩
  rintro s _ l hrun htodo rfl hpos
  constructor
  case left =>
    intro k hk
    obtain ⟨t, ht, hw⟩ := ticks_waited hrun htodo k hk
    have hbusy : t.busy = true := (busy_eq_true_iff t).mpr (by rw [hw.seq, hrun]; decide)
    exact ⟨t, ht, hw.wcnt, hw.todo, hw.io, hbusy, ports_of_wait (hw.todo.trans htodo) false⟩
  case right =>
    obtain ⟨t, ht, hw⟩ := ticks_wait_end hrun htodo hpos
    exact ⟨t, ht, by rw [hw.wcnt, Nat.sub_self], hw.io, hw.cycles⟩

/-! ### The bus record of a transfer -/

/-- After an event of another kind a wait is an event of its own, if it takes a cycle at all. -/
theorem Fresh.trace_wait {s : State} (h : Fresh s) (n : Nat) :
    ((s.setWcnt 0).logCycles .wait n).trace = (if n = 0 then [] else [Event.wait n]) ++ s.trace := by
  obtain ⟨hwait, -⟩ := h
  show (if n = 0 then s.trace else pushEvent (.wait n) s.trace) = _
  split
  case isTrue => rfl
  case isFalse =>
    show pushEvent (.wait n) s.trace = .wait n :: s.trace
    cases htrace : s.trace with
    | nil => rfl
    | cons e r =>
      cases e with
      | wait m => exact absurd htrace (hwait m r)
      | _ => rfl

theorem Fresh.trace_wait_of_pos {s : State} (h : Fresh s) {n : Nat} (hn : 1 ≤ n) :
    ((s.setWcnt 0).logCycles .wait n).trace = .wait n :: s.trace := by
  rw [h.trace_wait, if_neg (by omega)]
  rfl

/-- Clearing bits that were clear before they were set gives the byte back. -/
theorem or_and_not_of_and_eq_zero {x m : Byte} (h : x &&& m = 0#8) : (x ||| m) &&& ~~~m = x := by
  apply BitVec.eq_of_getLsbD_eq
  intro j _
  have hbit : (x.getLsbD j && m.getLsbD j) = false := by
    rw [← BitVec.getLsbD_and, h, BitVec.getLsbD_zero]
  rw [BitVec.getLsbD_and, BitVec.getLsbD_or]
  cases hm : m.getLsbD j <;> simp_all

/-- What the record of a transfer depends on: the data latch and BEAT, and the control register `x` and the data
register `y`. -/
structure WireAt (c : Cfg) (dl : Byte) (beat : Bool) (x y : Byte) (s : State) : Prop where
  cfg : s.cfg = c
  dl : s.dl = dl
  beat : s.beat = beat
  ctrl : ioCell s c.ctrlReg = some x
  data : ioCell s c.dataReg = some y

/-- The byte a beat writes to a data register that holds `y` (R207). -/
def beatWrites (c : Cfg) (dl : Byte) (beat : Bool) (y : Byte) : Byte :=
  fieldWrite (dmask c) (beatValue c dl beat <<< c.dataShift) y

/-- On an 8-bit bus every bit of the data register is a data line, so RS and E are in another register (R8). -/
theorem LcdCfg.ctrlReg_ne_dataReg {c : Cfg} (h : LcdCfg c) (h8 : c.lcdBus = 8) : c.ctrlReg ≠ c.dataReg := by
  intro heq
  have hrs := (h.overlap heq).1
  rw [dmask, if_pos h8] at hrs
  exact absurd hrs ((by decide : ∀ k : BitIdx, (0xFF#8).getLsbD k.toNat ≠ false) c.rsBit)

/-- On an 8-bit bus a beat writes the whole latch, whatever the data register holds (R205, R206). -/
theorem beatWrites_of_bus8 {c : Cfg} (h : LcdCfg c) (h8 : c.lcdBus = 8) (dl y : Byte) (beat : Bool) :
    beatWrites c dl beat y = dl := by
  have hmask : dmask c = BitVec.allOnes 8 := if_pos h8
  have hvalue : beatValue c dl beat = dl := if_pos h8
  rw [beatWrites, hmask, hvalue, h.shift8 h8, fieldWrite, BitVec.not_allOnes, BitVec.and_zero, BitVec.zero_or,
    BitVec.and_allOnes, BitVec.shiftLeft_zero]

section
variable {c : Cfg} {dl w x y : Byte} {beat : Bool} {s : State}

namespace WireAt

theorem tsm (h : WireAt c dl beat x y s) (k : Tsm) : WireAt c dl beat x y ((RegWrite.tsm k).apply s) :=
  ⟨h.cfg, h.dl, h.beat, h.ctrl, h.data⟩

theorem setBeat (h : WireAt c dl beat x y s) (b : Bool) : WireAt c dl b x y ((RegWrite.beat b).apply s) :=
  ⟨h.cfg, h.dl, rfl, h.ctrl, h.data⟩

theorem wait (h : WireAt c dl beat x y s) (n : Nat) : WireAt c dl beat x y ((s.setWcnt 0).logCycles .wait n) :=
  ⟨h.cfg, h.dl, h.beat, h.ctrl, h.data⟩

/-- A read-modify-write of the control register leaves the data register alone. -/
theorem rmw_ctrl (h : WireAt c dl beat x y s) (hc : LcdCfg c) (hne : c.ctrlReg ≠ c.dataReg) {f : Upd} {v : Byte}
    (hv : f.apply s x = v) :
    ∃ t, perform (rmw .seq c.ctrlReg f) s = .next t ∧ WireAt c dl beat v y t ∧ Fresh t ∧
      t.trace = .ioWr c.ctrlReg v :: .ioRd c.ctrlReg x :: s.trace := by
  obtain ⟨hcfg, hdl, hbeat, hx, hy⟩ := h
  refine ⟨_, perform_rmw _ _ _ x s (hcfg ▸ hc.ctrl) hx, ⟨?_, ?_, ?_, ?_, ?_⟩, .rmwDone .., ?_⟩
  · rw [rmwDone_cfg, hcfg]
  · rw [rmwDone_dl, hdl]
  · rw [rmwDone_beat, hbeat]
  · rw [ioCell_rmwDone_same, hv]
  · rw [ioCell_rmwDone_other _ _ _ _ _ _ hne.symm, hy]
  · rw [rmwDone_trace, hv]

/-- The data write of a beat leaves the control register alone. -/
theorem rmw_data (h : WireAt c dl beat x y s) (hc : LcdCfg c) (hne : c.ctrlReg ≠ c.dataReg) :
    ∃ t, perform (rmw .seq c.dataReg .data) s = .next t ∧ WireAt c dl beat x (beatWrites c dl beat y) t ∧
      t.trace = .ioWr c.dataReg (beatWrites c dl beat y) :: .ioRd c.dataReg y :: s.trace := by
  obtain ⟨hcfg, hdl, hbeat, hx, hy⟩ := h
  have hv : Upd.data.apply s y = beatWrites c dl beat y := by rw [Upd.apply, hcfg, hdl, hbeat, beatWrites]
  refine ⟨_, perform_rmw _ _ _ y s (hcfg ▸ hc.data) hy, ⟨?_, ?_, ?_, ?_, ?_⟩, ?_⟩
  · rw [rmwDone_cfg, hcfg]
  · rw [rmwDone_dl, hdl]
  · rw [rmwDone_beat, hbeat]
  · rw [ioCell_rmwDone_other _ _ _ _ _ _ hne, hx]
  · rw [ioCell_rmwDone_same, hv]
  · rw [rmwDone_trace, hv]

/-- The start of a transfer reads and writes the control register once (R208). -/
theorem perform_xferStart (h : WireAt c dl beat w y s) (hc : LcdCfg c) (hne : c.ctrlReg ≠ c.dataReg) {rs : Bool}
    (hx : (rsUpd c rs).apply s w = x) (b : Byte) :
    ∃ t, perform (xferStart c rs b) s = .next t ∧ WireAt c b false x y t ∧
      t.trace = .ioWr c.ctrlReg x :: .ioRd c.ctrlReg w :: s.trace := by
  have hlatch : WireAt c b false w y ((RegWrite.latch rs b).apply s) := ⟨h.cfg, rfl, rfl, h.ctrl, h.data⟩
  have happly : (rsUpd c rs).apply ((RegWrite.tsm .rs).apply ((RegWrite.latch rs b).apply s)) w = x := by
    rw [← hx]
    cases rs <;> rfl
  obtain ⟨t, hrun, hwire, -, htrace⟩ := (hlatch.tsm .rs).rmw_ctrl hc hne happly
  exact ⟨t, hrun, hwire, htrace⟩

/-- One beat (R207) that begins with E low: its seven events, and E is low again. -/
theorem perform_beatSeq (h : WireAt c dl beat x y s) (hc : LcdCfg c) (hne : c.ctrlReg ≠ c.dataReg)
    (hE : x &&& eMask c = 0#8) (hepw : 1 ≤ c.tEpw) :
    ∃ t, perform (beatSeq c) s = .next t ∧ WireAt c dl beat x (beatWrites c dl beat y) t ∧ Fresh t ∧
      t.trace = beatTrace c x y (beatWrites c dl beat y) ++ s.trace := by
  obtain ⟨s1, p1, h1, t1⟩ := (h.tsm .data).rmw_data hc hne
  obtain ⟨s2, p2, h2, f2, t2⟩ := (h1.tsm .ehi).rmw_ctrl hc hne (f := .set (eMask c)) rfl
  have hwait : WireAt c dl beat (x ||| eMask c) _ _ := ((h2.tsm .epw).wait c.tEpw).tsm .elo
  obtain ⟨s3, p3, h3, f3, t3⟩ := hwait.rmw_ctrl hc hne (f := .clr (eMask c)) (or_and_not_of_and_eq_zero hE)
  refine ⟨s3, ?run, h3, f3, ?trace⟩
  case run =>
    simp only [beatSeq, List.append_assoc, List.cons_append, List.nil_append]
    rw [perform_reg, perform_seq p1, perform_reg, perform_seq p2, perform_reg, perform_wait, perform_reg, p3]
  case trace =>
    have hpulse : State.trace _ = .wait c.tEpw :: s2.trace :=
      Fresh.trace_wait_of_pos (s := (RegWrite.tsm .epw).apply s2) f2 hepw
    rw [t3, RegWrite.apply_trace, hpulse, t2, RegWrite.apply_trace, t1]
    rfl

end WireAt

/-- The settle wait that ends a transfer (R208). -/
theorem perform_xferEnd_trace (hf : Fresh s) {n : Nat} (hn : 1 ≤ n) :
    ∃ t, perform (xferEnd n) s = .next t ∧ t.trace = .wait n :: s.trace :=
  ⟨_, rfl, Fresh.trace_wait_of_pos (s := (RegWrite.tsm .settle).apply s) hf hn⟩

/-- The record of a transfer on an 8-bit bus (R208, R214): RS, one beat of the whole byte, and the settle wait. -/
theorem xferSeq_trace_of_bus8 (h : WireAt c dl beat w y s) (hc : LcdCfg c) (h8 : c.lcdBus = 8)
    (hepw : 1 ≤ c.tEpw) {rs : Bool} (hx : (rsUpd c rs).apply s w = x) (hE : x &&& eMask c = 0#8) (b : Byte) {n : Nat}
    (hn : 1 ≤ n) :
    ∃ t, perform (xferSeq c rs b n) s = .next t ∧
      t.trace = .wait n :: (beatTrace c x y b ++ (.ioWr c.ctrlReg x :: .ioRd c.ctrlReg w :: s.trace)) := by
  have hne := hc.ctrlReg_ne_dataReg h8
  obtain ⟨s1, p1, h1, t1⟩ := h.perform_xferStart hc hne hx b
  obtain ⟨s2, p2, -, f2, t2⟩ := h1.perform_beatSeq hc hne hE hepw
  obtain ⟨s3, p3, t3⟩ := perform_xferEnd_trace f2 hn
  refine ⟨s3, ?_, by rw [t3, t2, t1, beatWrites_of_bus8 hc h8]⟩
  rw [xferSeq, if_pos h8, List.append_nil, List.append_assoc, perform_seq p1, perform_seq p2, p3]

/-- The record of a transfer on a 4-bit bus (R208, R214): RS, a beat of each nibble with the gap between them, and the
settle wait. -/
theorem xferSeq_trace_of_bus4 (h : WireAt c dl beat w y s) (hc : LcdCfg c) (h4 : c.lcdBus = 4)
    (hne : c.ctrlReg ≠ c.dataReg) (hepw : 1 ≤ c.tEpw) {rs : Bool} (hx : (rsUpd c rs).apply s w = x)
    (hE : x &&& eMask c = 0#8) (b : Byte) {n : Nat} (hn : 1 ≤ n) :
    ∃ t, perform (xferSeq c rs b n) s = .next t ∧
      t.trace = .wait n ::
        (beatTrace c x (beatWrites c b false y) (beatWrites c b true (beatWrites c b false y)) ++
        (if c.tNib = 0 then [] else [.wait c.tNib]) ++ beatTrace c x y (beatWrites c b false y) ++
        (.ioWr c.ctrlReg x :: .ioRd c.ctrlReg w :: s.trace)) := by
  have h8 : c.lcdBus ≠ 8 := by omega
  obtain ⟨s1, p1, h1, t1⟩ := h.perform_xferStart hc hne hx b
  obtain ⟨s2, p2, h2, f2, t2⟩ := h1.perform_beatSeq hc hne hE hepw
  obtain ⟨s3, p3, -, f3, t3⟩ := ((h2.setBeat true).tsm .gap |>.wait c.tNib).perform_beatSeq hc hne hE hepw
  obtain ⟨s4, p4, t4⟩ := perform_xferEnd_trace f3 hn
  refine ⟨s4, ?run, ?trace⟩
  case run =>
    rw [xferSeq, if_neg h8]
    simp only [List.append_assoc, List.cons_append, List.nil_append]
    rw [perform_seq p1, perform_seq p2, perform_reg, perform_reg, perform_wait, perform_seq p3, p4]
  case trace =>
    have hgap : State.trace _ = _ ++ s2.trace :=
      Fresh.trace_wait (s := (RegWrite.tsm .gap).apply ((RegWrite.beat true).apply s2)) f2 c.tNib
    rw [t4, t3, hgap, t2, t1]
    simp only [List.append_assoc]

end

/-! ### Cycles -/

theorem busyCycles_cons (e : Event) (l : List Event) : busyCycles (e :: l) = e.cycles + busyCycles l := rfl

theorem busyCycles_append (l r : List Event) : busyCycles (l ++ r) = busyCycles l + busyCycles r := by
  simp only [busyCycles, List.map_append, List.sum_append]

/-- The cycles of one beat (R207, R390). -/
theorem busyCycles_beatTrace (c : Cfg) (x d v : Byte) : busyCycles (beatTrace c x d v) = 6 + c.tEpw := by
  simp only [busyCycles, beatTrace, List.map_cons, List.map_nil, List.sum_cons, List.sum_nil, Event.cycles]
  omega

theorem busyCycles_gap (n : Nat) : busyCycles (if n = 0 then [] else [Event.wait n]) = n := by
  split
  case isTrue h => exact h.symm
  case isFalse => rfl

/-- The waits of a transfer that take a cycle under every configuration (R8). -/
theorem one_le_waits_of_wf {c : Cfg} (h : c.wf = true) : 1 ≤ c.tEpw ∧ 1 ≤ c.tCmd := by
  simp only [Cfg.wf, Bool.and_eq_true, Cfg.cfgTimes_iff] at h
  obtain ⟨-, hpos, -⟩ := h
  exact ⟨hpos _ (by simp), hpos _ (by simp)⟩

/-- Settles O38: the records of a transfer on each bus, with the bytes that its beats write computed. -/
theorem transferBusTrace : Obligations.TransferBusTrace := by
  intro s w d x hwf hw hd hclear hx
  have hc := LcdCfg.of_wf hwf
  obtain ⟨hepw, hcmd⟩ := one_le_waits_of_wf hwf
  have hwire : WireAt s.cfg s.dl s.beat w d s := ⟨rfl, rfl, rfl, hw, hd⟩
  have hrs : (rsUpd s.cfg false).apply s w = x := hx.symm
  obtain ⟨-, hEclear⟩ := BitVec.or_eq_zero_iff.mp (BitVec.and_or_distrib_left ▸ hclear)
  have hE : x &&& eMask s.cfg = 0#8 := by
    calc x &&& eMask s.cfg = w &&& eMask s.cfg &&& ~~~rsMask s.cfg := by rw [hx]; ac_rfl
      _ = 0#8 := by rw [hEclear, BitVec.zero_and]
  constructor
  case left =>
    intro h8
    obtain ⟨t, hrun, htrace⟩ := xferSeq_trace_of_bus8 hwire hc h8 hepw hrs hE 0x38#8 hcmd
    refine ⟨t, hrun, htrace, ?_⟩
    rw [State.cycles, htrace]
    simp only [busyCycles_cons, busyCycles_append, busyCycles_beatTrace, Event.cycles, State.cycles]
    omega
  case right =>
    rintro h4 hshift hne rfl
    have hhigh : beatWrites s.cfg 0x38#8 false 0x0A#8 = 0x3A#8 := by
      simp only [beatWrites, beatValue, dmask, h4, hshift]
      decide
    have hlow : beatWrites s.cfg 0x38#8 true 0x3A#8 = 0x8A#8 := by
      simp only [beatWrites, beatValue, dmask, h4, hshift]
      decide
    obtain ⟨t, hrun, htrace⟩ := xferSeq_trace_of_bus4 hwire hc h4 hne hepw hrs hE 0x38#8 hcmd
    rw [hhigh, hlow] at htrace
    refine ⟨t, hrun, htrace, ?_⟩
    rw [State.cycles, htrace]
    simp only [busyCycles_cons, busyCycles_append, busyCycles_beatTrace, busyCycles_gap, Event.cycles, State.cycles]
    omega

end Sys2Proof.Machine
end

section
/-! The fault checks of DECODE (60_exceptions.md R331 to R336): what a raised fault leaves (R335), and when each of the
four checks fails. O28. -/

namespace Sys2Proof.Machine

/-- A fault raised in the DECODE cycle drops the operation (R335), whether or not one is recorded already. -/
theorem raiseFault_dropped (c : FCode) (s : State) : FaultDropped c s (raiseFault c (s.log .decode)) := by
  refine ⟨rfl, fun hfirst => ?first, fun hlater => ?later, ⟨rfl, rfl, rfl, rfl, rfl⟩, rfl, ⟨rfl, rfl, rfl, rfl⟩,
    ⟨rfl, rfl, rfl, rfl, rfl, rfl, rfl⟩, rfl, rfl, rfl, rfl, rfl, rfl, rfl, rfl, rfl⟩
  case first => simp [raiseFault, State.toIdle, hfirst, field]
  case later => simp [raiseFault, State.toIdle, hlater]

theorem exec_dropped_of_planOf_eq_fault {i : Instr} {s : State} {c : FCode} (h : planOf i s = .fault c) :
    ∃ t, exec i s = .next t ∧ FaultDropped c s t :=
  ⟨_, by rw [exec_eq, h]; rfl, raiseFault_dropped c s⟩

/-! ### The checks -/

/-- Every LCD operation but LCDINIT needs INIT_DONE (R331), LCDSTRAT also before its position is checked (R336). -/
theorem planOf_eq_notInit {i : Instr} {s : State} (hlcd : 0xA#4 ≤ opcOf i) (h : s.initDone = false) :
    planOf i s = .fault .notInit := by
  cases i with
  | lcdcmd | lcdchar | lcdstr | lcdclear | lcdglyph => exact if_neg (by simp [h])
  | lcdstrat => exact if_pos (by simp [h])
  | _ => exact absurd hlcd (by simp [opcOf])

theorem planLcdinit_eq_reinit {s : State} (h : s.initDone = true) : planLcdinit s = .fault .reinit := if_pos h

theorem outOfRange_iff (c : Cfg) (row : BitVec 2) (col : BitVec 6) :
    outOfRange c row col = true ↔ c.lcdRows ≤ row.toNat ∨ c.lcdCols ≤ col.toNat := by
  simp only [outOfRange, Bool.or_eq_true, decide_eq_true_eq]

theorem planLcdstrat_eq_range {row : BitVec 2} {col : BitVec 6} (m : MemAddr) {s : State} (h : s.initDone = true)
    (hout : s.cfg.lcdRows ≤ row.toNat ∨ s.cfg.lcdCols ≤ col.toNat) : planLcdstrat row col m s = .fault .range := by
  rw [planLcdstrat, if_neg (by simp [h]), if_pos ((outOfRange_iff _ _ _).mpr hout)]

theorem planBtnget_eq_unbound {slot : BitVec 3} {s : State} (h : (s.btn.get slot.toFin).bound = false) :
    planBtnget slot s = .fault .unbound :=
  if_neg (by simp [h])

/-- Settles O28: each check that fails makes a fault the outcome of DECODE, and such an operation is dropped. -/
theorem faultChecksOfDecode : Obligations.FaultChecksOfDecode := by
  intro s
  refine ⟨fun i hlcd h => ?notInit, fun h => ?reinit, fun row col m h hout => ?range, fun slot h => ?unbound⟩
  case notInit => exact exec_dropped_of_planOf_eq_fault (planOf_eq_notInit hlcd h)
  case reinit => exact exec_dropped_of_planOf_eq_fault (planLcdinit_eq_reinit h)
  case range => exact exec_dropped_of_planOf_eq_fault (planLcdstrat_eq_range m h hout)
  case unbound => exact exec_dropped_of_planOf_eq_fault (planBtnget_eq_unbound h)

end Sys2Proof.Machine
end

section
/-! Encoding and decoding (30_encoding.md R91 to R98): the fields of a word put together and taken apart. O2, O3. -/

namespace Sys2Proof.Machine

/-! ### Fields -/

/-- A field inside the high part of a word. -/
theorem field_append_high {n m : Nat} (a : BitVec n) (b : BitVec m) (lo len : Nat) (h : m ≤ lo) :
    (a ++ b).extractLsb' lo len = a.extractLsb' (lo - m) len :=
  BitVec.extractLsb'_append_eq_of_le h

/-- A field inside the low part of a word. -/
theorem field_append_low {n m : Nat} (a : BitVec n) (b : BitVec m) (lo len : Nat) (h : lo + len ≤ m) :
    (a ++ b).extractLsb' lo len = b.extractLsb' lo len :=
  BitVec.extractLsb'_append_eq_of_add_le h

/-- Neighbouring fields of a word make one field. -/
theorem field_append_field (w : OpWord) (hi lo m n : Nat) (h : hi = lo + n) :
    field w hi m ++ field w lo n = field w lo (m + n) := by
  subst h
  apply BitVec.eq_of_getLsbD_eq
  intro j hj
  rw [BitVec.getLsbD_append, getLsbD_field hj]
  split
  case isTrue hlt => exact getLsbD_field hlt
  case isFalse hge => rw [getLsbD_field (by omega)]; congr 1; omega

theorem field_whole (w : OpWord) : field w 0 32 = w := BitVec.extractLsb'_eq_self

theorem pinDirOf_bit (v : PinDir) : pinDirOf (pinDirBit v) = v := by cases v <;> rfl
theorem pinStateOf_bit (v : PinState) : pinStateOf (pinStateBit v) = v := by cases v <;> rfl
theorem pinDirBit_of (v : BitVec 1) : pinDirBit (pinDirOf v) = v := by revert v; decide
theorem pinStateBit_of (v : BitVec 1) : pinStateBit (pinStateOf v) = v := by revert v; decide

theorem reservedZero_eq_op {ok : Bool} {i j : Instr} (h : reservedZero ok i = .op j) : ok = true ∧ i = j := by
  cases ok with
  | true => cases h; exact ⟨rfl, rfl⟩
  | false => cases h

/-- The opcode constant of a row is the word's own opcode field. -/
theorem opcode_of_toNat {w : OpWord} {k : Nat} (h : (field w 28 4).toNat = k) : BitVec.ofNat 4 k = field w 28 4 := by
  rw [← h, BitVec.ofNat_toNat, BitVec.setWidth_eq]

/-- Settles O2. Every field that the decoder reads lies in one part of the operation's word. -/
theorem decodeOfEncodeIsIdentity : Obligations.DecodeOfEncodeIsIdentity := by
  intro i
  cases i <;>
    simp (disch := omega) only [encode, wordG, decode, zeroG, zeroGV, field, field_append_high, field_append_low,
      Nat.reduceSub, BitVec.extractLsb'_eq_self, pinDirOf_bit, pinStateOf_bit] <;>
    rfl

/-- Settles O3. The opcode, the operands and the reserved fields, which are zero, are all the fields of the word, and
they stand in the operation's word in their order. -/
theorem encodeOfDecodeIsIdentity : Obligations.EncodeOfDecodeIsIdentity := by
  intro w i h
  unfold decode at h
  split at h
  case' h_16 =>
    have hopc : (field w 28 4).toNat = 15 := by
      have hlt : (field w 28 4).toNat < 16 := BitVec.isLt _
      simp only [imp_false] at *
      omega
  all_goals
    have hopc := opcode_of_toNat ‹(field w 28 4).toNat = _›
    obtain ⟨hz, rfl⟩ := reservedZero_eq_op h
    simp only [zeroG, zeroGV, Bool.and_eq_true, beq_iff_eq] at hz
    simp only [encode, wordG, hopc, pinDirBit_of, pinStateBit_of, ← hz]
    simp (disch := rfl) only [field_append_field]
    exact field_whole w

end Sys2Proof.Machine
end

section
/-! What the steps keep, said once: the effect of each micro-step, and that a property which every effect keeps is kept by
an operation, by a clock cycle and by a step (40_control.md R120 to R127). -/

namespace Sys2Proof.Machine

/-! ### The effect of a micro-step -/

/-- The registers, memories, display and host of `t` are those of `s`. What may differ is the sequencer's own bookkeeping
(SEQ, TSM, what is left to run), the latches of a transfer, RMWV, the pointers into host memory, the answers of the host,
the races, the draws and the bus record. -/
structure SameRegs (s t : State) : Prop where
  cfg : t.cfg = s.cfg
  opr : t.opr = s.opr
  wcnt : t.wcnt = s.wcnt
  istep : t.istep = s.istep
  initDone : t.initDone = s.initDone
  fault : t.fault = s.fault
  amode : t.amode = s.amode
  fcode : t.fcode = s.fcode
  fop : t.fop = s.fop
  result : t.result = s.result
  btn : t.btn = s.btn
  io : t.io = s.io
  mem : t.mem = s.mem
  disp : t.disp = s.disp
  host : t.host = s.host

namespace SameRegs

theorem log (s : State) (e : Event) : SameRegs s (s.log e) :=
  ⟨rfl, rfl, rfl, rfl, rfl, rfl, rfl, rfl, rfl, rfl, rfl, rfl, rfl, rfl, rfl⟩

theorem setTodo (s : State) (l : List Micro) : SameRegs s (s.setTodo l) :=
  ⟨rfl, rfl, rfl, rfl, rfl, rfl, rfl, rfl, rfl, rfl, rfl, rfl, rfl, rfl, rfl⟩

theorem setAcks (s : State) (l : List Ack) : SameRegs s (s.setAcks l) :=
  ⟨rfl, rfl, rfl, rfl, rfl, rfl, rfl, rfl, rfl, rfl, rfl, rfl, rfl, rfl, rfl⟩

theorem toRun (s : State) (l : Loop) : SameRegs s (s.toRun l) :=
  ⟨rfl, rfl, rfl, rfl, rfl, rfl, rfl, rfl, rfl, rfl, rfl, rfl, rfl, rfl, rfl⟩

theorem toIdle (s : State) : SameRegs s s.toIdle :=
  ⟨rfl, rfl, rfl, rfl, rfl, rfl, rfl, rfl, rfl, rfl, rfl, rfl, rfl, rfl, rfl⟩

theorem logCycles (s : State) (k : Nat → Event) (n : Nat) : SameRegs s (s.logCycles k n) :=
  ⟨rfl, rfl, rfl, rfl, rfl, rfl, rfl, rfl, rfl, rfl, rfl, rfl, rfl, rfl, rfl⟩

theorem drawn (s : State) (n : Nat) : SameRegs s (s.drawn n) :=
  ⟨rfl, rfl, rfl, rfl, rfl, rfl, rfl, rfl, rfl, rfl, rfl, rfl, rfl, rfl, rfl⟩

theorem raced (s : State) (l : List (MemAddr × Byte)) : SameRegs s { s with raced := l } :=
  ⟨rfl, rfl, rfl, rfl, rfl, rfl, rfl, rfl, rfl, rfl, rfl, rfl, rfl, rfl, rfl⟩

theorem trans {s t u : State} (h : SameRegs s t) (k : SameRegs t u) : SameRegs s u :=
  ⟨k.cfg.trans h.cfg, k.opr.trans h.opr, k.wcnt.trans h.wcnt, k.istep.trans h.istep, k.initDone.trans h.initDone,
    k.fault.trans h.fault, k.amode.trans h.amode, k.fcode.trans h.fcode, k.fop.trans h.fop, k.result.trans h.result,
    k.btn.trans h.btn, k.io.trans h.io, k.mem.trans h.mem, k.disp.trans h.disp, k.host.trans h.host⟩

theorem memTaken (s : State) (a : MemAddr) : SameRegs s (memTaken s a) := (drawn s _).trans (log _ _)

theorem memRead {s t : State} {b : Byte} (h : Machine.memRead s = some (b, t)) : SameRegs s t := by
  obtain ⟨-, ⟨-, rfl⟩ | ⟨n, r, -, rfl⟩⟩ := memRead_cases h
  · exact memTaken s s.sp
  · exact ((setAcks s r).trans (logCycles _ _ n)).trans (memTaken _ _)

end SameRegs

/-- What a micro-step does to the registers (R66 to R68, R122, R146, R211). -/
def Micro.Effect (m : Micro) (s t : State) : Prop :=
  match m with
  | .rd _ => SameRegs s t
  | .wr o a f => s.cfg.ioVolatile.contains a = false ∧
      SameRegs (observe o a (f.apply s s.rmwv) (s.setIo a (f.apply s s.rmwv))) t
  | .sample _ pin level => ∃ x, SameRegs (s.setResult (levelResult x pin level)) t
  | .wait _ => SameRegs (s.setWcnt 0) t
  | .reg r => t = r.apply s

theorem run_effect {m : Micro} {s t : State} (h : m.run s = .next t) : m.Effect s t := by
  cases m with
  | rd a =>
    obtain ⟨⟨x, u⟩, hread, ht⟩ := andThen_eq_next.mp h
    cases ht
    obtain ⟨-, -, rfl⟩ | ⟨-, -, rfl⟩ := ioRead_cases hread <;>
      exact ⟨rfl, rfl, rfl, rfl, rfl, rfl, rfl, rfl, rfl, rfl, rfl, rfl, rfl, rfl, rfl⟩
  | wr o a f =>
    obtain ⟨hv, rfl⟩ := ioWrite_cases h
    exact ⟨hv, rfl, rfl, rfl, rfl, rfl, rfl, rfl, rfl, rfl, rfl, rfl, rfl, rfl, rfl, rfl⟩
  | sample a pin level =>
    obtain ⟨⟨x, u⟩, hread, ht⟩ := andThen_eq_next.mp h
    cases ht
    refine ⟨x, ?_⟩
    obtain ⟨-, -, rfl⟩ | ⟨-, -, rfl⟩ := ioRead_cases hread <;>
      exact ⟨rfl, rfl, rfl, rfl, rfl, rfl, rfl, rfl, rfl, rfl, rfl, rfl, rfl, rfl, rfl⟩
  | wait n => cases h; exact ⟨rfl, rfl, rfl, rfl, rfl, rfl, rfl, rfl, rfl, rfl, rfl, rfl, rfl, rfl, rfl⟩
  | reg r => cases h; rfl

/-- No micro-step moves the sequencer or what it has left to run. -/
theorem run_control {m : Micro} {s t : State} (h : m.run s = .next t) :
    t.seq = s.seq ∧ t.todo = s.todo ∧ t.raced = s.raced := by
  cases m with
  | rd a =>
    obtain ⟨⟨x, u⟩, hread, ht⟩ := andThen_eq_next.mp h
    cases ht
    obtain ⟨-, -, rfl⟩ | ⟨-, -, rfl⟩ := ioRead_cases hread <;> exact ⟨rfl, rfl, rfl⟩
  | wr o a f => obtain ⟨-, rfl⟩ := ioWrite_cases h; exact ⟨rfl, rfl, rfl⟩
  | sample a pin level =>
    obtain ⟨⟨x, u⟩, hread, ht⟩ := andThen_eq_next.mp h
    cases ht
    obtain ⟨-, -, rfl⟩ | ⟨-, -, rfl⟩ := ioRead_cases hread <;> exact ⟨rfl, rfl, rfl⟩
  | wait n => cases h; exact ⟨rfl, rfl, rfl⟩
  | reg r => cases h; exact ⟨RegWrite.apply_seq .., RegWrite.apply_todo .., RegWrite.apply_raced ..⟩

theorem perform_control {l : List Micro} {s t : State} (h : perform l s = .next t) :
    t.seq = s.seq ∧ t.todo = s.todo ∧ t.raced = s.raced := by
  refine perform_rel (fun s t => t.seq = s.seq ∧ t.todo = s.todo ∧ t.raced = s.raced) (fun _ => ⟨rfl, rfl, rfl⟩) ?_ l
    (fun m _ s t h => run_control h) s t h
  rintro a b c ⟨h1, h2, h3⟩ ⟨k1, k2, k3⟩
  exact ⟨k1.trans h1, k2.trans h2, k3.trans h3⟩

/-! ### What operations keep -/

/-- Every micro-step in `M` keeps `P`, and `P` looks at registers alone. -/
structure Kept (M : Micro → Prop) (P : State → Prop) : Prop where
  congr : ∀ {s t}, SameRegs s t → P s → P t
  run : ∀ {m s t}, M m → m.Effect s t → P s → P t

section
variable {M : Micro → Prop} {P : State → Prop}

theorem Kept.perform (K : Kept M P) {l : List Micro} (hl : ∀ m ∈ l, M m) {s t : State} (hs : P s)
    (h : perform l s = .next t) : P t :=
  perform_keeps P l (fun m hm _ _ hu hrun => K.run (hl m hm) (run_effect hrun) hu) s t hs h

theorem Kept.runLoop (K : Kept M P) (hturn : ∀ s b, P s → ∀ m ∈ turnSeq s b, M m) {k : Nat} {s t : State} (hs : P s)
    (h : runLoop k s = .next t) : P t := by
  refine runLoop_keeps P (fun u => K.congr (.toIdle u)) (fun u => K.congr (.log u _)) ?_ k s t hs h
  intro u b v w hu hread hturn'
  have hv : P v := K.congr (.memRead hread) hu
  exact K.perform (hturn v b hv) hv hturn'

theorem Kept.complete (K : Kept M P) (hturn : ∀ s b, P s → ∀ m ∈ turnSeq s b, M m) {l : List Micro}
    (hl : ∀ m ∈ l, M m) {s t : State} (hs : P s) (h : complete l s = .next t) : P t := by
  obtain ⟨u, hu, ht⟩ := andThen_eq_next.mp h
  exact K.runLoop hturn (K.perform hl hs hu) ht

/-- An operation faults in DECODE, or it keeps what its micro-steps keep. -/
theorem Kept.exec (K : Kept M P) (hturn : ∀ s b, P s → ∀ m ∈ turnSeq s b, M m) {i : Instr} {s t : State}
    (hplan : ∀ todo l, planOf i s = .go todo l → ∀ m ∈ todo, M m) (hs : P s) (h : exec i s = .next t) :
    (∃ c, planOf i s = .fault c ∧ t = raiseFault c (s.log .decode)) ∨ P t := by
  obtain hfault | ⟨todo, l, u, hgo, hu, ht⟩ := exec_cases h
  · exact .inl hfault
  · exact .inr (K.runLoop hturn (K.perform (hplan todo l hgo) (K.congr (.toRun _ l) (K.congr (.log s _) hs)) hu) ht)

end

/-! ### What clock cycles and steps keep -/

/-- A zero-cycle register write. -/
def Micro.isReg (m : Micro) : Bool :=
  match m with
  | .reg _ => true
  | _ => false

/-- What is left to run after an edge was in the list before it, behind its zero-cycle writes. -/
theorem mem_atEdge_todo {l : List Micro} {s : State} {m : Micro} (h : m ∈ (atEdge l s).todo) :
    m ∈ l.dropWhile Micro.isReg := by
  fun_induction atEdge l s with
  | case1 s _ => cases h
  | case2 s _ => cases h
  | case3 s r t ih => exact ih h
  | case4 s t ih => exact List.mem_cons_of_mem _ ((List.dropWhile_suffix _).subset (ih h))
  | case5 s n t _ => exact h
  | case6 s x t hreg _ =>
    have hx : x.isReg = false := by
      cases x with
      | reg r => exact absurd rfl (hreg r)
      | _ => rfl
    rw [List.dropWhile_cons_of_neg (by simp [hx])]
    exact h

/-- `P` is kept by every clock cycle and by a run to the end of the operation. Micro-steps in `M` may run, and those in `N`
may be left to run; DECODE may hand over more than is left after its edge. -/
structure KeptByRun (M N : Micro → Prop) (P : State → Prop) : Prop extends Kept M P where
  runs : ∀ {m}, N m → M m
  plan : ∀ {i s todo l}, P s → planOf i s = .go todo l →
    (∀ m ∈ todo, M m) ∧ ∀ m ∈ todo.dropWhile Micro.isReg, N m
  turn : ∀ {s b}, P s → ∀ m ∈ turnSeq s b, N m
  raise : ∀ {s} c, P s → P (raiseFault c s)
  load : ∀ {s n}, M (.wait n) → P s → P (s.setWcnt n)
  count : ∀ {s}, P s → P (s.setWcnt (s.wcnt - 1))
  left : ∀ {s}, P s → M (.wait s.wcnt)

/-- The property, with what is left to run. -/
def Holds (N : Micro → Prop) (P : State → Prop) (s : State) : Prop := P s ∧ ∀ m ∈ s.todo, N m

namespace KeptByRun

variable {M N : Micro → Prop} {P : State → Prop}

theorem turnRuns (K : KeptByRun M N P) (s : State) (b : Byte) (hs : P s) : ∀ m ∈ turnSeq s b, M m :=
  fun m hm => K.runs (K.turn hs m hm)

theorem atEdge (K : KeptByRun M N P) {l : List Micro} {s : State} (hl : ∀ m ∈ l, M m) (hs : P s) :
    P (atEdge l s) := by
  fun_induction Machine.atEdge l s with
  | case1 s _ => exact K.congr (.toIdle s) hs
  | case2 s _ => exact K.congr (.setTodo s _) hs
  | case3 s r t ih => exact ih (fun m hm => hl m (by simp [hm])) (K.run (m := .reg r) (hl _ (by simp)) rfl hs)
  | case4 s t ih => exact ih (fun m hm => hl m (by simp [hm])) (K.load (hl _ (by simp)) hs)
  | case5 s n t _ => exact K.congr (.setTodo _ _) (K.load (hl _ (by simp)) hs)
  | case6 s x t _ _ => exact K.congr (.setTodo s _) hs

theorem atEdge_holds (K : KeptByRun M N P) {l : List Micro} {s : State} (hl : ∀ m ∈ l, N m) (hs : P s) :
    Holds N P (Machine.atEdge l s) :=
  ⟨K.atEdge (fun m hm => K.runs (hl m hm)) hs,
    fun m hm => hl m ((List.dropWhile_suffix _).subset (mem_atEdge_todo hm))⟩

theorem turnBegins (K : KeptByRun M N P) {s : State} (hs : P s) : Holds N P (turnBegins s) :=
  K.atEdge_holds (K.turn hs) (K.congr (.memTaken s _) hs)

theorem memCycle (K : KeptByRun M N P) {s : State} (hs : Holds N P s) : Holds N P (memCycle s) := by
  unfold Machine.memCycle
  split
  · exact ⟨K.congr (.log s _) hs.1, hs.2⟩
  · exact ⟨K.congr (.log _ _) (K.congr (.setAcks s _) hs.1), hs.2⟩
  · exact K.turnBegins (K.congr (.setAcks s _) hs.1)
  · exact K.turnBegins hs.1

theorem runCycle (K : KeptByRun M N P) {s t : State} (hs : Holds N P s) (h : runCycle s = .next t) :
    Holds N P t := by
  obtain ⟨hp, htodo⟩ := hs
  unfold Machine.runCycle at h
  split at h
  case h_1 n l heq =>
    cases h
    have hu : P ((s.setWcnt (s.wcnt - 1)).log (.wait 1)) := K.congr (.log _ _) (K.count hp)
    split
    · exact K.atEdge_holds (fun m hm => htodo m (by simp [heq, hm])) hu
    · exact ⟨hu, htodo⟩
  case h_2 r l heq => cases h; exact K.atEdge_holds (heq ▸ htodo) hp
  case h_3 m l _ _ heq =>
    obtain ⟨u, hu, ht⟩ := andThen_eq_next.mp h
    cases ht
    exact K.atEdge_holds (fun m hm => htodo m (by simp [heq, hm]))
      (K.run (K.runs (htodo m (by simp [heq]))) (run_effect hu) hp)
  case h_4 =>
    split at h <;> cases h
    · exact ⟨K.congr (.toIdle s) hp, fun _ hm => nomatch hm⟩
    · exact K.memCycle ⟨hp, htodo⟩

theorem raised (K : KeptByRun M N P) {s : State} (c : FCode) (hs : P s) :
    Holds N P (raiseFault c (s.log .decode)) :=
  ⟨K.raise c (K.congr (.log s _) hs), fun _ hm => nomatch hm⟩

theorem tick (K : KeptByRun M N P) {s t : State} (hs : Holds N P s) (h : tick s = .next t) : Holds N P t := by
  unfold Machine.tick at h
  split at h
  · cases h; exact ⟨K.congr (.log s _) hs.1, hs.2⟩
  · split at h
    · cases h; exact K.raised _ hs.1
    · split at h <;> cases h
      next => exact K.raised _ hs.1
      next todo l hplan =>
        obtain ⟨hruns, hleft⟩ := K.plan hs.1 hplan
        exact ⟨K.atEdge hruns (K.congr (.toRun _ l) (K.congr (.log s _) hs.1)),
          fun m hm => hleft m (mem_atEdge_todo hm)⟩
  · exact K.runCycle hs h

theorem ticks (K : KeptByRun M N P) {n : Nat} {s t : State} (hs : Holds N P s) (h : ticks n s = .next t) :
    Holds N P t := by
  induction n generalizing s with
  | zero => cases h; exact hs
  | succ n ih =>
    obtain ⟨u, hu, ht⟩ := andThen_eq_next.mp h
    exact ih (K.tick hs hu) ht

end KeptByRun

/-- A run to the end of the listed micro-steps leaves none of them. -/
theorem complete_todo {l : List Micro} {s t : State} (hs : s.todo = []) (h : complete l s = .next t) : t.todo = [] := by
  obtain ⟨u, hu, ht⟩ := andThen_eq_next.mp h
  refine runLoop_keeps (fun u => u.todo = []) (fun _ _ => rfl) (fun _ hu => hu) ?_ lap u t ?_ ht
  · intro a b v w ha hread hturn
    rw [(perform_control hturn).2.1]
    obtain ⟨-, ⟨-, rfl⟩ | ⟨n, r, -, rfl⟩⟩ := memRead_cases hread <;> exact ha
  · rw [(perform_control hu).2.1, hs]

namespace KeptByRun

variable {M N : Micro → Prop} {P : State → Prop}

theorem exec (K : KeptByRun M N P) {i : Instr} {s t : State} (hs : P s) (h : exec i s = .next t) : Holds N P t := by
  rw [exec_eq] at h
  cases hplan : planOf i s with
  | fault c => rw [hplan] at h; cases h; exact K.raised c hs
  | go todo l =>
    rw [hplan] at h
    exact ⟨K.complete K.turnRuns (K.plan hs hplan).1 (K.congr (.toRun _ l) (K.congr (.log s _) hs)) h,
      by rw [complete_todo rfl h]; exact fun _ hm => nomatch hm⟩

theorem runWord (K : KeptByRun M N P) {s t : State} (hs : P s) (h : runWord s = .next t) : Holds N P t := by
  unfold Machine.runWord at h
  split at h
  · exact K.exec hs h
  · cases h; exact K.raised _ hs

theorem leftToRun (K : KeptByRun M N P) {s : State} (hs : Holds N P s) : ∀ m ∈ leftToRun s, M m := by
  obtain ⟨hp, htodo⟩ := hs
  unfold Machine.leftToRun
  split
  next n l heq =>
    intro m hm
    obtain rfl | hm := List.mem_cons.mp hm
    · exact K.left hp
    · exact K.runs (htodo m (by simp [heq, hm]))
  next => exact fun m hm => K.runs (htodo m hm)

theorem runOn (K : KeptByRun M N P) {s t : State} (hs : Holds N P s) (h : runOn s = .next t) : Holds N P t := by
  unfold Machine.runOn at h
  split at h
  · cases h; exact ⟨K.congr (.log s _) hs.1, hs.2⟩
  · exact K.runWord hs.1 h
  · exact ⟨K.complete K.turnRuns (K.leftToRun hs) (K.congr (.setTodo s _) hs.1) h,
      by rw [complete_todo rfl h]; exact fun _ hm => nomatch hm⟩

end KeptByRun

/-- `P` is kept by every step of the machine but a reset. -/
structure KeptByStep (M N : Micro → Prop) (P : State → Prop) : Prop extends KeptByRun M N P where
  setHost : ∀ {s} r, P s → P (s.setHost r)
  accept : ∀ {s} w, P s → P (s.accept w)
  setMem : ∀ {s} a v, P s → P (s.setMem a v)
  ioWrite : ∀ {s a} v, s.cfg.ioVolatile.contains a = false → P s → P (observe .gpio a v (s.setIo a v))

namespace KeptByStep

variable {M N : Micro → Prop} {P : State → Prop}

theorem hostMemWrite (K : KeptByStep M N P) {s : State} (a : MemAddr) (v : Byte) (hs : Holds N P s) :
    Holds N P (hostMemWrite a v s) := by
  unfold Machine.hostMemWrite
  refine ⟨K.setMem a v ?_, ?_⟩
  · split
    · exact K.congr (.raced s _) hs.1
    · exact hs.1
  · split <;> exact hs.2

/-- A step is a reset, or it keeps the property. -/
theorem step (K : KeptByStep M N P) {s t : State} (hs : Holds N P s) (h : step s = .next t) :
    (∃ r, s.host = .reset :: r ∧ t = (s.setHost r).blockReset) ∨ Holds N P t := by
  have hhost : ∀ r, Holds N P (s.setHost r) := fun r => ⟨K.setHost r hs.1, hs.2⟩
  obtain ⟨-, ⟨-, hrun⟩ | ⟨w, r, -, ⟨-, hrun⟩ | ⟨-, hrun⟩⟩ | ⟨w, r, -, ⟨-, hrun⟩ | ⟨-, rfl⟩⟩ | ⟨n, r, -, hrun⟩ |
    ⟨r, hh, rfl⟩ | ⟨a, v, r, -, rfl⟩ | ⟨a, v, r, -, -, hv, rfl⟩ | ⟨k, r, -, rfl⟩⟩ := step_cases h
  · exact .inr (K.runOn hs hrun)
  · exact .inr (K.runOn hs hrun)
  · exact .inr (K.runWord (K.accept w (hhost r).1) hrun)
  · exact .inr (K.runOn hs hrun)
  · exact .inr ⟨K.accept w (hhost r).1, hs.2⟩
  · exact .inr (K.ticks (hhost r) hrun)
  · exact .inl ⟨r, hh, rfl⟩
  · exact .inr (K.hostMemWrite a v (hhost r))
  · exact .inr ⟨K.ioWrite v hv (hhost r).1, hs.2⟩
  · exact .inr ⟨K.congr (.setAcks _ _) (hhost r).1, hs.2⟩

end KeptByStep

end Sys2Proof.Machine
end

section
/-! What the plans and the loops run, and which registers an operation and a step leave as they were. O9, O30 to O33. -/

namespace Sys2Proof.Machine

/-! ### The micro-steps of a plan -/

/-- A micro-step of a transfer (R204 to R211) that settles for `n` cycles. -/
def Micro.OfXfer (c : Cfg) (n : Nat) (m : Micro) : Prop :=
  match m with
  | .rd a => a = c.ctrlReg ∨ a = c.dataReg
  | .wr o a _ => o = .seq ∧ (a = c.ctrlReg ∨ a = c.dataReg)
  | .sample _ _ _ => False
  | .wait k => k = c.tEpw ∨ k = c.tNib ∨ k = n
  | .reg r => match r with
    | .tsm _ | .latch _ _ | .beat _ => True
    | _ => False

theorem beatSeq_ofXfer (c : Cfg) (n : Nat) : ∀ m ∈ beatSeq c, m.OfXfer c n := by
  simp [beatSeq, rmw, Micro.OfXfer]

theorem xferStart_ofXfer (c : Cfg) (rs : Bool) (b : Byte) (n : Nat) : ∀ m ∈ xferStart c rs b, m.OfXfer c n := by
  simp [xferStart, rmw, Micro.OfXfer]

theorem xferEnd_ofXfer (c : Cfg) (n : Nat) : ∀ m ∈ xferEnd n, m.OfXfer c n := by
  simp [xferEnd, Micro.OfXfer]

theorem xferSeq_ofXfer (c : Cfg) (rs : Bool) (b : Byte) (n : Nat) : ∀ m ∈ xferSeq c rs b n, m.OfXfer c n := by
  have hgap : ∀ m ∈ (if c.lcdBus = 8 then [] else [.reg (.beat true), .reg (.tsm .gap), .wait c.tNib] ++ beatSeq c),
      Micro.OfXfer c n m := by
    split
    · simp
    · simpa [Micro.OfXfer] using beatSeq_ofXfer c n
  simp only [xferSeq, List.forall_mem_append]
  exact ⟨⟨⟨xferStart_ofXfer c rs b n, beatSeq_ofXfer c n⟩, hgap⟩, xferEnd_ofXfer c n⟩

theorem xferNibSeq_ofXfer (c : Cfg) (n4 : BitVec 4) (n : Nat) : ∀ m ∈ xferNibSeq c n4 n, m.OfXfer c n := by
  simp only [xferNibSeq, List.forall_mem_append]
  exact ⟨⟨xferStart_ofXfer c false _ n, beatSeq_ofXfer c n⟩, xferEnd_ofXfer c n⟩

/-- The wait parameters (R7), which R8 keeps below 2^WCW. -/
def waitTimes (c : Cfg) : List Nat := [c.tPwrup, c.tInitA, c.tInitB, c.tEpw, c.tNib, c.tCmd, c.tClear]

theorem settleTime_mem (c : Cfg) (rs : Bool) (b : Byte) : settleTime c rs b ∈ waitTimes c := by
  unfold settleTime
  split <;> simp [waitTimes]

/-- What a micro-step that DECODE hands over for an operation may be (R121): which operations sample a register, bind a
button, move AMODE, and which writes belong to LCDINIT. -/
def Micro.Planned (c : Cfg) (i : Instr) (m : Micro) : Prop :=
  match m with
  | .rd _ => True
  | .wr _ _ _ => True
  | .sample _ _ _ => (∃ reg bit, i = .getpinstate reg bit) ∨ ∃ slot, i = .btnget slot
  | .wait n => n ∈ waitTimes c
  | .reg r => match r with
    | .btn _ d => d.bound = true ∧ ∃ slot d o inp pin, i = .btninit slot d o inp pin
    | .initDone | .displaySync | .istep _ => i = .lcdinit
    | .amode _ | .amodeAfter _ => 0x9#4 ≤ opcOf i
    | _ => True

theorem Micro.OfXfer.planned {c : Cfg} {n : Nat} {m : Micro} (h : m.OfXfer c n) (hn : n ∈ waitTimes c) (i : Instr) :
    m.Planned c i := by
  cases m with
  | rd | wr => trivial
  | sample => cases h
  | wait k => obtain rfl | rfl | rfl := h <;> simp_all [Micro.Planned, waitTimes]
  | reg r => cases r <;> trivial

theorem xferSeq_planned (c : Cfg) (i : Instr) (rs : Bool) (b : Byte) {n : Nat} (hn : n ∈ waitTimes c) :
    ∀ m ∈ xferSeq c rs b n, m.Planned c i := fun m hm => (xferSeq_ofXfer c rs b n m hm).planned hn i

theorem initSeq_planned (c : Cfg) : ∀ m ∈ initSeq c, m.Planned c .lcdinit := by
  have hnib : ∀ (n4 : BitVec 4) {n : Nat}, n ∈ waitTimes c → ∀ m ∈ xferNibSeq c n4 n, m.Planned c .lcdinit :=
    fun n4 _ hn m hm => (xferNibSeq_ofXfer c n4 _ m hm).planned hn _
  have hA : c.tInitA ∈ waitTimes c := by simp [waitTimes]
  have hB : c.tInitB ∈ waitTimes c := by simp [waitTimes]
  have hC : c.tCmd ∈ waitTimes c := by simp [waitTimes]
  have hP : c.tPwrup ∈ waitTimes c := by simp [waitTimes]
  have hsync : ∀ m ∈ syncSeq c, m.Planned c .lcdinit := by
    unfold syncSeq
    split <;> simp only [List.forall_mem_append]
    · exact ⟨⟨xferSeq_planned _ _ _ _ hA, xferSeq_planned _ _ _ _ hB⟩, xferSeq_planned _ _ _ _ hC⟩
    · exact ⟨⟨⟨hnib _ hA, hnib _ hB⟩, hnib _ hC⟩, hnib _ hC⟩
  have hcmd : ∀ b, ∀ m ∈ cmdSeq c b, m.Planned c .lcdinit := fun b => xferSeq_planned _ _ _ _ (settleTime_mem c false b)
  have hpins : ∀ m ∈ initPins c, m.Planned c .lcdinit := by simp [initPins, rmw, Micro.Planned, hP]
  have hcommands : ∀ m ∈ initCommands c, m.Planned c .lcdinit := by
    simp only [initCommands, List.forall_mem_append, List.forall_mem_cons]
    exact ⟨⟨⟨⟨⟨⟨⟨rfl, by simp⟩, hcmd _⟩, rfl, by simp⟩, hcmd _⟩, rfl, by simp⟩, hcmd _⟩, rfl, by simp [Micro.Planned, opcOf],
      by simp⟩
  simp only [initSeq, List.forall_mem_append, List.forall_mem_cons]
  exact ⟨⟨⟨⟨hpins, rfl, by simp⟩, hsync⟩, rfl, by simp⟩, hcommands⟩

/-- Everything DECODE can hand over for an operation. -/
theorem planOf_planned {i : Instr} {s : State} {todo : List Micro} {l : Loop} (h : planOf i s = .go todo l) :
    ∀ m ∈ todo, m.Planned s.cfg i := by
  have hC : s.cfg.tCmd ∈ waitTimes s.cfg := by simp [waitTimes]
  cases i with
  | nop => cases h; simp
  | setbit | resetbit | togglebit | setpindir | setpinstate | getpinstate => cases h; simp [rmw, Micro.Planned]
  | btninit slot d o inp pin => cases h; simp [rmw, Micro.Planned, boundButton]
  | btnget slot =>
    simp only [planOf, planBtnget] at h
    split at h <;> cases h
    simp [Micro.Planned]
  | lcdinit =>
    simp only [planOf, planLcdinit] at h
    split at h <;> cases h
    exact initSeq_planned s.cfg
  | lcdcmd b =>
    simp only [planOf, planLcdcmd] at h
    split at h <;> cases h
    simp only [List.forall_mem_append]
    exact ⟨xferSeq_planned _ _ _ _ (settleTime_mem _ _ _), by simp [Micro.Planned, opcOf]⟩
  | lcdchar b =>
    simp only [planOf, planLcdchar] at h
    split at h <;> cases h
    exact xferSeq_planned _ _ _ _ hC
  | lcdstr m =>
    simp only [planOf, planLcdstr] at h
    split at h <;> cases h
    simp [Micro.Planned]
  | lcdstrat row col m =>
    simp only [planOf, planLcdstrat] at h
    split at h
    · cases h
    · split at h <;> cases h
      simp only [List.forall_mem_append]
      exact ⟨xferSeq_planned _ _ _ _ hC, by simp [Micro.Planned, opcOf]⟩
  | lcdclear =>
    simp only [planOf, planLcdclear] at h
    split at h <;> cases h
    simp only [List.forall_mem_append]
    exact ⟨xferSeq_planned _ _ _ _ (by simp [waitTimes]), by simp [Micro.Planned, opcOf]⟩
  | lcdglyph g m =>
    simp only [planOf, planLcdglyph] at h
    split at h <;> cases h
    simp only [List.forall_mem_append]
    exact ⟨xferSeq_planned _ _ _ _ hC, by simp [Micro.Planned, opcOf]⟩

/-- What a micro-step of a loop's turn may be (R244, R247): a micro-step of a transfer, or a step of the loop itself. -/
def Micro.OfTurn (c : Cfg) (m : Micro) : Prop :=
  m.OfXfer c c.tCmd ∨ m = .reg .loopEnd ∨ m = .reg .spInc ∨ m = .reg .giInc

theorem turnSeq_ofTurn (s : State) (b : Byte) : ∀ m ∈ turnSeq s b, m.OfTurn s.cfg := by
  have hx : ∀ m ∈ xferSeq s.cfg true b s.cfg.tCmd, m.OfTurn s.cfg := fun m hm => .inl (xferSeq_ofXfer _ _ _ _ m hm)
  unfold turnSeq
  split
  · simp
  · split
    · simp [Micro.OfTurn]
    · simp only [List.forall_mem_append]
      exact ⟨hx, by simp [Micro.OfTurn]⟩
  · simp only [List.forall_mem_append]
    exact ⟨hx, by simp [Micro.OfTurn]⟩

/-- A turn runs nothing that NOP could not. -/
theorem Micro.OfTurn.planned {c : Cfg} {m : Micro} (h : m.OfTurn c) (i : Instr) : m.Planned c i := by
  obtain h | rfl | rfl | rfl := h
  · exact h.planned (by simp [waitTimes]) i
  all_goals trivial

theorem turnSeq_planned (s : State) (b : Byte) (i : Instr) : ∀ m ∈ turnSeq s b, m.Planned s.cfg i :=
  fun m hm => (turnSeq_ofTurn s b m hm).planned i

/-! ### What an operation leaves as it was -/

/-- What a micro-step leaves as it was, and which one alone may write RESULT (R29), the button table (R30), INIT_DONE
(R26) and AMODE (R249). -/
structure EffectFrame (m : Micro) (s t : State) : Prop where
  cfg : t.cfg = s.cfg
  opr : t.opr = s.opr
  host : t.host = s.host
  fault : t.fault = s.fault
  fcode : t.fcode = s.fcode
  fop : t.fop = s.fop
  result : (∀ a pin level, m ≠ .sample a pin level) → t.result = s.result
  btn : (∀ k d, m ≠ .reg (.btn k d)) → t.btn = s.btn
  initDone : m ≠ .reg .initDone → t.initDone = s.initDone
  initDone_stays : s.initDone = true → t.initDone = true
  amode : (∀ a, m ≠ .reg (.amode a)) → (∀ b, m ≠ .reg (.amodeAfter b)) → t.amode = s.amode

theorem SameRegs.effectFrame {m : Micro} {s t : State} (h : SameRegs s t) : EffectFrame m s t :=
  ⟨h.cfg, h.opr, h.host, h.fault, h.fcode, h.fop, fun _ => h.result, fun _ => h.btn, fun _ => h.initDone,
    h.initDone.trans, fun _ _ => h.amode⟩

theorem Micro.Effect.frame {m : Micro} {s t : State} (h : m.Effect s t) : EffectFrame m s t := by
  cases m with
  | rd a => exact SameRegs.effectFrame h
  | wr o a f =>
    obtain ⟨-, h⟩ := h
    exact { h.effectFrame (m := .wr o a f) with }
  | sample a pin level =>
    obtain ⟨x, h⟩ := h
    exact { h.effectFrame (m := .sample a pin level) with result := fun hno => absurd rfl (hno a pin level) }
  | wait n => exact { SameRegs.effectFrame (m := .wait n) h with }
  | reg r =>
    cases h
    refine ⟨RegWrite.apply_cfg .., RegWrite.apply_opr .., RegWrite.apply_host .., RegWrite.apply_fault ..,
      RegWrite.apply_fcode .., RegWrite.apply_fop .., fun _ => RegWrite.apply_result .., fun hno => ?_, fun hno => ?_,
      fun hs => ?_, fun hno hno' => ?_⟩
    · cases r with
      | btn k d => exact absurd rfl (hno k d)
      | _ => rfl
    · cases r with
      | initDone => exact absurd rfl hno
      | _ => rfl
    · cases r with
      | initDone => rfl
      | _ => exact hs
    · cases r with
      | amode a => exact absurd rfl (hno a)
      | amodeAfter b => exact absurd rfl (hno' b)
      | _ => rfl

theorem Kept.withCfg {M : Micro → Prop} {P : State → Prop} (K : Kept M P) (c : Cfg) :
    Kept M fun u => u.cfg = c ∧ P u where
  congr h := fun ⟨hc, hp⟩ => ⟨h.cfg.trans hc, K.congr h hp⟩
  run hm h := fun ⟨hc, hp⟩ => ⟨h.frame.cfg.trans hc, K.run hm h hp⟩

/-- An operation that DECODE does not fault keeps what its planned micro-steps keep. -/
theorem Kept.exec_planned {i : Instr} {s t : State} {P : State → Prop} (K : Kept (Micro.Planned s.cfg i) P) (hs : P s)
    (h : Machine.exec i s = .next t) : (∃ c, planOf i s = .fault c ∧ t = raiseFault c (s.log .decode)) ∨ P t := by
  refine ((K.withCfg s.cfg).exec ?_ (fun _ _ hgo => planOf_planned hgo) ⟨rfl, hs⟩ h).imp_right fun ⟨_, hp⟩ => hp
  rintro u b ⟨hc, -⟩
  exact hc ▸ turnSeq_planned u b i

/-- No micro-step writes the fault record (R335, R337). -/
theorem kept_faultRecord (M : Micro → Prop) (b : Bool) (c : FCode) (o : BitVec 4) :
    Kept M fun u => u.fault = b ∧ u.fcode = c ∧ u.fop = o where
  congr h := fun ⟨h1, h2, h3⟩ => ⟨h.fault.trans h1, h.fcode.trans h2, h.fop.trans h3⟩
  run _ h := fun ⟨h1, h2, h3⟩ => ⟨h.frame.fault.trans h1, h.frame.fcode.trans h2, h.frame.fop.trans h3⟩

theorem kept_result {M : Micro → Prop} (hM : ∀ a pin level, ¬ M (.sample a pin level)) (x : Byte) :
    Kept M fun u => u.result = x where
  congr h := h.result.trans
  run hm h := (h.frame.result fun a pin level e => hM a pin level (e ▸ hm)).trans

theorem kept_btn {M : Micro → Prop} (hM : ∀ k d, ¬ M (.reg (.btn k d))) (x : Vector Button 8) :
    Kept M fun u => u.btn = x where
  congr h := h.btn.trans
  run hm h := (h.frame.btn fun k d e => hM k d (e ▸ hm)).trans

theorem kept_initDone {M : Micro → Prop} (hM : ¬ M (.reg .initDone)) (x : Bool) : Kept M fun u => u.initDone = x where
  congr h := h.initDone.trans
  run hm h := (h.frame.initDone fun e => hM (e ▸ hm)).trans

theorem kept_initDone_true (M : Micro → Prop) : Kept M fun u => u.initDone = true where
  congr h := h.initDone.trans
  run _ h := h.frame.initDone_stays

theorem kept_amode {M : Micro → Prop} (hM : ∀ m, ¬ M (.reg (.amode m))) (hM' : ∀ b, ¬ M (.reg (.amodeAfter b)))
    (x : Amode) : Kept M fun u => u.amode = x where
  congr h := h.amode.trans
  run hm h := (h.frame.amode (fun m e => hM m (e ▸ hm)) fun b e => hM' b (e ▸ hm)).trans

theorem kept_oprHost (M : Micro → Prop) (w : OpWord) (l : List HostMove) :
    Kept M fun u => u.host = l ∧ u.opr = w where
  congr h := fun ⟨h1, h2⟩ => ⟨h.host.trans h1, h.opr.trans h2⟩
  run _ h := fun ⟨h1, h2⟩ => ⟨h.frame.host.trans h1, h.frame.opr.trans h2⟩

/-- A property of registers that every micro-step and a fault keep is kept by every run. -/
theorem Kept.byRun {P : State → Prop} (K : Kept (fun _ => True) P) (hraise : ∀ {s} c, P s → P (raiseFault c s))
    (hwcnt : ∀ {s} n, P s → P (s.setWcnt n)) : KeptByRun (fun _ => True) (fun _ => True) P where
  toKept := K
  runs := id
  plan _ _ := ⟨fun _ _ => trivial, fun _ _ => trivial⟩
  turn _ _ _ := trivial
  raise := hraise
  load _ := hwcnt _
  count := hwcnt _
  left _ := trivial

/-- Settles O9: nothing that runs takes a move of the host or writes OPR. -/
theorem busyBlockTakesNoWord : Obligations.BusyBlockTakesNoWord := by
  intro s w r hoffer hbusy t h
  have hrun : runOn s = .next t := by
    unfold step hostStep at h
    split at h
    · obtain hh | hh := hoffer <;> simpa [hh, hbusy] using h
    · cases h
  exact (((kept_oprHost _ s.opr s.host).byRun (fun _ => id) (fun _ => id)).runOn
    ⟨⟨rfl, rfl⟩, fun _ _ => trivial⟩ hrun).1

/-! ### The fault record -/

/-- The codes that DECODE raises for a legal word (R331 to R334). -/
theorem planOf_fault_code {i : Instr} {s : State} {c : FCode} (h : planOf i s = .fault c) :
    c ∈ [FCode.notInit, .reinit, .range, .unbound] := by
  cases i with
  | nop | setbit | resetbit | togglebit | setpindir | setpinstate | getpinstate | btninit => cases h
  | btnget => simp only [planOf, planBtnget] at h; split at h <;> cases h; simp
  | lcdinit => simp only [planOf, planLcdinit] at h; split at h <;> cases h; simp
  | lcdcmd => simp only [planOf, planLcdcmd] at h; split at h <;> cases h; simp
  | lcdchar => simp only [planOf, planLcdchar] at h; split at h <;> cases h; simp
  | lcdstr => simp only [planOf, planLcdstr] at h; split at h <;> cases h; simp
  | lcdclear => simp only [planOf, planLcdclear] at h; split at h <;> cases h; simp
  | lcdglyph => simp only [planOf, planLcdglyph] at h; split at h <;> cases h; simp
  | lcdstrat =>
    simp only [planOf, planLcdstrat] at h
    split at h
    · cases h; simp
    · split at h <;> cases h; simp

/-- Settles O30. -/
theorem faultsArePrecise : Obligations.FaultsArePrecise := by
  intro i s t h
  refine ⟨fun c hc => ⟨planOf_fault_code hc, ?_⟩, fun hno => ?_⟩
  · obtain ⟨u, hu, hdropped⟩ := exec_dropped_of_planOf_eq_fault hc
    cases hu.symm.trans h
    exact hdropped
  · obtain ⟨c, hc, -⟩ | hkept := (kept_faultRecord _ s.fault s.fcode s.fop).exec_planned ⟨rfl, rfl, rfl⟩ h
    · exact absurd hc (hno c)
    · exact hkept

/-- A recorded fault is kept by everything but a reset (R27, R335). -/
theorem keptByStep_faultRecord (c : FCode) (o : BitVec 4) :
    KeptByStep (fun _ => True) (fun _ => True) fun u => u.fault = true ∧ u.fcode = c ∧ u.fop = o where
  toKeptByRun := (kept_faultRecord _ true c o).byRun
    (fun _ ⟨h1, h2, h3⟩ => ⟨rfl, by simp [raiseFault, h1, h2], by simp [raiseFault, h1, h3]⟩) (fun _ => id)
  setHost _ := id
  accept _ := id
  setMem _ _ := id
  ioWrite _ _ := id

/-- Settles O31. -/
theorem faultRecordIsSticky : Obligations.FaultRecordIsSticky := by
  intro s t h hmove hfault
  obtain ⟨r, hreset, -⟩ | ⟨hkept, -⟩ :=
    (keptByStep_faultRecord s.fcode s.fop).step ⟨⟨hfault, rfl, rfl⟩, fun _ _ => trivial⟩ h
  · exact absurd (by rw [State.nextMove, hreset]; rfl) hmove
  · exact hkept

/-! ### INIT_DONE, RESULT and the button table -/

/-- LCDINIT's last writes set INIT_DONE (R26, R241). -/
theorem perform_initSeq_initDone {c : Cfg} {s t : State} (h : perform (initSeq c) s = .next t) : t.initDone = true := by
  unfold initSeq initCommands at h
  rw [← List.append_assoc, perform_append, andThen_eq_next] at h
  obtain ⟨u, -, hu⟩ := h
  cases hu
  rfl

/-- A run of LCDINIT leaves INIT_DONE set, also when it faults with REINIT (R26, R332). -/
theorem exec_lcdinit_initDone {s t : State} (h : exec .lcdinit s = .next t) : t.initDone = true := by
  obtain ⟨c, hc, rfl⟩ | ⟨todo, l, u, hgo, hu, ht⟩ := exec_cases h
  · simp only [planOf, planLcdinit] at hc
    split at hc <;> cases hc
    assumption
  · simp only [planOf, planLcdinit] at hgo
    split at hgo <;> cases hgo
    exact (kept_initDone_true fun _ => True).runLoop (fun _ _ _ _ _ => trivial) (perform_initSeq_initDone hu) ht

theorem keptByStep_initDone : KeptByStep (fun _ => True) (fun _ => True) fun u => u.initDone = true where
  toKeptByRun := (kept_initDone_true _).byRun (fun _ => id) (fun _ => id)
  setHost _ := id
  accept _ := id
  setMem _ _ := id
  ioWrite _ _ := id

/-- Settles O32. -/
theorem onlyLcdinitSetsInitDone : Obligations.OnlyLcdinitSetsInitDone := by
  refine ⟨fun i s t h hi => ?others, fun s t => exec_lcdinit_initDone, fun s t h hs ht => ?reset⟩
  case others =>
    obtain ⟨c, -, rfl⟩ | hkept := (kept_initDone (M := Micro.Planned s.cfg i) hi s.initDone).exec_planned rfl h
    · rfl
    · exact hkept
  case reset =>
    obtain ⟨r, hreset, -⟩ | ⟨hkept, -⟩ := keptByStep_initDone.step ⟨hs, fun _ _ => trivial⟩ h
    · rw [State.nextMove, hreset]; rfl
    · exact absurd (hkept.symm.trans ht) (by decide)

/-- Settles O33: a plan samples only for GETPINSTATE and BTNGET, and binds only for BTNINIT. -/
theorem resultAndButtonWriters : Obligations.ResultAndButtonWriters := by
  intro i s t h
  refine ⟨fun hget hbtnget => ?result, fun hbtn => ?btn⟩
  case result =>
    have hno : ∀ a pin level, ¬ Micro.Planned s.cfg i (.sample a pin level) := by
      rintro a pin level (⟨reg, bit, hi⟩ | ⟨slot, hi⟩)
      · exact hget reg bit hi
      · exact hbtnget slot hi
    obtain ⟨c, -, rfl⟩ | hkept := (kept_result hno s.result).exec_planned rfl h
    · rfl
    · exact hkept
  case btn =>
    have hno : ∀ k d, ¬ Micro.Planned s.cfg i (.reg (.btn k d)) :=
      fun k d ⟨_, slot, a, o, inp, pin, hi⟩ => hbtn slot a o inp pin hi
    obtain ⟨c, -, rfl⟩ | hkept := (kept_btn hno s.btn).exec_planned rfl h
    · rfl
    · exact hkept

end Sys2Proof.Machine
end

section
/-! The invariants of the machine (10_state.md sections 2 to 6): each part is kept by every micro-step, hence by every
step. O59, O60, O58. -/

namespace Sys2Proof.Machine

/-! ### What the registers and memories hold -/

/-- The part of the machine's invariant that speaks of registers, memories and the display. -/
def StoredInv (s : State) : Prop :=
  s.mem.wf = true ∧ s.io.ioWf s.cfg = true ∧ (s.result = 0#8 ∨ s.result = 1#8) ∧
  (s.fault = false → s.fcode = .none ∧ s.fop = 0#4) ∧
  (∀ k : Fin 8, (s.btn.get k).bound = false → s.btn.get k = Button.unbound) ∧ WireSeen s

theorem WireSeen.congr {s t : State} (h : WireSeen s) (hc : t.cfg = s.cfg) (hi : t.io = s.io)
    (hd : t.disp.prevE = s.disp.prevE) : WireSeen t := by
  intro x hx
  rw [ioCell, hc, hi] at hx
  rw [hd, hc]
  exact h x hx

theorem StoredInv.congr {s t : State} (h : SameRegs s t) (hs : StoredInv s) : StoredInv t := by
  obtain ⟨hmem, hio, hresult, hfault, hbtn, hwire⟩ := hs
  refine ⟨h.mem ▸ hmem, ?_, h.result ▸ hresult, ?_, h.btn ▸ hbtn, hwire.congr h.cfg h.io (by rw [h.disp])⟩
  · rw [h.cfg, h.io]; exact hio
  · rw [h.fault, h.fcode, h.fop]; exact hfault

/-- A write of any register leaves the display having seen the level of E (R285). -/
theorem WireSeen.observe {s : State} (h : WireSeen s) (o : Origin) (a : IoAddr) (v : Byte) :
    WireSeen (observe o a v (s.setIo a v)) := by
  intro x hx
  change ioCell (s.setIo a v) s.cfg.ctrlReg = some x at hx
  show (State.observed (s.setIo a v) o a v).prevE = x.getLsbD s.cfg.eBit.toNat
  by_cases ha : a = s.cfg.ctrlReg
  · subst ha
    rw [ioCell_setIo_same] at hx
    cases hx
    simp [State.observed]
  · rw [ioCell_setIo_other _ _ _ _ (Ne.symm ha)] at hx
    simp only [State.observed, State.setIo_cfg, ha, if_false]
    exact h x hx

theorem StoredInv.observe {s : State} (hs : StoredInv s) (o : Origin) {a : IoAddr} (v : Byte)
    (hv : s.cfg.ioVolatile.contains a = false) : StoredInv (observe o a v (s.setIo a v)) := by
  obtain ⟨hmem, hio, hresult, hfault, hbtn, hwire⟩ := hs
  exact ⟨hmem, setIo_wf s a v hv hio, hresult, hfault, hbtn, hwire.observe o a v⟩

theorem levelResult_mem (x : Byte) (pin : BitIdx) (level : Bool) :
    levelResult x pin level = 0#8 ∨ levelResult x pin level = 1#8 := by
  unfold levelResult
  split
  · exact .inr rfl
  · exact .inl rfl

/-- Binding a descriptor leaves the unbound ones all zero (R30). -/
theorem StoredInv.btn {s : State} (hs : StoredInv s) (k : BitVec 3) {d : Button} (hd : d.bound = true) :
    StoredInv ((RegWrite.btn k d).apply s) := by
  obtain ⟨hmem, hio, hresult, hfault, hbtn, hwire⟩ := hs
  refine ⟨hmem, hio, hresult, hfault, fun j hj => ?_, hwire⟩
  by_cases hk : j = k.toFin
  · subst hk
    rw [show ((RegWrite.btn k d).apply s).btn.get k.toFin = d from boundTable_get_same s k d, hd] at hj
    cases hj
  · have hother : ((RegWrite.btn k d).apply s).btn.get j = s.btn.get j := boundTable_get_other s k d hk
    rw [hother] at hj ⊢
    exact hbtn j hj

/-- A micro-step that binds no unbound descriptor. -/
def Micro.BindsBound (m : Micro) : Prop := ∀ k d, m = .reg (.btn k d) → d.bound = true

theorem StoredInv.effect {m : Micro} {s t : State} (hm : m.BindsBound) (h : m.Effect s t) (hs : StoredInv s) :
    StoredInv t := by
  cases m with
  | rd a => exact hs.congr h
  | wr o a f => obtain ⟨hv, h⟩ := h; exact (hs.observe o _ hv).congr h
  | sample a pin level =>
    obtain ⟨x, h⟩ := h
    obtain ⟨hmem, hio, -, hrest⟩ := hs
    exact StoredInv.congr h ⟨hmem, hio, levelResult_mem x pin level, hrest⟩
  | wait n => exact StoredInv.congr h hs
  | reg r =>
    cases h
    cases r with
    | btn k d => exact hs.btn k (hm k d rfl)
    | _ => exact hs

/-- A micro-step that binds no descriptor, which BTNINIT alone does at its DECODE edge (R171). -/
def Micro.BindsNothing (m : Micro) : Prop := ∀ k d, m ≠ .reg (.btn k d)

theorem Micro.Planned.bindsBound {c : Cfg} {i : Instr} {m : Micro} (h : m.Planned c i) : m.BindsBound := by
  rintro k d rfl
  exact h.1

/-- After its DECODE edge no operation has a descriptor write left (R171). -/
theorem planOf_bindsNothing_left {i : Instr} {s : State} {todo : List Micro} {l : Loop} (h : planOf i s = .go todo l) :
    ∀ m ∈ todo.dropWhile Micro.isReg, m.BindsNothing := by
  by_cases hi : ∃ slot d o inp pin, i = .btninit slot d o inp pin
  · obtain ⟨slot, d, o, inp, pin, rfl⟩ := hi
    cases h
    show ∀ m ∈ rmw _ _ _, _
    simp [rmw, Micro.BindsNothing]
  · rintro m hm k d rfl
    obtain ⟨-, hbind⟩ := planOf_planned h _ ((List.dropWhile_suffix _).subset hm)
    exact hi hbind

theorem turnSeq_bindsNothing (s : State) (b : Byte) : ∀ m ∈ turnSeq s b, m.BindsNothing := by
  rintro m hm k d rfl
  obtain ⟨-, _, _, _, _, _, hi⟩ := turnSeq_planned s b .nop _ hm
  cases hi

theorem StoredInv.raiseFault {s : State} (c : FCode) (hs : StoredInv s) : StoredInv (raiseFault c s) := by
  obtain ⟨hmem, hio, hresult, -, hbtn, hwire⟩ := hs
  exact ⟨hmem, hio, hresult, fun h => (Bool.noConfusion h), hbtn, hwire⟩

theorem keptByStep_storedInv : KeptByStep Micro.BindsBound Micro.BindsNothing StoredInv where
  congr := StoredInv.congr
  run := StoredInv.effect
  runs h k d e := absurd e (h k d)
  plan _ h := ⟨fun m hm => (planOf_planned h m hm).bindsBound, planOf_bindsNothing_left h⟩
  turn _ := turnSeq_bindsNothing _ _
  raise c := StoredInv.raiseFault c
  load _ := id
  count := id
  left _ _ _ := nofun
  setHost _ := id
  accept _ := id
  setMem a v := fun ⟨hmem, hrest⟩ => ⟨setMem_wf _ a v hmem, hrest⟩
  ioWrite v hv hs := hs.observe .gpio v hv

theorem StoredInv.blockReset {s : State} (hs : StoredInv s) : StoredInv s.blockReset := by
  obtain ⟨hmem, hio, -, -, -, hwire⟩ := hs
  exact ⟨hmem, hio, .inl rfl, fun _ => ⟨rfl, rfl⟩, fun k _ => blockReset_btn s k, hwire⟩

/-! ### Nothing left to do in IDLE -/

/-- An edge leads to the next micro-step that takes cycles, or ends the operation (R121, R122). -/
theorem atEdge_ends (l : List Micro) (s : State) : AtRest (atEdge l s) ∨ (atEdge l s).seq = s.seq := by
  fun_induction atEdge l s with
  | case1 s _ => exact .inl (AtRest.toIdle s)
  | case2 s _ => exact .inr rfl
  | case3 s r t ih => exact ih.imp_right fun h => h.trans (RegWrite.apply_seq ..)
  | case4 s t ih => exact ih
  | case5 s n t _ => exact .inr rfl
  | case6 s x t _ _ => exact .inr rfl

/-- A run of an operation ends it, or leaves it in RUN. -/
theorem complete_ends {l : List Micro} {s t : State} (hs : s.seq = .run) (h : complete l s = .next t) :
    AtRest t ∨ t.seq = .run := by
  obtain ⟨u, hu, ht⟩ := andThen_eq_next.mp h
  refine runLoop_keeps (fun u => AtRest u ∨ u.seq = .run) (fun u _ => .inl (AtRest.toIdle u)) (fun _ => id) ?_ lap u t
    (.inr ((perform_control hu).1.trans hs)) ht
  intro a b v w ha hread hturn
  have hread' : v.seq = a.seq ∧ v.tsm = a.tsm ∧ v.todo = a.todo ∧ v.loop = a.loop ∧ v.raced = a.raced := by
    obtain ⟨-, ⟨-, rfl⟩ | ⟨n, r, -, rfl⟩⟩ := memRead_cases hread <;>
      exact ⟨memTaken_seq .., memTaken_tsm .., memTaken_todo .., memTaken_loop .., memTaken_raced ..⟩
  obtain ⟨h1, h2, h3, h4, h5⟩ := hread'
  obtain ⟨k1, k2, k3, k4, k5⟩ | hrun := ha
  · have hloop : v.loop = .done := h4.trans k4
    rw [turnSeq, hloop, perform_nil] at hturn
    cases hturn
    exact .inl ⟨h1.trans k1, h2.trans k2, h3.trans k3, h4.trans k4, h5.trans k5⟩
  · exact .inr ((perform_control hturn).1.trans (h1.trans hrun))

/-- In IDLE nothing is left to do (R25, R31). -/
def IdleAtRest (s : State) : Prop := s.seq = .idle → AtRest s

theorem IdleAtRest.of_ends {t : State} {q : Seq} (hq : q ≠ .idle) (h : AtRest t ∨ t.seq = q) : IdleAtRest t := by
  obtain h | h := h
  · exact fun _ => h
  · exact fun hidle => absurd (h.symm.trans hidle) hq

theorem exec_idleAtRest {i : Instr} {s t : State} (h : exec i s = .next t) : IdleAtRest t := by
  rw [exec_eq] at h
  cases hplan : planOf i s with
  | fault c => rw [hplan] at h; cases h; exact fun _ => AtRest.toIdle _
  | go todo l => rw [hplan] at h; exact .of_ends (by decide) (complete_ends rfl h)

theorem runWord_idleAtRest {s t : State} (h : runWord s = .next t) : IdleAtRest t := by
  unfold runWord at h
  split at h
  · exact exec_idleAtRest h
  · cases h; exact fun _ => AtRest.toIdle _

theorem runOn_idleAtRest {s t : State} (hs : IdleAtRest s) (h : runOn s = .next t) : IdleAtRest t := by
  unfold runOn at h
  split at h
  · cases h; exact hs
  · exact runWord_idleAtRest h
  · next hrun => exact .of_ends (by decide) (complete_ends (s := s.setTodo []) hrun h)

theorem runCycle_idleAtRest {s t : State} (hs : s.seq = .run) (h : runCycle s = .next t) : IdleAtRest t := by
  have hrun : Seq.run ≠ .idle := by decide
  have hedge : ∀ l u, u.seq = .run → IdleAtRest (atEdge l u) :=
    fun l u hu => .of_ends hrun ((atEdge_ends l u).imp_right (·.trans hu))
  unfold runCycle at h
  split at h
  case h_1 =>
    cases h
    split
    · exact hedge _ _ hs
    · exact .of_ends hrun (.inr hs)
  case h_2 => cases h; exact hedge _ _ hs
  case h_3 =>
    obtain ⟨u, hu, ht⟩ := andThen_eq_next.mp h
    cases ht
    exact hedge _ _ ((run_control hu).1.trans hs)
  case h_4 =>
    split at h <;> cases h
    · exact fun _ => AtRest.toIdle s
    · unfold memCycle
      split
      · exact .of_ends hrun (.inr hs)
      · exact .of_ends hrun (.inr hs)
      · exact hedge _ _ hs
      · exact hedge _ _ hs

theorem tick_idleAtRest {s t : State} (hs : IdleAtRest s) (h : tick s = .next t) : IdleAtRest t := by
  unfold tick at h
  split at h
  · cases h; exact hs
  · split at h
    · cases h; exact fun _ => AtRest.toIdle _
    · split at h <;> cases h
      · exact fun _ => AtRest.toIdle _
      · exact .of_ends (q := .run) (by decide) (atEdge_ends _ _)
  · next hrun => exact runCycle_idleAtRest hrun h

theorem ticks_idleAtRest {n : Nat} {s t : State} (hs : IdleAtRest s) (h : ticks n s = .next t) : IdleAtRest t := by
  induction n generalizing s with
  | zero => cases h; exact hs
  | succ n ih =>
    obtain ⟨u, hu, ht⟩ := andThen_eq_next.mp h
    exact ih (tick_idleAtRest hs hu) ht

theorem hostMemWrite_idleAtRest {s : State} (a : MemAddr) (v : Byte) (hs : IdleAtRest s) :
    IdleAtRest (hostMemWrite a v s) := by
  unfold hostMemWrite
  split
  case isTrue hbusy => exact fun hidle => absurd hidle ((busy_eq_true_iff s).mp hbusy)
  case isFalse => exact hs

theorem step_idleAtRest {s t : State} (hs : IdleAtRest s) (h : step s = .next t) : IdleAtRest t := by
  obtain ⟨-, ⟨-, hrun⟩ | ⟨w, r, -, ⟨-, hrun⟩ | ⟨-, hrun⟩⟩ | ⟨w, r, -, ⟨-, hrun⟩ | ⟨-, rfl⟩⟩ | ⟨n, r, -, hrun⟩ |
    ⟨r, -, rfl⟩ | ⟨a, v, r, -, rfl⟩ | ⟨a, v, r, -, -, -, rfl⟩ | ⟨k, r, -, rfl⟩⟩ := step_cases h
  · exact runOn_idleAtRest hs hrun
  · exact runOn_idleAtRest hs hrun
  · exact runWord_idleAtRest hrun
  · exact runOn_idleAtRest hs hrun
  · exact nofun
  · exact ticks_idleAtRest (s := s.setHost r) hs hrun
  · exact fun _ => ⟨rfl, rfl, rfl, rfl, rfl⟩
  · exact hostMemWrite_idleAtRest (s := s.setHost r) a v hs
  · exact hs
  · exact hs

/-- The invariant, in the parts that are proved apart. -/
theorem machineInv_iff (s : State) : MachineInv s ↔ Holds Micro.BindsNothing StoredInv s ∧ IdleAtRest s := by
  unfold MachineInv Holds StoredInv IdleAtRest Micro.BindsNothing
  constructor
  · rintro ⟨h1, h2, h3, h4, h5, h6, h7, h8⟩
    exact ⟨⟨⟨h1, h2, h3, h4, h5, h8⟩, fun m hm k d e => h6 k d (e ▸ hm)⟩, h7⟩
  · rintro ⟨⟨⟨h1, h2, h3, h4, h5, h8⟩, h6⟩, h7⟩
    exact ⟨h1, h2, h3, h4, h5, fun k d hm => h6 _ hm k d rfl, h7, h8⟩

/-- Settles O59: registers and memories by what every micro-step keeps, and IDLE by where a run can end. -/
theorem everyStepKeepsTheInvariant : Obligations.EveryStepKeepsTheInvariant := by
  intro s t hs h
  rw [machineInv_iff] at hs ⊢
  obtain ⟨hholds, hrest⟩ := hs
  refine ⟨?_, step_idleAtRest hrest h⟩
  obtain ⟨r, -, rfl⟩ | hkept := keptByStep_storedInv.step hholds h
  · exact ⟨(keptByStep_storedInv.setHost r hholds.1).blockReset, fun _ hm => nomatch hm⟩
  · exact hkept

/-! ### The wait counter -/

/-- A wait that fits the counter of a configuration (R8, R31). -/
def Micro.Fits (c : Cfg) (m : Micro) : Prop := ∀ n, m = .wait n → n < 2 ^ c.wcw

theorem waitTimes_fit {c : Cfg} (h : c.wf = true) : ∀ n ∈ waitTimes c, n < 2 ^ c.wcw := by
  simp only [Cfg.wf, Bool.and_eq_true, Cfg.cfgTimes_iff] at h
  obtain ⟨-, -, -, hfit⟩ := h
  exact hfit

theorem Micro.Planned.fits {c : Cfg} {i : Instr} {m : Micro} (hwf : c.wf = true) (h : m.Planned c i) : m.Fits c := by
  rintro n rfl
  exact waitTimes_fit hwf n h

/-- WCNT fits, under a fixed configuration. -/
def WcntFits (c : Cfg) (s : State) : Prop := s.cfg = c ∧ s.wcnt < 2 ^ c.wcw

theorem WcntFits.congr {c : Cfg} {s t : State} (h : SameRegs s t) : WcntFits c s → WcntFits c t :=
  fun ⟨hc, hn⟩ => ⟨h.cfg.trans hc, h.wcnt.trans_lt hn⟩

theorem WcntFits.effect {c : Cfg} {m : Micro} {s t : State} (h : m.Effect s t) (hs : WcntFits c s) : WcntFits c t := by
  cases m with
  | rd a => exact hs.congr h
  | wr o a f => obtain ⟨-, h⟩ := h; exact WcntFits.congr h hs
  | sample a pin level => obtain ⟨x, h⟩ := h; exact WcntFits.congr h hs
  | wait n => exact WcntFits.congr h ⟨hs.1, Nat.two_pow_pos _⟩
  | reg r => cases h; exact ⟨(RegWrite.apply_cfg ..).trans hs.1, (RegWrite.apply_wcnt ..).trans_lt hs.2⟩

theorem keptByStep_wcntFits {c : Cfg} (hwf : c.wf = true) :
    KeptByStep (Micro.Fits c) (Micro.Fits c) (WcntFits c) where
  congr := WcntFits.congr
  run _ := WcntFits.effect
  runs := id
  plan hs h :=
    have hfits := fun m hm => (hs.1 ▸ planOf_planned h m hm : m.Planned c _).fits hwf
    ⟨hfits, fun m hm => hfits m ((List.dropWhile_suffix _).subset hm)⟩
  turn hs := fun m hm => (hs.1 ▸ turnSeq_planned _ _ .nop m hm : m.Planned c _).fits hwf
  raise _ := id
  load hn hs := ⟨hs.1, hn _ rfl⟩
  count hs := ⟨hs.1, (Nat.sub_le _ _).trans_lt hs.2⟩
  left hs n e := by cases e; exact hs.2
  setHost _ := id
  accept _ := id
  setMem _ _ := id
  ioWrite _ _ := id

theorem counterFits_iff (s : State) : CounterFits s ↔ Holds (Micro.Fits s.cfg) (WcntFits s.cfg) s := by
  unfold CounterFits Holds WcntFits Micro.Fits
  constructor
  · rintro ⟨h1, h2⟩
    exact ⟨⟨rfl, h1⟩, fun m hm n e => h2 n (e ▸ hm)⟩
  · rintro ⟨⟨-, h1⟩, h2⟩
    exact ⟨h1, fun n hm => h2 _ hm n rfl⟩

/-- Settles O60: every wait that is loaded is one of the configuration's, which R8 bounds. -/
theorem everyStepKeepsTheWaitCounterInRange : Obligations.EveryStepKeepsTheWaitCounterInRange := by
  intro s t hs h
  obtain ⟨hwf, -⟩ := step_cases h
  obtain ⟨r, -, rfl⟩ | ⟨⟨hc, hn⟩, hleft⟩ := (keptByStep_wcntFits hwf).step ((counterFits_iff s).mp hs) h
  · exact ⟨Nat.two_pow_pos _, fun _ hm => nomatch hm⟩
  · exact (counterFits_iff t).mpr (hc.symm ▸ ⟨⟨hc, hn⟩, hleft⟩)

/-! ### After reset -/

/-- The display at power-on has seen the level that IO_INIT puts on the wire (R282). -/
theorem resetWith_wireSeen (c : Cfg) : WireSeen (State.resetWith c) := by
  intro x hx
  change ioInit c c.ctrlReg = some x at hx
  simp [State.resetWith, Disp.powerOn, powerOnE, hx]

/-- Settles O58. -/
theorem resetMeetsTheInvariant : Obligations.ResetMeetsTheInvariant := by
  refine fun c => ⟨⟨rfl, rfl, .inl rfl, fun _ => ⟨rfl, rfl⟩, fun k _ => ?_, fun _ _ => nofun,
    fun _ => ⟨rfl, rfl, rfl, rfl, rfl⟩, resetWith_wireSeen c⟩, Nat.two_pow_pos _, fun _ => nofun⟩
  exact Vector.get_replicate 8 Button.unbound k

end Sys2Proof.Machine
end

section
/-! The machine one clock cycle at a time (40_control.md R121, R122): the cycles of each micro-step, of a MemRead, of a
loop and of an operation end where `exec` ends. O13. -/

namespace Sys2Proof.Machine

/-! ### What is listed as left to run -/

/-- No micro-step looks at what is left to run. -/
theorem run_setTodo (m : Micro) (s : State) (k : List Micro) :
    m.run (s.setTodo k) = andThen (m.run s) fun t => .next (t.setTodo k) := by
  have hread : ∀ a, ioRead a (s.setTodo k) = andThen (ioRead a s) fun p => .next (p.1, p.2.setTodo k) := by
    intro a
    cases hv : s.cfg.ioVolatile.contains a with
    | true => rw [ioRead_volatile a s hv, ioRead_volatile a (s.setTodo k) hv]; rfl
    | false =>
      cases hc : ioCell s a with
      | none => rw [ioRead_unknown a s hv hc, ioRead_unknown a (s.setTodo k) hv hc]; rfl
      | some x => rw [ioRead_stored a s x hv hc, ioRead_stored a (s.setTodo k) x hv hc]; rfl
  cases m with
  | rd a => simp only [Micro.run, hread, andThen_assoc, andThen_next]; rfl
  | wr o a f =>
    have hval : f.apply (s.setTodo k) s.rmwv = f.apply s s.rmwv := upd_apply_congr f s.rmwv rfl rfl rfl
    simp only [Micro.run, State.setTodo_rmwv, hval]
    cases hv : s.cfg.ioVolatile.contains a with
    | true => rw [ioWrite_volatile o a _ s hv, ioWrite_volatile o a _ (s.setTodo k) hv]; rfl
    | false => rw [ioWrite_stored o a _ s hv, ioWrite_stored o a _ (s.setTodo k) hv]; rfl
  | sample a pin level => simp only [Micro.run, hread, andThen_assoc, andThen_next]; rfl
  | wait n => rfl
  | reg r => cases r <;> rfl

/-- An edge overwrites what is left to run. -/
theorem atEdge_setTodo (l : List Micro) (s : State) (k : List Micro) : atEdge l (s.setTodo k) = atEdge l s := by
  induction l generalizing s with
  | nil =>
    by_cases h : s.loop = .done
    · rw [atEdge, atEdge, if_pos h, State.setTodo_loop, if_pos h]; rfl
    · rw [atEdge, atEdge, if_neg h, State.setTodo_loop, if_neg h]; rfl
  | cons m l ih =>
    cases m with
    | reg r =>
      have hr : r.apply (s.setTodo k) = (r.apply s).setTodo k := by cases r <;> rfl
      rw [atEdge, atEdge, hr, ih]
    | wait n =>
      unfold atEdge
      split
      · exact ih (s.setWcnt 0)
      · rfl
    | _ => rfl

/-! ### The cycles of micro-steps -/

/-- A micro-step that is one access to the I/O space. -/
def Micro.isAccess (m : Micro) : Bool :=
  match m with
  | .rd _ | .wr _ _ _ | .sample _ _ _ => true
  | .wait _ | .reg _ => false

theorem cycles_of_access {m : Micro} (hm : m.isAccess = true) {s t : State} (h : m.run s = .next t) :
    t.cycles = s.cycles + 1 := by
  cases m with
  | rd a =>
    obtain ⟨⟨x, u⟩, hread, ht⟩ := andThen_eq_next.mp h
    cases ht
    obtain ⟨-, -, rfl⟩ | ⟨-, -, rfl⟩ := ioRead_cases hread <;> exact cycles_log _ (.ioRd a x)
  | wr o a f => obtain ⟨-, rfl⟩ := ioWrite_cases h; exact cycles_log s (.ioWr a _)
  | sample a pin level =>
    obtain ⟨⟨x, u⟩, hread, ht⟩ := andThen_eq_next.mp h
    cases ht
    obtain ⟨-, -, rfl⟩ | ⟨-, -, rfl⟩ := ioRead_cases hread <;> exact cycles_log _ (.ioRd a x)
  | wait n => cases hm
  | reg r => cases hm

/-- The cycle of an access, and the edge at its end. -/
theorem tick_of_access {m : Micro} (hm : m.isAccess = true) {l : List Micro} {s u : State} (hrun : s.seq = .run)
    (h : m.run s = .next u) : tick (atEdge (m :: l) s) = .next (atEdge l u) := by
  have hedge : atEdge (m :: l) s = s.setTodo (m :: l) := by
    cases m with
    | wait | reg => cases hm
    | _ => rfl
  have hcycle : runCycle (s.setTodo (m :: l)) =
      andThen (m.run (s.setTodo (m :: l))) fun u => .next (atEdge l u) := by
    cases m with
    | wait | reg => cases hm
    | _ => rfl
  rw [hedge, tick_of_run (s := s.setTodo (m :: l)) hrun, hcycle, run_setTodo, h, andThen_next, andThen_next, atEdge_setTodo]

theorem pushEvent_wait_succ (n : Nat) (tr : List Event) :
    pushEvent (.wait (n + 1)) (pushEvent (.wait 1) tr) = pushEvent (.wait (n + 2)) tr := by
  have hadd : 1 + (n + 1) = n + 2 := by omega
  cases tr with
  | nil => simp only [pushEvent, hadd]
  | cons e r => cases e <;> simp only [pushEvent, Nat.add_assoc, hadd]

theorem pushEvent_stall_succ (n : Nat) (tr : List Event) :
    pushEvent (.stall (n + 1)) (pushEvent (.stall 1) tr) = pushEvent (.stall (n + 2)) tr := by
  have hadd : 1 + (n + 1) = n + 2 := by omega
  cases tr with
  | nil => simp only [pushEvent, hadd]
  | cons e r => cases e <;> simp only [pushEvent, Nat.add_assoc, hadd]

/-- The cycles of a wait, one by one, leave the record of the whole wait (R211). -/
theorem ticks_of_wait {l : List Micro} {w : Nat} (n : Nat) {s : State} (hrun : s.seq = .run)
    (htodo : s.todo = .wait w :: l) (hwcnt : s.wcnt = n + 1) :
    ticks (n + 1) s = .next (atEdge l ((s.setWcnt 0).logCycles .wait (n + 1))) := by
  induction n generalizing s with
  | zero => rw [ticks, tick_of_wait hrun htodo, hwcnt, if_pos rfl, State.waitedOnce, hwcnt]; rfl
  | succ n ih =>
    have hnext : s.waitedOnce.wcnt = n + 1 := by show s.wcnt - 1 = n + 1; omega
    have hlast : s.wcnt - 1 ≠ 0 := by omega
    rw [ticks, tick_of_wait hrun htodo, if_neg hlast, andThen_next, ih (s := s.waitedOnce) hrun htodo hnext]
    have hrecord : (s.waitedOnce.setWcnt 0).logCycles .wait (n + 1) = (s.setWcnt 0).logCycles .wait (n + 2) :=
      congrArg (fun tr => { s.setWcnt 0 with trace := tr }) (pushEvent_wait_succ n s.trace)
    rw [hrecord]

/-- Listed micro-steps, one cycle at a time: from the edge before the first to the edge after the last (R122). -/
theorem ticks_of_perform {l : List Micro} {s u : State} (hrun : s.seq = .run) (h : perform l s = .next u) :
    ∃ n, u.cycles = s.cycles + n ∧ ticks n (atEdge l s) = .next (atEdge [] u) := by
  induction l generalizing s with
  | nil => cases h; exact ⟨0, rfl, rfl⟩
  | cons m l ih =>
    obtain ⟨v, hv, hu⟩ := andThen_eq_next.mp h
    obtain ⟨n, hn, hticks⟩ := ih ((run_control hv).1.trans hrun) hu
    cases hm : m.isAccess with
    | true =>
      refine ⟨1 + n, by rw [hn, cycles_of_access hm hv, Nat.add_assoc], ?_⟩
      rw [Nat.add_comm, ticks, tick_of_access hm hrun hv, andThen_next, hticks]
    | false =>
      cases m with
      | reg r =>
        cases hv
        have hr : (r.apply s).cycles = s.cycles := by rw [State.cycles, RegWrite.apply_trace]; rfl
        exact ⟨n, hn.trans (by rw [hr]), hticks⟩
      | wait k =>
        cases hv
        rw [cycles_wait, show (s.setWcnt 0).cycles = s.cycles from rfl] at hn
        obtain _ | k := k
        · exact ⟨n, hn, hticks⟩
        · refine ⟨k + 1 + n, by rw [hn, Nat.add_assoc], ?_⟩
          rw [ticks_add, atEdge_wait_of_pos k.succ_pos,
            ticks_of_wait k (s := (s.setWcnt (k + 1)).setTodo (.wait (k + 1) :: l)) hrun rfl rfl, andThen_next, ← hticks]
          exact congrArg (ticks n) (atEdge_setTodo l ((s.setWcnt 0).logCycles .wait (k + 1)) _)
      | _ => cases hm

/-! ### The cycles of a loop -/

theorem tick_of_memRead {s : State} (hrun : s.seq = .run) (htodo : s.todo = []) (hloop : s.loop ≠ .done) :
    tick s = .next (memCycle s) := by
  rw [tick_of_run hrun, runCycle, htodo]
  exact if_neg hloop

/-- The cycles without an acknowledge, one by one, and then the read (R62). -/
theorem ticks_of_stall (n : Nat) {r : List Ack} {s : State} (hrun : s.seq = .run) (htodo : s.todo = [])
    (hloop : s.loop ≠ .done) (hacks : s.acks = .after n :: r) :
    ticks (n + 1) s = .next (turnBegins ((s.setAcks r).logCycles .stall n)) := by
  induction n generalizing s with
  | zero =>
    rw [ticks, tick_of_memRead hrun htodo hloop, memCycle, hacks]
    rfl
  | succ n ih =>
    have hstall : memCycle s = (s.setAcks (.after n :: r)).log (.stall 1) := by rw [memCycle, hacks]
    rw [ticks, tick_of_memRead hrun htodo hloop, andThen_next, hstall,
      ih (s := (s.setAcks (.after n :: r)).log (.stall 1)) hrun htodo hloop rfl]
    have hrecord : (((s.setAcks (.after n :: r)).log (.stall 1)).setAcks r).logCycles .stall n =
        (s.setAcks r).logCycles .stall (n + 1) := by
      obtain _ | n := n
      · rfl
      · exact congrArg (fun tr => { s.setAcks r with trace := tr }) (pushEvent_stall_succ n s.trace)
    rw [hrecord]

theorem turnSeq_congr {s t : State} (hl : t.loop = s.loop) (hc : t.cfg = s.cfg) (b : Byte) :
    turnSeq t b = turnSeq s b := by
  unfold turnSeq
  rw [hl, hc]

theorem cycles_memTaken (s : State) (a : MemAddr) : (memTaken s a).cycles = s.cycles + 1 :=
  cycles_log (s.drawn _) (.memRd a _)

/-- A MemRead, one cycle at a time, to the edge at which its turn begins (R62). -/
theorem ticks_of_memRead {s u : State} {b : Byte} (hrun : s.seq = .run) (hloop : s.loop ≠ .done)
    (h : memRead s = some (b, u)) :
    ∃ n, u.cycles = s.cycles + n ∧ ticks n (s.setTodo []) = .next (atEdge (turnSeq u b) u) := by
  have hturn : ∀ w : State, w.loop = s.loop → w.cfg = s.cfg → memValue w.sp w = b →
      turnBegins (w.setTodo []) = atEdge (turnSeq (memTaken w w.sp) b) (memTaken w w.sp) := by
    rintro w hl hc rfl
    rw [turnSeq_congr (memTaken_loop ..) (memTaken_cfg ..)]
    exact atEdge_setTodo _ (memTaken w w.sp) []
  obtain ⟨rfl, ⟨hacks, rfl⟩ | ⟨n, r, hacks, rfl⟩⟩ := memRead_cases h
  · refine ⟨1, cycles_memTaken s s.sp, ?_⟩
    have hcycle : memCycle (s.setTodo []) = turnBegins (s.setTodo []) := by
      rw [memCycle, State.setTodo_acks, hacks]
    rw [ticks, tick_of_memRead (s := s.setTodo []) hrun rfl hloop, hcycle, hturn s rfl rfl rfl]
    rfl
  · refine ⟨n + 1, by rw [cycles_memTaken, cycles_stall]; rfl, ?_⟩
    rw [ticks_of_stall n (s := s.setTodo []) hrun rfl hloop hacks]
    exact congrArg Host.Outcome.next (hturn ((s.setAcks r).logCycles .stall n) rfl rfl rfl)

theorem memRead_seq {s u : State} {b : Byte} (h : memRead s = some (b, u)) : u.seq = s.seq := by
  obtain ⟨-, ⟨-, rfl⟩ | ⟨n, r, -, rfl⟩⟩ := memRead_cases h <;> exact memTaken_seq ..

/-- A loop that ends, one cycle at a time. -/
theorem ticks_of_runLoop {k : Nat} {s t : State} (hrun : s.seq = .run) (h : runLoop k s = .next t)
    (ht : t.seq = .idle) : ∃ n, t.cycles = s.cycles + n ∧ ticks n (atEdge [] s) = .next t := by
  have hbusy : s.seq ≠ .idle := by rw [hrun]; decide
  induction k generalizing s with
  | zero =>
    obtain ⟨hl, rfl⟩ | ⟨-, ⟨-, rfl⟩ | ⟨j, hj, -⟩⟩ := runLoop_cases h
    · exact ⟨0, rfl, by rw [atEdge, if_pos hl]; rfl⟩
    · exact absurd ht hbusy
    · cases hj
  | succ k ih =>
    obtain ⟨hl, rfl⟩ | ⟨hl, ⟨hk, -⟩ | ⟨j, hj, ⟨-, rfl⟩ | ⟨b, u, v, hread, hturn, hloop⟩⟩⟩ := runLoop_cases h
    · exact ⟨0, rfl, by rw [atEdge, if_pos hl]; rfl⟩
    · cases hk
    · exact absurd ht hbusy
    · cases hj
      have hu : u.seq = .run := (memRead_seq hread).trans hrun
      have hv : v.seq = .run := (perform_control hturn).1.trans hu
      obtain ⟨n1, c1, h1⟩ := ticks_of_memRead hrun hl hread
      obtain ⟨n2, c2, h2⟩ := ticks_of_perform hu hturn
      obtain ⟨n3, c3, h3⟩ := ih hv hloop (by rw [hv]; decide)
      refine ⟨n1 + (n2 + n3), by rw [c3, c2, c1]; omega, ?_⟩
      rw [atEdge, if_neg hl, ticks_add, h1, andThen_next, ticks_add, h2, andThen_next, h3]

/-- Settles O13. -/
theorem cycleByCycleRunEqualsExec : Obligations.CycleByCycleRunEqualsExec := by
  intro s t i hseq hdecode h hidle
  have hcount : ∀ n, t.cycles = s.cycles + n → ticks n s = .next t → ticks (t.cycles - s.cycles) s = .next t := by
    intro n hn hticks
    rwa [hn, Nat.add_sub_cancel_left]
  obtain ⟨c, hplan, rfl⟩ | ⟨todo, l, u, hplan, hu, hloop⟩ := exec_cases h
  · refine hcount 1 (cycles_log s .decode) ?_
    simp only [ticks, tick, hseq, hdecode, hplan]
    rfl
  · have hfirst : tick s = .next (atEdge todo ((s.log .decode).toRun l)) := by
      simp only [tick, hseq, hdecode, hplan]
    obtain ⟨n1, c1, h1⟩ := ticks_of_perform rfl hu
    obtain ⟨n2, c2, h2⟩ := ticks_of_runLoop ((perform_control hu).1) hloop hidle
    have hdec : ((s.log .decode).toRun l).cycles = s.cycles + 1 := cycles_log s .decode
    refine hcount (1 + (n1 + n2)) (by rw [c2, c1, hdec]; omega) ?_
    rw [Nat.add_comm, ticks, hfirst, andThen_next, ticks_add, h1, andThen_next, h2]

end Sys2Proof.Machine
end

section
/-! The block and the display (47_display_model.md, introduction): with another display attached, every micro-step ends
the same way, so every operation does. O35. -/

namespace Sys2Proof.Machine

/-- The state with another display attached. -/
def State.withDisp (s : State) (d : Disp) : State := { s with disp := d }

/-- Two outcomes that differ in the display alone, and are no machine fault. -/
def SameButDisp (r q : Res State) : Prop :=
  match r, q with
  | .next s, .next t => ∃ d, t = s.withDisp d
  | .refused e, .refused f => e = f
  | _, _ => False

namespace SameButDisp

theorem next (s : State) (d : Disp) : SameButDisp (.next s) (.next (s.withDisp d)) := ⟨d, rfl⟩

theorem andThen {r q : Res State} {f : State → Res State} (h : SameButDisp r q)
    (hf : ∀ s d, SameButDisp (f s) (f (s.withDisp d))) : SameButDisp (andThen r f) (andThen q f) := by
  cases r <;> cases q
  case next.next s t => obtain ⟨d, rfl⟩ := h; exact hf s d
  case refused.refused => exact h
  all_goals exact h.elim

end SameButDisp

/-- What `f` does to the block is the same whatever display is attached. -/
def IgnoresDisp (f : State → Res State) : Prop := ∀ (s : State) (d : Disp), SameButDisp (f s) (f (s.withDisp d))

theorem ioRead_withDisp (a : IoAddr) (s : State) (d : Disp) :
    ioRead a (s.withDisp d) = andThen (ioRead a s) fun p => .next (p.1, p.2.withDisp d) := by
  cases hv : s.cfg.ioVolatile.contains a with
  | true => rw [ioRead_volatile a s hv, ioRead_volatile a (s.withDisp d) hv]; rfl
  | false =>
    cases hc : ioCell s a with
    | none => rw [ioRead_unknown a s hv hc, ioRead_unknown a (s.withDisp d) hv hc]; rfl
    | some x => rw [ioRead_stored a s x hv hc, ioRead_stored a (s.withDisp d) x hv hc]; rfl

/-- A read of the I/O space followed by a register write. -/
theorem ioRead_ignoresDisp (a : IoAddr) (g : Byte → State → State)
    (hg : ∀ x s d, g x (State.withDisp s d) = (g x s).withDisp d) :
    IgnoresDisp fun s => andThen (ioRead a s) fun p => .next (g p.1 p.2) := by
  intro s d
  show SameButDisp (andThen (ioRead a s) _) (andThen (ioRead a (s.withDisp d)) _)
  rw [ioRead_withDisp, andThen_assoc]
  cases hread : ioRead a s with
  | next p => simp only [andThen_next, hg]; exact .next _ d
  | refused e => exact rfl
  | fault e =>
    cases hv : s.cfg.ioVolatile.contains a with
    | true => rw [ioRead_volatile a s hv] at hread; cases hread
    | false =>
      cases hc : ioCell s a with
      | none => rw [ioRead_unknown a s hv hc] at hread; cases hread
      | some x => rw [ioRead_stored a s x hv hc] at hread; cases hread

/-- The display observes a write, and the block does not see what it makes of it (R285). -/
theorem ioWrite_ignoresDisp (o : Origin) (a : IoAddr) (v : Byte) : IgnoresDisp (ioWrite o a v) := by
  intro s d
  cases hv : s.cfg.ioVolatile.contains a with
  | true => rw [ioWrite_volatile o a v s hv, ioWrite_volatile o a v (s.withDisp d) hv]; exact rfl
  | false =>
    rw [ioWrite_stored o a v s hv, ioWrite_stored o a v (s.withDisp d) hv]
    exact ⟨((s.withDisp d).setIo a v).observed o a v, rfl⟩

theorem run_ignoresDisp (m : Micro) : IgnoresDisp m.run := by
  cases m with
  | rd a => exact ioRead_ignoresDisp a (fun x s => s.setRmwv x) fun _ _ _ => rfl
  | wr o a f =>
    intro s d
    have hval : f.apply (s.withDisp d) s.rmwv = f.apply s s.rmwv := upd_apply_congr f s.rmwv rfl rfl rfl
    show SameButDisp (ioWrite o a (f.apply s s.rmwv) s) (ioWrite o a (f.apply (s.withDisp d) s.rmwv) (s.withDisp d))
    rw [hval]
    exact ioWrite_ignoresDisp o a _ s d
  | sample a pin level => exact ioRead_ignoresDisp a (fun x s => s.setResult (levelResult x pin level)) fun _ _ _ => rfl
  | wait n => exact fun s d => .next _ d
  | reg r =>
    intro s d
    show SameButDisp (.next (r.apply s)) (.next (r.apply (s.withDisp d)))
    cases r with
    | displaySync => exact ⟨d.synchronise s.cfg, rfl⟩
    | _ => exact ⟨d, rfl⟩

theorem perform_ignoresDisp (l : List Micro) : IgnoresDisp (perform l) := by
  induction l with
  | nil => exact fun s d => .next s d
  | cons m l ih => exact fun s d => (run_ignoresDisp m s d).andThen ih

theorem memRead_withDisp (s : State) (d : Disp) :
    memRead (s.withDisp d) = (memRead s).map fun p => (p.1, p.2.withDisp d) := by
  unfold memRead
  show (match s.acks with | .never :: _ => _ | .after n :: r => _ | [] => _) = _
  cases s.acks with
  | nil => rfl
  | cons k r => cases k <;> rfl

theorem runLoop_ignoresDisp (k : Nat) : IgnoresDisp (runLoop k) := by
  induction k with
  | zero =>
    intro s d
    by_cases hl : s.loop = .done
    · rw [runLoop_done _ s hl, runLoop_done _ (s.withDisp d) hl]; exact .next s.toIdle d
    · have hzero : ∀ u : State, u.loop ≠ .done → runLoop 0 u = .next u := by
        intro u hu; rw [runLoop.eq_def]; split
        · contradiction
        · rfl
      rw [hzero s hl, hzero (s.withDisp d) hl]
      exact .next s d
  | succ k ih =>
    intro s d
    by_cases hl : s.loop = .done
    · rw [runLoop_done _ s hl, runLoop_done _ (s.withDisp d) hl]; exact .next s.toIdle d
    · rw [runLoop_step hl, runLoop_step (s := s.withDisp d) hl, memRead_withDisp]
      cases memRead s with
      | none => exact .next (s.log (.stall 1)) d
      | some p =>
        show SameButDisp (andThen (perform (turnSeq p.2 p.1) p.2) _)
          (andThen (perform (turnSeq (p.2.withDisp d) p.1) (p.2.withDisp d)) _)
        rw [turnSeq_congr (s := p.2) rfl rfl]
        exact (perform_ignoresDisp _ p.2 d).andThen ih

/-- DECODE does not look at the display. -/
theorem planOf_withDisp (i : Instr) (s : State) (d : Disp) : planOf i (s.withDisp d) = planOf i s := by cases i <;> rfl

theorem exec_ignoresDisp (i : Instr) : IgnoresDisp (exec i) := by
  intro s d
  rw [exec_eq, exec_eq, planOf_withDisp]
  cases planOf i s with
  | fault c => exact .next (raiseFault c (s.log .decode)) d
  | go todo l => exact (perform_ignoresDisp todo ((s.log .decode).toRun l) d).andThen (runLoop_ignoresDisp lap)

/-- Settles O35. -/
theorem blockNeverReadsTheDisplay : Obligations.BlockNeverReadsTheDisplay := by
  intro i s d
  have h := exec_ignoresDisp i s d
  refine ⟨fun t ht => ?next, fun e he => ?refused, fun e he => ?fault⟩
  case next =>
    rw [ht] at h
    cases hd : exec i (s.withDisp d) with
    | next u => rw [hd] at h; obtain ⟨d', rfl⟩ := h; exact ⟨d', hd⟩
    | _ => rw [hd] at h; exact h.elim
  case refused =>
    rw [he] at h
    cases hd : exec i (s.withDisp d) with
    | refused f => rw [hd] at h; obtain rfl := h; exact hd
    | _ => rw [hd] at h; exact h.elim
  case fault =>
    rw [he] at h
    cases hd : exec i (s.withDisp d) <;> rw [hd] at h <;> exact h.elim

end Sys2Proof.Machine
end

section
/-! Reads of host memory that wait for ever and reads that race a host write (20_memory.md R62, R78). O36, O37. -/

namespace Sys2Proof.Machine

/-! ### A MemRead that is never answered -/

/-- A MemRead is in progress, and its answer never comes: `s` and `t` differ in the record alone. -/
structure Stuck (s t : State) : Prop where
  seq : t.seq = .run
  todo : t.todo = []
  loop : t.loop ≠ .done
  acks : t.acks.head? = some .never
  cfg : t.cfg = s.cfg
  host : t.host = s.host
  fault : t.fault = s.fault
  io : t.io = s.io
  sp : t.sp = s.sp

theorem Stuck.of_memPending {s : State} {l : List Ack} (hp : s.memPending = true) (ha : s.acks = .never :: l) :
    Stuck s s := by
  simp only [State.memPending, Bool.and_eq_true, beq_iff_eq, bne_iff_ne, List.isEmpty_iff] at hp
  obtain ⟨⟨hseq, htodo⟩, hloop⟩ := hp
  exact ⟨hseq, htodo, hloop, by rw [ha]; rfl, rfl, rfl, rfl, rfl, rfl⟩

theorem Stuck.log {s t : State} (h : Stuck s t) (e : Event) : Stuck s (t.log e) := { h with }

theorem Stuck.memRead_eq_none {s t : State} (h : Stuck s t) : memRead t = none := by
  obtain ⟨l, hl⟩ := List.head?_eq_some_iff.mp h.acks
  rw [memRead, hl]

/-- One clock cycle of waiting (R62). -/
theorem Stuck.tick {s t : State} (h : Stuck s t) : Machine.tick t = .next (t.log (.stall 1)) := by
  obtain ⟨l, hl⟩ := List.head?_eq_some_iff.mp h.acks
  rw [tick_of_memRead h.seq h.todo h.loop, memCycle, hl]

/-- A step of the machine waits too, for one cycle. -/
theorem Stuck.step {s t : State} (h : Stuck s t) (hwf : s.cfg.wf = true) (hhost : s.host = []) :
    ∃ u, Machine.step t = .next u ∧ Stuck s u := by
  have hleft : leftToRun t = [] := by rw [leftToRun, h.todo]
  have hstuck : Stuck s (t.setTodo []) := { h with todo := rfl }
  refine ⟨(t.setTodo []).log (.stall 1), ?_, hstuck.log _⟩
  rw [Machine.step, h.cfg, if_pos hwf, hostStep, h.host, hhost]
  simp only [runOn, h.seq, hleft, complete, perform_nil, andThen_next, lap]
  rw [runLoop_step hstuck.loop, hstuck.memRead_eq_none]

/-- One more step of a run of the machine. -/
theorem core_run_succ (n : Nat) {s t : State} (h : step s = .next t) :
    Host.Core.run core (n + 1) s = Host.Core.run core n t := by
  refine (Host.Core.run.eq_2 core s n).trans ?_
  rw [show core.step s = .next t from h]

/-- A property that every step keeps holds after any number of steps, none of which is refused. -/
theorem core_run_of_step {P : State → Prop} (hP : ∀ t, P t → ∃ u, step t = .next u ∧ P u) (n : Nat) {t : State} (h : P t) :
    ∃ u, Host.Core.run core n t = .next u ∧ P u := by
  induction n generalizing t with
  | zero => exact ⟨t, rfl, h⟩
  | succ n ih =>
    obtain ⟨u, hu, hs⟩ := hP t h
    obtain ⟨v, hv, hs'⟩ := ih hs
    exact ⟨v, (core_run_succ n hu).trans hv, hs'⟩

theorem Stuck.ticks {s : State} (n : Nat) {t : State} (h : Stuck s t) : ∃ u, Machine.ticks n t = .next u ∧ Stuck s u := by
  induction n generalizing t with
  | zero => exact ⟨t, rfl, h⟩
  | succ n ih =>
    obtain ⟨v, hv, hs⟩ := ih (h.log (.stall 1))
    exact ⟨v, by rw [Machine.ticks, h.tick, andThen_next, hv], hs⟩

theorem Stuck.busy {s t : State} (h : Stuck s t) : t.busy = true := (busy_eq_true_iff t).mpr (by rw [h.seq]; decide)

/-- The request and its address stay on the ports (R62). -/
theorem Stuck.ports {s t : State} (h : Stuck s t) :
    (t.ports false).memReq = true ∧ (t.ports false).memAddr = s.sp := by
  simp [State.ports, h.seq, h.todo, h.loop, h.sp]

/-- Settles O36. -/
theorem unansweredReadIsStuck : Obligations.UnansweredReadIsStuck := by
  intro s l hwf hp ha hhost
  have hs := Stuck.of_memPending hp ha
  constructor
  · intro n
    obtain ⟨t, ht, h⟩ := core_run_of_step (fun t h => h.step hwf hhost) n hs
    exact ⟨t, ht, h.busy, h.fault, h.io⟩
  · intro n
    obtain ⟨t, ht, h⟩ := hs.ticks n
    exact ⟨t, ht, h.ports.1, h.ports.2, h.busy, h.fault⟩

/-! ### Races -/

/-- With one race on record, a read returns the byte in memory or the byte that was there (R78). -/
theorem memValue_of_raced {s : State} {a : MemAddr} {old : Byte} (h : s.raced = [(a, old)]) :
    memValue a s = memByte s a ∨ memValue a s = old := by
  have hc : memCandidates s a = [memByte s a, old] := by simp [memCandidates, h]
  have hv : memValue a s = [memByte s a, old].getD (Config.racePick s.draws % 2) (memByte s a) := by
    rw [memValue, hc]; rfl
  rw [hv]
  obtain h0 | h1 := Nat.mod_two_eq_zero_or_one (Config.racePick s.draws)
  · rw [h0]; exact .inl rfl
  · rw [h1]; exact .inr rfl

/-- A read of an address that no host write races returns the byte in memory (R78). -/
theorem memValue_of_not_raced {s : State} {b : MemAddr} (h : ∀ p ∈ s.raced, p.1 ≠ b) : memValue b s = memByte s b := by
  have hc : memCandidates s b = [memByte s b] := by
    have hnone : s.raced.filter (fun p => p.1 == b) = [] := List.filter_eq_nil_iff.mpr (by simpa using h)
    rw [memCandidates, hnone]; rfl
  rw [memValue, hc]

theorem hostMemWrite_raced (a : MemAddr) (v : Byte) (s : State) :
    (hostMemWrite a v s).raced = if s.busy then (a, memByte s a) :: s.raced else s.raced := by
  unfold hostMemWrite
  split <;> rfl

theorem memByte_hostMemWrite (a b : MemAddr) (v : Byte) (s : State) :
    memByte (hostMemWrite a v s) b = if b = a then v else memByte s b := by
  have hmem : memByte (hostMemWrite a v s) b = memByte (s.setMem a v) b := by
    unfold hostMemWrite; exact memByte_congr (by split <;> rfl) b
  rw [hmem]
  split
  case isTrue h => subst h; exact memByte_setMem_same ..
  case isFalse h => exact memByte_setMem_other _ _ _ _ h

/-- Settles O37. -/
theorem hostMemoryRace : Obligations.HostMemoryRace := by
  intro s a v r hwf hh hraced
  have hstep : step s = .next (hostMemWrite a v (s.setHost r)) := by rw [step, if_pos hwf, hostStep, hh]
  have hrace := hostMemWrite_raced a v (s.setHost r)
  rw [State.setHost_raced, hraced] at hrace
  have hbyte := fun b => memByte_hostMemWrite a b v (s.setHost r)
  have hsame : memByte (hostMemWrite a v (s.setHost r)) a = v := by rw [hbyte, if_pos rfl]
  refine ⟨_, hstep, hsame, fun b hb => ?other, fun hidle => ?idle, fun hbusy => ?busy⟩
  case other =>
    have hv : memByte (hostMemWrite a v (s.setHost r)) b = memByte s b := by rw [hbyte, if_neg hb]; rfl
    refine ⟨hv, (memValue_of_not_raced fun p hp => ?_).trans hv⟩
    rw [hrace] at hp
    split at hp
    · rw [List.mem_singleton.mp hp]; exact Ne.symm hb
    · cases hp
  case idle =>
    have hquiet : (s.setHost r).busy = false := hidle
    rw [hquiet, if_neg Bool.false_ne_true] at hrace
    rw [memValue_quiet hrace, hsame]
  case busy =>
    have hnot : (s.setHost r).busy = true := hbusy
    rw [hnot, if_pos rfl] at hrace
    obtain h | h := memValue_of_raced hrace
    · exact .inr (h.trans hsame)
    · exact .inl h

end Sys2Proof.Machine
end

section
/-! The assembler's round trip (30_encoding.md R102), the step of an offered word (40_control.md R120), the GPIO operations
one by one (41_gpio.md), and the state after reset (10_state.md R35). O5, O8, O11, O14 to O21, O29, O44, O57. -/

namespace Sys2Proof.Machine

/-! ### Assembling what a disassembler prints -/

theorem numArg_bvArg {n limit : Nat} (v : BitVec n) (h : 2 ^ n = limit) : numArg limit (bvArg v) = some v.toNat :=
  numArg_of_lt (h ▸ v.isLt)

theorem asmG_bvArg (f : IoAddr → BitIdx → Instr) (r : IoAddr) (b : BitIdx) : asmG f [bvArg r, bvArg b] = .ok (f r b) := by
  simp only [asmG, numArg_bvArg r (limit := 128) rfl, numArg_bvArg b (limit := 8) rfl, BitVec.ofNat_toNat,
    BitVec.setWidth_eq]

theorem asm1_bvArg {n limit : Nat} (f : Nat → Instr) (v : BitVec n) (h : 2 ^ n = limit) :
    asm1 limit f [bvArg v] = .ok (f v.toNat) := by
  simp only [asm1, numArg_bvArg v h]

theorem asmByte_bvArg (f : Byte → Instr) (b : Byte) : asmByte f [bvArg b] = .ok (f b) := by
  have h : byteArg (bvArg b) = some b.toNat := if_pos b.isLt
  simp only [asmByte, h, BitVec.ofNat_toNat, BitVec.setWidth_eq]

theorem asmBtn_bvArg (s : BitVec 3) (d o i : IoAddr) (p : BitIdx) :
    asmBtn [bvArg s, bvArg d, bvArg o, bvArg i, bvArg p] = .ok (.btninit s d o i p) := by
  simp only [asmBtn, numArg_bvArg d (limit := 128) rfl, numArg_bvArg o (limit := 128) rfl,
    numArg_bvArg i (limit := 128) rfl, numArg_bvArg s (limit := 8) rfl, numArg_bvArg p (limit := 8) rfl,
    BitVec.ofNat_toNat, BitVec.setWidth_eq]

theorem asmAt_bvArg (r : BitVec 2) (k : BitVec 6) (m : MemAddr) :
    asmAt [bvArg r, bvArg k, bvArg m] = .ok (.lcdstrat r k m) := by
  simp only [asmAt, numArg_bvArg r (limit := 4) rfl, numArg_bvArg k (limit := 64) rfl,
    numArg_bvArg m (limit := 65536) rfl, BitVec.ofNat_toNat, BitVec.setWidth_eq]

theorem asmGlyph_bvArg (g : BitVec 3) (m : MemAddr) : asmGlyph [bvArg g, bvArg m] = .ok (.lcdglyph g m) := by
  simp only [asmGlyph, numArg_bvArg g (limit := 8) rfl, numArg_bvArg m (limit := 65536) rfl, BitVec.ofNat_toNat,
    BitVec.setWidth_eq]

/-- Settles O5: each field is read back from the number printed for it. -/
theorem assembleOfDisassembleIsIdentity : Obligations.AssembleOfDisassembleIsIdentity := by
  intro c i
  cases i with
  | nop | lcdinit | lcdclear => rfl
  | setbit r b | resetbit r b | togglebit r b | getpinstate r b => exact asmG_bvArg _ r b
  | setpindir r b v =>
    cases v
    · exact asmG_bvArg (fun r b => .setpindir r b .input) r b
    · exact asmG_bvArg (fun r b => .setpindir r b .output) r b
  | setpinstate r b v =>
    cases v
    · exact asmG_bvArg (fun r b => .setpinstate r b .low) r b
    · exact asmG_bvArg (fun r b => .setpinstate r b .high) r b
  | btninit s d o i p => exact asmBtn_bvArg s d o i p
  | btnget s => exact (asm1_bvArg (fun n => .btnget (BitVec.ofNat 3 n)) s rfl).trans (by simp)
  | lcdcmd b | lcdchar b => exact asmByte_bvArg _ b
  | lcdstr m => exact (asm1_bvArg (fun n => .lcdstr (BitVec.ofNat 16 n)) m rfl).trans (by simp)
  | lcdstrat r k m => exact asmAt_bvArg r k m
  | lcdglyph g m => exact asmGlyph_bvArg g m

/-! ### The step of an offered word -/

theorem step_of_offer {s : State} {w : OpWord} {r : List HostMove} (hwf : s.cfg.wf = true) (hh : s.host = .offer w :: r)
    (hb : s.busy = false) : step s = runWord ((s.setHost r).accept w) := by
  simp only [step, hwf, if_true, hostStep, hh, hb, Bool.false_eq_true, if_false]

theorem runWord_of_op {s : State} {i : Instr} (h : decode s.opr = .op i) : runWord s = exec i s := by
  simp only [runWord, h]

theorem runWord_of_illegal {s : State} (h : decode s.opr = .illegal) : runWord s = .next (illegalWord s) := by
  simp only [runWord, h]

theorem tableWord_toNat (w : OpWord) : tableWord 32 w.toNat = w := by
  rw [tableWord, Nat.mod_eq_of_lt w.isLt, BitVec.ofNat_toNat, BitVec.setWidth_eq]

/-- The step of an idle block that `withFetchWord` has given a word. -/
theorem step_withFetchWord {u : State} (hwf : u.cfg.wf = true) (w : OpWord) :
    step (u.withFetchWord 32 w.toNat) = runWord (u.toIdle.accept w) := by
  rw [State.withFetchWord, tableWord_toNat]
  exact step_of_offer (s := { u.toIdle with host := .offer w :: u.host }) hwf rfl rfl

/-- Settles O8. -/
theorem stepRunsTheOfferedOperation : Obligations.StepRunsTheOfferedOperation := by
  intro s w r hwf hh hb
  have hstep := step_of_offer hwf hh hb
  refine ⟨fun i hi => hstep.trans (runWord_of_op hi), fun hi => hstep.trans (runWord_of_illegal hi), rfl, rfl, rfl, rfl,
    rfl, rfl, fun u i hu hi => ?_⟩
  exact (step_withFetchWord hu w).trans (runWord_of_op hi)

/-- Settles O29: whatever the word's opcode, its DECODE cycle raises ILLEGAL. -/
theorem illegalWordFaults : Obligations.IllegalWordFaults := by
  intro s w r hwf hh hb hw
  exact ⟨_, (step_of_offer hwf hh hb).trans (runWord_of_illegal hw), raiseFault_dropped .illegal _⟩

/-- Settles O11. -/
theorem nopChangesNothing : Obligations.NopChangesNothing := by
  intro s htsm htodo hloop hraced
  have h : exec .nop s = .next ((s.log .decode).toRun .done).toIdle := runPlan_go_done [] s _ rfl rfl
  rw [h, htsm, htodo, hloop, hraced]
  rfl

/-! ### The GPIO operations -/

/-- Settles O14. -/
theorem setbitSetsItsBit : Obligations.SetbitSetsItsBit := fun s reg bit x hv hx => setbit_actsBy s reg bit x hv hx

/-- Settles O15. -/
theorem resetbitClearsItsBit : Obligations.ResetbitClearsItsBit := fun s reg bit x hv hx =>
  resetbit_actsBy s reg bit x hv hx

/-- Settles O16: the bit inverted is the byte's exclusive or with the bit's mask. -/
theorem togglebitInvertsItsBit : Obligations.TogglebitInvertsItsBit := fun s reg bit x hv hx =>
  atBit_not bit x ▸ togglebit_actsBy s reg bit x hv hx

/-- Settles O17, for each of the two directions. -/
theorem setpindirWritesTheDirectionBit : Obligations.SetpindirWritesTheDirectionBit := by
  intro s reg bit v x hv hx
  have h := setpindir_rewrites bit v hv hx
  cases v <;> exact h

/-- Settles O18, for each of the two states. -/
theorem setpinstateDrivesThePin : Obligations.SetpinstateDrivesThePin := by
  intro s reg bit v x hv hx
  have h := setpinstate_rewrites bit v hv hx
  cases v <;> exact h

/-- Settles O19. -/
theorem getpinstateReadsAStoredBit : Obligations.GetpinstateReadsAStoredBit := fun _ _ _ _ hv hx =>
  levelResult_eq_ite .. ▸ samples_stored rfl hv hx

/-- Settles O20. -/
theorem getpinstateDrawsFromAnInputRegister : Obligations.GetpinstateDrawsFromAnInputRegister := fun _ _ _ hv =>
  levelResult_eq_ite .. ▸ samples_drawn rfl hv

/-- A plan of one read-modify-write of an input register is refused at its write (R67). -/
theorem runPlan_rmw_volatile {s : State} {reg : IoAddr} (h : s.cfg.ioVolatile.contains reg = true) (f : Upd) :
    runPlan (.go (rmw .gpio reg f) .done) s = .refused (.ioWriteVolatile reg) :=
  runPlan_go_refused _ _ _ _ (perform_rmw_volatile .gpio reg f ((s.log .decode).toRun .done) h)

section
variable {s : State} {reg : IoAddr} (h : s.cfg.ioVolatile.contains reg = false) (hx : ioCell s reg = none)
include h hx

/-- A plan of one read-modify-write of an unknown register is refused at its read (R66). -/
theorem runPlan_rmw_unknown (f : Upd) : runPlan (.go (rmw .gpio reg f) .done) s = .refused (.ioReadUnknown reg) :=
  runPlan_go_refused _ _ _ _ (perform_rmw_unknown .gpio reg f ((s.log .decode).toRun .done) h hx)

/-- So is a plan of one sample. -/
theorem runPlan_sample_unknown (pin : BitIdx) (level : Bool) :
    runPlan (.go [.sample reg pin level] .done) s = .refused (.ioReadUnknown reg) := by
  refine runPlan_go_refused _ _ _ _ ?_
  rw [perform_cons, Micro.run, ioRead_unknown reg ((s.log .decode).toRun .done) h hx]
  rfl

end

/-- Settles O21: every such operation is one read-modify-write or one sample, BTNINIT on the table that it has written. -/
theorem gpioAndButtonRefusals : Obligations.GpioAndButtonRefusals := by
  intro s reg bit
  refine ⟨fun h => ?volatile, fun h hx => ?unknown⟩
  case volatile =>
    have hw := runPlan_rmw_volatile h
    refine ⟨hw _, hw _, hw _, fun v => hw _, fun v => hw _, fun k o i => ?_⟩
    rw [exec_btninit]
    exact runPlan_rmw_volatile (s := s.withBtn (s.boundTable k (boundButton reg o i bit))) h _
  case unknown =>
    have hw := runPlan_rmw_unknown h hx
    refine ⟨hw _, hw _, hw _, fun v => hw _, fun v => hw _, runPlan_sample_unknown h hx bit true, fun k o i => ?_,
      fun k hbound hinp => ?_⟩
    · rw [exec_btninit]
      exact runPlan_rmw_unknown (s := s.withBtn (s.boundTable k (boundButton reg o i bit))) h hx _
    · rw [exec_btnget_of_bound hbound, hinp]
      exact runPlan_sample_unknown h hx _ _

/-! ### LCDCLEAR -/

/-- Settles O44: 0x01 has the settle time of a clear and sets AMODE to DDRAM, so after DECODE both are one transfer and one
register write with the same effect. -/
theorem clearIsCommandOne : Obligations.ClearIsCommandOne := by
  intro s
  show runPlan (planLcdclear s) s = runPlan (planLcdcmd 0x01#8 s) s
  rw [planLcdclear, planLcdcmd]
  cases hs : s.initDone
  case false => rfl
  case true =>
    have hplan : ∀ (l : List Micro) (u : State),
        perform (l ++ [.reg (.amode .ddram)]) u = perform (l ++ [.reg (.amodeAfter 0x01#8)]) u := by
      intro l u
      rw [perform_append, perform_append]
      rfl
    simp only [if_true, runPlan, complete]
    rw [hplan]
    rfl

/-! ### The state after reset -/

theorem resetWith_ioCell (c : Cfg) (a : IoAddr) : ioCell (State.resetWith c) a = ioInit c a := rfl

/-- E as the display of a fresh machine has seen it (R282). -/
theorem powerOnE_unknown {c : Cfg} (h : ioInit c c.ctrlReg = none) : powerOnE c = false := by rw [powerOnE, h]

/-- Settles O57. -/
theorem stateAfterReset : Obligations.StateAfterReset := by
  intro c
  have hseen := resetWith_wireSeen c
  exact ⟨resetWith_status c, rfl, Vector.get_replicate 8 Button.unbound, rfl, rfl, rfl, rfl, rfl, rfl, rfl, rfl, rfl, rfl, rfl,
    rfl, rfl, rfl, ports_of_idle rfl false, resetWith_ioCell c, rfl, rfl, rfl, rfl, rfl, rfl, rfl, rfl, rfl, rfl, rfl,
    Vector.get_replicate 128 none, Vector.get_replicate 64 none, fun x hx => hseen x hx, powerOnE_unknown⟩

end Sys2Proof.Machine
end

section
/-! The LCD operations that send one byte: LCDCMD, LCDCHAR and LCDCLEAR (44_lcd_ops.md R242, R243, R246), and what the
reference model of the display makes of a byte (47_display_model.md R288, R290). O41, O42, O43, O53. -/

namespace Sys2Proof.Machine

/-! ### The state after DECODE -/

/-- The state in which a plan starts to run (R121). -/
def State.decoded (s : State) (l : Loop) : State := (s.log .decode).toRun l

theorem State.decoded_trace (s : State) (l : Loop) : (s.decoded l).trace = .decode :: s.trace := rfl

theorem State.decoded_cycles (s : State) (l : Loop) : (s.decoded l).cycles = s.cycles + 1 := cycles_log s .decode

theorem State.decoded_noStall (s : State) (l : Loop) : NoStall (s.decoded l) := fun _ _ => by simp [State.decoded_trace]

theorem OpFrame.decoded (s : State) (l : Loop) : OpFrame s (s.decoded l) :=
  ⟨rfl, rfl, rfl, rfl, rfl, rfl, rfl, rfl, rfl, rfl, rfl, rfl, SamePins.of_io rfl rfl⟩

theorem Wired.decoded (s : State) (l : Loop) : Wired s (s.decoded l) [] :=
  ⟨rfl, [.decode], rfl, fun _ _ hx hy => ⟨rfl, hx, hy⟩⟩

theorem Lines.decoded {s : State} {e r : Bool} {v : Byte} (h : Lines s e r v) (l : Loop) : Lines (s.decoded l) e r v :=
  h.congr rfl rfl rfl

/-- Where the LCD's registers are known and the display has seen E, the wire has its levels. -/
theorem WireKnown.lines {s : State} (h : WireKnown s) (hs : WireSeen s) : ∃ e r v, Lines s e r v := by
  obtain ⟨⟨x, hx⟩, y, hy⟩ := h
  exact ⟨_, _, _, ⟨x, hx, rfl, rfl⟩, dataLines_eq hy, hs x hx⟩

theorem exec_of_perform {i : Instr} {s u : State} {todo : List Micro} {l : Loop} (hi : planOf i s = .go todo l)
    (hu : perform todo (s.decoded l) = .next u) : exec i s = runLoop lap u := by
  rw [exec_eq, hi]
  show andThen (perform todo (s.decoded l)) (runLoop lap) = _
  rw [hu, andThen_next]

theorem OpFrame.lcdRest {s t : State} (h : OpFrame s t) (hr : AtRest t) : LcdRest s t :=
  ⟨⟨⟨h.cfg, h.mem, h.host, h.opr⟩, h.result, h.btn, h.fault, h.fcode, h.fop, h.pins⟩, h.initDone, h.istep, h.draws, hr⟩

theorem Lines.wireLevels {s : State} {e r : Bool} {v : Byte} (h : Lines s e r v) : WireLevels s e r := h.ctrl

/-! ### One byte sent -/

/-- From `s`, with an operation offered in its DECODE cycle, to `t`: DECODE and one transfer of a byte. -/
structure Sent (s t : State) (rs : Bool) (b : Byte) (n : Nat) : Prop where
  frame : OpFrame s t
  sp : t.sp = s.sp
  gi : t.gi = s.gi
  acks : t.acks = s.acks
  lines : Lines t false rs (lastLines s.cfg b)
  latched : Latched t rs b
  wired : Wired s t (byteStrobes s.cfg rs b)
  cycles : t.cycles = s.cycles + (1 + xCycles s.cfg n)
  disp : t.disp = delivered s rs b

/-- DECODE and one transfer, whatever follows it. -/
theorem LcdReady.perform_xferSeq {s : State} (h : LcdReady s) (l : Loop) (rs : Bool) (b : Byte) (n : Nat) :
    ∃ t, perform (xferSeq s.cfg rs b n) (s.decoded l) = .next t ∧ Sent s t rs b n ∧ XferFrame (s.decoded l) t ∧
      NoStall t := by
  obtain ⟨hwf, -, hknown, hseen⟩ := h
  obtain ⟨e, r, v, hlines⟩ := hknown.lines hseen
  obtain ⟨t, ht, hframe, htlines, hcycles, hdisp, hdl, hrsl, hbeat, -, hwcnt, hwired, hns⟩ :=
    xfer_step (s := s.decoded l) (LcdCfg.of_wf hwf) (hlines.decoded l) rs b n
  refine ⟨t, ht, ⟨(OpFrame.decoded s l).trans hframe.op, hframe.sp, hframe.gi, hframe.acks, htlines,
    ⟨hdl, hrsl, ?beat, hwcnt⟩, (Wired.decoded s l).trans hwired, ?cycles, hdisp⟩, hframe, hns⟩
  case beat => rw [hbeat, hframe.cfg]
  case cycles => rw [hcycles, State.decoded_cycles, Nat.add_assoc]; rfl

/-- The operation's end, with AMODE written. -/
theorem Sent.ends {s t : State} {rs : Bool} {b : Byte} {n : Nat} (h : Sent s t rs b n) (m : Amode) :
    Sent s { t with amode := m }.toIdle rs b n where
  frame := h.frame.trans ⟨rfl, rfl, rfl, rfl, rfl, rfl, rfl, rfl, rfl, rfl, rfl, rfl, SamePins.of_io rfl rfl⟩
  sp := h.sp
  gi := h.gi
  acks := h.acks
  lines := h.lines.congr rfl rfl rfl
  latched := h.latched
  wired := by
    have hw : Wired t { t with amode := m }.toIdle [] := .of_same rfl rfl rfl
    simpa using h.wired.trans hw
  cycles := h.cycles
  disp := h.disp

theorem Sent.dataLeft {s t : State} {rs : Bool} {b : Byte} {n : Nat} (h : Sent s t rs b n) (hc : s.cfg.wf = true) :
    DataLeft t b := by
  have hl := h.lines
  rw [← h.frame.cfg] at hl
  exact dataLeft_of_lines (h.frame.cfg ▸ LcdCfg.of_wf hc) hl

theorem planOf_lcdchar {s : State} (h : s.initDone = true) (b : Byte) :
    planOf (.lcdchar b) s = .go (xferSeq s.cfg true b s.cfg.tCmd) .done := if_pos h

theorem planOf_lcdcmd {s : State} (h : s.initDone = true) (b : Byte) :
    planOf (.lcdcmd b) s = .go (cmdSeq s.cfg b ++ [.reg (.amodeAfter b)]) .done := if_pos h

section
variable {s : State} (h : LcdReady s)
include h

theorem exec_lcdchar_sent (b : Byte) :
    ∃ t, exec (.lcdchar b) s = .next t ∧ Sent s t true b s.cfg.tCmd ∧ AtRest t ∧ t.amode = s.amode := by
  obtain ⟨u, hu, hsent, hframe, -⟩ := h.perform_xferSeq .done true b s.cfg.tCmd
  refine ⟨_, (exec_of_perform (planOf_lcdchar h.2.1 b) hu).trans (runLoop_done _ _ hframe.loop), hsent.ends u.amode,
    AtRest.toIdle u, hframe.amode⟩

theorem exec_lcdcmd_sent (b : Byte) :
    ∃ t, exec (.lcdcmd b) s = .next t ∧ Sent s t false b (settleTime s.cfg false b) ∧ AtRest t ∧
      t.amode = trackAmode b s.amode := by
  obtain ⟨u, hu, hsent, hframe, -⟩ := h.perform_xferSeq .done false b (settleTime s.cfg false b)
  have hamode : u.amode = s.amode := hframe.amode
  refine ⟨_, (exec_of_perform (planOf_lcdcmd h.2.1 b) (perform_seq hu)).trans
    (runLoop_done _ ((RegWrite.amodeAfter b).apply u) hframe.loop), hsent.ends (trackAmode b u.amode), AtRest.toIdle _, ?_⟩
  rw [← hamode]
  rfl

end

/-! ### What the display makes of a byte -/

theorem trackAmode_eq (b : Byte) (m : Amode) :
    trackAmode b m = if b.getLsbD 7 then .ddram else if b.getLsbD 6 then .cgram
      else if b = 0x01#8 ∨ b = 0x02#8 ∨ b = 0x03#8 then .ddram else m := by
  simp [trackAmode, or_assoc]

theorem settleTime_command (c : Cfg) (b : Byte) :
    settleTime c false b = if b = 0x01#8 ∨ b = 0x02#8 ∨ b = 0x03#8 then c.tClear else c.tCmd := by
  simp [settleTime, or_assoc]

theorem nextCgram_eq (a : BitVec 7) (up : Bool) : nextCgram a (some up) = some (cgramStep a up) := by
  revert a up; decide

theorem gone_of_lose (d : Disp) : d.lose.Gone := Disp.gone_lose d d.prevE

/-- Bit `k` is the highest 1 of a command byte (R288). -/
def HighestBit (b : Byte) (k : Nat) : Prop := b.getLsbD k = true ∧ ∀ j < 8, k < j → b.getLsbD j = false

theorem highestBit_of_range {b : Byte} {k : Nat} (hk : k < 8) (h : 2 ^ k ≤ b.toNat ∧ b.toNat < 2 ^ (k + 1)) :
    HighestBit b k := by
  have hall : ∀ (b : Byte) (k : Fin 8), 2 ^ k.val ≤ b.toNat ∧ b.toNat < 2 ^ (k.val + 1) →
      b.getLsbD k = true ∧ ∀ j < 8, k.val < j → b.getLsbD j = false := by decide +kernel
  exact hall b ⟨k, hk⟩ h

section
variable (c : Cfg) {b : Byte} (d : Disp)

theorem execCmd_setDdram (h : HighestBit b 7) : d.execCmd c b = { d with AC := some (b.setWidth 7), AM := .ddram } := by
  simp only [Disp.execCmd, h.1, if_true]

theorem execCmd_setCgram (h : HighestBit b 6) :
    d.execCmd c b = { d with AC := some ((b.setWidth 6).setWidth 7), AM := .cgram } := by
  simp only [Disp.execCmd, h.1, h.2, Nat.reduceLT, Bool.false_eq_true, if_false, if_true]

theorem execCmd_functionSet (h : HighestBit b 5) :
    d.execCmd c b = if b.getLsbD 4 = d.bus8 ∧ b = c.initFuncset then
      { d with N := some (b.getLsbD 3), F := some (b.getLsbD 2) } else d.lose := by
  simp only [Disp.execCmd, h.1, h.2, Nat.reduceLT, Bool.false_eq_true, if_false, if_true, bne_iff_ne, ite_not, ite_and]

theorem execCmd_shift (h : HighestBit b 4) :
    d.execCmd c b = if b.getLsbD 3 then { d with shifted := true } else d.cursorMove c (b.getLsbD 2) := by
  simp only [Disp.execCmd, h.1, h.2, Nat.reduceLT, Bool.false_eq_true, if_false, if_true]

theorem execCmd_displayControl (h : HighestBit b 3) :
    d.execCmd c b = { d with D := some (b.getLsbD 2), C := some (b.getLsbD 1), B := some (b.getLsbD 0) } := by
  simp only [Disp.execCmd, h.1, h.2, Nat.reduceLT, Bool.false_eq_true, if_false, if_true]

theorem execCmd_entryMode (h : HighestBit b 2) :
    d.execCmd c b = { d with ID := some (b.getLsbD 1), S := some (b.getLsbD 0) } := by
  simp only [Disp.execCmd, h.1, h.2, Nat.reduceLT, Bool.false_eq_true, if_false, if_true]

end

/-- Every row of R288. -/
theorem commandRows_execCmd (c : Cfg) (b : Byte) (d : Disp) : CommandRows c b d (d.execCmd c b) := by
  refine ⟨?r00, ?r01, ?r02, ?r04, ?r08, ?r10, ?r18, ?r20, ?r40, ?r80⟩
  case r00 => rintro rfl; exact gone_of_lose d
  case r01 => rintro rfl; rfl
  case r02 => rintro (rfl | rfl) <;> rfl
  case r04 => exact fun h => execCmd_entryMode c d (highestBit_of_range (k := 2) (by decide) (by bv_omega))
  case r08 => exact fun h => execCmd_displayControl c d (highestBit_of_range (k := 3) (by decide) (by bv_omega))
  case r10 =>
    intro h
    have h3 : b.getLsbD 3 = false := (by decide : ∀ b : Byte, 0x10#8 ≤ b ∧ b ≤ 0x17#8 → b.getLsbD 3 = false) b h
    rw [execCmd_shift c d (highestBit_of_range (k := 4) (by decide) (by bv_omega)), h3, if_neg Bool.false_ne_true]
    refine ⟨fun ha => ?_, fun a n ha hm hn => ?_, fun a ha hm => ?_⟩
    · simp only [Disp.cursorMove, ha]
    · simp only [Disp.cursorMove, Disp.nextDdram, ha, hm, hn]
    · simp only [Disp.cursorMove, ha, hm, nextCgram_eq]
  case r18 =>
    intro h
    have h3 : b.getLsbD 3 = true := (by decide : ∀ b : Byte, 0x18#8 ≤ b ∧ b ≤ 0x1F#8 → b.getLsbD 3 = true) b h
    rw [execCmd_shift c d (highestBit_of_range (k := 4) (by decide) (by bv_omega)), h3, if_pos rfl]
  case r20 =>
    intro h
    rw [execCmd_functionSet c d (highestBit_of_range (k := 5) (by decide) (by bv_omega))]
    split
    · rfl
    · exact gone_of_lose d
  case r40 =>
    intro h
    rw [execCmd_setCgram c d (highestBit_of_range (k := 6) (by decide) (by bv_omega))]
    have ha : (b.setWidth 6).setWidth 7 = 0#1 ++ b.extractLsb' 0 6 := by revert b; decide
    rw [ha]
  case r80 =>
    intro h
    rw [execCmd_setDdram c d (highestBit_of_range (k := 7) (by decide) (by bv_omega)), BitVec.setWidth_eq_extractLsb' (by decide)]

/-! ### Data bytes -/

section
variable (c : Cfg) (b : Byte) {d : Disp} {a : BitVec 7}

theorem execData_unknown (h : d.AC = none) : d.execData c b = d.lose := by simp only [Disp.execData, h]

theorem execData_ddram (h : d.AC = some a) (hm : d.AM = .ddram) {n : Bool} (hn : d.N = some n) :
    d.execData c b = if ddramValid c n a then
      { d.putDdram a b with
        AC := d.nextDdram c a d.ID
        shifted := if d.S = some false then d.shifted else true }
      else d.lose := by
  simp only [Disp.execData, h, hm, hn]

theorem execData_cgram (h : d.AC = some a) (hm : d.AM = .cgram) :
    d.execData c b = { d.putCgram a b with AC := nextCgram a d.ID } := by
  simp only [Disp.execData, h, hm]

end

theorem putCgram_get (d : Disp) (a : BitVec 7) (b : Byte) (k : Fin 64) :
    (d.putCgram a b).CGRAM.get k = if k.val = a.toNat % 64 then some b else d.CGRAM.get k := by
  have h : (a.setWidth 6).toNat = a.toNat % 64 := BitVec.toNat_setWidth ..
  show (d.CGRAM.set (a.setWidth 6).toNat (some b) (by omega))[k.val] = _
  rw [Vector.getElem_set, h]
  by_cases hk : k.val = a.toNat % 64
  · rw [if_pos hk, if_pos hk.symm]
  · rw [if_neg hk, if_neg (Ne.symm hk)]; rfl

theorem putDdram_get (d : Disp) (a : BitVec 7) (b : Byte) (k : Fin 128) :
    (d.putDdram a b).DDRAM.get k = if k = a.toFin then some b else d.DDRAM.get k := by
  show (d.DDRAM.set a.toNat (some b) (by omega))[k.val] = _
  rw [Vector.getElem_set]
  by_cases hk : k = a.toFin
  · rw [if_pos hk, hk]; exact if_pos rfl
  · rw [if_neg hk, if_neg fun e => hk (Fin.ext e.symm)]; rfl

/-- The branches of R290. -/
theorem dataRows_execData (c : Cfg) (b : Byte) {d : Disp} (hs : d.sync = .sync) : DataRows c b d (d.execData c b) := by
  refine ⟨fun h => ?unknown, fun a n h hm hn hv => ?invalid, fun a up h hm hid => ?cgram⟩
  case unknown => rw [execData_unknown c b h]; exact gone_of_lose d
  case invalid => rw [execData_ddram c b h hm hn, hv, if_neg Bool.false_ne_true]; exact gone_of_lose d
  case cgram =>
    rw [execData_cgram c b h hm, hid, nextCgram_eq]
    exact ⟨hs, hm, rfl, rfl, rfl, putCgram_get d a b⟩

/-! ### The obligations -/

theorem readable_of_sync {t : State} (h : t.disp.sync = .sync) {fclk : Nat} (hf : dispTimingOk t.cfg fclk = true) :
    t.readable fclk = some t.disp := by
  rw [State.readable, State.displayReadable, hf, decide_eq_true h]
  rfl

/-- What a byte sent makes of a display in step. -/
theorem Sent.disp_inStep {s t : State} {rs : Bool} {b : Byte} {n : Nat} (h : Sent s t rs b n) (hc : s.cfg.wf = true)
    (hs : InStep s) : t.disp = s.disp.eLow.exec s.cfg rs b := by
  rw [h.disp, delivered_inStep (LcdCfg.of_wf hc) hs, Disp.eLow_eq, Disp.exec_withE]

theorem Sent.disp_tracked {s t : State} {rs : Bool} {b : Byte} {n : Nat} (h : Sent s t rs b n) (hc : s.cfg.wf = true)
    (hs : Tracked s) : t.disp = (s.disp.sent s.cfg [(rs, b)]).eLow := by
  rw [h.disp, delivered_tracked (LcdCfg.of_wf hc) hs]

/-- Settles O41: the byte is sent by one transfer, and the display in step executes it. -/
theorem lcdcmdSendsItsByte : Obligations.LcdcmdSendsItsByte := by
  intro s b h
  obtain ⟨t, ht, hsent, hrest, hamode⟩ := exec_lcdcmd_sent h b
  refine ⟨t, ht, hsent.frame.lcdRest hrest, hsent.sp, hsent.gi, hsent.acks, hamode.trans (trackAmode_eq b s.amode),
    hsent.latched, hsent.lines.wireLevels, hsent.dataLeft h.1, hsent.wired.strobed, ?cycles, hsent.disp_tracked h.1,
    fun hs => ?rows⟩
  case cycles => rw [hsent.cycles, settleTime_command]
  case rows =>
    rw [hsent.disp_inStep h.1 hs]
    exact commandRows_execCmd s.cfg b s.disp.eLow

/-- Settles O42: the byte is sent by one transfer, and the display in step stores it. -/
theorem lcdcharSendsItsByte : Obligations.LcdcharSendsItsByte := by
  intro s b h
  obtain ⟨t, ht, hsent, hrest, hamode⟩ := exec_lcdchar_sent h b
  refine ⟨t, ht, hsent.frame.lcdRest hrest, hsent.sp, hsent.gi, hsent.acks, hamode, hsent.latched,
    hsent.lines.wireLevels, hsent.dataLeft h.1, hsent.wired.strobed, hsent.cycles, hsent.disp_tracked h.1, fun hs => ?rows⟩
  case rows =>
    rw [hsent.disp_inStep h.1 hs]
    exact dataRows_execData s.cfg b (d := s.disp.eLow) hs.1

/-- Settles O43: LCDCLEAR is `LCDCMD 0x01` (R246), which clears a display in step (R288). -/
theorem lcdclearClearsTheDisplay : Obligations.LcdclearClearsTheDisplay := by
  intro s h
  obtain ⟨t, ht, hsent, hrest, hamode⟩ := exec_lcdcmd_sent h 0x01#8
  refine ⟨t, (clearIsCommandOne s).trans ht, hsent.frame.lcdRest hrest, hsent.sp, hsent.gi, hsent.acks, hamode,
    hsent.latched, hsent.lines.wireLevels, hsent.dataLeft h.1, hsent.cycles, fun hs fclk hf => ?clear⟩
  case clear =>
    have hd : t.disp = s.disp.eLow.exec s.cfg false 0x01#8 := hsent.disp_inStep h.1 hs
    have hsync : t.disp.sync = .sync := by rw [hd]; exact hs.1
    refine ⟨t.disp, readable_of_sync hsync (hsent.frame.cfg ▸ hf), ?_⟩
    rw [hd]
    exact ⟨Vector.get_replicate 128 (some 0x20#8), rfl, rfl, rfl, rfl, rfl⟩

/-- Settles O53: a display in step executes the byte as data, at a valid DDRAM address (R290). -/
theorem lcdcharWritesTheDisplay : Obligations.LcdcharWritesTheDisplay := by
  intro s b a n id sh h hs hm ha hn hid hsh hv
  obtain ⟨t, ht, hsent, -, -⟩ := exec_lcdchar_sent h b
  refine ⟨t, ht, fun fclk hf => ?_⟩
  have hd : t.disp = { s.disp.eLow.putDdram a b with
      AC := some (ddramNext s.cfg n a id), shifted := if sh then true else s.disp.shifted } := by
    rw [hsent.disp_inStep h.1 hs]
    show s.disp.eLow.execData s.cfg b = _
    rw [execData_ddram s.cfg b (d := s.disp.eLow) ha hm hn, if_pos hv]
    have hnext : s.disp.eLow.nextDdram s.cfg a s.disp.eLow.ID = some (ddramNext s.cfg n a id) := by
      simp only [Disp.nextDdram, Disp.eLow, hn, hid]
    have hshift : (if s.disp.eLow.S = some false then s.disp.eLow.shifted else true) =
        if sh then true else s.disp.shifted := by
      cases sh <;> simp [Disp.eLow, hsh]
    rw [hnext, hshift]
  have hsync : t.disp.sync = .sync := by rw [hd]; exact hs.1
  refine ⟨t.disp, readable_of_sync hsync (hsent.frame.cfg ▸ hf), ?_⟩
  rw [hd]
  have hget := putDdram_get s.disp.eLow a b
  exact ⟨(hget a.toFin).trans (if_pos rfl), fun k hk => (hget k).trans (if_neg hk), rfl, rfl, hm, rfl⟩

end Sys2Proof.Machine
end

section
/-! The LCD operations that read host memory: LCDSTR, LCDSTRAT and LCDGLYPH (44_lcd_ops.md R244, R245, R247). O45, O46, O47,
O54, O55. -/

namespace Sys2Proof.Machine

/-! ### Operations that end in a loop -/

theorem planOf_lcdstr {s : State} (h : s.initDone = true) (m : MemAddr) :
    planOf (.lcdstr m) s = .go [.reg (.sp m)] .str := if_pos h

theorem planOf_lcdstrat {s : State} (h : s.initDone = true) {row : BitVec 2} {col : BitVec 6}
    (hin : row.toNat < s.cfg.lcdRows ∧ col.toNat < s.cfg.lcdCols) (m : MemAddr) :
    planOf (.lcdstrat row col m) s = .go (xferSeq s.cfg false (setDdramCmd (ddramAddr s.cfg row col)) s.cfg.tCmd ++
      [.reg (.amode .ddram), .reg (.sp m)]) .str := by
  have hout : ¬ outOfRange s.cfg row col = true := by rw [outOfRange_iff]; omega
  show planLcdstrat row col m s = _
  rw [planLcdstrat, if_neg (by simp [h]), if_neg hout]

theorem planOf_lcdglyph {s : State} (h : s.initDone = true) (g : BitVec 3) (m : MemAddr) :
    planOf (.lcdglyph g m) s = .go (xferSeq s.cfg false (setCgramCmd g) s.cfg.tCmd ++
      [.reg (.amode .cgram), .reg (.sp m), .reg (.gi 0#4)]) .glyph := if_pos h

/-- The state in which the loop of a string at `m` starts: `t` with AMODE, SP and GI written. -/
def State.pointed (t : State) (a : Amode) (m : MemAddr) (g : BitVec 4) : State := { t with amode := a, sp := m, gi := g }

theorem OpFrame.pointed {s t : State} (h : OpFrame s t) (a : Amode) (m : MemAddr) (g : BitVec 4) :
    OpFrame s (t.pointed a m g) :=
  h.trans ⟨rfl, rfl, rfl, rfl, rfl, rfl, rfl, rfl, rfl, rfl, rfl, rfl, SamePins.of_io rfl rfl⟩

theorem Wired.pointed {s t : State} {l : List (Bool × Byte)} (h : Wired s t l) (a : Amode) (m : MemAddr) (g : BitVec 4) :
    Wired s (t.pointed a m g) l := by
  have hw : Wired t (t.pointed a m g) [] := .of_same rfl rfl rfl
  simpa using h.trans hw

/-- The LCD registers after a transfer, told with the configuration before the operation. -/
theorem Lines.dataLeft {s t : State} (h : s.cfg.wf = true) (hc : t.cfg = s.cfg) {e r : Bool} {b : Byte}
    (hl : Lines t e r (lastLines s.cfg b)) : DataLeft t b := by
  rw [← hc] at hl h
  exact dataLeft_of_lines (LcdCfg.of_wf h) hl

/-! ### LCDSTR -/

/-- LCDSTR of an empty string: one MemRead (R244). -/
theorem exec_lcdstr_nil {s : State} (h : s.initDone = true) (hr : s.raced = []) {m : MemAddr}
    (hb : memByte s m = 0x00#8) (hA : Answered s 1) :
    ∃ t, exec (.lcdstr m) s = .next t ∧ OpFrame s t ∧ AtRest t ∧ t.gi = s.gi ∧ t.amode = s.amode ∧ t.sp = m ∧
      t.acks = s.acks.drop 1 ∧ t.io = s.io ∧ t.disp = s.disp ∧ SameLatched s t ∧
      t.trace = readTrace s m 0x00#8 ++ .decode :: s.trace ∧ t.cycles = s.cycles + (1 + readCycles s 1) := by
  obtain ⟨t, ht, hframe, hrest, hamode, hgi, hsp, hacks, hcycles, hio, hdisp, hlatched, htrace⟩ :=
    str_end (s := (s.decoded .str).pointed s.amode m s.gi) (k := 65535) rfl hr hb hA
  refine ⟨t, (exec_of_perform (planOf_lcdstr h m) rfl).trans ht, ((OpFrame.decoded s .str).pointed _ _ _).trans hframe,
    hrest, hgi, hamode, hsp, hacks, hio, hdisp, hlatched, htrace (State.decoded_noStall s .str), ?_⟩
  have hstart : ((s.decoded .str).pointed s.amode m s.gi).cycles = s.cycles + 1 := State.decoded_cycles s .str
  rw [hcycles, hstart, Nat.add_assoc]
  rfl

/-- LCDSTR of any string, on known lines. -/
theorem exec_lcdstr_lines {s : State} (h : LcdReady s) (hr : s.raced = []) {m : MemAddr} {l : List Byte}
    (hS : StringAt s m l) (hA : Answered s (l.length + 1)) :
    ∃ t, exec (.lcdstr m) s = .next t ∧ OpFrame s t ∧ AtRest t ∧ t.gi = s.gi ∧ t.amode = s.amode ∧
      t.sp = m + BitVec.ofNat 16 l.length ∧ t.acks = s.acks.drop (l.length + 1) ∧ Wired s t (dataStrobes s.cfg l) ∧
      (∀ b, l.getLast? = some b → Lines t false true (lastLines s.cfg b) ∧ Latched t true b) ∧
      t.cycles = s.cycles + (1 + readCycles s (l.length + 1) + l.length * xCycles s.cfg s.cfg.tCmd) ∧
      (Tracked s → t.disp = if l = [] then s.disp else (s.disp.sent s.cfg (dataBytes l)).eLow) := by
  obtain ⟨hwf, hinit, hknown, hseen⟩ := h
  obtain ⟨e, r, v, hlines⟩ := hknown.lines hseen
  have hSu : StringAt ((s.decoded .str).pointed s.amode m s.gi) m l :=
    StringAt.congr (s := s) (t := (s.decoded .str).pointed s.amode m s.gi) rfl hS
  obtain ⟨t, ht, hframe, hrest, hamode, hgi, hsp, hacks, hcycles, hwired, -, hlast, hdisp⟩ :=
    str_loop l ((s.decoded .str).pointed s.amode m s.gi) lap e r v (LcdCfg.of_wf hwf) rfl hr
      (hlines.congr rfl rfl rfl) (State.decoded_noStall s .str) hSu (hA.congr rfl) hS.length_lt
  refine ⟨t, (exec_of_perform (planOf_lcdstr hinit m) rfl).trans ht,
    ((OpFrame.decoded s .str).pointed _ _ _).trans hframe, hrest, hgi, hamode, hsp, hacks,
    ((Wired.decoded s .str).pointed _ _ _).trans hwired, hlast, ?cycles, fun hT => hdisp (hT.congr rfl rfl rfl)⟩
  case cycles =>
    have hstart : ((s.decoded .str).pointed s.amode m s.gi).cycles = s.cycles + 1 := State.decoded_cycles s .str
    have hreads : readCycles ((s.decoded .str).pointed s.amode m s.gi) (l.length + 1) = readCycles s (l.length + 1) :=
      readCycles_congr _ rfl
    have hpointed : ((s.decoded .str).pointed s.amode m s.gi).cfg = s.cfg := rfl
    rw [hcycles, hstart, hreads, hpointed]
    omega

/-- Settles O45: an empty string is one MemRead and needs no register; any other is the string loop on the lines. -/
theorem lcdstrSendsTheString : Obligations.LcdstrSendsTheString := by
  intro s m l hinit hready hr hS hA
  by_cases hl : l = []
  case pos =>
    subst hl
    obtain ⟨t, ht, hframe, hrest, hgi, hamode, hsp, hacks, hio, hdisp, hlatched, htrace, hcycles⟩ :=
      exec_lcdstr_nil hinit hr hS hA
    have hwired : Wired (s.decoded .str) t [] :=
      Wired.ofRead (s := s.decoded .str) ⟨hframe.cfg, hframe.opr, hframe.istep, hframe.initDone, hframe.fault,
        hframe.fcode, hframe.fop, hframe.result, hframe.btn, hframe.mem, hframe.host, hframe.draws, hframe.pins⟩ hio htrace
    refine ⟨t, ht, hframe.lcdRest hrest, hgi, hamode, by rw [hsp]; simp, hacks, fun _ => ⟨hio, hdisp, hlatched, htrace⟩,
      ((Wired.decoded s .str).trans hwired).strobed, (fun b hb => by cases hb), ?_, fun _ => by rw [if_pos rfl]; exact hdisp⟩
    rw [hcycles, List.length_nil, Nat.zero_mul, Nat.add_zero]
  case neg =>
    obtain ⟨t, ht, hframe, hrest, hgi, hamode, hsp, hacks, hwired, hlast, hcycles, hdisp⟩ :=
      exec_lcdstr_lines (hready hl) hr hS hA
    refine ⟨t, ht, hframe.lcdRest hrest, hgi, hamode, hsp, hacks, fun h => absurd h hl, hwired.strobed, fun b hb => ?_,
      hcycles, hdisp⟩
    obtain ⟨hlines, hlatched⟩ := hlast b hb
    exact ⟨hlines.wireLevels, hlines.dataLeft (hready hl).1 hframe.cfg, hlatched⟩

/-! ### LCDSTRAT -/

/-- The set-DDRAM-address command of a position inside the display (R250): the sum of R8's row base and the column
fits seven bits. -/
theorem setDdramCmd_inside {c : Cfg} (hwf : c.wf = true) {row : BitVec 2} {col : BitVec 6} (hrow : row.toNat < c.lcdRows)
    (hcol : col.toNat < c.lcdCols) :
    setDdramCmd (ddramAddr c row col) = 0x80#8 ||| BitVec.ofNat 8 ((rowBase c row).toNat + col.toNat) := by
  have hbase : c.cfgRowbase = true := by
    simp only [Cfg.wf, Bool.and_eq_true] at hwf
    exact hwf.1.2
  have hsum := (Cfg.cfgRowbase_iff c).mp hbase row hrow
  have haddr : (ddramAddr c row col).setWidth 8 = BitVec.ofNat 8 ((rowBase c row).toNat + col.toNat) := by
    apply BitVec.eq_of_toNat_eq
    simp only [ddramAddr, BitVec.toNat_setWidth, BitVec.toNat_add, BitVec.toNat_ofNat]
    omega
  rw [setDdramCmd, haddr]

/-- LCDSTRAT inside the display, on known lines. -/
theorem exec_lcdstrat_lines {s : State} (h : LcdReady s) {row : BitVec 2} {col : BitVec 6} (hrow : row.toNat < s.cfg.lcdRows)
    (hcol : col.toNat < s.cfg.lcdCols) (hr : s.raced = []) {m : MemAddr} {l : List Byte} (hS : StringAt s m l)
    (hA : Answered s (l.length + 1)) {p : Byte} (hp : setDdramCmd (ddramAddr s.cfg row col) = p) :
    ∃ t, exec (.lcdstrat row col m) s = .next t ∧ OpFrame s t ∧ AtRest t ∧ t.gi = s.gi ∧ t.amode = .ddram ∧
      t.sp = m + BitVec.ofNat 16 l.length ∧ t.acks = s.acks.drop (l.length + 1) ∧
      Wired s t (byteStrobes s.cfg false p ++ dataStrobes s.cfg l) ∧
      (l = [] → Lines t false false (lastLines s.cfg p) ∧ Latched t false p) ∧
      (∀ b, l.getLast? = some b → Lines t false true (lastLines s.cfg b) ∧ Latched t true b) ∧
      t.cycles = s.cycles + (1 + xCycles s.cfg s.cfg.tCmd + readCycles s (l.length + 1) +
        l.length * xCycles s.cfg s.cfg.tCmd) ∧
      (Tracked s → t.disp = (s.disp.sent s.cfg ((false, p) :: dataBytes l)).eLow) := by
  subst hp
  obtain ⟨u, hu, hsent, hxfer, hns⟩ := h.perform_xferSeq .str false (setDdramCmd (ddramAddr s.cfg row col)) s.cfg.tCmd
  have hcfg : u.cfg = s.cfg := hsent.frame.cfg
  have hlines := hsent.lines
  have hlatched := hsent.latched
  have hSu : StringAt (u.pointed .ddram m u.gi) m l :=
    StringAt.congr (t := u.pointed .ddram m u.gi) hsent.frame.mem hS
  obtain ⟨t, ht, hframe, hrest, hamode, hgi, hsp, hacks, hcycles, hwired, hnil, hlast, hdisp⟩ :=
    str_loop l (u.pointed .ddram m u.gi) lap _ _ _ (hcfg.symm ▸ LcdCfg.of_wf h.1) hxfer.loop (hxfer.raced.trans hr)
      (hlines.congr rfl rfl rfl) hns hSu (hA.congr hsent.acks) hS.length_lt
  have hexec : exec (.lcdstrat row col m) s = .next t :=
    (exec_of_perform (planOf_lcdstrat h.2.1 ⟨hrow, hcol⟩ m) (perform_seq hu)).trans ht
  have hpointed : (u.pointed .ddram m u.gi).cfg = s.cfg := hcfg
  rw [hpointed] at hwired hcycles hlast hdisp
  refine ⟨t, hexec, (hsent.frame.pointed _ _ _).trans hframe, hrest, hgi.trans hsent.gi, hamode, hsp,
    hacks.trans (congrArg _ hsent.acks), (hsent.wired.pointed _ _ _).trans hwired, fun hl => ?nil, hlast, ?cycles,
    fun hT => ?disp⟩
  case nil =>
    obtain ⟨htl, -, hdl, hrsl, hbeat, hwcnt, -⟩ := hnil hl
    obtain ⟨h1, h2, h3, h4⟩ := hlatched
    refine ⟨htl, hdl.trans h1, hrsl.trans h2, ?_, hwcnt.trans h4⟩
    rw [hframe.cfg]
    exact hbeat.trans h3
  case cycles =>
    have hstart : (u.pointed .ddram m u.gi).cycles = u.cycles := rfl
    have hreads : readCycles (u.pointed .ddram m u.gi) (l.length + 1) = readCycles s (l.length + 1) :=
      readCycles_congr _ hsent.acks
    rw [hcycles, hstart, hreads, hsent.cycles]
    omega
  case disp =>
    have hud := hsent.disp_tracked h.1 hT
    have hTu : Tracked (u.pointed .ddram m u.gi) := hT.after false _ hcfg hsent.frame.istep hud
    rw [hdisp hTu]
    show (if l = [] then u.disp else (u.disp.sent s.cfg (dataBytes l)).eLow) = _
    rw [hud]
    by_cases hl : l = []
    · rw [if_pos hl, hl]; rfl
    · rw [if_neg hl, eLow_sent_cons]; rfl

/-- Settles O46. -/
theorem lcdstratPositionsAndSends : Obligations.LcdstratPositionsAndSends := by
  intro s row col m l h hrow hcol hr hS hA
  obtain ⟨t, ht, hframe, hrest, hgi, hamode, hsp, hacks, hwired, hnil, hlast, hcycles, hdisp⟩ :=
    exec_lcdstrat_lines h hrow hcol hr hS hA (setDdramCmd_inside h.1 hrow hcol)
  refine ⟨t, ht, hframe.lcdRest hrest, hgi, hamode, hsp, hacks, ?levels, hwired.strobed, fun b hb => ?last, fun hl => ?nil,
    hcycles, hdisp⟩
  case levels =>
    by_cases hl : l = []
    · simpa [hl] using (hnil hl).1.wireLevels
    · simpa [hl] using (hlast _ (List.getLast?_eq_some_getLast hl)).1.wireLevels
  case last =>
    obtain ⟨hlines, hlatched⟩ := hlast b hb
    exact ⟨hlines.dataLeft h.1 hframe.cfg, hlatched⟩
  case nil =>
    obtain ⟨hlines, hlatched⟩ := hnil hl
    exact ⟨hlines.dataLeft h.1 hframe.cfg, hlatched⟩

/-! ### LCDGLYPH -/

theorem setCgramCmd_eq (g : BitVec 3) : setCgramCmd g = 0x40#8 ||| BitVec.ofNat 8 (g.toNat * 8) := by
  revert g; decide

/-- LCDGLYPH on known lines. -/
theorem exec_lcdglyph_lines {s : State} (h : LcdReady s) (g : BitVec 3) (m : MemAddr) (hr : s.raced = [])
    (hA : Answered s 8) :
    ∃ t, exec (.lcdglyph g m) s = .next t ∧ OpFrame s t ∧ AtRest t ∧ t.amode = .cgram ∧ t.gi = 8#4 ∧ t.sp = m + 8#16 ∧
      t.acks = s.acks.drop 8 ∧ Lines t false true (lastLines s.cfg (memByte s (m + 7#16))) ∧
      Latched t true (memByte s (m + 7#16)) ∧
      Wired s t (byteStrobes s.cfg false (setCgramCmd g) ++ dataStrobes s.cfg (bytesAt s m 8)) ∧
      t.cycles = s.cycles + (1 + xCycles s.cfg s.cfg.tCmd + readCycles s 8 + 8 * xCycles s.cfg s.cfg.tCmd) ∧
      (Tracked s → t.disp = (s.disp.sent s.cfg ((false, setCgramCmd g) :: dataBytes (bytesAt s m 8))).eLow) := by
  obtain ⟨u, hu, hsent, hxfer, hns⟩ := h.perform_xferSeq .glyph false (setCgramCmd g) s.cfg.tCmd
  have hcfg : u.cfg = s.cfg := hsent.frame.cfg
  have hlines := hsent.lines
  obtain ⟨t, ht, hframe, hrest, hamode, hgi, hsp, hacks, hcycles, htl, htlat, hwired, hdisp⟩ :=
    glyph_loop 7 (u.pointed .cgram m 0#4) lap _ _ (hcfg.symm ▸ LcdCfg.of_wf h.1) hxfer.loop (hxfer.raced.trans hr)
      (hlines.congr rfl rfl rfl) hns (hA.congr hsent.acks) (by decide) (by decide) rfl
  have hexec : exec (.lcdglyph g m) s = .next t :=
    (exec_of_perform (planOf_lcdglyph h.2.1 g m) (perform_seq hu)).trans ht
  have hpointed : (u.pointed .cgram m 0#4).cfg = s.cfg := hcfg
  have hbytes : bytesAt (u.pointed .cgram m 0#4) m 8 = bytesAt s m 8 := bytesAt_congr hsent.frame.mem m 8
  have hbyte : memByte (u.pointed .cgram m 0#4) (m + 7#16) = memByte s (m + 7#16) :=
    memByte_congr hsent.frame.mem _
  change Lines t false true (lastLines (u.pointed .cgram m 0#4).cfg (memByte (u.pointed .cgram m 0#4) (m + 7#16))) at htl
  change Latched t true (memByte (u.pointed .cgram m 0#4) (m + 7#16)) at htlat
  change Wired _ t (dataStrobes _ (bytesAt (u.pointed .cgram m 0#4) m 8)) at hwired
  rw [hbyte] at htl htlat
  rw [hbytes] at hwired
  rw [hpointed] at hwired hcycles htl
  refine ⟨t, hexec, (hsent.frame.pointed _ _ _).trans hframe, hrest, hamode, hgi, hsp,
    hacks.trans (congrArg _ hsent.acks), htl, htlat, (hsent.wired.pointed _ _ _).trans hwired, ?cycles, fun hT => ?disp⟩
  case cycles =>
    have hstart : (u.pointed .cgram m 0#4).cycles = u.cycles := rfl
    have hreads : readCycles (u.pointed .cgram m 0#4) (7 + 1) = readCycles s 8 := readCycles_congr _ hsent.acks
    rw [hcycles, hstart, hreads, hsent.cycles]
    omega
  case disp =>
    have hud := hsent.disp_tracked h.1 hT
    have hTu : Tracked (u.pointed .cgram m 0#4) := hT.after false _ hcfg hsent.frame.istep hud
    have hd := hdisp hTu
    change t.disp = (u.disp.sent (u.pointed .cgram m 0#4).cfg (dataBytes (bytesAt (u.pointed .cgram m 0#4) m 8))).eLow at hd
    rw [hd, hbytes, hpointed, hud, eLow_sent_cons, Disp.eLow_eq, Disp.eLow_eq, Disp.withE_withE]

/-- Settles O47. -/
theorem lcdglyphUploadsEightRows : Obligations.LcdglyphUploadsEightRows := by
  intro s g m h hr hA
  obtain ⟨t, ht, hframe, hrest, hamode, hgi, hsp, hacks, hlines, hlatched, hwired, hcycles, hdisp⟩ :=
    exec_lcdglyph_lines h g m hr hA
  rw [setCgramCmd_eq] at hwired hdisp
  exact ⟨t, ht, hframe.lcdRest hrest, hamode, hgi, hsp, hacks, hlines.wireLevels, hlines.dataLeft h.1 hframe.cfg, hlatched,
    hwired.strobed, hcycles, hdisp⟩

end Sys2Proof.Machine
end

section
/-! What the display shows after the operations that send several bytes (47_display_model.md R290, R293, R294): bytes sent
one after another fill the cells one after another. O54, O55. -/

namespace Sys2Proof.Machine

/-! ### Cells filled in order -/

section
variable {w : Nat}

/-- From `f` to `g`, the bytes of `l` have been written to the cells from `a` on, and to no others. -/
def Filled (f g : BitVec w → Option Byte) (a : BitVec w) (l : List Byte) : Prop :=
  (∀ (k : Nat) (hk : k < l.length), g (a + BitVec.ofNat w k) = some l[k]) ∧
    ∀ x, (∀ k < l.length, x ≠ a + BitVec.ofNat w k) → g x = f x

theorem Filled.nil (f : BitVec w → Option Byte) (a : BitVec w) : Filled f f a [] :=
  ⟨fun _ hk => absurd hk (Nat.not_lt_zero _), fun _ _ => rfl⟩

theorem add_ofNat_succ (a : BitVec w) (k : Nat) : a + BitVec.ofNat w (k + 1) = a + BitVec.ofNat w 1 + BitVec.ofNat w k := by
  rw [Nat.add_comm, BitVec.ofNat_add, BitVec.add_assoc]

/-- No more cells than there are addresses do not meet the first again. -/
theorem ne_add_ofNat_succ (a : BitVec w) {k : Nat} (hk : k + 1 < 2 ^ w) : a ≠ a + BitVec.ofNat w (k + 1) := by
  intro h
  have hz : BitVec.ofNat w (k + 1) = 0#w := by simpa using h.symm
  have ht := congrArg BitVec.toNat hz
  rw [BitVec.toNat_ofNat, Nat.mod_eq_of_lt hk] at ht
  simp at ht

/-- A byte in the first cell and the rest from the next cell on. -/
theorem Filled.cons {f f' g : BitVec w → Option Byte} {a : BitVec w} {b : Byte} {l : List Byte}
    (hf : ∀ x, f' x = if x = a then some b else f x) (h : Filled f' g (a + BitVec.ofNat w 1) l)
    (hl : l.length + 1 ≤ 2 ^ w) : Filled f g a (b :: l) := by
  obtain ⟨hin, hout⟩ := h
  constructor
  · intro k hk
    cases k with
    | zero =>
      have hskip : g a = f' a := hout a fun k hk' => add_ofNat_succ a k ▸ ne_add_ofNat_succ a (by omega)
      simpa [hskip] using hf a
    | succ k => rw [add_ofNat_succ]; exact hin k (by simpa using hk)
  · intro x hx
    have hxa : x ≠ a := by simpa using hx 0 (by simp)
    have hrest : g x = f' x := hout x fun k hk => by rw [← add_ofNat_succ]; exact hx (k + 1) (by simpa using hk)
    rw [hrest, hf, if_neg hxa]

end

/-- The cells of the display's memories, by address. -/
def Disp.ddramCell (d : Disp) (a : BitVec 7) : Option Byte := d.DDRAM.get a.toFin

def Disp.cgramCell (d : Disp) (a : BitVec 6) : Option Byte := d.CGRAM.get a.toFin

theorem ddramCell_putDdram (d : Disp) (a : BitVec 7) (b : Byte) (x : BitVec 7) :
    (d.putDdram a b).ddramCell x = if x = a then some b else d.ddramCell x := by
  rw [Disp.ddramCell, putDdram_get]
  exact if_congr BitVec.toFin_inj rfl rfl

theorem cgramCell_putCgram (d : Disp) (p : BitVec 6) (b : Byte) (x : BitVec 6) :
    (d.putCgram (p.setWidth 7) b).cgramCell x = if x = p then some b else d.cgramCell x := by
  rw [Disp.cgramCell, putCgram_get]
  refine if_congr ?_ rfl rfl
  have hp : (p.setWidth 7).toNat % 64 = p.toNat := by rw [BitVec.toNat_setWidth]; omega
  rw [hp]
  exact BitVec.toNat_inj

theorem sent_cons_of_sync (c : Cfg) {d : Disp} (h : d.sync = .sync) (rs : Bool) (b : Byte) (l : List (Bool × Byte)) :
    d.sent c ((rs, b) :: l) = (d.exec c rs b).sent c l := by
  rw [Disp.sent, if_pos h]

/-! ### Strings -/

/-- A tracked display that takes data bytes in DDRAM with `n` lines, moving on without a shift. -/
structure TakesText (d : Disp) (n : Bool) : Prop where
  sync : d.sync = .sync
  am : d.AM = .ddram
  lines : d.N = some n
  id : d.ID = some true
  noShift : d.S = some false

/-- One character (R290). -/
theorem TakesText.exec {d : Disp} {n : Bool} (h : TakesText d n) (c : Cfg) (b : Byte) {a : BitVec 7} (ha : d.AC = some a)
    (hv : ddramValid c n a = true) :
    d.exec c true b = { d.putDdram a b with AC := some (ddramNext c n a true) } := by
  have hnext : d.nextDdram c a d.ID = some (ddramNext c n a true) := by simp only [Disp.nextDdram, h.lines, h.id]
  show d.execData c b = _
  rw [execData_ddram c b ha h.am h.lines, if_pos hv, hnext, if_pos h.noShift]
  rfl

/-- The characters of a string fill the cells from the cursor on, where the address counter runs through them. -/
theorem TakesText.sent {c : Cfg} {n : Bool} (l : List Byte) : ∀ {d : Disp} {a : BitVec 7}, TakesText d n →
    (l ≠ [] → d.AC = some a) → (∀ k, k < l.length → ddramValid c n (a + BitVec.ofNat 7 k) = true) →
    (∀ k, k + 1 < l.length → ddramNext c n (a + BitVec.ofNat 7 k) true = a + BitVec.ofNat 7 (k + 1)) →
    l.length ≤ 128 →
    TakesText (d.sent c (dataBytes l)) n ∧ (d.sent c (dataBytes l)).D = d.D ∧
      (d.sent c (dataBytes l)).shifted = d.shifted ∧
      Filled d.ddramCell (d.sent c (dataBytes l)).ddramCell a l := by
  induction l with
  | nil => exact fun h _ _ _ _ => ⟨h, rfl, rfl, .nil _ _⟩
  | cons b l ih =>
    intro d a h ha hv hn hl
    have hd := h.exec c b (ha (List.cons_ne_nil b l)) (by simpa using hv 0 (by simp))
    have hnext : l ≠ [] → ddramNext c n a true = a + BitVec.ofNat 7 1 := fun hl0 => by
      simpa using hn 0 (by simpa using List.length_pos_of_ne_nil hl0)
    obtain ⟨htakes, hon, hshift, hfill⟩ := ih (d := { d.putDdram a b with AC := some (ddramNext c n a true) })
      (a := a + BitVec.ofNat 7 1) ⟨h.sync, h.am, h.lines, h.id, h.noShift⟩ (fun hl0 => congrArg some (hnext hl0))
      (fun k hk => by rw [← add_ofNat_succ]; exact hv (k + 1) (by simpa using hk))
      (fun k hk => by rw [← add_ofNat_succ, ← add_ofNat_succ]; exact hn (k + 1) (by simpa using hk))
      (by simp at hl; omega)
    have hsent : d.sent c (dataBytes (b :: l)) =
        ({ d.putDdram a b with AC := some (ddramNext c n a true) } : Disp).sent c (dataBytes l) := by
      rw [← hd]; exact sent_cons_of_sync c h.sync true b _
    rw [hsent]
    exact ⟨htakes, hon, hshift, hfill.cons (ddramCell_putDdram d a b) (by simpa using hl)⟩

theorem highestBit_setDdramCmd (a : BitVec 7) : HighestBit (setDdramCmd a) 7 :=
  highestBit_of_range (by decide) ((by decide : ∀ a : BitVec 7, 2 ^ 7 ≤ (setDdramCmd a).toNat ∧
    (setDdramCmd a).toNat < 2 ^ 8) a)

theorem setDdramCmd_setWidth (a : BitVec 7) : (setDdramCmd a).setWidth 7 = a := by revert a; decide

theorem exec_setDdramCmd (c : Cfg) (d : Disp) (a : BitVec 7) :
    d.exec c false (setDdramCmd a) = { d with AC := some a, AM := .ddram } := by
  show d.execCmd c (setDdramCmd a) = _
  rw [execCmd_setDdram c d (highestBit_setDdramCmd a), setDdramCmd_setWidth]

/-- A column further on in the same row is an address further on (R250). -/
theorem ddramAddr_add (c : Cfg) (row : BitVec 2) {col : BitVec 6} {k : Nat} (h : col.toNat + k < 64) :
    ddramAddr c row (col + BitVec.ofNat 6 k) = ddramAddr c row col + BitVec.ofNat 7 k := by
  have hcol : (col + BitVec.ofNat 6 k).setWidth 7 = col.setWidth 7 + BitVec.ofNat 7 k := by
    apply BitVec.eq_of_toNat_eq
    simp only [BitVec.toNat_setWidth, BitVec.toNat_add, BitVec.toNat_ofNat]
    omega
  rw [ddramAddr, ddramAddr, hcol, BitVec.add_assoc]

theorem cols_le_forty {c : Cfg} (h : c.wf = true) : c.lcdCols ≤ 40 := by
  simp only [Cfg.wf, Bool.and_eq_true] at h
  obtain ⟨⟨⟨-, hgeom⟩, -⟩, -⟩ := h
  exact ((Cfg.cfgGeom_iff c).mp hgeom).2.2.2

theorem visible_of_readable {t : State} {fclk : Nat} {d : Disp} {row : BitVec 2} {col : BitVec 6}
    (hd : t.readable fclk = some d) (hshift : d.shifted = false) (hon : d.D = some true) (hrow : row.toNat < t.cfg.lcdRows)
    (hcol : col.toNat < t.cfg.lcdCols) : t.visible fclk row col = d.ddramCell (ddramAddr t.cfg row col) := by
  rw [State.visible, hd]
  exact if_pos ⟨hshift, hon, hrow, hcol⟩

/-- Settles O54: the position command sets the address counter, and the characters fill the row's cells from there. -/
theorem lcdstratShowsTheString : Obligations.LcdstratShowsTheString := by
  intro s row col m l n h hs hrow hr hS hA hl hfit hn hid hsh hon hshift hvalid hnext
  have hlen := List.length_pos_of_ne_nil hl
  have hcols := cols_le_forty h.1
  obtain ⟨t, ht, hframe, -, -, -, -, -, -, -, -, -, hdisp⟩ :=
    exec_lcdstrat_lines h hrow (by omega) hr hS hA (p := setDdramCmd (ddramAddr s.cfg row col)) rfl
  refine ⟨t, ht, fun fclk hf k hk => ?_⟩
  have hd := hdisp fun _ => hs
  rw [sent_cons_of_sync _ hs.1, exec_setDdramCmd] at hd
  obtain ⟨htakes, htD, htshift, hfilled, -⟩ := TakesText.sent (c := s.cfg) (n := n) l
    (d := { s.disp with AC := some (ddramAddr s.cfg row col), AM := .ddram }) ⟨hs.1, rfl, hn, hid, hsh⟩ (fun _ => rfl)
    hvalid hnext (by omega)
  rw [← hframe.cfg] at hf hrow hfit hcols
  have hread : t.readable fclk = some t.disp := readable_of_sync (by rw [hd]; exact htakes.sync) hf
  have hk' : col.toNat + k < 64 := by omega
  have hcol : (col + BitVec.ofNat 6 k).toNat < t.cfg.lcdCols := by
    rw [BitVec.toNat_add, BitVec.toNat_ofNat]
    omega
  rw [visible_of_readable hread (by rw [hd]; exact htshift.trans hshift) (by rw [hd]; exact htD.trans hon) hrow hcol,
    ddramAddr_add _ _ hk', hd, hframe.cfg]
  exact hfilled k hk

/-! ### Glyphs -/

/-- A tracked display that takes data bytes in CGRAM, moving on. -/
structure TakesRows (d : Disp) : Prop where
  sync : d.sync = .sync
  am : d.AM = .cgram
  id : d.ID = some true

/-- One row byte (R290). -/
theorem TakesRows.exec {d : Disp} (h : TakesRows d) (c : Cfg) (b : Byte) {p : BitVec 6} (hp : d.AC = some (p.setWidth 7)) :
    d.exec c true b = { d.putCgram (p.setWidth 7) b with AC := some ((p + 1#6).setWidth 7) } := by
  have hnext : nextCgram (p.setWidth 7) d.ID = some ((p + 1#6).setWidth 7) := by
    rw [h.id]
    exact (by decide : ∀ p : BitVec 6, nextCgram (p.setWidth 7) (some true) = some ((p + 1#6).setWidth 7)) p
  show d.execData c b = _
  rw [execData_cgram c b hp h.am, hnext]

/-- Row bytes fill the cells from the cursor on, modulo 64. -/
theorem TakesRows.sent {c : Cfg} (l : List Byte) : ∀ {d : Disp} {p : BitVec 6}, TakesRows d → d.AC = some (p.setWidth 7) →
    l.length ≤ 64 →
    TakesRows (d.sent c (dataBytes l)) ∧
      (d.sent c (dataBytes l)).AC = some ((p + BitVec.ofNat 6 l.length).setWidth 7) ∧
      (d.sent c (dataBytes l)).DDRAM = d.DDRAM ∧ Filled d.cgramCell (d.sent c (dataBytes l)).cgramCell p l := by
  induction l with
  | nil => exact fun h hp _ => ⟨h, by simpa [dataBytes, Disp.sent] using hp, rfl, .nil _ _⟩
  | cons b l ih =>
    intro d p h hp hl
    obtain ⟨htakes, hac, hdd, hfill⟩ := ih (d := { d.putCgram (p.setWidth 7) b with AC := some ((p + 1#6).setWidth 7) })
      (p := p + BitVec.ofNat 6 1) ⟨h.sync, h.am, h.id⟩ rfl (by simp at hl; omega)
    have hsent : d.sent c (dataBytes (b :: l)) =
        ({ d.putCgram (p.setWidth 7) b with AC := some ((p + 1#6).setWidth 7) } : Disp).sent c (dataBytes l) := by
      rw [← h.exec c b hp]; exact sent_cons_of_sync c h.sync true b _
    rw [hsent]
    exact ⟨htakes, by rw [hac, List.length_cons, add_ofNat_succ p l.length], hdd,
      hfill.cons (cgramCell_putCgram d p b) (by simpa using hl)⟩

theorem exec_setCgramCmd (c : Cfg) (d : Disp) (g : BitVec 3) :
    d.exec c false (setCgramCmd g) = { d with AC := some ((g ++ 0#3).setWidth 7), AM := .cgram } := by
  have haddr : ((setCgramCmd g).setWidth 6).setWidth 7 = (g ++ 0#3).setWidth 7 := by revert g; decide
  have hbit : HighestBit (setCgramCmd g) 6 := highestBit_of_range (by decide)
    ((by decide : ∀ g : BitVec 3, 2 ^ 6 ≤ (setCgramCmd g).toNat ∧ (setCgramCmd g).toNat < 2 ^ 7) g)
  show d.execCmd c (setCgramCmd g) = _
  rw [execCmd_setCgram c d hbit, haddr]

/-- A slot command and eight row bytes fill the slot, and leave the cursor after it. -/
theorem sent_glyph (c : Cfg) {d e : Disp} (hs : d.sync = .sync) (hid : d.ID = some true) (g : BitVec 3) {l : List Byte}
    (hl : l.length = 8) (he : e = d.sent c ((false, setCgramCmd g) :: dataBytes l)) :
    TakesRows e ∧ e.AC = some ((g ++ 0#3 + BitVec.ofNat 6 8).setWidth 7) ∧ e.DDRAM = d.DDRAM ∧
      Filled d.cgramCell e.cgramCell (g ++ 0#3) l := by
  rw [sent_cons_of_sync _ hs, exec_setCgramCmd] at he
  have h := TakesRows.sent (c := c) l (d := { d with AC := some ((g ++ 0#3).setWidth 7), AM := .cgram }) (p := g ++ 0#3)
    ⟨hs, rfl, hid⟩ rfl (by omega)
  rw [← he, hl] at h
  exact h

theorem bytesAt_length (s : State) (a : MemAddr) (n : Nat) : (bytesAt s a n).length = n := by
  induction n generalizing a with
  | zero => rfl
  | succ n ih => rw [bytesAt, List.length_cons, ih]

theorem bytesAt_getElem (s : State) (a : MemAddr) (n k : Nat) (hk : k < (bytesAt s a n).length) :
    (bytesAt s a n)[k] = memByte s (a + BitVec.ofNat 16 k) := by
  induction n generalizing a k with
  | zero => exact absurd hk (Nat.not_lt_zero k)
  | succ n ih =>
    cases k with
    | zero => simp [bytesAt]
    | succ k =>
      rw [add_ofNat_succ]
      exact ih (a + 1#16) k (by simpa [bytesAt] using hk)

/-- Row `k` of a slot is the `k`-th cell after the slot's first (R293). -/
theorem slot_row (g k : BitVec 3) : g ++ k = g ++ 0#3 + BitVec.ofNat 6 k.toNat := by revert g k; decide

/-- The rows of the other slots are other cells. -/
theorem slot_row_ne {g h : BitVec 3} (hne : h ≠ g) (k : BitVec 3) {j : Nat} (hj : j < 8) :
    h ++ k ≠ g ++ 0#3 + BitVec.ofNat 6 j := by
  have hall : ∀ (g h k : BitVec 3) (j : Fin 8), h ≠ g → h ++ k ≠ g ++ 0#3 + BitVec.ofNat 6 j.val := by decide
  exact hall g h k ⟨j, hj⟩ hne

/-- The cell after a slot's last is the first of the next slot, modulo 8 (R382). -/
theorem slot_next (g : BitVec 3) : g ++ 0#3 + BitVec.ofNat 6 8 = (g + 1#3) ++ 0#3 := by revert g; decide

theorem sent_bus8 (c : Cfg) (l : List (Bool × Byte)) (d : Disp) : (d.sent c l).bus8 = d.bus8 := by
  induction l generalizing d with
  | nil => rfl
  | cons p l ih =>
    rw [Disp.sent, ih]
    split
    · exact Disp.exec_bus8 ..
    · rfl

theorem sent_pend (c : Cfg) (l : List (Bool × Byte)) (d : Disp) : (d.sent c l).pend = d.pend := by
  induction l generalizing d with
  | nil => rfl
  | cons p l ih =>
    rw [Disp.sent, ih]
    split
    · exact Disp.exec_pend ..
    · rfl

/-- A display in step that is still tracked after some bytes is in step still. -/
theorem InStep.sent {s t : State} (h : InStep s) {l : List (Bool × Byte)} (hc : t.cfg = s.cfg) (hi : t.istep = s.istep)
    (hd : t.disp = (s.disp.sent s.cfg l).eLow) (hs : t.disp.sync = .sync) : InStep t := by
  obtain ⟨-, hbus, hpend, hsteps⟩ := h
  refine ⟨hs, ?_, ?_, (inSyncSteps_congr hi).trans hsteps⟩
  · rw [hd, hc, ← hbus]; exact sent_bus8 ..
  · rw [hd, ← hpend]; exact sent_pend ..

theorem Lines.wireKnown {t : State} {e r : Bool} {v : Byte} (h : Lines t e r v) : WireKnown t := by
  obtain ⟨x, hx, -⟩ := h.ctrl
  obtain ⟨y, hy, -⟩ := h.dataCell
  exact ⟨⟨x, hx⟩, y, hy⟩

theorem Lines.wireSeen {t : State} {e r : Bool} {v : Byte} (h : Lines t e r v) : WireSeen t := by
  obtain ⟨x, hx, hxe, -⟩ := h.ctrl
  intro z hz
  cases hx.symm.trans hz
  rw [h.prevE, hxe]

/-- Known lines leave the block ready for the next LCD operation. -/
theorem Lines.ready {t : State} {e r : Bool} {v : Byte} (h : Lines t e r v) (hwf : t.cfg.wf = true)
    (hinit : t.initDone = true) : LcdReady t := ⟨hwf, hinit, h.wireKnown, h.wireSeen⟩

/-- Settles O55: the slot command and eight row bytes fill the slot's cells and leave the cursor on the next slot's first
cell, where the character goes. -/
theorem glyphHazard : Obligations.GlyphHazard := by
  intro s g m b h hs hid hr hA
  obtain ⟨t, ht, hframe, -, hamode, -, -, -, hlines, -, -, -, hdisp⟩ := exec_lcdglyph_lines h g m hr hA
  have hready : LcdReady t := hlines.ready (hframe.cfg ▸ h.1) (hframe.initDone.trans h.2.1)
  obtain ⟨u, hu, hsent, -, huamode⟩ := exec_lcdchar_sent hready b
  refine ⟨t, u, ht, hu, hamode, huamode.trans hamode, hsent.frame.fault.trans hframe.fault, fun fclk hf => ?_⟩
  have hd := hdisp fun _ => hs
  obtain ⟨d, hsd⟩ : ∃ d, d = s.disp.sent s.cfg ((false, setCgramCmd g) :: dataBytes (bytesAt s m 8)) := ⟨_, rfl⟩
  obtain ⟨htakes, hac, hdd, hrows, hothers⟩ := sent_glyph s.cfg hs.1 hid g (bytesAt_length s m 8) hsd
  rw [slot_next] at hac
  have hinStep : t.disp.sync = .sync → InStep t := hs.sent hframe.cfg hframe.istep hd
  rw [← hsd] at hd
  have hsync : t.disp.sync = .sync := by rw [hd]; exact htakes.sync
  have hud := hsent.disp_inStep hready.1 (hinStep hsync)
  have htakes' : TakesRows t.disp.eLow := by rw [hd]; exact ⟨htakes.sync, htakes.am, htakes.id⟩
  have hac' : t.disp.eLow.AC = some (((g + 1#3) ++ 0#3).setWidth 7) := by rw [hd]; exact hac
  rw [htakes'.exec t.cfg b hac'] at hud
  have husync : u.disp.sync = .sync := by rw [hud]; exact htakes'.sync
  rw [← hframe.cfg] at hf
  have hf' : dispTimingOk u.cfg fclk = true := by rw [hsent.frame.cfg]; exact hf
  refine ⟨t.disp, u.disp, readable_of_sync hsync hf, readable_of_sync husync hf', fun k => ?rows, fun k j hk => ?others,
    ?am, ?next, ?ddram⟩
  case rows =>
    have hk : k.toNat < (bytesAt s m 8).length := by rw [bytesAt_length]; exact k.isLt
    have hrow := hrows k.toNat hk
    rw [← slot_row, bytesAt_getElem] at hrow
    have hk16 : BitVec.ofNat 16 k.toNat = k.setWidth 16 := BitVec.ofNat_toNat 16 k
    rw [hd, ← hk16]
    exact hrow
  case others =>
    rw [hd]
    refine hothers (k ++ j) fun i hi => ?_
    rw [bytesAt_length] at hi
    exact slot_row_ne hk j hi
  case am => rw [hd]; exact htakes.am
  case next =>
    rw [hud]
    exact (cgramCell_putCgram t.disp.eLow ((g + 1#3) ++ 0#3) b _).trans (if_pos rfl)
  case ddram =>
    rw [hud]
    show t.disp.DDRAM = _
    rw [hd]
    exact hdd

end Sys2Proof.Machine
end

section
/-! LCD operations that do not complete: a string without a terminator (44_lcd_ops.md R244, R340), and an LCD register of
unknown content (20_memory.md R66). O48, O49. -/

namespace Sys2Proof.Machine

/-! ### A string without a terminator -/

/-- Between two turns of a string loop that started from `s`, with no answer missing and no race. -/
structure Sending (s t : State) : Prop where
  cfg : t.cfg = s.cfg
  seq : t.seq = .run
  todo : t.todo = []
  loop : t.loop = .str
  mem : t.mem = s.mem
  host : t.host = s.host
  fault : t.fault = s.fault
  raced : t.raced = []
  acks : Ack.never ∉ t.acks
  lines : ∃ e r v, Lines t e r v

theorem memRead_todo {s t : State} {b : Byte} (h : memRead s = some (b, t)) : t.todo = s.todo := by
  obtain ⟨-, ⟨-, rfl⟩ | ⟨n, r, -, rfl⟩⟩ := memRead_cases h <;> exact State.log_todo ..

theorem turnSeq_of_str {s : State} {b : Byte} (hl : s.loop = .str) (hb : b ≠ 0x00#8) :
    turnSeq s b = xferSeq s.cfg true b s.cfg.tCmd ++ [.reg .spInc] := by
  simp only [turnSeq, hl, hb, if_false]

section
variable {s : State} (hwf : s.cfg.wf = true) (hmem : ∀ a, memByte s a ≠ 0x00#8)
include hwf hmem

/-- A turn reads a character and sends it. -/
theorem Sending.turn {t : State} (h : Sending s t) :
    ∃ b u v, memRead t = some (b, u) ∧ perform (turnSeq u b) u = .next v ∧ Sending s v := by
  obtain ⟨e, r, w, hlines⟩ := h.lines
  have hA : Answered t 1 := fun hn => h.acks (List.mem_of_mem_take hn)
  obtain ⟨u, hu, hframe, -, -, -, huloop, huraced, huio, hudisp, huacks, -⟩ := memRead_quiet h.raced hA
  have hcfg : u.cfg = s.cfg := hframe.cfg.trans h.cfg
  have hb : memByte t t.sp ≠ 0x00#8 := by rw [memByte_congr h.mem]; exact hmem _
  obtain ⟨x, hx, hxfer, hxlines, -⟩ := xfer_step (s := u) (hcfg.symm ▸ LcdCfg.of_wf hwf)
    (hlines.congr hframe.cfg huio hudisp) true (memByte t t.sp) u.cfg.tCmd
  refine ⟨_, u, (RegWrite.spInc).apply x, hu, ?_, ?_⟩
  · rw [turnSeq_of_str (huloop.trans h.loop) hb, perform_seq hx]; rfl
  · exact
      { cfg := hxfer.cfg.trans hcfg
        seq := hxfer.seq.trans ((memRead_seq hu).trans h.seq)
        todo := hxfer.todo.trans ((memRead_todo hu).trans h.todo)
        loop := hxfer.loop.trans (huloop.trans h.loop)
        mem := hxfer.mem.trans (hframe.mem.trans h.mem)
        host := hxfer.host.trans (hframe.host.trans h.host)
        fault := hxfer.fault.trans (hframe.fault.trans h.fault)
        raced := hxfer.raced.trans huraced
        acks := by
          show Ack.never ∉ x.acks
          rw [hxfer.acks, huacks]
          exact fun hn => h.acks (List.mem_of_mem_drop hn)
        lines := ⟨_, _, _, hxlines.congr rfl rfl rfl⟩ }

/-- No number of turns ends the loop. -/
theorem Sending.runLoop (k : Nat) {t : State} (h : Sending s t) :
    ∃ u, Machine.runLoop k t = .next u ∧ Sending s u := by
  have hloop : ∀ {t}, Sending s t → t.loop ≠ .done := fun h => by rw [h.loop]; decide
  induction k generalizing t with
  | zero =>
    refine ⟨t, ?_, h⟩
    rw [Machine.runLoop, h.loop]
  | succ k ih =>
    obtain ⟨b, u, v, hu, hv, hs⟩ := h.turn hwf hmem
    obtain ⟨x, hx, hs'⟩ := ih hs
    refine ⟨x, ?_, hs'⟩
    rw [runLoop_step (hloop h), hu]
    show andThen (perform (turnSeq u b) u) _ = _
    rw [hv, andThen_next, hx]

theorem Sending.step (hhost : s.host = []) {t : State} (h : Sending s t) :
    ∃ u, Machine.step t = .next u ∧ Sending s u := by
  have hs : Sending s (t.setTodo []) :=
    { h with
      todo := rfl
      lines := by obtain ⟨e, r, v, hlines⟩ := h.lines; exact ⟨e, r, v, hlines.congr rfl rfl rfl⟩ }
  obtain ⟨u, hu, hs'⟩ := hs.runLoop hwf hmem lap
  refine ⟨u, ?_, hs'⟩
  have hleft : leftToRun t = [] := by rw [leftToRun, h.todo]
  rw [Machine.step, h.cfg, if_pos hwf, hostStep, h.host, hhost]
  simp only [runOn, h.seq, hleft, complete, perform_nil, andThen_next, hu]

end

/-- The string loop of LCDSTR or of LCDSTRAT, before its first turn. -/
theorem sending_of_decode {s : State} (h : LcdReady s) {i : Instr} {m : MemAddr} (hr : s.raced = [])
    (hA : Ack.never ∉ s.acks)
    (hi : i = .lcdstr m ∨ ∃ row col, i = .lcdstrat row col m ∧ row.toNat < s.cfg.lcdRows ∧ col.toNat < s.cfg.lcdCols) :
    ∃ u, exec i s = runLoop lap u ∧ Sending s u := by
  obtain rfl | ⟨row, col, rfl, hrow, hcol⟩ := hi
  · obtain ⟨e, r, v, hlines⟩ := h.2.2.1.lines h.2.2.2
    exact ⟨(RegWrite.sp m).apply (s.decoded .str), exec_of_perform (planOf_lcdstr h.2.1 m) rfl,
      ⟨rfl, rfl, rfl, rfl, rfl, rfl, rfl, hr, hA, e, r, v, hlines.congr rfl rfl rfl⟩⟩
  · obtain ⟨u, hu, hsent, hxfer, -⟩ :=
      h.perform_xferSeq .str false (setDdramCmd (ddramAddr s.cfg row col)) s.cfg.tCmd
    have hframe := hsent.frame
    have hlines := hsent.lines
    exact ⟨u.pointed .ddram m u.gi, exec_of_perform (planOf_lcdstrat h.2.1 ⟨hrow, hcol⟩ m) (perform_seq hu),
      ⟨hframe.cfg, hxfer.seq, hxfer.todo, hxfer.loop, hframe.mem, hframe.host, hframe.fault, hxfer.raced.trans hr,
        hsent.acks.symm ▸ hA, _, _, _, hlines.congr rfl rfl rfl⟩⟩

/-- Settles O49: the first step reaches the loop, and every later step takes 65536 turns of it. -/
theorem unterminatedStringNeverEnds : Obligations.UnterminatedStringNeverEnds := by
  intro s i m h hhost hseq hr hA hdec hi hmem n
  have hbusy : ∀ {t : State}, t.seq ≠ .idle → t.busy = true := fun {t} ht => (busy_eq_true_iff t).mpr ht
  cases n with
  | zero => exact ⟨s, rfl, hbusy (by rw [hseq]; decide), rfl⟩
  | succ n =>
    obtain ⟨u, hu, hsu⟩ := sending_of_decode h hr hA hi
    obtain ⟨v, hv, hsv⟩ := hsu.runLoop h.1 hmem lap
    have hfirst : step s = .next v := by
      rw [step, if_pos h.1, hostStep, hhost]
      simp only [runOn, hseq]
      rw [runWord_of_op hdec, hu, hv]
    obtain ⟨t, ht, hst⟩ := core_run_of_step (fun t ht => ht.step h.1 hmem hhost) n hsv
    exact ⟨t, (core_run_succ n hfirst).trans ht, hbusy (by rw [hst.seq]; decide), hst.fault⟩

/-! ### Registers of unknown content -/

/-- Under the configuration, the list of micro-steps is refused at its first read of an unknown register, where it reads
these registers first and in this order. -/
def RefusesFirst (c : Cfg) (l : List Micro) (as : List IoAddr) : Prop :=
  ∀ (s : State) (a : IoAddr), s.cfg = c → firstUnknown s as = some a → perform l s = .refused (.ioReadUnknown a)

theorem firstUnknown_congr {s t : State} (h : ∀ a, (ioCell t a).isNone = (ioCell s a).isNone) (as : List IoAddr) :
    firstUnknown t as = firstUnknown s as := by
  rw [firstUnknown, firstUnknown, funext h]

theorem firstUnknown_of_io {s t : State} (hc : t.cfg = s.cfg) (hi : t.io = s.io) (as : List IoAddr) :
    firstUnknown t as = firstUnknown s as :=
  firstUnknown_congr (fun a => by unfold ioCell; rw [hc, hi]) as

/-- A read-modify-write that completes makes no register known that was not. -/
theorem firstUnknown_rmwDone (o : Origin) {a : IoAddr} (f : Upd) {x : Byte} {s : State} (hx : ioCell s a = some x)
    (as : List IoAddr) : firstUnknown (rmwDone o a f x s) as = firstUnknown s as := by
  refine firstUnknown_congr (fun b => ?_) as
  by_cases hb : b = a
  · rw [hb, ioCell_rmwDone_same, hx]; rfl
  · rw [ioCell_rmwDone_other _ _ _ _ _ _ hb]

namespace RefusesFirst

variable {c : Cfg} {l : List Micro} {as : List IoAddr}

theorem none (c : Cfg) (l : List Micro) : RefusesFirst c l [] := fun _ _ _ h => nomatch h

theorem rmw (h : RefusesFirst c l as) (o : Origin) {a : IoAddr} (ha : c.ioVolatile.contains a = false) (f : Upd) :
    RefusesFirst c (rmw o a f ++ l) (a :: as) := by
  rintro s b rfl hb
  cases hx : ioCell s a with
  | none =>
    obtain rfl : a = b := by simpa [firstUnknown, hx] using hb
    rw [perform_append, perform_rmw_unknown o a f s ha hx, andThen_refused]
  | some x =>
    have hrest : firstUnknown s as = some b := by simpa [firstUnknown, hx] using hb
    rw [perform_seq (perform_rmw o a f x s ha hx)]
    exact h _ b (rmwDone_cfg ..) ((firstUnknown_rmwDone o f hx as).trans hrest)

theorem reg (h : RefusesFirst c l as) (r : RegWrite) : RefusesFirst c (.reg r :: l) as := by
  intro s a hc ha
  have hcfg : (r.apply s).cfg = s.cfg := RegWrite.apply_cfg s r
  have hio : (r.apply s).io = s.io := by cases r <;> rfl
  exact h _ a (hcfg.trans hc) ((firstUnknown_of_io hcfg hio as).trans ha)

theorem wait (h : RefusesFirst c l as) (n : Nat) : RefusesFirst c (.wait n :: l) as :=
  fun s a hc ha => h ((s.setWcnt 0).logCycles .wait n) a hc ((firstUnknown_of_io rfl rfl as).trans ha)

theorem beatSeq (h : LcdCfg c) (l : List Micro) : RefusesFirst c (beatSeq c ++ l) [c.dataReg] := by
  rw [Machine.beatSeq, List.append_assoc, List.append_assoc, List.append_assoc]
  exact ((none c _).rmw .seq h.data .data).reg (.tsm .data)

/-- A transfer reads the control register and then the data register (R208). -/
theorem start (h : LcdCfg c) (rs : Bool) (b : Byte) (l : List Micro) :
    RefusesFirst c (xferStart c rs b ++ (Machine.beatSeq c ++ l)) [c.ctrlReg, c.dataReg] := by
  rw [xferStart, List.append_assoc]
  exact (((beatSeq h l).rmw .seq h.ctrl (rsUpd c rs)).reg (.tsm .rs)).reg (.latch rs b)

theorem xferSeq (h : LcdCfg c) (rs : Bool) (b : Byte) (n : Nat) (l : List Micro) :
    RefusesFirst c (xferSeq c rs b n ++ l) [c.ctrlReg, c.dataReg] := by
  simp only [Machine.xferSeq, List.append_assoc]
  exact start h rs b _

theorem syncSeq (h : LcdCfg c) (l : List Micro) : RefusesFirst c (syncSeq c ++ l) [c.ctrlReg, c.dataReg] := by
  rw [Machine.syncSeq]
  split
  · rw [List.append_assoc, List.append_assoc]; exact xferSeq h false 0x30#8 c.tInitA _
  · simp only [xferNibSeq, List.append_assoc]; exact start h false _ _

/-- LCDINIT reads the direction registers, clears RS and E, and then transfers (R241). -/
theorem initSeq (h : LcdCfg c) :
    RefusesFirst c (initSeq c) [c.ctrlDirReg, c.dataDirReg, c.ctrlReg, c.dataReg] := by
  have hpins : RefusesFirst c (Machine.initSeq c) [c.ctrlDirReg, c.dataDirReg, c.ctrlReg, c.ctrlReg, c.dataReg] := by
    rw [Machine.initSeq, initPins]
    simp only [List.append_assoc]
    exact (((((((syncSeq h _).reg (.istep 3#4)).wait c.tPwrup).reg (.istep 2#4)).rmw .seq h.ctrl _).rmw .seq
      h.dataDir _).rmw .seq h.ctrlDir _).reg (.istep 1#4)
  intro s a hc ha
  refine hpins s a hc ?_
  simp only [firstUnknown, List.find?_cons] at ha ⊢
  cases hx : (ioCell s c.ctrlReg).isNone <;> simpa only [hx] using ha

end RefusesFirst

/-- An operation whose plan is refused first at a register of unknown content is refused there. -/
theorem exec_of_refusesFirst {i : Instr} {s : State} {todo : List Micro} {l : Loop} {as : List IoAddr}
    (hi : planOf i s = .go todo l) (h : RefusesFirst s.cfg todo as) {a : IoAddr} (ha : firstUnknown s as = some a) :
    exec i s = .refused (.ioReadUnknown a) := by
  rw [exec_eq, hi]
  exact runPlan_go_refused _ _ _ _ (h (s.decoded l) a rfl ((firstUnknown_of_io rfl rfl as).trans ha))

/-- The string loop is refused at the transfer of its first character. -/
theorem exec_lcdstr_refused {s : State} (hc : LcdCfg s.cfg) (hinit : s.initDone = true) {m : MemAddr}
    (hb : memByte s m ≠ 0x00#8) (hr : s.raced = []) (hA : Answered s 1) {a : IoAddr}
    (ha : firstUnknown s [s.cfg.ctrlReg, s.cfg.dataReg] = some a) :
    exec (.lcdstr m) s = .refused (.ioReadUnknown a) := by
  obtain ⟨u, hu, hframe, -, -, -, hloop, -, hio, -⟩ :=
    memRead_quiet (s := (RegWrite.sp m).apply (s.decoded .str)) hr (hA.congr rfl)
  have hcfg : u.cfg = s.cfg := hframe.cfg
  have hfirst : firstUnknown u [s.cfg.ctrlReg, s.cfg.dataReg] = some a := (firstUnknown_of_io hcfg hio _).trans ha
  have hturn : perform (turnSeq u (memByte s m)) u = .refused (.ioReadUnknown a) := by
    rw [turnSeq_of_str hloop hb, hcfg]
    exact RefusesFirst.xferSeq hc true _ _ _ u a hcfg hfirst
  rw [exec_of_perform (planOf_lcdstr hinit m) rfl]
  show runLoop (65535 + 1) _ = _
  rw [runLoop_step (by show Loop.str ≠ .done; decide), hu]
  show andThen (perform (turnSeq u (memByte s m)) u) _ = _
  rw [hturn, andThen_refused]

theorem planOf_lcdclear {s : State} (h : s.initDone = true) :
    planOf .lcdclear s = .go (xferSeq s.cfg false 0x01#8 s.cfg.tClear ++ [.reg (.amode .ddram)]) .done := if_pos h

theorem planOf_lcdinit {s : State} (h : s.initDone = false) : planOf .lcdinit s = .go (initSeq s.cfg) .done :=
  if_neg (by simp [h])

/-- Settles O48: a transfer reads the control register first and then the data register, and LCDINIT reads the direction
registers before. -/
theorem unknownLcdRegisterIsRefused : Obligations.UnknownLcdRegisterIsRefused := by
  intro s a hwf
  have hc := LcdCfg.of_wf hwf
  refine ⟨fun hinit ha => ?transfers, fun hinit ha => ?init⟩
  case transfers =>
    have hx : ∀ rs b n l, RefusesFirst s.cfg (xferSeq s.cfg rs b n ++ l) [s.cfg.ctrlReg, s.cfg.dataReg] :=
      fun rs b n l => RefusesFirst.xferSeq hc rs b n l
    refine ⟨fun b => exec_of_refusesFirst (planOf_lcdcmd hinit b) (hx _ _ _ _) ha, fun b => ?char,
      exec_of_refusesFirst (planOf_lcdclear hinit) (hx _ _ _ _) ha,
      fun g m => exec_of_refusesFirst (planOf_lcdglyph hinit g m) (hx _ _ _ _) ha,
      fun row col m hrow hcol => exec_of_refusesFirst (planOf_lcdstrat hinit ⟨hrow, hcol⟩ m) (hx _ _ _ _) ha,
      fun m hb hr hA => exec_lcdstr_refused hc hinit hb hr hA ha⟩
    case char =>
      refine exec_of_refusesFirst (planOf_lcdchar hinit b) ?_ ha
      simpa using hx true b s.cfg.tCmd []
  case init => exact exec_of_refusesFirst (planOf_lcdinit hinit) (RefusesFirst.initSeq hc) ha

end Sys2Proof.Machine
end

section
/-! LCDINIT (44_lcd_ops.md R241): its pins, the synchronisation of the bus width, and its three commands. O39, O40. -/

namespace Sys2Proof.Machine

/-- What LCDINIT leaves alone, but for the I/O space. -/
structure InitFrame (s t : State) : Prop where
  cfg : t.cfg = s.cfg
  opr : t.opr = s.opr
  sp : t.sp = s.sp
  gi : t.gi = s.gi
  loop : t.loop = s.loop
  fault : t.fault = s.fault
  fcode : t.fcode = s.fcode
  fop : t.fop = s.fop
  result : t.result = s.result
  btn : t.btn = s.btn
  mem : t.mem = s.mem
  host : t.host = s.host
  acks : t.acks = s.acks
  draws : t.draws = s.draws

theorem InitFrame.trans {s t u : State} (h : InitFrame s t) (k : InitFrame t u) : InitFrame s u :=
  ⟨k.cfg.trans h.cfg, k.opr.trans h.opr, k.sp.trans h.sp, k.gi.trans h.gi, k.loop.trans h.loop, k.fault.trans h.fault,
    k.fcode.trans h.fcode, k.fop.trans h.fop, k.result.trans h.result, k.btn.trans h.btn, k.mem.trans h.mem,
    k.host.trans h.host, k.acks.trans h.acks, k.draws.trans h.draws⟩

theorem XferFrame.init {s t : State} (h : XferFrame s t) : InitFrame s t :=
  ⟨h.cfg, h.opr, h.sp, h.gi, h.loop, h.fault, h.fcode, h.fop, h.result, h.btn, h.mem, h.host, h.acks, h.draws⟩

/-! ### Steps 1 and 2: the pins and the power-up wait -/

/-- The register at `a` after `f`, and every other register as it was. -/
theorem ioCell_rmwDone (o : Origin) {a : IoAddr} (f : Upd) {x : Byte} {s : State} (hx : ioCell s a = some x) (b : IoAddr) :
    ioCell (rmwDone o a f x s) b = (ioCell s b).map fun y => if b = a then f.apply s y else y := by
  by_cases h : b = a
  · subst h; rw [ioCell_rmwDone_same, hx]; simp
  · rw [ioCell_rmwDone_other _ _ _ _ _ _ h]; simp [h]

/-- The bus record between two states accounts for every register. -/
def Accounts (s t : State) (l : List Event) : Prop :=
  t.trace = l ++ s.trace ∧ ∀ b v, ioCell s b = some v → ioCell t b = some (lastWritten b v l)

theorem Accounts.trans {s t u : State} {l m : List Event} (h : Accounts s t l) (k : Accounts t u m) :
    Accounts s u (m ++ l) :=
  ⟨by rw [k.1, h.1, List.append_assoc], fun b v hv => by rw [lastWritten_append]; exact k.2 b _ (h.2 b v hv)⟩

/-- One read-modify-write of a known register, as LCDINIT's first step makes it. -/
theorem init_rmw {s : State} {a : IoAddr} (ha : s.cfg.ioVolatile.contains a = false) (f : Upd)
    (hx : ∃ x, ioCell s a = some x) :
    ∃ t, perform (rmw .seq a f) s = .next t ∧ InitFrame s t ∧ t.istep = s.istep ∧ t.cycles = s.cycles + 2 ∧
      (∀ b, ioCell t b = (ioCell s b).map fun y => if b = a then f.apply s y else y) ∧ Fresh t ∧
      (a = s.cfg.ctrlReg → WireSeen t) ∧ ∃ l, l.length = 2 ∧ Accounts s t l := by
  obtain ⟨x, hx⟩ := hx
  refine ⟨_, perform_rmw .seq a f x s ha hx,
    ⟨rmwDone_cfg .., rmwDone_opr .., rmwDone_sp .., rmwDone_gi .., rmwDone_loop .., rmwDone_fault .., rmwDone_fcode ..,
      rmwDone_fop .., rmwDone_result .., rmwDone_btn .., rmwDone_mem .., rmwDone_host .., rmwDone_acks ..,
      rmwDone_draws ..⟩, rmwDone_istep .., rmwDone_cycles .., ioCell_rmwDone .seq f hx, Fresh.rmwDone .., ?_,
    [.ioWr a (f.apply s x), .ioRd a x], rfl, rmwDone_trace .., fun b v hv => rmwDone_cells .seq a f x s b hv⟩
  rintro rfl
  exact wireSeen_rmwDone .seq f x s

theorem outputsUpd_apply (c : Cfg) (m : Byte) (s : State) (x : Byte) : (outputsUpd c m).apply s x = madeOutput c m x := by
  unfold outputsUpd madeOutput
  cases c.dirOutputBit <;> rfl

/-- What the first step makes of a register: the direction writes, and RS and E cleared. -/
def afterPins (c : Cfg) (a : IoAddr) (x : Byte) : Byte :=
  if a = c.ctrlReg then afterDirections c a x &&& ~~~pinsC c else afterDirections c a x

theorem getLsbD_clr_pinsC (c : Cfg) (x : Byte) (k : Nat) :
    (x &&& ~~~pinsC c).getLsbD k = (x.getLsbD k && !(k == c.rsBit.toNat || k == c.eBit.toNat)) := by
  have hmask : (pinsC c).getLsbD k = (k == c.rsBit.toNat || k == c.eBit.toNat) := by
    rw [pinsC, rsMask, eMask, BitVec.getLsbD_or, getLsbD_bitMask_nat, getLsbD_bitMask_nat, BEq.comm (a := k),
      BEq.comm (a := k)]
  by_cases hk : k < 8
  · rw [BitVec.getLsbD_and, BitVec.getLsbD_not, hmask]; simp [hk]
  · rw [BitVec.getLsbD_of_ge _ _ (by omega), BitVec.getLsbD_of_ge x _ (by omega)]; rfl

/-- Off the LCD's pins, only the direction writes are seen. -/
theorem afterPins_bit {c : Cfg} {a : IoAddr} {k : Nat} (h : lcdPin c a k = false) (x : Byte) :
    (afterPins c a x).getLsbD k = (afterDirections c a x).getLsbD k := by
  unfold afterPins
  split
  · next ha =>
    subst ha
    have hk : (k == c.rsBit.toNat || k == c.eBit.toNat) = false := by
      simp only [lcdPin, beq_self_eq_true, Bool.true_and, Bool.or_eq_false_iff] at h
      exact Bool.or_eq_false_iff.mpr h.1
    rw [getLsbD_clr_pinsC, hk]
    simp
  · rfl

/-- The wire after LCDINIT's power-up wait. -/
theorem perform_initPins {s : State} (hwf : s.cfg.wf = true) (hw : WireKnown s)
    (hcd : ∃ x, ioCell s s.cfg.ctrlDirReg = some x) (hdd : ∃ x, ioCell s s.cfg.dataDirReg = some x) :
    ∃ t, perform (initPins s.cfg) s = .next t ∧ InitFrame s t ∧ (∃ v, Lines t false false v) ∧
      t.cycles = s.cycles + (6 + s.cfg.tPwrup) ∧
      (∀ b, ioCell t b = (ioCell s b).map (afterPins s.cfg b)) ∧
      ∃ l, l.length = 6 ∧ t.trace = .wait s.cfg.tPwrup :: (l ++ s.trace) ∧
        ∀ b v, ioCell s b = some v → ioCell t b = some (lastWritten b v l) := by
  have hc := LcdCfg.of_wf hwf
  obtain ⟨hctrl, hdata⟩ := hw
  have hknown : ∀ {t : State} {f : IoAddr → Byte → Byte} {a : IoAddr},
      (∀ b, ioCell t b = (ioCell s b).map (f b)) → (∃ x, ioCell s a = some x) → ∃ x, ioCell t a = some x := by
    rintro t f a ht ⟨x, hx⟩
    exact ⟨f a x, by rw [ht, hx]; rfl⟩
  obtain ⟨s1, h1, f1, -, c1, d1, -, -, l1, n1, a1⟩ :=
    init_rmw (s := (RegWrite.istep 1#4).apply s) hc.ctrlDir (outputsUpd s.cfg (pinsC s.cfg)) hcd
  have g1 : s1.cfg = s.cfg := f1.cfg
  obtain ⟨s2, h2, f2, -, c2, d2, -, -, l2, n2, a2⟩ := init_rmw (s := s1) (a := s.cfg.dataDirReg)
    (by rw [g1]; exact hc.dataDir) (outputsUpd s.cfg (dmask s.cfg)) (hknown d1 hdd)
  have e2 : ∀ b, ioCell s2 b = (ioCell s b).map (afterDirections s.cfg b) := fun b => by
    have e1 : ioCell s1 b = (ioCell s b).map _ := d1 b
    rw [d2, e1, Option.map_map]
    simp only [outputsUpd_apply]
    rfl
  obtain ⟨s3, h3, f3, -, c3, d3, q3, w3, l3, n3, a3⟩ := init_rmw (s := s2) (a := s.cfg.ctrlReg)
    (by rw [f2.cfg, g1]; exact hc.ctrl) (.clr (pinsC s.cfg)) (hknown e2 hctrl)
  have g3 : s3.cfg = s.cfg := (f3.cfg.trans f2.cfg).trans g1
  have e3 : ∀ b, ioCell s3 b = (ioCell s b).map (afterPins s.cfg b) := fun b => by
    rw [d3, e2, Option.map_map]
    rfl
  have hseen : WireSeen s3 := w3 (by rw [f2.cfg, g1])
  have hacc : Accounts s s3 (l3 ++ (l2 ++ l1)) :=
    Accounts.trans (Accounts.trans (s := s) (t := s1) a1 a2) a3
  have hq : Fresh ((RegWrite.istep 2#4).apply s3) := q3
  obtain ⟨x, hx⟩ := hctrl
  have hpins : ioCell s3 s3.cfg.ctrlReg = some (afterDirections s.cfg s.cfg.ctrlReg x &&& ~~~pinsC s.cfg) := by
    rw [g3, e3, hx, Option.map_some, afterPins, if_pos rfl]
  have hE : (afterDirections s.cfg s.cfg.ctrlReg x &&& ~~~pinsC s.cfg).getLsbD s3.cfg.eBit.toNat = false := by
    rw [g3, getLsbD_clr_pinsC]; simp
  have hR : (afterDirections s.cfg s.cfg.ctrlReg x &&& ~~~pinsC s.cfg).getLsbD s3.cfg.rsBit.toNat = false := by
    rw [g3, getLsbD_clr_pinsC]; simp
  obtain ⟨y, hy⟩ : ∃ y, ioCell s3 s3.cfg.dataReg = some y := by rw [g3]; exact hknown e3 hdata
  have hlines : Lines s3 false false _ := ⟨⟨_, hpins, hE, hR⟩, dataLines_eq hy, (hseen _ hpins).trans hE⟩
  have hpos : 1 ≤ s.cfg.tPwrup := by
    simp only [Cfg.wf, Bool.and_eq_true] at hwf
    exact ((Cfg.cfgTimes_iff _).mp hwf.2).1 _ (by simp)
  refine ⟨(((RegWrite.istep 2#4).apply s3).setWcnt 0).logCycles .wait s.cfg.tPwrup, ?run, ?frame,
    ⟨_, hlines.congr rfl rfl rfl⟩, ?cycles, e3, l3 ++ (l2 ++ l1), ?_, ?trace, hacc.2⟩
  case run =>
    rw [initPins]
    simp only [List.append_assoc, List.cons_append, List.nil_append]
    rw [perform_reg, perform_seq h1, perform_seq h2, perform_seq h3]
    rfl
  case frame =>
    exact ((((⟨rfl, rfl, rfl, rfl, rfl, rfl, rfl, rfl, rfl, rfl, rfl, rfl, rfl, rfl⟩ :
      InitFrame s ((RegWrite.istep 1#4).apply s)).trans f1).trans f2).trans f3).trans
        ⟨rfl, rfl, rfl, rfl, rfl, rfl, rfl, rfl, rfl, rfl, rfl, rfl, rfl, rfl⟩
  case cycles =>
    have hstart : ((RegWrite.istep 1#4).apply s).cycles = s.cycles := rfl
    have hend : (((RegWrite.istep 2#4).apply s3).setWcnt 0).cycles = s3.cycles := rfl
    rw [cycles_wait, hend, c3, c2, c1, hstart]
    omega
  case trace => rw [hq.trace_wait_of_pos hpos, ← hacc.1]; rfl
  · rw [List.length_append, List.length_append, n1, n2, n3]

/-! ### Step 3: the synchronisation -/

/-- What step 3 puts on the wire (R241, R248). -/
def syncStrobes (c : Cfg) : List (Bool × Byte) :=
  if c.lcdBus = 8 then [(false, 0x30#8), (false, 0x30#8), (false, 0x30#8)]
  else [(false, 0x03#8), (false, 0x03#8), (false, 0x03#8), (false, 0x02#8)]

/-- The cycles of step 3 (R390). -/
def syncCycles (c : Cfg) : Nat :=
  if c.lcdBus = 8 then x8Cycles c c.tInitA + x8Cycles c c.tInitB + x8Cycles c c.tCmd
  else xnCycles c c.tInitA + xnCycles c c.tInitB + xnCycles c c.tCmd + xnCycles c c.tCmd

theorem perform_syncSeq {s : State} (hc : LcdCfg s.cfg) {e r : Bool} {v : Byte} (L : Lines s e r v) :
    ∃ t w, perform (syncSeq s.cfg) s = .next t ∧ XferFrame s t ∧ Lines t false false w ∧
      t.cycles = s.cycles + syncCycles s.cfg ∧ Wired s t (syncStrobes s.cfg) := by
  unfold syncSeq syncStrobes syncCycles
  obtain h4 | h8 := hc.bus
  · obtain ⟨s1, v1, p1, f1, l1, c1, w1⟩ := nib_step hc h4 L 0x3#4 s.cfg.tInitA
    obtain ⟨s2, v2, p2, f2, l2, c2, w2⟩ := nib_step (f1.cfg ▸ hc) (f1.cfg ▸ h4) l1 0x3#4 s.cfg.tInitB
    have g2 := f1.trans f2
    obtain ⟨s3, v3, p3, f3, l3, c3, w3⟩ := nib_step (g2.cfg ▸ hc) (g2.cfg ▸ h4) l2 0x3#4 s.cfg.tCmd
    have g3 := g2.trans f3
    obtain ⟨s4, v4, p4, f4, l4, c4, w4⟩ := nib_step (g3.cfg ▸ hc) (g3.cfg ▸ h4) l3 0x2#4 s.cfg.tCmd
    rw [f1.cfg] at p2 c2
    rw [g2.cfg] at p3 c3
    rw [g3.cfg] at p4 c4
    simp only [h4, Nat.reduceEqDiff, if_false, List.append_assoc]
    refine ⟨s4, v4, ?_, g3.trans f4, l4, by rw [c4, c3, c2, c1]; omega, ((w1.trans w2).trans w3).trans w4⟩
    rw [perform_seq p1, perform_seq p2, perform_seq p3, p4]
  · obtain ⟨s1, p1, f1, l1, c1, -, -, -, -, -, -, w1, -⟩ := xfer_step hc L false 0x30#8 s.cfg.tInitA
    obtain ⟨s2, p2, f2, l2, c2, -, -, -, -, -, -, w2, -⟩ := xfer_step (f1.cfg ▸ hc) l1 false 0x30#8 s.cfg.tInitB
    have g2 := f1.trans f2
    obtain ⟨s3, p3, f3, l3, c3, -, -, -, -, -, -, w3, -⟩ := xfer_step (g2.cfg ▸ hc) l2 false 0x30#8 s.cfg.tCmd
    rw [f1.cfg] at p2 c2 w2
    rw [g2.cfg] at p3 c3 w3
    simp only [xCycles, h8, if_true] at c1 c2 c3
    simp only [byteStrobes, h8, if_true] at w1 w2 w3
    simp only [h8, if_true, List.append_assoc]
    refine ⟨s3, _, ?_, g2.trans f3, l3, by rw [c3, c2, c1]; omega, (w1.trans w2).trans w3⟩
    rw [perform_seq p1, perform_seq p2, p3]

/-! ### Steps 4 to 6: the commands -/

theorem InitFrame.istep (s : State) (n : BitVec 4) : InitFrame s ((RegWrite.istep n).apply s) :=
  ⟨rfl, rfl, rfl, rfl, rfl, rfl, rfl, rfl, rfl, rfl, rfl, rfl, rfl, rfl⟩

theorem InitFrame.displaySync (s : State) : InitFrame s ((RegWrite.displaySync).apply s) :=
  ⟨rfl, rfl, rfl, rfl, rfl, rfl, rfl, rfl, rfl, rfl, rfl, rfl, rfl, rfl⟩

/-- A step index after the synchronisation's leaves a display in step. -/
theorem Tracked.istep {s : State} (h : Tracked s) {n : BitVec 4} (hn : 4#4 ≤ n) :
    Tracked ((RegWrite.istep n).apply s) := by
  intro hs
  obtain ⟨hsync, hbus, hpend, -⟩ := h hs
  refine ⟨hsync, hbus, hpend, ?_⟩
  exact (by decide : ∀ n : BitVec 4, 4#4 ≤ n → (n == 1#4 || n == 2#4 || n == 3#4) = false) n hn

/-- From `s` to `t`, a part of LCDINIT's steps 4 to 6 whose last command is `b`. -/
structure Commanded (s t : State) (n : BitVec 4) (bs : List Byte) (b : Byte) : Prop where
  frame : InitFrame s t
  istep : t.istep = n
  pins : SamePins s t
  lines : Lines t false false (lastLines s.cfg b)
  latched : Latched t false b
  cycles : t.cycles = s.cycles + (bs.map fun x => xCycles s.cfg (settleTime s.cfg false x)).sum
  wired : Wired s t (bs.flatMap (byteStrobes s.cfg false))
  tracked : Tracked t
  disp : t.disp = (s.disp.sent s.cfg (bs.map fun x => (false, x))).eLow

theorem Commanded.trans {s t u : State} {n m : BitVec 4} {bs cs : List Byte} {b c : Byte} (h : Commanded s t n bs b)
    (k : Commanded t u m cs c) : Commanded s u m (bs ++ cs) c where
  frame := h.frame.trans k.frame
  istep := k.istep
  pins := h.pins.trans h.frame.cfg k.pins
  lines := h.frame.cfg ▸ k.lines
  latched := k.latched
  cycles := by rw [k.cycles, h.cycles, h.frame.cfg, List.map_append, List.sum_append, Nat.add_assoc]
  wired := by
    have hw := k.wired
    rw [h.frame.cfg] at hw
    rw [List.flatMap_append]
    exact h.wired.trans hw
  tracked := k.tracked
  disp := by rw [k.disp, h.disp, h.frame.cfg, List.map_append, Disp.sent_append, Disp.eLow_eq, Disp.eLow_eq,
    Disp.sent_withE, Disp.withE_withE, Disp.eLow_eq]

/-- One command of LCDINIT, with its step index. -/
theorem init_command {s : State} (hc : LcdCfg s.cfg) (n : BitVec 4) (b : Byte) {e r : Bool} {v : Byte}
    (L : Lines s e r v) (hT : Tracked ((RegWrite.istep n).apply s)) :
    ∃ t, perform ([.reg (.istep n)] ++ cmdSeq s.cfg b) s = .next t ∧ Commanded s t n [b] b := by
  obtain ⟨t, ht, hframe, hlines, hcycles, hdisp, hdl, hrsl, hbeat, -, hwcnt, hwired, -⟩ :=
    xfer_step (s := (RegWrite.istep n).apply s) hc (L.congr rfl rfl rfl) false b (settleTime s.cfg false b)
  have hd : t.disp = (s.disp.sent s.cfg [(false, b)]).eLow :=
    hdisp.trans (delivered_tracked (s := (RegWrite.istep n).apply s) hc hT false b)
  have hw : Wired s ((RegWrite.istep n).apply s) [] := .of_same rfl rfl rfl
  exact ⟨t, ht, (InitFrame.istep s n).trans hframe.init, hframe.istep, hframe.pins, hlines,
    ⟨hdl, hrsl, by rw [hbeat, hframe.cfg], hwcnt⟩, hcycles, by simpa using hw.trans hwired,
    hT.after false b hframe.cfg hframe.istep hd, hd⟩

/-- The three commands of LCDINIT, and the status bits at its end. -/
theorem perform_initCommands {s : State} (hc : LcdCfg s.cfg) {e r : Bool} {v : Byte} (L : Lines s e r v)
    (hT : Tracked ((RegWrite.istep 4#4).apply s)) :
    ∃ t, perform (initCommands s.cfg) s = .next { t with initDone := true, amode := .ddram } ∧
      Commanded s t 6#4 [s.cfg.initFuncset, s.cfg.initEntry, s.cfg.initDispctl] s.cfg.initDispctl := by
  obtain ⟨s1, p1, m1⟩ := init_command hc 4#4 s.cfg.initFuncset L hT
  obtain ⟨s2, p2, m2⟩ := init_command (m1.frame.cfg ▸ hc) 5#4 s.cfg.initEntry m1.lines (m1.tracked.istep (by decide))
  have m12 := m1.trans m2
  obtain ⟨s3, p3, m3⟩ := init_command (m12.frame.cfg ▸ hc) 6#4 s.cfg.initDispctl m12.lines (m12.tracked.istep (by decide))
  rw [m1.frame.cfg] at p2
  rw [m12.frame.cfg] at p3
  refine ⟨s3, ?_, m12.trans m3⟩
  have hsplit : initCommands s.cfg = ([.reg (.istep 4#4)] ++ cmdSeq s.cfg s.cfg.initFuncset) ++
      (([.reg (.istep 5#4)] ++ cmdSeq s.cfg s.cfg.initEntry) ++
        (([.reg (.istep 6#4)] ++ cmdSeq s.cfg s.cfg.initDispctl) ++ [.reg .initDone, .reg (.amode .ddram)])) := by
    simp only [initCommands, List.append_assoc]
  rw [hsplit, perform_seq p1, perform_seq p2, perform_seq p3]
  rfl

/-! ### The whole of LCDINIT -/

/-- The state at rest after LCDINIT, from the state `t` after its last command. -/
def State.initialised (t : State) : State := { t with initDone := true, amode := .ddram }.toIdle

/-- What LCDINIT does, in three parts: to `w` the pins and the power-up wait, to `y` the synchronisation, and then the
commands. -/
structure Initialises (s w y t : State) : Prop where
  pinsFrame : InitFrame (s.decoded .done) w
  pinsCells : ∀ b, ioCell w b = (ioCell s b).map (afterPins s.cfg b)
  pinsCycles : w.cycles = s.cycles + (7 + s.cfg.tPwrup)
  pinsTrace : ∃ l, l.length = 7 ∧ w.trace = .wait s.cfg.tPwrup :: (l ++ s.trace) ∧
    ∀ b v, ioCell s b = some v → ioCell w b = some (lastWritten b v l)
  syncFrame : XferFrame ((RegWrite.istep 3#4).apply w) y
  syncCycles : y.cycles = w.cycles + syncCycles s.cfg
  syncWired : Wired w y (syncStrobes s.cfg)
  low : y.disp.prevE = false
  commands : Commanded ((RegWrite.displaySync).apply y) t 6#4 [s.cfg.initFuncset, s.cfg.initEntry, s.cfg.initDispctl]
    s.cfg.initDispctl

theorem exec_lcdinit_initialises {s : State} (hwf : s.cfg.wf = true) (hinit : s.initDone = false) (hw : WireKnown s)
    (hcd : ∃ x, ioCell s s.cfg.ctrlDirReg = some x) (hdd : ∃ x, ioCell s s.cfg.dataDirReg = some x) :
    ∃ w y t, exec .lcdinit s = .next t.initialised ∧ Initialises s w y t := by
  have hc := LcdCfg.of_wf hwf
  obtain ⟨w, pw, fw, ⟨v, lw⟩, cw, dw, l, hl, tw, aw⟩ := perform_initPins (s := s.decoded .done) hwf hw hcd hdd
  change perform (initPins s.cfg) (s.decoded .done) = .next w at pw
  have gw : w.cfg = s.cfg := fw.cfg
  obtain ⟨y, v', py, fy, ly, cy, wy⟩ := perform_syncSeq (s := (RegWrite.istep 3#4).apply w)
    (by rw [RegWrite.apply_cfg, gw]; exact hc) (lw.congr rfl rfl rfl)
  rw [RegWrite.apply_cfg, gw] at py cy wy
  have gy : y.cfg = s.cfg := fy.cfg.trans gw
  have hT : Tracked ((RegWrite.istep 4#4).apply ((RegWrite.displaySync).apply y)) := fun _ => ⟨rfl, rfl, rfl, rfl⟩
  obtain ⟨t, pt, mt⟩ := perform_initCommands (s := (RegWrite.displaySync).apply y)
    (by rw [RegWrite.apply_cfg, gy]; exact hc)
    (e := false) (r := false) (v := v') ⟨ly.ctrl, ly.data, ly.prevE⟩ hT
  rw [RegWrite.apply_cfg, gy] at pt mt
  have hperform : perform (initSeq s.cfg) (s.decoded .done) = .next { t with initDone := true, amode := .ddram } := by
    rw [initSeq]
    simp only [List.append_assoc, List.cons_append, List.nil_append]
    rw [perform_seq pw, perform_reg, perform_seq py, perform_reg]
    exact pt
  have hloop : t.loop = .done := mt.frame.loop.trans (fy.loop.trans fw.loop)
  refine ⟨w, y, t, (exec_of_perform (planOf_lcdinit hinit) hperform).trans (runLoop_done _ _ hloop), ?_⟩
  exact
    { pinsFrame := fw
      pinsCells := dw
      pinsCycles := by rw [cw, State.decoded_cycles]; show s.cycles + 1 + (6 + s.cfg.tPwrup) = _; omega
      pinsTrace := ⟨l ++ [.decode], by simp [hl], by rw [tw, State.decoded_trace]; simp; rfl,
        fun b v hv => by rw [lastWritten_append]; exact aw b v hv⟩
      syncFrame := fy
      syncCycles := cy
      syncWired := by
        have h : Wired w ((RegWrite.istep 3#4).apply w) [] := .of_same rfl rfl rfl
        simpa using h.trans wy
      low := ly.prevE
      commands := mt }

theorem Initialises.cfg {s w y t : State} (h : Initialises s w y t) : w.cfg = s.cfg ∧ y.cfg = s.cfg ∧ t.cfg = s.cfg := by
  have hw : w.cfg = s.cfg := h.pinsFrame.cfg
  have hy : y.cfg = s.cfg := h.syncFrame.cfg.trans hw
  exact ⟨hw, hy, h.commands.frame.cfg.trans hy⟩

theorem Initialises.frame {s w y t : State} (h : Initialises s w y t) : InitFrame (s.decoded .done) t :=
  ((h.pinsFrame.trans (InitFrame.istep w 3#4)).trans h.syncFrame.init).trans
    ((InitFrame.displaySync y).trans h.commands.frame)

/-- Off the LCD's pins, only the direction writes of the first step are seen. -/
theorem Initialises.cells {s w y t : State} (h : Initialises s w y t) {a : IoAddr} {k : Nat}
    (hp : lcdPin s.cfg a k = false) :
    (ioCell t a).map (·.getLsbD k) = (ioCell s a).map fun x => (afterDirections s.cfg a x).getLsbD k := by
  obtain ⟨hw, hy, -⟩ := h.cfg
  have h1 : (ioCell t a).map (·.getLsbD k) = (ioCell y a).map (·.getLsbD k) := h.commands.pins a k (hy.symm ▸ hp)
  have h2 : (ioCell y a).map (·.getLsbD k) = (ioCell w a).map (·.getLsbD k) := h.syncFrame.pins a k (hw.symm ▸ hp)
  rw [h1, h2, h.pinsCells, Option.map_map]
  congr 1
  funext x
  exact afterPins_bit hp x

theorem Initialises.cycles {s w y t : State} (h : Initialises s w y t) : t.cycles = s.cycles + initCycles s.cfg := by
  obtain ⟨-, hy, -⟩ := h.cfg
  have hstart : ((RegWrite.displaySync).apply y).cycles = y.cycles := rfl
  have hsum := h.commands.cycles
  rw [hstart, RegWrite.apply_cfg, hy, h.syncCycles, h.pinsCycles] at hsum
  rw [hsum, initCycles, Machine.syncCycles]
  simp only [List.map_cons, List.map_nil, List.sum_cons, List.sum_nil]
  omega

/-- What the record after the power-up wait strobes. -/
theorem Initialises.wired {s w y t : State} (h : Initialises s w y t) : Wired w t (initStrobes s.cfg) := by
  obtain ⟨-, hy, -⟩ := h.cfg
  have hsync : Wired y ((RegWrite.displaySync).apply y) [] := .of_same rfl rfl rfl
  have hcommands := h.commands.wired
  rw [RegWrite.apply_cfg, hy] at hcommands
  have hall := (h.syncWired.trans hsync).trans hcommands
  simpa [initStrobes, syncStrobes] using hall

theorem Initialises.ofKnown {s t : State} (hwf : s.cfg.wf = true) (hinit : s.initDone = false)
    (ht : exec .lcdinit s = .next t) : ∃ w y u, t = u.initialised ∧ Initialises s w y u := by
  have hknown : firstUnknown s [s.cfg.ctrlDirReg, s.cfg.dataDirReg, s.cfg.ctrlReg, s.cfg.dataReg] = none := by
    by_contra hne
    obtain ⟨a, ha⟩ := Option.ne_none_iff_exists'.mp hne
    rw [exec_of_refusesFirst (planOf_lcdinit hinit) (RefusesFirst.initSeq (LcdCfg.of_wf hwf)) ha] at ht
    cases ht
  have hcell : ∀ a ∈ [s.cfg.ctrlDirReg, s.cfg.dataDirReg, s.cfg.ctrlReg, s.cfg.dataReg], ∃ x, ioCell s a = some x :=
    fun a ha => by simpa [Option.isNone_iff_eq_none, ← ne_eq, Option.ne_none_iff_exists'] using
      List.find?_eq_none.mp hknown a ha
  obtain ⟨w, y, u, hu, hi⟩ := exec_lcdinit_initialises hwf hinit ⟨hcell _ (by simp), hcell _ (by simp)⟩
    (hcell _ (by simp)) (hcell _ (by simp))
  rw [ht] at hu
  cases hu
  exact ⟨w, y, u, rfl, hi⟩

/-- Settles O39. -/
theorem lcdinitInitialises : Obligations.LcdinitInitialises := by
  intro s hwf hinit hw hcd hdd
  obtain ⟨w, y, t, ht, h⟩ := exec_lcdinit_initialises hwf hinit hw hcd hdd
  have hframe := h.frame
  have hcfg : t.initialised.cfg = s.cfg := hframe.cfg
  have hlines : Lines t.initialised false false (lastLines s.cfg s.cfg.initDispctl) := by
    have hl := h.commands.lines
    rw [RegWrite.apply_cfg, h.cfg.2.1] at hl
    exact hl.congr rfl rfl rfl
  obtain ⟨earlier, hlen, htrace, hcells⟩ := h.pinsTrace
  obtain ⟨-, later, hlater, hstrobes⟩ := h.wired
  refine ⟨t.initialised, ht, rfl, rfl, h.commands.istep, hlines.wireLevels, h.commands.latched, AtRest.toIdle _,
    ⟨hframe.cfg, hframe.mem, hframe.host, hframe.opr⟩, hframe.result, hframe.btn, hframe.fault, hframe.fcode, hframe.fop,
    hframe.sp, hframe.gi, hframe.acks, hframe.draws, fun a k hp => h.cells hp, hlines.dataLeft hwf hcfg, h.cycles,
    later, earlier, ?trace, hlen, fun x y hx hy => ?strobes⟩
  case trace => rw [← htrace]; exact hlater
  case strobes =>
    rw [h.cfg.1] at hstrobes
    exact (hstrobes _ _ (hcells _ x hx) (hcells _ y hy)).1

/-! ### The display after LCDINIT -/

theorem initBytesProper_iff (c : Cfg) :
    initBytesProper c = true ↔ (0x20#8 ≤ c.initFuncset ∧ c.initFuncset ≤ 0x3F#8) ∧
      (0x04#8 ≤ c.initEntry ∧ c.initEntry ≤ 0x07#8) ∧ (0x08#8 ≤ c.initDispctl ∧ c.initDispctl ≤ 0x0F#8) := by
  simp only [initBytesProper, Bool.and_eq_true, decide_eq_true_eq, and_assoc]

/-- What the three commands make of a display that has synchronised, when they are what they stand for and the function
set is of the bus's width (R288). -/
theorem sent_initCommands {c : Cfg} (hp : initBytesProper c = true) {d : Disp} (hs : d.sync = .sync)
    (hbus : c.initFuncset.getLsbD 4 = d.bus8) :
    d.sent c ([c.initFuncset, c.initEntry, c.initDispctl].map fun x => (false, x)) =
      { d with
        N := some (c.initFuncset.getLsbD 3), F := some (c.initFuncset.getLsbD 2)
        ID := some (c.initEntry.getLsbD 1), S := some (c.initEntry.getLsbD 0)
        D := some (c.initDispctl.getLsbD 2), C := some (c.initDispctl.getLsbD 1), B := some (c.initDispctl.getLsbD 0) } := by
  obtain ⟨hfs, hen, hdc⟩ := (initBytesProper_iff c).mp hp
  have h5 : HighestBit c.initFuncset 5 := highestBit_of_range (by decide) (by bv_omega)
  have h2 : HighestBit c.initEntry 2 := highestBit_of_range (by decide) (by bv_omega)
  have h3 : HighestBit c.initDispctl 3 := highestBit_of_range (by decide) (by bv_omega)
  simp only [List.map_cons, List.map_nil, Disp.sent, Disp.exec, hs, if_true, Bool.false_eq_true, if_false,
    execCmd_functionSet c _ h5, hbus, and_self, execCmd_entryMode c _ h2, execCmd_displayControl c _ h3]

/-- Settles O40: the synchronisation forgets what the display held, and the three commands set it up. -/
theorem lcdinitSynchronisesTheDisplay : Obligations.LcdinitSynchronisesTheDisplay := by
  intro s t hwf hinit hp hbus ht fclk hf
  obtain ⟨w, y, u, rfl, h⟩ := Initialises.ofKnown hwf hinit ht
  obtain ⟨-, hy, hu⟩ := h.cfg
  have hd := h.commands.disp
  rw [RegWrite.apply_cfg, hy] at hd
  have hbus' : s.cfg.initFuncset.getLsbD 4 = ((RegWrite.displaySync).apply y).disp.bus8 := by
    rw [hbus, ← hy]; rfl
  rw [sent_initCommands hp rfl hbus'] at hd
  have hd' : u.initialised.disp = _ := hd
  refine ⟨u.initialised.disp, readable_of_sync (by rw [hd']; rfl) (by rw [← hu] at hf; exact hf), ?_⟩
  rw [hd']
  refine ⟨rfl, ?_, rfl, rfl, rfl, rfl, rfl, rfl, rfl, rfl, rfl, rfl, rfl, Vector.get_replicate 128 none,
    Vector.get_replicate 64 none, rfl⟩
  rw [← hy]
  rfl

end Sys2Proof.Machine
end

section
/-! AMODE after every operation (44_lcd_ops.md R249), and the cycle counts of the operations that read no host memory
(70_reset_and_hazards.md R390). O50, O51. -/

namespace Sys2Proof.Machine

/-! ### Operations that DECODE does not fault -/

theorem initDone_of_plan {i : Instr} {s : State} (hi : 0xA#4 ≤ opcOf i) (h : ∀ c, planOf i s ≠ .fault c) :
    s.initDone = true := by
  cases hinit : s.initDone with
  | true => rfl
  | false => exact absurd (planOf_eq_notInit hi hinit) (h _)

theorem inside_of_plan {s : State} {row : BitVec 2} {col : BitVec 6} {m : MemAddr} (hinit : s.initDone = true)
    (h : ∀ c, planOf (.lcdstrat row col m) s ≠ .fault c) : row.toNat < s.cfg.lcdRows ∧ col.toNat < s.cfg.lcdCols := by
  by_contra hout
  exact h _ (planLcdstrat_eq_range m hinit (by omega))

theorem not_initDone_of_plan {s : State} (h : ∀ c, planOf .lcdinit s ≠ .fault c) : s.initDone = false := by
  cases hinit : s.initDone with
  | false => rfl
  | true => exact absurd (planLcdinit_eq_reinit hinit) (h _)

/-! ### AMODE -/

/-- The loops leave AMODE (R249). -/
theorem runLoop_amode {k : Nat} {s t : State} (h : runLoop k s = .next t) : t.amode = s.amode := by
  have hkept : Kept (fun m => ∃ c, m.OfTurn c) fun u => u.amode = s.amode := by
    refine kept_amode ?_ ?_ s.amode
    · rintro m ⟨c, h | h | h | h⟩ <;> cases h
    · rintro b ⟨c, h | h | h | h⟩ <;> cases h
  exact hkept.runLoop (fun u b _ m hm => ⟨u.cfg, turnSeq_ofTurn u b m hm⟩) rfl h

/-- A transfer leaves AMODE to what follows it. -/
theorem perform_xferSeq_amode {c : Cfg} {rs : Bool} {b : Byte} {n : Nat} {l : List Micro} {s t : State}
    (h : perform (xferSeq c rs b n ++ l) s = .next t) : ∃ u, u.amode = s.amode ∧ perform l u = .next t := by
  rw [perform_append, andThen_eq_next] at h
  obtain ⟨u, hu, ht⟩ := h
  exact ⟨u, (kept_amode (M := Micro.OfXfer c n) (fun _ => id) (fun _ => id) s.amode).perform (xferSeq_ofXfer c rs b n) rfl hu,
    ht⟩

/-- An operation that DECODE does not fault runs its micro-steps and then its loop (R121). -/
theorem exec_split {i : Instr} {s t : State} {todo : List Micro} {l : Loop} (hi : planOf i s = .go todo l)
    (h : exec i s = .next t) : ∃ u, perform todo (s.decoded l) = .next u ∧ runLoop lap u = .next t := by
  rw [exec_eq, hi] at h
  exact andThen_eq_next.mp h

/-- AMODE of an operation is what its micro-steps leave. -/
theorem exec_amode {i : Instr} {s t : State} {todo : List Micro} {l : Loop} (hi : planOf i s = .go todo l)
    (h : exec i s = .next t) : ∃ u, perform todo (s.decoded l) = .next u ∧ t.amode = u.amode := by
  obtain ⟨u, hu, ht⟩ := exec_split hi h
  exact ⟨u, hu, runLoop_amode ht⟩

/-- The operations that are no LCD operations leave AMODE. -/
theorem exec_amode_of_lt {i : Instr} {s t : State} (hi : opcOf i < 0x9#4) (hplan : ∀ c, planOf i s ≠ .fault c)
    (h : exec i s = .next t) : t.amode = s.amode := by
  have hkept : Kept (Micro.Planned s.cfg i) fun u => u.amode = s.amode :=
    kept_amode (fun _ hm => BitVec.not_le.mpr hi hm) (fun _ hm => BitVec.not_le.mpr hi hm) s.amode
  exact (hkept.exec_planned rfl h).resolve_left fun ⟨c, hc, _⟩ => hplan c hc

/-- LCDINIT's last write (R241). -/
theorem perform_initSeq_amode {c : Cfg} {s t : State} (h : perform (initSeq c) s = .next t) : t.amode = .ddram := by
  unfold initSeq initCommands at h
  rw [← List.append_assoc, perform_append, andThen_eq_next] at h
  obtain ⟨u, -, hu⟩ := h
  cases hu
  rfl

/-- Settles O50: AMODE is what the operation's register writes after its first transfer make it. -/
theorem amodeTracking : Obligations.AmodeTracking := by
  intro i s t h hplan _
  cases i with
  | lcdinit =>
    obtain ⟨u, hu, ht⟩ := exec_amode (planOf_lcdinit (not_initDone_of_plan hplan)) h
    exact ht.trans (perform_initSeq_amode hu)
  | lcdcmd b =>
    obtain ⟨u, hu, ht⟩ := exec_amode (planOf_lcdcmd (initDone_of_plan (of_decide_eq_true rfl) hplan) b) h
    obtain ⟨v, hv, hv'⟩ := perform_xferSeq_amode hu
    cases hv'
    exact ht.trans ((congrArg (trackAmode b) hv).trans (trackAmode_eq b s.amode))
  | lcdchar b =>
    obtain ⟨u, hu, ht⟩ := exec_amode (planOf_lcdchar (initDone_of_plan (of_decide_eq_true rfl) hplan) b) h
    obtain ⟨v, hv, hv'⟩ := perform_xferSeq_amode (l := []) (by rw [List.append_nil]; exact hu)
    cases hv'
    exact ht.trans hv
  | lcdstr m =>
    obtain ⟨u, hu, ht⟩ := exec_amode (planOf_lcdstr (initDone_of_plan (of_decide_eq_true rfl) hplan) m) h
    cases hu
    exact ht
  | lcdstrat row col m =>
    have hinit := initDone_of_plan (i := .lcdstrat row col m) (of_decide_eq_true rfl) hplan
    obtain ⟨u, hu, ht⟩ := exec_amode (planOf_lcdstrat hinit (inside_of_plan hinit hplan) m) h
    obtain ⟨v, -, hv'⟩ := perform_xferSeq_amode hu
    cases hv'
    exact ht
  | lcdclear =>
    obtain ⟨u, hu, ht⟩ := exec_amode (planOf_lcdclear (initDone_of_plan (of_decide_eq_true rfl) hplan)) h
    obtain ⟨v, -, hv'⟩ := perform_xferSeq_amode hu
    cases hv'
    exact ht
  | lcdglyph g m =>
    obtain ⟨u, hu, ht⟩ := exec_amode (planOf_lcdglyph (initDone_of_plan (of_decide_eq_true rfl) hplan) g m) h
    obtain ⟨v, -, hv'⟩ := perform_xferSeq_amode hu
    cases hv'
    exact ht
  | nop | setbit | resetbit | togglebit | setpindir | setpinstate | getpinstate | btninit | btnget =>
    exact exec_amode_of_lt (of_decide_eq_true rfl) hplan h

/-! ### Cycle counts -/

/-- One read-modify-write and its DECODE cycle. -/
theorem cycles_of_rmw {reg : IoAddr} {f : Upd} {s t : State} (h : runPlan (.go (rmw .gpio reg f) .done) s = .next t) :
    t.cycles = s.cycles + 3 := by
  obtain ⟨-, x, -, rfl⟩ := runPlan_rmw_inv h
  have hidle : (rmwDone .gpio reg f x (s.decoded .done)).toIdle.cycles = (rmwDone .gpio reg f x (s.decoded .done)).cycles := rfl
  exact hidle.trans (by rw [rmwDone_cycles, State.decoded_cycles])

/-- One sample and its DECODE cycle. -/
theorem cycles_of_sample {reg : IoAddr} {pin : BitIdx} {level : Bool} {s t : State}
    (h : runPlan (.go [.sample reg pin level] .done) s = .next t) : t.cycles = s.cycles + 2 := by
  obtain ⟨v, hv, hloop⟩ := andThen_eq_next.mp h
  rw [perform_cons, Micro.run, andThen_assoc, andThen_eq_next] at hv
  obtain ⟨⟨x, u⟩, hread, hv⟩ := hv
  cases hv
  have hu : u.cycles = s.cycles + 2 ∧ u.loop = .done := by
    have hstart : (s.decoded .done).cycles = s.cycles + 1 := State.decoded_cycles s .done
    obtain ⟨-, -, rfl⟩ | ⟨-, -, rfl⟩ := ioRead_cases hread
    · exact ⟨(cycles_log _ _).trans (congrArg (· + 1) hstart), rfl⟩
    · exact ⟨(cycles_log _ _).trans (congrArg (· + 1) hstart), rfl⟩
  have hidle := (runLoop_done lap (u.setResult (levelResult x pin level)) hu.2).symm.trans hloop
  cases hidle
  exact hu.1

/-- Where a transfer completes, the wire is known. -/
theorem wireKnown_of_perform {c : Cfg} (hc : LcdCfg c) {rs : Bool} {b : Byte} {n : Nat} {l : List Micro} {s t : State}
    (hs : s.cfg = c) (h : perform (xferSeq c rs b n ++ l) s = .next t) : WireKnown s := by
  subst hs
  have hknown : firstUnknown s [s.cfg.ctrlReg, s.cfg.dataReg] = none := by
    by_contra hne
    obtain ⟨a, ha⟩ := Option.ne_none_iff_exists'.mp hne
    rw [RefusesFirst.xferSeq hc rs b n l s a rfl ha] at h
    cases h
  have hcell : ∀ a ∈ [s.cfg.ctrlReg, s.cfg.dataReg], ∃ x, ioCell s a = some x := fun a ha => by
    simpa [← ne_eq, Option.ne_none_iff_exists'] using List.find?_eq_none.mp hknown a ha
  exact ⟨hcell _ (by simp), hcell _ (by simp)⟩

/-- The same state with a display that has seen E. -/
def State.withSeen (s : State) : State := s.withDisp { s.disp with prevE := (ioCell s s.cfg.ctrlReg).any (·.getLsbD s.cfg.eBit.toNat) }

theorem withSeen_wireSeen (s : State) : WireSeen s.withSeen := by
  intro x hx
  have hcell : ioCell s s.cfg.ctrlReg = some x := hx
  show (ioCell s s.cfg.ctrlReg).any _ = _
  rw [hcell]
  rfl

/-- The display has no part in the cycles of an operation. -/
theorem cycles_of_withDisp {i : Instr} {s t : State} (h : exec i s = .next t) (d : Disp) :
    ∃ u, exec i (s.withDisp d) = .next u ∧ u.cycles = t.cycles := by
  obtain ⟨d', hd⟩ := (blockNeverReadsTheDisplay i s d).1 t h
  exact ⟨_, hd, rfl⟩

theorem LcdReady.ofExec {i : Instr} {s t : State} {rs : Bool} {b : Byte} {n : Nat} {l : List Micro} {k : Loop}
    (hwf : s.cfg.wf = true) (hinit : s.initDone = true) (hi : planOf i s = .go (xferSeq s.cfg rs b n ++ l) k)
    (h : exec i s = .next t) : LcdReady s.withSeen := by
  obtain ⟨u, hu, -⟩ := exec_split hi h
  exact ⟨hwf, hinit, wireKnown_of_perform (s := s.decoded k) (LcdCfg.of_wf hwf) rfl hu, withSeen_wireSeen s⟩

theorem cycles_of_lcdcmd {s t : State} {b : Byte} (hwf : s.cfg.wf = true) (hinit : s.initDone = true)
    (h : exec (.lcdcmd b) s = .next t) : t.cycles = s.cycles + (1 + xCycles s.cfg (settleTime s.cfg false b)) := by
  obtain ⟨u, hu, hcycles⟩ := cycles_of_withDisp h s.withSeen.disp
  obtain ⟨v, hv, hsent, -⟩ := exec_lcdcmd_sent (LcdReady.ofExec hwf hinit (planOf_lcdcmd hinit b) h) b
  cases hu.symm.trans hv
  exact hcycles.symm.trans hsent.cycles

theorem cycles_of_lcdchar {s t : State} {b : Byte} (hwf : s.cfg.wf = true) (hinit : s.initDone = true)
    (h : exec (.lcdchar b) s = .next t) : t.cycles = s.cycles + (1 + xCycles s.cfg s.cfg.tCmd) := by
  obtain ⟨u, hu, hcycles⟩ := cycles_of_withDisp h s.withSeen.disp
  have hready := LcdReady.ofExec (l := []) hwf hinit ((planOf_lcdchar hinit b).trans (by rw [List.append_nil])) h
  obtain ⟨v, hv, hsent, -⟩ := exec_lcdchar_sent hready b
  cases hu.symm.trans hv
  exact hcycles.symm.trans hsent.cycles

theorem cycles_of_lcdinit {s t : State} (hwf : s.cfg.wf = true) (hinit : s.initDone = false)
    (h : exec .lcdinit s = .next t) : t.cycles = s.cycles + initCycles s.cfg := by
  obtain ⟨w, y, u, rfl, hi⟩ := Initialises.ofKnown hwf hinit h
  exact hi.cycles

/-- Settles O51, operation by operation: no micro-step, one read-modify-write, one sample, or transfers. -/
theorem cycleCounts : Obligations.CycleCounts := by
  intro i s t n hwf hplan hn h
  cases i with
  | nop =>
    cases hn
    cases h
    exact State.decoded_cycles s .done
  | setbit | resetbit | togglebit | setpindir | setpinstate => cases hn; exact cycles_of_rmw h
  | btninit slot d o i pin =>
    cases hn
    rw [exec_btninit] at h
    exact cycles_of_rmw (s := s.withBtn (s.boundTable slot (boundButton d o i pin))) h
  | getpinstate => cases hn; exact cycles_of_sample h
  | btnget slot =>
    cases hn
    have hbound : (s.btn.get slot.toFin).bound = true := by
      cases hb : (s.btn.get slot.toFin).bound with
      | true => rfl
      | false => exact absurd (planBtnget_eq_unbound hb) (hplan _)
    rw [exec_btnget_of_bound hbound] at h
    exact cycles_of_sample h
  | lcdinit => cases hn; exact cycles_of_lcdinit hwf (not_initDone_of_plan hplan) h
  | lcdcmd b => cases hn; exact cycles_of_lcdcmd hwf (initDone_of_plan (of_decide_eq_true rfl) hplan) h
  | lcdchar b => cases hn; exact cycles_of_lcdchar hwf (initDone_of_plan (of_decide_eq_true rfl) hplan) h
  | lcdclear =>
    cases hn
    rw [clearIsCommandOne] at h
    exact cycles_of_lcdcmd hwf (initDone_of_plan (i := .lcdclear) (of_decide_eq_true rfl) hplan) h
  | lcdstr | lcdstrat | lcdglyph => cases hn

end Sys2Proof.Machine
end

section
/-! STATUS.AMODE and the display's AM (44_lcd_ops.md R249, 47_display_model.md R288, R290, R295, R296): what keeps them in
agreement. O52. -/

namespace Sys2Proof.Machine

/-! ### AM of the display after a byte -/

/-- A command moves AM as AMODE follows it (R249, R288). -/
theorem execCmd_AM (c : Cfg) (b : Byte) (d : Disp) : (d.execCmd c b).AM = trackAmode b d.AM := by
  have hlow : ∀ b : Byte, b.getLsbD 7 = false → b.getLsbD 6 = false → (b == 0x01#8 || b == 0x02#8 || b == 0x03#8) =
      (!b.getLsbD 5 && !b.getLsbD 4 && !b.getLsbD 3 && !b.getLsbD 2 && (b.getLsbD 1 || b.getLsbD 0)) := by decide
  have hmove : ∀ r, (d.cursorMove c r).AM = d.AM := fun r => by
    unfold Disp.cursorMove
    split
    · rfl
    · split <;> next h => rw [h]
  unfold Disp.execCmd trackAmode
  cases h7 : b.getLsbD 7 with
  | true => rfl
  | false =>
    cases h6 : b.getLsbD 6 with
    | true => rfl
    | false =>
      simp only [hlow b h7 h6, Bool.false_eq_true, if_false]
      cases b.getLsbD 5 with
      | true => simp only [if_true, apply_ite Disp.AM, Disp.lose, ite_self]; simp
      | false =>
        cases b.getLsbD 4 with
        | true => simp [apply_ite Disp.AM, hmove]
        | false =>
          cases b.getLsbD 3 with
          | true => simp
          | false =>
            cases b.getLsbD 2 with
            | true => simp
            | false => cases b.getLsbD 1 <;> cases b.getLsbD 0 <;> rfl

/-- A data byte leaves AM (R290). -/
theorem execData_AM (c : Cfg) (b : Byte) (d : Disp) : (d.execData c b).AM = d.AM := by
  cases hac : d.AC with
  | none => rw [execData_unknown c b hac]; rfl
  | some a =>
    cases ham : d.AM with
    | cgram => rw [execData_cgram c b hac ham]; exact ham
    | ddram =>
      cases hn : d.N with
      | none => simp only [Disp.execData, hac, ham, hn]; exact ham
      | some n =>
        rw [execData_ddram c b hac ham hn]
        split <;> exact ham

/-- AMODE as it follows a transfer (R249). -/
def followed (rs : Bool) (b : Byte) (m : Amode) : Amode := if rs then m else trackAmode b m

theorem exec_AM (c : Cfg) (rs : Bool) (b : Byte) (d : Disp) : (d.exec c rs b).AM = followed rs b d.AM := by
  cases rs
  · exact execCmd_AM c b d
  · exact execData_AM c b d

/-- Bytes after which AMODE is as before leave AM. -/
theorem sent_AM (c : Cfg) {m : Amode} {l : List (Bool × Byte)} (h : ∀ p ∈ l, followed p.1 p.2 m = m) {d : Disp}
    (hd : d.AM = m) : (d.sent c l).AM = m := by
  induction l generalizing d with
  | nil => exact hd
  | cons p l ih =>
    obtain ⟨hp, hl⟩ := List.forall_mem_cons.mp h
    refine ih hl ?_
    split
    · rw [exec_AM, hd, hp]
    · exact hd

theorem trackAmode_ddram {b : Byte} (h : b.getLsbD 6 = false) : trackAmode b .ddram = .ddram := by
  simp only [trackAmode, h, Bool.false_eq_true, if_false, ite_self]

theorem trackAmode_setCgramCmd (g : BitVec 3) (m : Amode) : trackAmode (setCgramCmd g) m = .cgram := by
  have hbits : ∀ g : BitVec 3, (setCgramCmd g).getLsbD 7 = false ∧ (setCgramCmd g).getLsbD 6 = true := by decide
  obtain ⟨h7, h6⟩ := hbits g
  simp only [trackAmode, h7, h6, Bool.false_eq_true, if_false, if_true]

/-! ### The invariant -/

/-- Under the configuration `c`, the display has seen E and is in step while it is tracked, and, if `T` holds, AMODE and AM
agree while it is tracked. -/
structure InModes (c : Cfg) (T : Prop) (s : State) : Prop where
  cfg : s.cfg = c
  seen : WireSeen s
  tracked : Tracked s
  agree : T → s.disp.sync = .sync → s.amode = s.disp.AM

section
variable {c : Cfg} {T : Prop}

theorem InModes.congr {s t : State} (h : InModes c T s) (hr : SameRegs s t) : InModes c T t where
  cfg := hr.cfg.trans h.cfg
  seen := h.seen.congr hr.cfg hr.io (by rw [hr.disp])
  tracked := h.tracked.congr hr.cfg hr.istep hr.disp
  agree hT hs := by
    rw [hr.amode, hr.disp]
    exact h.agree hT (hr.disp ▸ hs)

/-- A transfer that completes leaves AMODE to be written as it follows the byte. -/
theorem InModes.xfer {s t : State} (h : InModes c T s) (hc : LcdCfg c) {rs : Bool} {b : Byte} {n : Nat} {l : List Micro}
    (ht : perform (xferSeq c rs b n ++ l) s = .next t) :
    ∃ u, perform l u = .next t ∧ u.amode = s.amode ∧ InModes c T { u with amode := followed rs b u.amode } := by
  obtain ⟨e, r, v, hlines⟩ := (wireKnown_of_perform hc h.cfg ht).lines h.seen
  have hcfg := h.cfg
  subst hcfg
  obtain ⟨u, hu, hframe, hulines, -, hdisp, -⟩ := xfer_step hc hlines rs b n
  rw [delivered_tracked hc h.tracked] at hdisp
  rw [perform_seq hu] at ht
  refine ⟨u, ht, hframe.amode, hframe.cfg, hulines.wireSeen,
    h.tracked.after (t := { u with amode := followed rs b u.amode }) rs b hframe.cfg hframe.istep hdisp, fun hT hs => ?_⟩
  have hd : u.disp = (if s.disp.sync = .sync then s.disp.exec s.cfg rs b else s.disp).eLow := hdisp
  by_cases hsync : s.disp.sync = .sync
  · rw [if_pos hsync] at hd
    show followed rs b u.amode = u.disp.AM
    rw [hframe.amode, h.agree hT hsync, hd]
    exact (exec_AM s.cfg rs b s.disp).symm
  · rw [if_neg hsync] at hd
    exact absurd (by rw [← hs]; exact (congrArg Disp.sync hd).symm) hsync

/-- A turn of a loop sends its byte as data, which leaves AMODE and AM. -/
theorem InModes.turn {s u v : State} (h : InModes c T s) (hc : LcdCfg c) {b : Byte} (hread : memRead s = some (b, u))
    (hturn : perform (turnSeq u b) u = .next v) : InModes c T v := by
  have hu : InModes c T u := h.congr (.memRead hread)
  have hcfg := hu.cfg
  subst hcfg
  unfold turnSeq at hturn
  split at hturn
  case h_1 => cases hturn; exact hu
  case h_2 =>
    split at hturn
    · cases hturn
      exact hu.congr ⟨rfl, rfl, rfl, rfl, rfl, rfl, rfl, rfl, rfl, rfl, rfl, rfl, rfl, rfl, rfl⟩
    · obtain ⟨w, hw, -, hmodes⟩ := hu.xfer hc hturn
      cases hw
      exact hmodes.congr ⟨rfl, rfl, rfl, rfl, rfl, rfl, rfl, rfl, rfl, rfl, rfl, rfl, rfl, rfl, rfl⟩
  case h_3 =>
    obtain ⟨w, hw, -, hmodes⟩ := hu.xfer hc hturn
    cases hw
    exact hmodes.congr ⟨rfl, rfl, rfl, rfl, rfl, rfl, rfl, rfl, rfl, rfl, rfl, rfl, rfl, rfl, rfl⟩

theorem InModes.runLoop {k : Nat} {s t : State} (h : InModes c T s) (hc : LcdCfg c) (ht : runLoop k s = .next t) :
    InModes c T t :=
  runLoop_keeps (InModes c T) (fun _ hu => hu.congr (.toIdle _)) (fun _ hu => hu.congr (.log _ _))
    (fun _ _ _ _ hu => hu.turn hc) k s t h ht

theorem InModes.decoded {s : State} (h : InModes c T s) (l : Loop) : InModes c T (s.decoded l) :=
  h.congr ((SameRegs.log s _).trans (.toRun _ l))

theorem InModes.raised {s : State} (h : InModes c T s) (f : FCode) : InModes c T (raiseFault f (s.log .decode)) :=
  ⟨h.cfg, h.seen.congr rfl rfl rfl, h.tracked.congr rfl rfl rfl, h.agree⟩

/-- A sample leaves the display and STATUS. -/
theorem InModes.sample {s t : State} (h : InModes c T s) {reg : IoAddr} {pin : BitIdx} {level : Bool}
    (ht : perform [.sample reg pin level] s = .next t) : InModes c T t := by
  rw [perform_cons, andThen_eq_next] at ht
  obtain ⟨u, hu, ht⟩ := ht
  cases ht
  obtain ⟨x, hx⟩ := run_effect hu
  refine InModes.congr (s := s.setResult (levelResult x pin level)) ?_ hx
  exact ⟨h.cfg, h.seen.congr rfl rfl rfl, h.tracked.congr rfl rfl rfl, h.agree⟩

/-! ### Operations -/

/-- Every operation but LCDINIT and the writers of one register keeps the modes in agreement. -/
theorem InModes.exec {i : Instr} {s t : State} (h : InModes s.cfg T s) (hwf : s.cfg.wf = true) (hi : i ≠ .lcdinit)
    (hreg : gpioTarget i = none) (hplan : ∀ f, planOf i s ≠ .fault f) (ht : exec i s = .next t) :
    InModes s.cfg T t := by
  have hc := LcdCfg.of_wf hwf
  have hend : ∀ {todo l}, planOf i s = .go todo l →
      (∀ u, perform todo (s.decoded l) = .next u → InModes s.cfg T u) → InModes s.cfg T t := fun hgo hu => by
    obtain ⟨u, hu', ht'⟩ := exec_split hgo ht
    exact (hu u hu').runLoop hc ht'
  cases i with
  | setbit | resetbit | togglebit | setpindir | setpinstate | btninit => cases hreg
  | lcdinit => exact absurd rfl hi
  | nop => exact hend (todo := []) (l := .done) rfl fun u hu => by cases hu; exact h.decoded .done
  | getpinstate reg bit => exact hend (todo := [.sample reg bit true]) (l := .done) rfl fun u hu => (h.decoded .done).sample hu
  | btnget slot =>
    cases hb : (s.btn.get slot.toFin).bound with
    | false => exact absurd (planBtnget_eq_unbound hb) (hplan _)
    | true => exact hend (if_pos hb) fun u hu => (h.decoded .done).sample hu
  | lcdcmd b =>
    refine hend (planOf_lcdcmd (initDone_of_plan (of_decide_eq_true rfl) hplan) b) fun u hu => ?_
    obtain ⟨v, hv, -, hmodes⟩ := (h.decoded .done).xfer hc hu
    cases hv
    exact hmodes
  | lcdchar b =>
    refine hend (planOf_lcdchar (initDone_of_plan (of_decide_eq_true rfl) hplan) b) fun u hu => ?_
    obtain ⟨v, hv, -, hmodes⟩ := (h.decoded .done).xfer hc (l := []) (by rw [List.append_nil]; exact hu)
    cases hv
    exact hmodes
  | lcdstr m =>
    refine hend (planOf_lcdstr (initDone_of_plan (of_decide_eq_true rfl) hplan) m) fun u hu => ?_
    cases hu
    exact (h.decoded .str).congr ⟨rfl, rfl, rfl, rfl, rfl, rfl, rfl, rfl, rfl, rfl, rfl, rfl, rfl, rfl, rfl⟩
  | lcdstrat row col m =>
    have hinit := initDone_of_plan (i := .lcdstrat row col m) (of_decide_eq_true rfl) hplan
    refine hend (planOf_lcdstrat hinit (inside_of_plan hinit hplan) m) fun u hu => ?_
    obtain ⟨v, hv, -, hmodes⟩ := (h.decoded .str).xfer hc hu
    have hm : followed false (setDdramCmd (ddramAddr s.cfg row col)) v.amode = .ddram :=
      if_pos (highestBit_setDdramCmd _).1
    rw [hm] at hmodes
    cases hv
    exact hmodes.congr ⟨rfl, rfl, rfl, rfl, rfl, rfl, rfl, rfl, rfl, rfl, rfl, rfl, rfl, rfl, rfl⟩
  | lcdclear =>
    refine hend (planOf_lcdclear (initDone_of_plan (i := .lcdclear) (of_decide_eq_true rfl) hplan)) fun u hu => ?_
    obtain ⟨v, hv, -, hmodes⟩ := (h.decoded .done).xfer hc hu
    cases hv
    exact hmodes
  | lcdglyph g m =>
    refine hend (planOf_lcdglyph (initDone_of_plan (of_decide_eq_true rfl) hplan) g m) fun u hu => ?_
    obtain ⟨v, hv, -, hmodes⟩ := (h.decoded .glyph).xfer hc hu
    have hm : followed false (setCgramCmd g) v.amode = .cgram := trackAmode_setCgramCmd g _
    rw [hm] at hmodes
    cases hv
    exact hmodes.congr ⟨rfl, rfl, rfl, rfl, rfl, rfl, rfl, rfl, rfl, rfl, rfl, rfl, rfl, rfl, rfl⟩

end

/-- LCDINIT leaves a display in step, and both modes at DDRAM, if its bytes are the commands they stand for. -/
theorem exec_lcdinit_modes {s t : State} (hwf : s.cfg.wf = true) (hinit : s.initDone = false)
    (hp : initBytesProper s.cfg = true) (ht : exec .lcdinit s = .next t) : Tracked t ∧ t.amode = t.disp.AM := by
  obtain ⟨w, y, u, rfl, h⟩ := Initialises.ofKnown hwf hinit ht
  refine ⟨h.commands.tracked.congr (t := u.initialised) rfl rfl rfl, ?_⟩
  obtain ⟨hfs, hen, hdc⟩ := (initBytesProper_iff s.cfg).mp hp
  have hbit : ∀ b : Byte, b ≤ 0x3F#8 → followed false b .ddram = .ddram := fun b hb =>
    trackAmode_ddram ((by decide : ∀ b : Byte, b ≤ 0x3F#8 → b.getLsbD 6 = false) b hb)
  have ham : u.disp.AM = .ddram := by
    rw [h.commands.disp]
    refine sent_AM _ (d := ((RegWrite.displaySync).apply y).disp) (fun p hb => ?_) rfl
    simp only [List.map_cons, List.map_nil, List.mem_cons, List.not_mem_nil, or_false] at hb
    obtain rfl | rfl | rfl := hb
    · exact hbit _ hfs.2
    · exact hbit _ (by bv_omega)
    · exact hbit _ (by bv_omega)
  exact ham.symm

/-- The operations that write one register complete only where it is known. -/
theorem known_of_gpioTarget {i : Instr} {reg : IoAddr} {s t : State} (hi : gpioTarget i = some reg)
    (ht : exec i s = .next t) : s.cfg.ioVolatile.contains reg = false ∧ ∃ x, ioCell s reg = some x := by
  have hrmw : ∀ {f}, runPlan (.go (rmw .gpio reg f) .done) s = .next t →
      s.cfg.ioVolatile.contains reg = false ∧ ∃ x, ioCell s reg = some x := fun h => by
    obtain ⟨hv, x, hx, -⟩ := runPlan_rmw_inv h
    exact ⟨hv, x, hx⟩
  cases i with
  | setbit r b | resetbit r b | togglebit r b | setpindir r b v | setpinstate r b v => cases hi; exact hrmw ht
  | btninit k d o n p =>
    cases hi
    rw [exec_btninit] at ht
    obtain ⟨hv, hx, -⟩ := exec_setpindir_inv ht
    exact ⟨hv, hx⟩
  | _ => cases hi

/-- A GPIO or button write leaves the display in step, or loses it, and moves neither mode (R296). -/
theorem exec_gpio_modes {i : Instr} {reg : IoAddr} {s t : State} (hi : gpioTarget i = some reg) (hw : WireSeen s)
    (hT : Tracked s) (ht : exec i s = .next t) :
    Tracked t ∧ (t.disp.sync = .sync → s.disp.sync = .sync ∧ t.disp.AM = s.disp.AM) ∧ t.amode = s.amode ∧ t.cfg = s.cfg := by
  obtain ⟨hv, x, hx⟩ := known_of_gpioTarget hi ht
  obtain ⟨y, hy⟩ := exists_rewritesUpToButtons hi hv hx
  obtain ⟨u, hu, ⟨⟨hcfg, -⟩, ⟨-, -, hamode, -⟩, ⟨-, -, -, -, -, -, histep⟩, -⟩, hother, hctrl⟩ := hy.seen
  cases ht.symm.trans hu
  by_cases hreg : reg = s.cfg.ctrlReg
  case neg =>
    have hd := hother hreg
    exact ⟨hT.congr hcfg histep hd, fun hs => ⟨hd ▸ hs, by rw [hd]⟩, hamode, hcfg⟩
  case pos =>
    obtain ⟨-, hseen⟩ := hctrl hreg hw
    split at hseen
    · have hlost : t.disp.sync ≠ .sync := by rw [hseen.1]; decide
      exact ⟨fun hs => absurd hs hlost, fun hs => absurd hs hlost, hamode, hcfg⟩
    · refine ⟨fun hs => ?_, fun hs => ?_, hamode, hcfg⟩
      · obtain ⟨hsync, hbus, hpend, hsteps⟩ := hT (by rw [hseen] at hs; exact hs)
        exact ⟨hs, by rw [hseen, hcfg]; exact hbus, by rw [hseen]; exact hpend, (inSyncSteps_congr histep).trans hsteps⟩
      · rw [hseen] at hs ⊢
        exact ⟨hs, rfl⟩

theorem modesAgree_iff (fclk : Nat) (s : State) :
    ModesAgree fclk s ↔ (dispTimingOk s.cfg fclk = true → s.disp.sync = .sync → s.amode = s.disp.AM) := by
  constructor
  · exact fun h hf hs => h s.disp (readable_of_sync hs hf)
  · intro h d hd
    simp only [State.readable, State.displayReadable, Option.ite_none_right_eq_some, Bool.and_eq_true, decide_eq_true_eq,
      Option.some.injEq] at hd
    obtain ⟨⟨hs, hf⟩, rfl⟩ := hd
    exact h hf hs

/-- Settles O52. -/
theorem modesStayInAgreement : Obligations.ModesStayInAgreement := by
  intro i s t hwf hp _ hw hT ht _
  simp only [modesAgree_iff]
  have hstart : ∀ {T : Prop}, (T → s.disp.sync = .sync → s.amode = s.disp.AM) → InModes s.cfg T s := fun h => ⟨rfl, hw, hT, h⟩
  have hkept : (∀ {T : Prop}, InModes s.cfg T s → InModes s.cfg T t) → Tracked t ∧ ∀ fclk,
      (dispTimingOk s.cfg fclk = true → s.disp.sync = .sync → s.amode = s.disp.AM) →
        dispTimingOk t.cfg fclk = true → t.disp.sync = .sync → t.amode = t.disp.AM := fun h => by
    refine ⟨(h (hstart (T := False) nofun)).tracked, fun fclk hs hf => ?_⟩
    have hm := h (hstart hs)
    exact hm.agree (hm.cfg ▸ hf)
  obtain ⟨f, hf, rfl⟩ | ⟨todo, l, -, hgo, -⟩ := exec_cases ht
  case inl => exact hkept fun h => h.raised f
  have hplan : ∀ f, planOf i s ≠ .fault f := fun f hf => by rw [hf] at hgo; cases hgo
  cases hreg : gpioTarget i with
  | some reg =>
    obtain ⟨htracked, hsync, hamode, hcfg⟩ := exec_gpio_modes hreg hw hT ht
    refine ⟨htracked, fun fclk h hf hs => ?_⟩
    obtain ⟨hs', ham⟩ := hsync hs
    rw [hamode, ham]
    exact h (hcfg ▸ hf) hs'
  | none =>
    by_cases hi : i = .lcdinit
    · subst hi
      obtain ⟨htracked, hagree⟩ := exec_lcdinit_modes hwf (not_initDone_of_plan hplan) (hp rfl) ht
      exact ⟨htracked, fun _ _ _ _ => hagree⟩
    · exact hkept fun h => h.exec hwf hi hreg hplan ht

end Sys2Proof.Machine
end
